-- ==== Sys2Proof/Word.lean ====
section
/-! DEFINITION. The widths of the core's values (00_scope.md R10: registers and command words of 32 bits, register-held
vectors of 64 bits, buffer-memory accesses of one byte). -/

namespace Sys2Proof

/-- One byte of buffer memory. -/
abbrev Byte := BitVec 8

/-- A register or a command word. -/
abbrev Word := BitVec 32

/-- A register pair: a vector, codeword, source block or syndrome (`VEC_W` = 64). -/
abbrev DWord := BitVec 64

end Sys2Proof
end

