-- ==== Sys2Proof/Syntax.lean ====
section
/-! DEFINITION. The 32 commands of 30_encoding.md R133, one constructor per row of the opcode table. Only the three
CMDA commands carry an operand, their 24-bit `ARG` (R132); every other operand is a register of the core. -/

namespace Sys2Proof

/-- A command. The rule that gives its meaning stands beside each constructor. -/
inductive Instr where
  | nop                          -- R150
  | softReset                    -- R151
  | ceReset                      -- R185
  | ceEncode                     -- R186
  | ceFlush                      -- R187
  | ceCalcsize (arg : BitVec 24) -- R188
  | vdReset                      -- R223
  | vdDecode                     -- R224
  | vdFlush                      -- R225
  | vdCalcsize (arg : BitVec 24) -- R226
  | mxZero                       -- R251
  | mxCopy                       -- R252
  | mxSetbit                     -- R253
  | mxGetbit                     -- R254
  | mxEqual                      -- R255
  | mxIszero                     -- R256
  | mxMulvec                     -- R257
  | mxMulmat                     -- R258
  | mxTranspose                  -- R259
  | bcEncode                     -- R283
  | bcDecode                     -- R284
  | crcPreset (arg : BitVec 24)  -- R301
  | crcInit                      -- R302
  | crcUpdate                    -- R303
  | crcFinal                     -- R304
  | buParity                     -- R160
  | buPopcount                   -- R161
  | buHamdist                    -- R162
  | buRev8                       -- R163
  | buRev32                      -- R164
  | mgInit                       -- R172
  | mgNext                       -- R173
  deriving DecidableEq, Repr

end Sys2Proof
end

