-- ==== Sys2Proof/WellFormed.lean ====
section
/-! DEFINITION. Which commands have a legal word. The one operand with illegal values is `CRC_PRESET`'s `ARG`
(30_encoding.md R132, R135: above 5 is illegal). -/

namespace Sys2Proof

/-- The command's word is legal (30_encoding.md R135). -/
def Instr.wellFormed : Instr → Bool
  | .nop | .softReset => true
  | .ceReset | .ceEncode | .ceFlush | .ceCalcsize _ => true
  | .vdReset | .vdDecode | .vdFlush | .vdCalcsize _ => true
  | .mxZero | .mxCopy | .mxSetbit | .mxGetbit | .mxEqual | .mxIszero | .mxMulvec | .mxMulmat | .mxTranspose => true
  | .bcEncode | .bcDecode => true
  | .crcPreset arg => decide (arg.toNat ≤ 5)
  | .crcInit | .crcUpdate | .crcFinal => true
  | .buParity | .buPopcount | .buHamdist | .buRev8 | .buRev32 => true
  | .mgInit | .mgNext => true

end Sys2Proof
end

