-- ==== Sys2Proof/Decode.lean ====
section
/-! DEFINITION. From a command word to a command (30_encoding.md R130 to R137), total on every word, and back. -/

namespace Sys2Proof

/-- Why a command word is no command. Each of the three raises `BAD_CMD`. -/
inductive DecodeReject where
  /-- The opcode is reserved (R134). -/
  | reservedOpcode
  /-- `ARG` is not 0 in a CMD-format command (R135). -/
  | nonzeroArg
  /-- `CRC_PRESET` with `ARG` above 5 (R135). -/
  | presetArg
  deriving DecidableEq, Repr

/-- `OP`, bits 7:0 of a command word (R130). -/
def opOf (w : Word) : Byte := w.extractLsb' 0 8

/-- `ARG`, bits 31:8 of a command word (R130). -/
def argOf (w : Word) : BitVec 24 := w.extractLsb' 8 24

/-- The opcode map of R133. A CMDA command keeps its argument; a CMD command drops it (`decode` has checked it is 0). -/
def instrOfOpcode (op : Byte) (arg : BitVec 24) : Option Instr :=
  if op = 0x00#8 then some .nop
  else if op = 0x01#8 then some .softReset
  else if op = 0x10#8 then some .ceReset
  else if op = 0x11#8 then some .ceEncode
  else if op = 0x12#8 then some .ceFlush
  else if op = 0x13#8 then some (.ceCalcsize arg)
  else if op = 0x20#8 then some .vdReset
  else if op = 0x21#8 then some .vdDecode
  else if op = 0x22#8 then some .vdFlush
  else if op = 0x23#8 then some (.vdCalcsize arg)
  else if op = 0x30#8 then some .mxZero
  else if op = 0x31#8 then some .mxCopy
  else if op = 0x32#8 then some .mxSetbit
  else if op = 0x33#8 then some .mxGetbit
  else if op = 0x34#8 then some .mxEqual
  else if op = 0x35#8 then some .mxIszero
  else if op = 0x36#8 then some .mxMulvec
  else if op = 0x37#8 then some .mxMulmat
  else if op = 0x38#8 then some .mxTranspose
  else if op = 0x40#8 then some .bcEncode
  else if op = 0x41#8 then some .bcDecode
  else if op = 0x50#8 then some (.crcPreset arg)
  else if op = 0x51#8 then some .crcInit
  else if op = 0x52#8 then some .crcUpdate
  else if op = 0x53#8 then some .crcFinal
  else if op = 0x60#8 then some .buParity
  else if op = 0x61#8 then some .buPopcount
  else if op = 0x62#8 then some .buHamdist
  else if op = 0x63#8 then some .buRev8
  else if op = 0x64#8 then some .buRev32
  else if op = 0x70#8 then some .mgInit
  else if op = 0x71#8 then some .mgNext
  else none

/-- The CMDA format of R130: the three commands that take an argument (R132). -/
def Instr.takesArg : Instr → Bool
  | .ceCalcsize _ | .vdCalcsize _ | .crcPreset _ => true
  | .nop | .softReset | .ceReset | .ceEncode | .ceFlush | .vdReset | .vdDecode | .vdFlush => false
  | .mxZero | .mxCopy | .mxSetbit | .mxGetbit | .mxEqual | .mxIszero | .mxMulvec | .mxMulmat | .mxTranspose => false
  | .bcEncode | .bcDecode | .crcInit | .crcUpdate | .crcFinal => false
  | .buParity | .buPopcount | .buHamdist | .buRev8 | .buRev32 | .mgInit | .mgNext => false

/-- The decoding of `Execute` (R137): opcode first, then the format, then the preset's range (R135). DEDUCED (log 16):
the range of `CRC_PRESET` is checked here, by name, and again by its meaning (47_crc.md R301). -/
def decode (w : Word) : Except DecodeReject Instr :=
  match instrOfOpcode (opOf w) (argOf w) with
  | none => .error .reservedOpcode
  | some i =>
    if i.takesArg = false ∧ argOf w ≠ 0#24 then .error .nonzeroArg
    else if i.wellFormed = false then .error .presetArg
    else .ok i

/-- The opcode of a command (R133). -/
def Instr.opcode : Instr → Byte
  | .nop => 0x00#8
  | .softReset => 0x01#8
  | .ceReset => 0x10#8
  | .ceEncode => 0x11#8
  | .ceFlush => 0x12#8
  | .ceCalcsize _ => 0x13#8
  | .vdReset => 0x20#8
  | .vdDecode => 0x21#8
  | .vdFlush => 0x22#8
  | .vdCalcsize _ => 0x23#8
  | .mxZero => 0x30#8
  | .mxCopy => 0x31#8
  | .mxSetbit => 0x32#8
  | .mxGetbit => 0x33#8
  | .mxEqual => 0x34#8
  | .mxIszero => 0x35#8
  | .mxMulvec => 0x36#8
  | .mxMulmat => 0x37#8
  | .mxTranspose => 0x38#8
  | .bcEncode => 0x40#8
  | .bcDecode => 0x41#8
  | .crcPreset _ => 0x50#8
  | .crcInit => 0x51#8
  | .crcUpdate => 0x52#8
  | .crcFinal => 0x53#8
  | .buParity => 0x60#8
  | .buPopcount => 0x61#8
  | .buHamdist => 0x62#8
  | .buRev8 => 0x63#8
  | .buRev32 => 0x64#8
  | .mgInit => 0x70#8
  | .mgNext => 0x71#8

/-- The argument of a command: `ARG` of a CMDA command, 0 of every other (R130). -/
def Instr.arg : Instr → BitVec 24
  | .ceCalcsize a | .vdCalcsize a | .crcPreset a => a
  | .nop | .softReset | .ceReset | .ceEncode | .ceFlush | .vdReset | .vdDecode | .vdFlush => 0#24
  | .mxZero | .mxCopy | .mxSetbit | .mxGetbit | .mxEqual | .mxIszero | .mxMulvec | .mxMulmat | .mxTranspose => 0#24
  | .bcEncode | .bcDecode | .crcInit | .crcUpdate | .crcFinal => 0#24
  | .buParity | .buPopcount | .buHamdist | .buRev8 | .buRev32 | .mgInit | .mgNext => 0#24

/-- The command word of a command: `(ARG << 8) | OP` (R130, R138). -/
def encode (i : Instr) : Word := i.arg ++ i.opcode

/-- The decoder on a row of the opcode table: the low `nbits` bits of `w`, every bit above them 0. -/
def decodeTableWord (nbits w : Nat) : Option Instr :=
  match decode (BitVec.ofNat 32 (w % 2 ^ nbits)) with
  | .ok i => some i
  | .error _ => none

end Sys2Proof
end

