-- ==== Sys2Proof/Machine/Bits.lean ====
section
/-! DEFINITION. The bit primitives of 00_scope.md R17 and the helpers the rules are written with (R12, R13). -/

namespace Sys2Proof.Machine

/-- The number of `j < n` with `f j`. -/
def countBits : Nat → (Nat → Bool) → Nat
  | 0, _ => 0
  | n + 1, f => countBits n f + (f n).toNat

/-- The OR over `j < n` of `f j << j`, in `w` bits: bit j is `f j`. -/
def packBits (w : Nat) : Nat → (Nat → Bool) → BitVec w
  | 0, _ => 0#w
  | n + 1, f => packBits w n f ||| (if f n then 1#w <<< n else 0#w)

/-- `popcount` (R17). -/
def popcount {w : Nat} (v : BitVec w) : Nat := countBits w (fun i => v.getLsbD i)

/-- `parity` (R17): true when the number of 1 bits is odd. -/
def parity {w : Nat} (v : BitVec w) : Bool := popcount v % 2 == 1

/-- `hamming` (R17). -/
def hamming {w : Nat} (a b : BitVec w) : Nat := popcount (a ^^^ b)

/-- The low `t` bits of `v` reversed, zero-extended: `rev_8`, `rev_32` and `rev_T` of R17. -/
def revBits {w : Nat} (t : Nat) (v : BitVec w) : BitVec w := packBits w t (fun i => v.getLsbD (t - 1 - i))

/-- Ceiling division `⌈a/b⌉` (R13). -/
def ceilDiv (a b : Nat) : Nat := (a + b - 1) / b

/-- A bit as a 64-bit result (`zext_64`, and 1 for true, 0 for false: D40). -/
def boolDWord (b : Bool) : DWord := if b then 1#64 else 0#64

/-- The low `w` bits of a 64-bit value: `v & ((1 << w) − 1)`. -/
def lowBits (w : Nat) (v : DWord) : DWord := packBits 64 w (fun i => v.getLsbD i)

/-- Bits 31:0 of a register pair: `NAME_LO` (10_state.md R33). -/
def loWord (v : DWord) : Word := v.extractLsb' 0 32

/-- Bits 63:32 of a register pair: `NAME_HI` (10_state.md R33). -/
def hiWord (v : DWord) : Word := v.extractLsb' 32 32

/-- A register pair after a write of its `_LO` register. -/
def setLo (v : DWord) (x : Word) : DWord := hiWord v ++ x

/-- A register pair after a write of its `_HI` register. -/
def setHi (v : DWord) (x : Word) : DWord := x ++ loWord v

/-- An indexed array held as a list (log 9): entry `i` replaced, the list lengthened with `d` where it is too short. -/
def setAt {α : Type} (d : α) : List α → Nat → α → List α
  | l, 0, v => v :: l.tail
  | l, i + 1, v => l.headD d :: setAt d l.tail i v

end Sys2Proof.Machine
end

