-- ==== Sys2Proof/Config.lean ====
section
/-! DEFINITION. The implementation parameters of 00_scope.md R10, and the one free value of the spec (10_state.md R93). -/

namespace Sys2Proof

/-- The parameters of 00_scope.md R10 ("A model takes each as an argument"): State carries this record and no step
changes it. `PLEN_MAX` and `VEC_W` are fixed by the rule and are constants. `regBase` is `REG_BASE`, the platform address of
the register window, for which R10 gives no range (20_memory.md R105, R109: OPEN). -/
structure Params where
  addrW    : Nat
  ceKMax   : Nat
  nMax     : Nat
  vdKMax   : Nat
  vdDMax   : Nat
  metricW  : Nat
  mxDimMax : Nat
  maskKMax : Nat
  regBase  : Nat
  deriving DecidableEq, Repr

namespace Params

/-- The default column of R10. DESIGN CHOICE (log 1): the machine after reset has these. R10 gives `REG_BASE` no default; 0
stands there (DESIGN CHOICE, log 11). -/
def defaults : Params :=
  { addrW := 32, ceKMax := 32, nMax := 8, vdKMax := 9, vdDMax := 256, metricW := 32, mxDimMax := 4096, maskKMax := 8,
    regBase := 0 }

/-- The legal ranges of R10; `REG_BASE` may be anything. -/
abbrev Legal (p : Params) : Prop :=
  (16 ≤ p.addrW ∧ p.addrW ≤ 32) ∧ (2 ≤ p.ceKMax ∧ p.ceKMax ≤ 32) ∧ (2 ≤ p.nMax ∧ p.nMax ≤ 8) ∧
  (2 ≤ p.vdKMax ∧ p.vdKMax ≤ 16) ∧ (2 ≤ p.vdDMax ∧ p.vdDMax ≤ 65535) ∧ (8 ≤ p.metricW ∧ p.metricW ≤ 32) ∧
  (64 ≤ p.mxDimMax ∧ p.mxDimMax ≤ 65528 ∧ p.mxDimMax % 8 = 0) ∧ (1 ≤ p.maskKMax ∧ p.maskKMax ≤ 15)

end Params

/-- `PLEN_MAX`, fixed at 32 by R10. -/
def Config.plenMax : Nat := 32

/-- The value a host register read returns while the core is busy (10_state.md R93: "an unspecified 32-bit value (a draw
under no law; a model must admit every value)"). A free value (log 6): the n-th such read returns `freeWord n`. -/
opaque Config.freeWord : Nat → Word

end Sys2Proof
end

