-- ==== Sys2Proof/Machine/State.lean ====
section
/-! DEFINITION. The state of the core (10_state.md R96: the registers of R34 to R90, the hidden state of R57, R70, R71,
R90, R91) with the buffer memory (20_memory.md R101) beside it, and the state after power-on reset
(70_reset_and_hazards.md R350). All of it is plain data. -/

namespace Sys2Proof.Machine

/-- The buffer memory (20_memory.md R101) as the bytes that differ from what an unlisted address reads as, addresses
strictly rising. -/
abbrev Memory := List Host.Cell

/-- A buffer-memory region: the `len` bytes from `base` on (20_memory.md R106). -/
structure Region where
  base : Nat
  len  : Nat
  deriving DecidableEq, Repr

/-- The error codes of 60_exceptions.md R323. -/
inductive ErrCode where
  | none
  | badCmd
  | notReset
  | spent
  | badConfig
  | range
  | overlap
  | outOverflow
  | index
  deriving DecidableEq, Repr

/-- The session state of the encoder and of the decoder (10_state.md R51, R63). -/
inductive Session where
  | idle
  | active
  | spent
  deriving DecidableEq, Repr

/-- An access of the host (00_scope.md R8). A register access names an address of the host's map, in which the register
window lies at `REG_BASE` (10_state.md R31, 20_memory.md R109), and its size in bytes; a buffer-memory access names an address
of the buffer memory. `powerReset` is the platform's reset input (70_reset_and_hazards.md R350). -/
inductive HostAccess where
  | regRead  (address : Nat) (bytes : Nat)
  | regWrite (address : Nat) (bytes : Nat) (value : Word)
  | memRead  (address : Nat)
  | memWrite (address : Nat) (value : Byte)
  | powerReset
  deriving DecidableEq, Repr

/-- Which of the two agents moves (00_scope.md R8, 10_state.md R94). -/
inductive Turn where
  | core
  | host (a : HostAccess)
  deriving DecidableEq, Repr

/-- A register of the window (10_state.md R33). -/
inductive Reg where
  | id | cap0 | cap1 | cap2 | cmd | status | irqEn | cmdLast | srcAddr | srcLen
  | ceK | ceN | cePlen | cePmask | ceOutBase | ceOutLimit | cePoly (j : Fin 8)
  | ceSession | ceSr | ceOutByte | ceOutBit | cePcur | ceInBytes | ceSize
  | vdK | vdN | vdDepth | vdOutBase | vdOutLimit | vdPoly (j : Fin 8)
  | vdSession | vdWpos | vdStepcnt | vdOutByte | vdOutBit | vdRxCnt | vdRxBits | vdBestState | vdBestMetric | vdSize
  | mxA | mxB | mxDst | mxR | mxC | mxX | mxRow | mxCol | mxBitval | mxVecLo | mxVecHi | mxResLo | mxResHi
  | bcG | bcH | bcD | bcCwW | bcSrcW | bcSynW | bcMaxerr | bcInLo | bcInHi | bcOutLo | bcOutHi | bcOk
  | bcSynLo | bcSynHi | bcMaskLo | bcMaskHi
  | crcCfg | crcPoly | crcInit | crcXorout | crcAcc | crcResult
  | buALo | buAHi | buBLo | buBHi | buResLo | buResHi
  | mgL | mgK | mgMaskLo | mgMaskHi | mgState
  deriving DecidableEq, Repr

/-- The control unit: `STATUS` (R39; `BUSY` is `pending ≠ none`, R91), `IRQ_EN` (R40), `CMD_LAST` (R41), `SRC_ADDR` (R42),
`SRC_LEN` (R43), `PENDING` (R91). -/
structure Control where
  done    : Bool
  err     : Bool
  overrun : Bool
  errCode : ErrCode
  errOp   : Byte
  doneIe  : Bool
  errIe   : Bool
  cmdLast : Word
  srcAddr : Word
  srcLen  : Word
  pending : Option Word
  deriving DecidableEq, Repr

/-- An encoder configuration: the live registers `CE_K` .. `CE_POLYj` (R44 to R50) or their latched copies (R57). `poly` lists
polynomials 0 to 7. -/
structure EncConfig where
  k        : BitVec 6
  n        : BitVec 4
  plen     : BitVec 6
  pmask    : Word
  outBase  : Word
  outLimit : Word
  poly     : List Word
  deriving DecidableEq, Repr

/-- An output cursor: the byte index and the bit index of the next output bit (R53, R66). -/
structure Cursor where
  byte : Word
  bit  : BitVec 3
  deriving DecidableEq, Repr

/-- The convolutional encoder (R44 to R57). -/
structure Encoder where
  cfg     : EncConfig
  lat     : EncConfig
  session : Session
  sr      : Word
  out     : Cursor
  pcur    : BitVec 5
  inBytes : Word
  size    : Word
  deriving DecidableEq, Repr

/-- A decoder configuration: the live registers `VD_K` .. `VD_POLYj` (R58 to R62) or their latched copies (R70). -/
structure DecConfig where
  k        : BitVec 6
  n        : BitVec 4
  depth    : BitVec 16
  outBase  : Word
  outLimit : Word
  poly     : List Word
  deriving DecidableEq, Repr

/-- One step record of the window RAM (R71): per trellis state its metric, presumed input bit and back-pointer, then the
best state and its metric. An entry past the end of a list reads 0 (log 9). -/
structure StepRecord where
  m    : List Nat
  bit  : List Bool
  prev : List Nat
  lo   : Nat
  lom  : Nat
  deriving DecidableEq, Repr

/-- The Viterbi decoder (R58 to R71). `window` lists the slots `W[0]`, `W[1]`, … (a slot past its end reads as zeros, log 9). -/
structure Decoder where
  cfg        : DecConfig
  lat        : DecConfig
  session    : Session
  wpos       : BitVec 16
  stepcnt    : BitVec 16
  out        : Cursor
  rxCnt      : BitVec 4
  rxBits     : Byte
  bestState  : BitVec 16
  bestMetric : Word
  size       : Word
  window     : List StepRecord
  deriving DecidableEq, Repr

/-- The binary matrix unit (R72 to R76). -/
structure MatrixUnit where
  a      : Word
  b      : Word
  dst    : Word
  r      : BitVec 16
  c      : BitVec 16
  x      : BitVec 16
  row    : BitVec 16
  col    : BitVec 16
  bitval : Bool
  vec    : DWord
  res    : DWord
  deriving DecidableEq, Repr

/-- The block-code unit (R77 to R82). -/
structure BlockUnit where
  g      : Word
  h      : Word
  d      : Word
  cwW    : BitVec 8
  srcW   : BitVec 8
  synW   : BitVec 8
  maxerr : BitVec 4
  input  : DWord
  out    : DWord
  ok     : Bool
  syn    : DWord
  mask   : DWord
  deriving DecidableEq, Repr

/-- The CRC engine (R83 to R85). -/
structure CrcUnit where
  w32    : Bool
  refin  : Bool
  refout : Bool
  poly   : Word
  init   : Word
  xorout : Word
  acc    : Word
  result : Word
  deriving DecidableEq, Repr

/-- The bit utilities (R86, R87). -/
structure BitUnit where
  a   : DWord
  b   : DWord
  res : DWord
  deriving DecidableEq, Repr

/-- The error-mask generator (R88 to R90); `latL`, `latK`, `x` are the hidden `MG_L_L`, `MG_K_L`, `MG_X`. -/
structure MaskUnit where
  l     : BitVec 7
  k     : BitVec 4
  mask  : DWord
  valid : Bool
  done  : Bool
  latL  : BitVec 7
  latK  : BitVec 4
  x     : List Nat
  deriving DecidableEq, Repr

/-- The MODEL's own fields: which agent moves next (log 4), what the host's last reads returned (log 13), and the counter
of the free value of R93 (log 6). -/
structure HostPort where
  turns     : List Turn
  regData   : Word
  memData   : Byte
  freeCount : Nat
  deriving DecidableEq, Repr

/-- The state of the machine. -/
structure State where
  params : Params
  ctl    : Control
  ce     : Encoder
  vd     : Decoder
  mx     : MatrixUnit
  bc     : BlockUnit
  crc    : CrcUnit
  bu     : BitUnit
  mg     : MaskUnit
  mem    : Memory
  host   : HostPort
  deriving DecidableEq, Repr

/-- Why the machine stops with a fault. Only a host access can (70_reset_and_hazards.md): no command does. -/
inductive Fault where
  /-- Raised by a host read or write of a byte in the footprint of the pending command (R357). Safe: the spec says a model
  treats such an access as a fault. -/
  | pendingFootprint
  /-- Raised by a host write of a byte in the output region of an ACTIVE session (R358). Safe: as the spec says. -/
  | sessionOutput
  /-- Raised by a host access at an address outside the `ADDR_W`-bit buffer memory (R101, log 10). Safe: the access has no
  meaning. -/
  | noSuchAddress
  deriving DecidableEq, Repr

/-- Why the machine refuses a step. -/
inductive Refusal where
  /-- Raised by `exec` for a command that has no meaning yet; no arm uses it. Safe. -/
  | notModelled (mnemonic : String)
  /-- Raised by a host register access that is not a naturally aligned 32-bit one inside the register window (10_state.md
  R31: "is refused by the model"). Safe (log 7, log 11). -/
  | registerAccess
  deriving DecidableEq, Repr

/-- What a meaning and a step answer. -/
abbrev Result := Host.Outcome State Fault Refusal

/-- R350: the control unit after reset. -/
def Control.reset : Control :=
  { done := false, err := false, overrun := false, errCode := .none, errOp := 0, doneIe := false, errIe := false,
    cmdLast := 0, srcAddr := 0, srcLen := 0, pending := none }

/-- R350: the encoder's live configuration after reset, the non-punctured pattern. -/
def EncConfig.reset : EncConfig :=
  { k := 0, n := 0, plen := 1, pmask := 1, outBase := 0, outLimit := 0, poly := List.replicate 8 0 }

/-- The latched copies after reset: unspecified by R350, zeros here. DESIGN CHOICE (log 3). -/
def EncConfig.unlatched : EncConfig :=
  { k := 0, n := 0, plen := 0, pmask := 0, outBase := 0, outLimit := 0, poly := List.replicate 8 0 }

/-- R350, R53: an output cursor after reset and at the start of a session. -/
def Cursor.start : Cursor := { byte := 0, bit := 7 }

/-- R350: the encoder after reset. -/
def Encoder.reset : Encoder :=
  { cfg := EncConfig.reset, lat := EncConfig.unlatched, session := .idle, sr := 0, out := Cursor.start, pcur := 0,
    inBytes := 0, size := 0 }

/-- R350: the decoder's live configuration after reset; also its latched copies (unspecified; DESIGN CHOICE, log 3). -/
def DecConfig.reset : DecConfig :=
  { k := 0, n := 0, depth := 0, outBase := 0, outLimit := 0, poly := List.replicate 8 0 }

/-- A step record of zeros: what a slot that nothing has written reads as (unspecified; DESIGN CHOICE, log 3). -/
def StepRecord.blank : StepRecord := { m := [], bit := [], prev := [], lo := 0, lom := 0 }

/-- R350: the decoder after reset. -/
def Decoder.reset : Decoder :=
  { cfg := DecConfig.reset, lat := DecConfig.reset, session := .idle, wpos := 0, stepcnt := 0, out := Cursor.start,
    rxCnt := 0, rxBits := 0, bestState := 0, bestMetric := 0, size := 0, window := [] }

/-- R350: the matrix unit after reset. -/
def MatrixUnit.reset : MatrixUnit :=
  { a := 0, b := 0, dst := 0, r := 0, c := 0, x := 0, row := 0, col := 0, bitval := false, vec := 0, res := 0 }

/-- R350: the block-code unit after reset. -/
def BlockUnit.reset : BlockUnit :=
  { g := 0, h := 0, d := 0, cwW := 0, srcW := 0, synW := 0, maxerr := 0, input := 0, out := 0, ok := false, syn := 0, mask := 0 }

/-- R350: the CRC engine after reset. -/
def CrcUnit.reset : CrcUnit :=
  { w32 := false, refin := false, refout := false, poly := 0, init := 0, xorout := 0, acc := 0, result := 0 }

/-- R350: the bit utilities after reset. -/
def BitUnit.reset : BitUnit := { a := 0, b := 0, res := 0 }

/-- R350: the mask generator after reset; its hidden part is unspecified (DESIGN CHOICE, log 3). -/
def MaskUnit.reset : MaskUnit :=
  { l := 0, k := 0, mask := 0, valid := false, done := false, latL := 0, latK := 0, x := [] }

/-- The model's own fields at the start (DESIGN CHOICE, log 4, log 6, log 13). -/
def HostPort.reset : HostPort := { turns := [], regData := 0, memData := 0, freeCount := 0 }

/-- The machine with the parameters `p` right after power-on reset (R350): every register at its value there, no command
pending, nothing listed in the buffer memory (log 2). -/
def State.resetWith (p : Params) : State :=
  { params := p, ctl := Control.reset, ce := Encoder.reset, vd := Decoder.reset, mx := MatrixUnit.reset,
    bc := BlockUnit.reset, crc := CrcUnit.reset, bu := BitUnit.reset, mg := MaskUnit.reset, mem := [],
    host := HostPort.reset }

/-- The machine right after power-on reset, with the default parameters (log 1). -/
def State.reset : State := State.resetWith Params.defaults

end Sys2Proof.Machine
end

