-- ==== Sys2Proof/Machine/Ops.lean ====
section
/-! DEFINITION. The shared operations: buffer memory and regions (20_memory.md), output cursors (10_state.md R53), raising
a command error and completing a command (60_exceptions.md R320 to R326), accepting a command word (10_state.md R38). -/

namespace Sys2Proof.Machine

/-! ## Buffer memory -/

/-- What an unlisted address reads as. DESIGN CHOICE (log 2): R101 leaves the contents at power-on to the platform. -/
def Memory.unlisted : Byte := 0x00#8

/-- `MemRead(a, 1)` (00_scope.md R15). -/
def Memory.read : Memory → Nat → Byte
  | [], _ => Memory.unlisted
  | (k, b) :: m, a => if k = a then b else Memory.read m a

/-- The memory with nothing listed at `a`. -/
def Memory.erase : Memory → Nat → Memory
  | [], _ => []
  | (k, b) :: m, a => if k = a then Memory.erase m a else (k, b) :: Memory.erase m a

/-- The memory with `(a, v)` listed before the first higher address. -/
def Memory.insert : Memory → Nat → Byte → Memory
  | [], a, v => [(a, v)]
  | (k, b) :: m, a, v => if a < k then (a, v) :: (k, b) :: m else (k, b) :: Memory.insert m a v

/-- `MemWrite(a, 1, v)` (00_scope.md R15), keeping the canonical form: writing what an unlisted address reads as removes the
entry. -/
def Memory.write (m : Memory) (a : Nat) (v : Byte) : Memory :=
  if v = Memory.unlisted then Memory.erase m a else Memory.insert (Memory.erase m a) a v

/-- The canonical form: addresses strictly rising, and no entry equal to what an unlisted address reads as. -/
abbrev Memory.wf (m : Memory) : Prop :=
  m.Pairwise (fun c d => c.1 < d.1) ∧ ∀ c ∈ m, c.2 ≠ Memory.unlisted

/-- `MemOr(a, bit, v)` (00_scope.md R15). -/
def Memory.orBit (m : Memory) (a bit : Nat) (v : Bool) : Memory :=
  Memory.write m a (Memory.read m a ||| (if v then 1#8 <<< bit else 0#8))

/-- The bytes `f 0 .. f (len-1)` written at `base ..`. -/
def Memory.store (m : Memory) (base : Nat) : Nat → (Nat → Byte) → Memory
  | 0, _ => m
  | n + 1, f => Memory.write (Memory.store m base n f) (base + n) (f n)

/-- Whether every byte `f i`, `i < len`, satisfies `p i`. -/
def allBelow : Nat → (Nat → Bool) → Bool
  | 0, _ => true
  | n + 1, p => allBelow n p && p n

/-! ## Regions -/

/-- A region is in range (20_memory.md R106), computed without wrap-around. -/
abbrev Region.inRange (p : Params) (g : Region) : Prop := g.base + g.len ≤ 2 ^ p.addrW

/-- Two regions overlap (20_memory.md R108). -/
abbrev Region.overlaps (g h : Region) : Prop :=
  0 < g.len ∧ 0 < h.len ∧ g.base < h.base + h.len ∧ h.base < g.base + g.len

/-- The byte at address `a` is in the region. -/
abbrev Region.has (g : Region) (a : Nat) : Prop := g.base ≤ a ∧ a < g.base + g.len

/-- An address register of `ADDR_W` bits, written with `v`: bits 31:`ADDR_W` are RAZ/WI (10_state.md R42). -/
def addrField (p : Params) (v : Word) : Word := BitVec.ofNat 32 (v.toNat % 2 ^ p.addrW)

/-! ## Output cursors -/

/-- The number of bits emitted since the session began: `8*BYTE + (7 − BIT)` (10_state.md R53, R66). -/
def Cursor.pos (c : Cursor) : Nat := 8 * c.byte.toNat + (7 - c.bit.toNat)

/-- The cursor after one output bit (43_conv_encoder.md R183, 44_viterbi.md R222). -/
def Cursor.advance (c : Cursor) : Cursor :=
  if c.bit = 0 then { byte := c.byte + 1, bit := 7 } else { c with bit := c.bit - 1 }

/-- The output bytes that the next `e` bits touch, in an output buffer at `base` (43_conv_encoder.md R186). -/
def Cursor.region (c : Cursor) (base : Word) (e : Nat) : Region :=
  { base := base.toNat + c.byte.toNat, len := ceilDiv (c.pos + e) 8 - c.byte.toNat }

/-! ## Command errors and completion -/

/-- `RecordError(CODE, op)` (60_exceptions.md R322): the first error is kept until the host clears it. -/
def recordError (s : State) (code : ErrCode) (op : Byte) : State :=
  if s.ctl.err then s
  else { s with ctl := { s.ctl with err := true, errCode := code, errOp := op } }

/-- The first check that fails, in the order of the list (60_exceptions.md R324). -/
def firstFailure : List (Bool × ErrCode) → Option ErrCode
  | [] => none
  | (c, e) :: l => if c then some e else firstFailure l

/-- A command: its checks in order, then all of its effects or none (60_exceptions.md R320; 00_scope.md R16). A failed check
raises `CmdError` (R322), after which the machine goes on. -/
def runCommand (i : Instr) (checks : List (Bool × ErrCode)) (effect : State) (s : State) : Result :=
  match firstFailure checks with
  | some e => .next (recordError s e i.opcode)
  | none => .next effect

/-- The end of the core step (10_state.md R94, 60_exceptions.md R326): no command pending, `DONE` set. -/
def completeCommand (s : State) : State := { s with ctl := { s.ctl with pending := none, done := true } }

/-- An accepted write of `w` to `CMD` (10_state.md R38). -/
def acceptCommand (s : State) (w : Word) : State :=
  { s with ctl := { s.ctl with pending := some w, cmdLast := w, done := false } }

/-- Power-on reset (70_reset_and_hazards.md R350, R351): every piece of core state at its reset value, a pending command
discarded, the buffer memory untouched. The parameters and the model's own fields stay (log 8). -/
def powerReset (s : State) : State :=
  { State.resetWith s.params with mem := s.mem, host := s.host }

end Sys2Proof.Machine
end

