-- ==== Sys2Proof/Machine/Operands.lean ====
section
/-! DEFINITION. The operands a command takes from the registers: polynomials, the input region, configurations and their
legality (43_conv_encoder.md R180, 44_viterbi.md R210, 45_matrix.md R250, 46_block_code.md R280), matrices and vectors
(00_scope.md R18, R19), the CRC width (47_crc.md R306). -/

namespace Sys2Proof.Machine

/-- The input region `(SRC_ADDR, SRC_LEN)` (10_state.md R42, R43). -/
def srcRegion (s : State) : Region := { base := s.ctl.srcAddr.toNat, len := s.ctl.srcLen.toNat }

/-- The polynomials a unit reset leaves latched: `for j in 0..N_MAX−1: POLY_L[j] <- POLYj` (R185, R223). -/
def latchPolys (p : Params) (live old : List Word) : List Word :=
  (List.range 8).map (fun j => if j < p.nMax then live.getD j 0 else old.getD j 0)

/-- `Legal(K, n, PL)` of the encoder (43_conv_encoder.md R180). -/
abbrev encLegal (p : Params) (c : EncConfig) : Prop :=
  (2 ≤ c.k.toNat ∧ c.k.toNat ≤ p.ceKMax) ∧ (2 ≤ c.n.toNat ∧ c.n.toNat ≤ p.nMax) ∧
  (1 ≤ c.plen.toNat ∧ c.plen.toNat ≤ Config.plenMax)

/-- The part of the decoder's legality that `VD_CALCSIZE` checks (44_viterbi.md R226). -/
abbrev decRateLegal (p : Params) (c : DecConfig) : Prop :=
  (2 ≤ c.k.toNat ∧ c.k.toNat ≤ p.vdKMax) ∧ (2 ≤ c.n.toNat ∧ c.n.toNat ≤ p.nMax)

/-- `Legal(K, n, D)` of the decoder (44_viterbi.md R210). -/
abbrev decLegal (p : Params) (c : DecConfig) : Prop :=
  decRateLegal p c ∧ (2 ≤ c.depth.toNat ∧ c.depth.toNat ≤ p.vdDMax)

/-- A matrix dimension is legal: a multiple of 8 in 8..`MX_DIM_MAX` (45_matrix.md R250). -/
abbrev dimLegal (p : Params) (d : BitVec 16) : Prop := d.toNat % 8 = 0 ∧ 8 ≤ d.toNat ∧ d.toNat ≤ p.mxDimMax

/-- `Legal(CW, SW, YW, ME)` of the block-code unit (46_block_code.md R280). -/
abbrev blockLegal (p : Params) (b : BlockUnit) : Prop :=
  (b.cwW.toNat = 8 ∨ b.cwW.toNat = 16 ∨ b.cwW.toNat = 32 ∨ b.cwW.toNat = 64) ∧
  (b.srcW.toNat = 8 ∨ b.srcW.toNat = 16 ∨ b.srcW.toNat = 32 ∨ b.srcW.toNat = 64) ∧
  (b.synW.toNat = 8 ∨ b.synW.toNat = 16 ∨ b.synW.toNat = 32 ∨ b.synW.toNat = 64) ∧
  b.srcW.toNat ≤ b.cwW.toNat ∧ b.cwW.toNat ≤ b.srcW.toNat + b.synW.toNat ∧ b.maxerr.toNat ≤ p.maskKMax

/-- The region of a matrix of `r` rows and `c` columns: `r·c/8` bytes (00_scope.md R11). -/
def matRegion (base : Word) (r c : Nat) : Region := { base := base.toNat, len := r * c / 8 }

/-- The address of the byte that holds bit (r, c) of a matrix of `c0` columns (00_scope.md R18). -/
def matByteAddr (base : Word) (c0 r c : Nat) : Nat := base.toNat + r * (c0 / 8) + c / 8

/-- `M.bit(r, c)` (00_scope.md R18). -/
def matBit (m : Memory) (base : Word) (c0 r c : Nat) : Bool := (Memory.read m (matByteAddr base c0 r c)).getLsbD (7 - c % 8)

/-- `row_M(r)`, at most 64 columns: bit C−1−c is `M.bit(r, c)` (00_scope.md R18). -/
def matRow (m : Memory) (base : Word) (c0 r : Nat) : DWord :=
  packBits 64 c0 (fun j => matBit m base c0 r (c0 - 1 - j))

/-- The product of an `r × c0` matrix with a `c0`-bit vector: `OR over i of (parity(row_M(i) & v) << (r − 1 − i))`
(45_matrix.md R257, 46_block_code.md R281). -/
def matVec (m : Memory) (base : Word) (r c0 : Nat) (v : DWord) : DWord :=
  packBits 64 r (fun j => parity (matRow m base c0 (r - 1 - j) &&& v))

/-- Byte `t` of the matrix of `c0` columns whose bit (i, j) is `f i j` (00_scope.md R18). -/
def matByte (c0 : Nat) (f : Nat → Nat → Bool) (t : Nat) : Byte :=
  packBits 8 8 (fun p => f (t / (c0 / 8)) (8 * (t % (c0 / 8)) + (7 - p)))

/-- The CRC width T (47_crc.md): 32 or 16. -/
def crcWidth (c : CrcUnit) : Nat := if c.w32 then 32 else 16

/-- `v & maskT`, T the width now configured (47_crc.md R306). -/
def crcMask (c : CrcUnit) (v : Word) : Word := if c.w32 then v else v &&& 0x0000FFFF#32

end Sys2Proof.Machine
end

