-- ==== Sys2Proof/Machine/BitUtil.lean ====
section
/-! DEFINITION. The bit-utility commands (41_bit_utilities.md). -/

namespace Sys2Proof.Machine

/-- A bit-utility command: no check beyond the word's own, `BU_RES` written. -/
def runBitUtil (i : Instr) (v : DWord) (s : State) : Result :=
  runCommand i [] { s with bu := { s.bu with res := v } } s

/-- `BU_PARITY` (R160). -/
def execBuParity (s : State) : Result := runBitUtil .buParity (boolDWord (parity s.bu.a)) s

/-- `BU_POPCOUNT` (R161). -/
def execBuPopcount (s : State) : Result := runBitUtil .buPopcount (BitVec.ofNat 64 (popcount s.bu.a)) s

/-- `BU_HAMDIST` (R162). -/
def execBuHamdist (s : State) : Result := runBitUtil .buHamdist (BitVec.ofNat 64 (hamming s.bu.a s.bu.b)) s

/-- `BU_REV8` (R163): bits 63:8 of `BU_A` are ignored. -/
def execBuRev8 (s : State) : Result := runBitUtil .buRev8 (revBits 8 s.bu.a) s

/-- `BU_REV32` (R164): bits 63:32 of `BU_A` are ignored. -/
def execBuRev32 (s : State) : Result := runBitUtil .buRev32 (revBits 32 s.bu.a) s

end Sys2Proof.Machine
end

