-- ==== Sys2Proof/Machine/MaskGen.lean ====
section
/-! DEFINITION. The error-mask generator (42_mask_generator.md), and the enumeration the block-code search takes from it
(46_block_code.md R282). -/

namespace Sys2Proof.Machine

/-- `Mask(L, k, x)` (R170): the OR over i < k of `1 << (L − x[i] − 1)`. -/
def maskOf (l : Nat) (x : List Nat) : Nat → DWord
  | 0 => 0#64
  | k + 1 => maskOf l x k ||| 1#64 <<< (l - x.getD k 0 - 1)

/-- The scan of `Advance` (R171) from index `n − 1` down: the rightmost position not at its maximum `L − (k − i)`. -/
def advanceAt (l k : Nat) (x : List Nat) : Nat → Option Nat
  | 0 => none
  | n + 1 => if x.getD n 0 = l - (k - n) then advanceAt l k x n else some n

/-- The positions after index `i` is incremented and those to its right (below k) reset to consecutive values (R171). -/
def bumpAt (k i : Nat) (x : List Nat) : List Nat :=
  (List.range (max k x.length)).map
    (fun j => if i ≤ j ∧ j < k then x.getD i 0 + 1 + (j - i) else x.getD j 0)

/-- `Advance(L, k, x)` (R171): the new positions and whether the enumeration is exhausted. -/
def advance (l k : Nat) (x : List Nat) : List Nat × Bool :=
  match advanceAt l k x k with
  | none => (x, true)
  | some i => (bumpAt k i x, false)

/-- `MG_INIT` (R172). -/
def execMgInit (s : State) : Result :=
  runCommand .mgInit
    [ (decide (s.mg.l.toNat < 1 ∨ 64 < s.mg.l.toNat), .badConfig),
      (decide (s.params.maskKMax < s.mg.k.toNat ∨ s.mg.l.toNat < s.mg.k.toNat), .badConfig) ]
    { s with mg := { s.mg with
        latL := s.mg.l
        latK := s.mg.k
        x := List.range s.mg.k.toNat ++ s.mg.x.drop s.mg.k.toNat
        mask := 0
        valid := true
        done := decide (s.mg.k = 0) } }
    s

/-- The generator after one `MG_NEXT` (R173). -/
def nextMask (g : MaskUnit) : MaskUnit :=
  if g.done then { g with mask := 0 }
  else
    { g with
      mask := maskOf g.latL.toNat g.x g.latK.toNat
      x := (advance g.latL.toNat g.latK.toNat g.x).1
      done := (advance g.latL.toNat g.latK.toNat g.x).2 }

/-- `MG_NEXT` (R173). -/
def execMgNext (s : State) : Result :=
  runCommand .mgNext [(!s.mg.valid, .notReset)] { s with mg := nextMask s.mg } s

/-- The `l`-bit masks of weight `k`, in strictly decreasing numeric order: those with bit `l − 1` first. DEDUCED (log 18): this
is the order of R174, in which the generator's positions advance. -/
def masksOfWeight : Nat → Nat → List DWord
  | _, 0 => [0#64]
  | 0, _ + 1 => []
  | l + 1, k + 1 => (masksOfWeight l k).map (fun m => 1#64 <<< l ||| m) ++ masksOfWeight l (k + 1)

/-- The masks of the error search over an `l`-bit codeword: weight 1, then 2, up to `me` (46_block_code.md R282). -/
def searchMasks (l : Nat) : Nat → List DWord
  | 0 => []
  | me + 1 => searchMasks l me ++ masksOfWeight l (me + 1)

end Sys2Proof.Machine
end

