-- ==== Sys2Proof/Machine/BlockCode.lean ====
section
/-! DEFINITION. The block-code unit (46_block_code.md). -/

namespace Sys2Proof.Machine

/-- The region of the generator matrix G, CW × SW (R281). -/
def bcRegionG (b : BlockUnit) : Region := matRegion b.g b.cwW.toNat b.srcW.toNat

/-- The region of the parity-check matrix H, YW × CW (R281). -/
def bcRegionH (b : BlockUnit) : Region := matRegion b.h b.synW.toNat b.cwW.toNat

/-- The region of the decoder matrix D, SW × CW (R281). -/
def bcRegionD (b : BlockUnit) : Region := matRegion b.d b.srcW.toNat b.cwW.toNat

/-- `H · v` (R281). -/
def syndrome (m : Memory) (b : BlockUnit) (v : DWord) : DWord := matVec m b.h b.synW.toNat b.cwW.toNat v

/-- `D · v` (R281). -/
def decodeProduct (m : Memory) (b : BlockUnit) (v : DWord) : DWord := matVec m b.d b.srcW.toNat b.cwW.toNat v

/-- `BC_ENCODE` (R283). -/
def execBcEncode (s : State) : Result :=
  runCommand .bcEncode
    [ (!decide (blockLegal s.params s.bc), .badConfig),
      (!decide (Region.inRange s.params (bcRegionG s.bc)), .range) ]
    { s with bc := { s.bc with
        out := matVec s.mem s.bc.g s.bc.cwW.toNat s.bc.srcW.toNat (lowBits s.bc.srcW.toNat s.bc.input) } } s

/-- The first mask, in the order of R282, whose syndrome is `y`. -/
def findMask (m : Memory) (b : BlockUnit) (y : DWord) : Option DWord :=
  (searchMasks b.cwW.toNat b.maxerr.toNat).find? (fun e => syndrome m b e == y)

/-- The unit after decoding the received codeword `cw` of syndrome `y` (R284). -/
def decodeBlock (m : Memory) (b : BlockUnit) (cw y : DWord) : BlockUnit :=
  if y = 0 then { b with syn := y, out := decodeProduct m b cw, ok := true, mask := 0 }
  else
    match findMask m b y with
    | none => { b with syn := y, out := 0, ok := false, mask := 0 }
    | some e =>
      if syndrome m b (cw ^^^ e) = 0 then { b with syn := y, out := decodeProduct m b (cw ^^^ e), ok := true, mask := e }
      else { b with syn := y, out := 0, ok := false, mask := e }

/-- `BC_DECODE` (R284). -/
def execBcDecode (s : State) : Result :=
  let cw := lowBits s.bc.cwW.toNat s.bc.input
  runCommand .bcDecode
    [ (!decide (blockLegal s.params s.bc), .badConfig),
      (!decide (Region.inRange s.params (bcRegionH s.bc) ∧ Region.inRange s.params (bcRegionD s.bc)), .range) ]
    { s with bc := decodeBlock s.mem s.bc cw (syndrome s.mem s.bc cw) } s

end Sys2Proof.Machine
end

