-- ==== Sys2Proof/Machine/Control.lean ====
section
/-! DEFINITION. The control commands (40_control.md). -/

namespace Sys2Proof.Machine

/-- `NOP` (R150). -/
def execNop (s : State) : Result := runCommand .nop [] s s

/-- R151: the encoder's session and result state at its power-on value, its configuration kept. -/
def softResetEncoder (e : Encoder) : Encoder :=
  { e with session := .idle, sr := 0, out := Cursor.start, pcur := 0, inBytes := 0, size := 0 }

/-- R151: the decoder's session and result state at its power-on value; configuration, latched copies, window RAM kept. -/
def softResetDecoder (d : Decoder) : Decoder :=
  { d with session := .idle, wpos := 0, stepcnt := 0, out := Cursor.start, rxCnt := 0, rxBits := 0, bestState := 0,
           bestMetric := 0, size := 0 }

/-- `SOFT_RESET` (R151). -/
def execSoftReset (s : State) : Result :=
  runCommand .softReset []
    { s with
      ce := softResetEncoder s.ce
      vd := softResetDecoder s.vd
      mx := { s.mx with res := 0 }
      bc := { s.bc with out := 0, ok := false, syn := 0, mask := 0 }
      crc := { s.crc with acc := 0, result := 0 }
      bu := { s.bu with res := 0 }
      mg := { s.mg with mask := 0, valid := false, done := false } }
    s

end Sys2Proof.Machine
end

