-- ==== Sys2Proof/Machine/Crc.lean ====
section
/-! DEFINITION. The CRC engine (47_crc.md). -/

namespace Sys2Proof.Machine

/-- One of the 8 bit positions of `CrcByte` (R300). -/
def crcShift (c : CrcUnit) (acc : Word) : Word :=
  crcMask c (acc <<< 1) ^^^ (if acc.getLsbD (crcWidth c - 1) then crcMask c c.poly else 0#32)

/-- `CrcByte(acc, b)` (R300). -/
def crcByte (c : CrcUnit) (acc : Word) (b : Byte) : Word :=
  let x := if c.refin then revBits 8 b else b
  crcShift c <| crcShift c <| crcShift c <| crcShift c <| crcShift c <| crcShift c <| crcShift c <| crcShift c <|
    acc ^^^ (x.setWidth 32 <<< (crcWidth c - 8))

/-- The accumulator after the `n` bytes from address `a` on, in address order (R303). -/
def crcBytes (c : CrcUnit) (m : Memory) : Nat → Nat → Word → Word
  | 0, _, acc => acc
  | n + 1, a, acc => crcBytes c m n (a + 1) (crcByte c acc (Memory.read m a))

/-- `CrcFinal(acc)` (R300). -/
def crcFinish (c : CrcUnit) (acc : Word) : Word :=
  (if c.refout then revBits (crcWidth c) acc else acc) ^^^ crcMask c c.xorout

/-- The preset table (R305): `CRC_CFG` (W32, REFIN, REFOUT), P, I, X. PRESUMED by the spec itself (general knowledge, log 12). -/
def crcPresetTable : List (Bool × Bool × Bool × Word × Word × Word) :=
  [ (false, false, false, 0x8005#32, 0x0000#32, 0x0000#32),
    (false, true, true, 0x8005#32, 0x0000#32, 0x0000#32),
    (false, true, true, 0x8005#32, 0xFFFF#32, 0xFFFF#32),
    (true, true, true, 0x04C11DB7#32, 0xFFFFFFFF#32, 0xFFFFFFFF#32),
    (true, false, false, 0x04C11DB7#32, 0x00000000#32, 0xFFFFFFFF#32),
    (true, true, true, 0x1EDC6F41#32, 0xFFFFFFFF#32, 0xFFFFFFFF#32) ]

/-- The engine with preset `k` loaded: configuration registers only (R301). -/
def loadPreset (c : CrcUnit) (k : Nat) : CrcUnit :=
  match crcPresetTable[k]? with
  | some (w32, refin, refout, poly, init, xorout) =>
    { c with w32 := w32, refin := refin, refout := refout, poly := poly, init := init, xorout := xorout }
  | none => c

/-- `CRC_PRESET` (R301). -/
def execCrcPreset (arg : BitVec 24) (s : State) : Result :=
  runCommand (.crcPreset arg) [(decide (5 < arg.toNat), .badCmd)] { s with crc := loadPreset s.crc arg.toNat } s

/-- `CRC_INIT` (R302). -/
def execCrcInit (s : State) : Result :=
  runCommand .crcInit [] { s with crc := { s.crc with acc := crcMask s.crc s.crc.init } } s

/-- `CRC_UPDATE` (R303). -/
def execCrcUpdate (s : State) : Result :=
  runCommand .crcUpdate [(!decide (Region.inRange s.params (srcRegion s)), .range)]
    { s with crc := { s.crc with
        acc := crcBytes s.crc s.mem s.ctl.srcLen.toNat s.ctl.srcAddr.toNat (crcMask s.crc s.crc.acc) } } s

/-- `CRC_FINAL` (R304). -/
def execCrcFinal (s : State) : Result :=
  runCommand .crcFinal [] { s with crc := { s.crc with result := crcFinish s.crc (crcMask s.crc s.crc.acc) } } s

end Sys2Proof.Machine
end

