-- ==== Sys2Proof/Machine/Encoder.lean ====
section
/-! DEFINITION. The convolutional encoder (43_conv_encoder.md). -/

namespace Sys2Proof.Machine

/-- `popcount(PM & ((1 << PL) − 1))`: the non-zero entries of the pattern (R182). -/
def patternOnes (c : EncConfig) : Nat := countBits c.plen.toNat (fun i => c.pmask.getLsbD i)

/-- `EmitCount(p, M)` (R189): how many of `M` output positions from puncture cursor `p` on emit. -/
def emitCount (c : EncConfig) (p m : Nat) : Nat :=
  m / c.plen.toNat * patternOnes c +
    countBits (m % c.plen.toNat) (fun i => c.pmask.getLsbD ((p + i) % c.plen.toNat))

/-- The encoder with its output cursor moved past one bit (R183). -/
def encAdvance (s : State) : State := { s with ce := { s.ce with out := s.ce.out.advance } }

/-- `EmitE(v)` (R183): a fresh byte is first cleared; the bit is OR-merged. -/
def emitE (v : Bool) (s : State) : State :=
  let a := s.ce.lat.outBase.toNat + s.ce.out.byte.toNat
  let m := if s.ce.out.bit = 7 then Memory.write s.mem a 0x00#8 else s.mem
  encAdvance { s with mem := Memory.orBit m a s.ce.out.bit.toNat v }

/-- `CE_PCUR <- (CE_PCUR + 1) mod PL` (R182). -/
def nextPcur (s : State) : State :=
  { s with ce := { s.ce with pcur := BitVec.ofNat 5 ((s.ce.pcur.toNat + 1) % s.ce.lat.plen.toNat) } }

/-- The output of polynomial `j` in a cycle (R184, step 3): the puncture cursor advances whether or not the bit is kept. -/
def encOutput (j : Nat) (s : State) : State :=
  if s.ce.lat.pmask.getLsbD s.ce.pcur.toNat then emitE (parity (s.ce.sr &&& s.ce.lat.poly.getD j 0)) (nextPcur s)
  else nextPcur s

/-- The outputs of polynomials 0 .. n−1, in order (R184). -/
def encOutputs : Nat → State → State
  | 0, s => s
  | n + 1, s => encOutput n (encOutputs n s)

/-- The shift register after a shift with input bit `b`: `(SR >> 1) | (b << (K − 1))` (R184). -/
def encShift (e : Encoder) (b : Bool) : Word :=
  e.sr >>> 1 ||| (if b then 1#32 <<< (e.lat.k.toNat - 1) else 0#32)

/-- `Cycle(b)` (R184). -/
def encCycle (b : Bool) (s : State) : State :=
  encOutputs s.ce.lat.n.toNat { s with ce := { s.ce with sr := encShift s.ce b } }

/-- `n` cycles with input bit 0 (R187). -/
def encTail : Nat → State → State
  | 0, s => s
  | n + 1, s => encTail n (encCycle false s)

/-- The 8 cycles of one input byte, bit 7 first (R186). -/
def encByte (b : Byte) (s : State) : State :=
  [7, 6, 5, 4, 3, 2, 1, 0].foldl (fun t p => encCycle (b.getLsbD p) t) s

/-- The `n` input bytes from address `a` on, in address order (R186). -/
def encBytes : Nat → Nat → State → State
  | 0, _, s => s
  | n + 1, a, s => encBytes n (a + 1) (encByte (Memory.read s.mem a) s)

/-- The bits the next `CE_ENCODE` emits (R186). -/
def encodeEmits (s : State) : Nat := emitCount s.ce.lat s.ce.pcur.toNat (8 * s.ctl.srcLen.toNat * s.ce.lat.n.toNat)

/-- The bits the next `CE_FLUSH` emits (R187). -/
def flushEmits (s : State) : Nat := emitCount s.ce.lat s.ce.pcur.toNat (s.ce.lat.k.toNat * s.ce.lat.n.toNat)

/-- `OutRegion(E)` (R186). -/
def encOutRegion (s : State) (e : Nat) : Region := s.ce.out.region s.ce.lat.outBase e

/-- `CE_RESET` (R185). -/
def execCeReset (s : State) : Result :=
  runCommand .ceReset
    [ (!decide (encLegal s.params s.ce.cfg), .badConfig),
      (!decide (Region.inRange s.params ⟨s.ce.cfg.outBase.toNat, s.ce.cfg.outLimit.toNat⟩), .range) ]
    { s with ce := { s.ce with
        lat := { s.ce.cfg with poly := latchPolys s.params s.ce.cfg.poly s.ce.lat.poly }
        sr := 0
        out := Cursor.start
        pcur := 0
        inBytes := 0
        session := .active } }
    s

/-- `CE_ENCODE` (R186). -/
def execCeEncode (s : State) : Result :=
  runCommand .ceEncode
    [ (decide (s.ce.session = .idle), .notReset),
      (decide (s.ce.session = .spent), .spent),
      (!decide (Region.inRange s.params (srcRegion s)), .range),
      (decide (0 < encodeEmits s ∧ Region.overlaps (srcRegion s) (encOutRegion s (encodeEmits s))), .overlap),
      (decide (8 * s.ce.lat.outLimit.toNat < s.ce.out.pos + encodeEmits s), .outOverflow) ]
    (let t := encBytes s.ctl.srcLen.toNat s.ctl.srcAddr.toNat s
     { t with ce := { t.ce with inBytes := t.ce.inBytes + s.ctl.srcLen } })
    s

/-- `CE_FLUSH` (R187). -/
def execCeFlush (s : State) : Result :=
  runCommand .ceFlush
    [ (decide (s.ce.session = .idle), .notReset),
      (decide (s.ce.session = .spent), .spent),
      (decide (8 * s.ce.lat.outLimit.toNat < s.ce.out.pos + flushEmits s), .outOverflow) ]
    (let t := encTail s.ce.lat.k.toNat s
     { t with ce := { t.ce with session := .spent } })
    s

/-- The byte count of `CE_CALCSIZE` for `S` input bytes (R188), from the live configuration. -/
def encSize (c : EncConfig) (bytes : Nat) : Nat :=
  ceilDiv (ceilDiv ((8 * bytes + c.k.toNat) * c.n.toNat * patternOnes c) c.plen.toNat) 8

/-- `CE_CALCSIZE` (R188). -/
def execCeCalcsize (arg : BitVec 24) (s : State) : Result :=
  runCommand (.ceCalcsize arg) [(!decide (encLegal s.params s.ce.cfg), .badConfig)]
    { s with ce := { s.ce with size := BitVec.ofNat 32 (encSize s.ce.cfg arg.toNat) } } s

end Sys2Proof.Machine
end

