-- ==== Sys2Proof/Machine/Matrix.lean ====
section
/-! DEFINITION. The binary matrix unit (45_matrix.md). -/

namespace Sys2Proof.Machine

/-- `MxDims` (R250). -/
def dimChecks (p : Params) (dims : List (BitVec 16)) : List (Bool × ErrCode) :=
  dims.map (fun d => (!decide (dimLegal p d), .badConfig))

/-- `MxRegions` (R250): every region in range, then no written region over a read one. -/
def regionChecks (p : Params) (reads writes : List Region) : List (Bool × ErrCode) :=
  (reads ++ writes).map (fun g => (!decide (Region.inRange p g), .range)) ++
    writes.flatMap (fun w => reads.map (fun g => (decide (Region.overlaps w g), .overlap)))

/-- The region of matrix A, `(MX_A, R*C/8)`. -/
def mxRegionA (x : MatrixUnit) : Region := matRegion x.a x.r.toNat x.c.toNat

/-- The index check of `MX_SETBIT` and `MX_GETBIT` (R253, R254). -/
def indexCheck (x : MatrixUnit) : Bool × ErrCode :=
  (decide (x.r.toNat ≤ x.row.toNat ∨ x.c.toNat ≤ x.col.toNat), .index)

/-- The address of the byte of bit (`MX_ROW`, `MX_COL`) of matrix A (R253). -/
def mxBitAddr (x : MatrixUnit) : Nat := matByteAddr x.a x.c.toNat x.row.toNat x.col.toNat

/-- A command that writes the bytes `f 0 ..` of a destination matrix of `r` rows and `c` columns. DEDUCED (log 19): `f` may read
the memory as it was before the command, since the destination overlaps no operand (R250, R261). -/
def storeMatrix (s : State) (r c : Nat) (f : Nat → Byte) : State :=
  { s with mem := Memory.store s.mem s.mx.dst.toNat (r * c / 8) f }

/-- A command that writes `MX_RES`. -/
def setMxRes (s : State) (v : DWord) : State := { s with mx := { s.mx with res := v } }

/-- `MX_ZERO` (R251). -/
def execMxZero (s : State) : Result :=
  runCommand .mxZero
    (dimChecks s.params [s.mx.r, s.mx.c] ++ regionChecks s.params [] [matRegion s.mx.dst s.mx.r.toNat s.mx.c.toNat])
    (storeMatrix s s.mx.r.toNat s.mx.c.toNat (fun _ => 0x00#8)) s

/-- `MX_COPY` (R252). -/
def execMxCopy (s : State) : Result :=
  runCommand .mxCopy
    (dimChecks s.params [s.mx.r, s.mx.c] ++
      regionChecks s.params [mxRegionA s.mx] [matRegion s.mx.dst s.mx.r.toNat s.mx.c.toNat])
    (storeMatrix s s.mx.r.toNat s.mx.c.toNat (fun i => Memory.read s.mem (s.mx.a.toNat + i))) s

/-- A byte with bit `p` set to `b` (R253). -/
def setBit (v : Byte) (p : Nat) (b : Bool) : Byte := if b then v ||| 1#8 <<< p else v &&& ~~~(1#8 <<< p)

/-- `MX_SETBIT` (R253). -/
def execMxSetbit (s : State) : Result :=
  let v := setBit (Memory.read s.mem (mxBitAddr s.mx)) (7 - s.mx.col.toNat % 8) s.mx.bitval
  runCommand .mxSetbit
    (dimChecks s.params [s.mx.r, s.mx.c] ++ indexCheck s.mx :: regionChecks s.params [mxRegionA s.mx] [])
    { s with mem := Memory.write s.mem (mxBitAddr s.mx) v } s

/-- `MX_GETBIT` (R254). -/
def execMxGetbit (s : State) : Result :=
  runCommand .mxGetbit
    (dimChecks s.params [s.mx.r, s.mx.c] ++ indexCheck s.mx :: regionChecks s.params [mxRegionA s.mx] [])
    (setMxRes s (boolDWord (matBit s.mem s.mx.a s.mx.c.toNat s.mx.row.toNat s.mx.col.toNat))) s

/-- `MX_EQUAL` (R255). -/
def execMxEqual (s : State) : Result :=
  runCommand .mxEqual
    (dimChecks s.params [s.mx.r, s.mx.c] ++
      regionChecks s.params [mxRegionA s.mx, matRegion s.mx.b s.mx.r.toNat s.mx.c.toNat] [])
    (setMxRes s (boolDWord (allBelow (s.mx.r.toNat * s.mx.c.toNat / 8)
      (fun i => Memory.read s.mem (s.mx.a.toNat + i) == Memory.read s.mem (s.mx.b.toNat + i))))) s

/-- `MX_ISZERO` (R256). -/
def execMxIszero (s : State) : Result :=
  runCommand .mxIszero
    (dimChecks s.params [s.mx.r, s.mx.c] ++ regionChecks s.params [mxRegionA s.mx] [])
    (setMxRes s (boolDWord (allBelow (s.mx.r.toNat * s.mx.c.toNat / 8)
      (fun i => Memory.read s.mem (s.mx.a.toNat + i) == 0x00#8)))) s

/-- `MX_MULVEC` (R257): vector bits at positions ≥ C are ignored. -/
def execMxMulvec (s : State) : Result :=
  runCommand .mxMulvec
    (dimChecks s.params [s.mx.r, s.mx.c] ++
      (decide (64 < s.mx.r.toNat ∨ 64 < s.mx.c.toNat), .badConfig) :: regionChecks s.params [mxRegionA s.mx] [])
    (setMxRes s (matVec s.mem s.mx.a s.mx.r.toNat s.mx.c.toNat (lowBits s.mx.c.toNat s.mx.vec))) s

/-- Bit (i, j) of the product of A (R×C) and B (C×X): the parity over k of `A.bit(i, k) & B.bit(k, j)` (R258). -/
def productBit (s : State) (i j : Nat) : Bool :=
  countBits s.mx.c.toNat (fun k =>
    matBit s.mem s.mx.a s.mx.c.toNat i k && matBit s.mem s.mx.b s.mx.x.toNat k j) % 2 == 1

/-- `MX_MULMAT` (R258). -/
def execMxMulmat (s : State) : Result :=
  runCommand .mxMulmat
    (dimChecks s.params [s.mx.r, s.mx.c, s.mx.x] ++
      regionChecks s.params [mxRegionA s.mx, matRegion s.mx.b s.mx.c.toNat s.mx.x.toNat]
        [matRegion s.mx.dst s.mx.r.toNat s.mx.x.toNat])
    (storeMatrix s s.mx.r.toNat s.mx.x.toNat (matByte s.mx.x.toNat (productBit s))) s

/-- `MX_TRANSPOSE` (R259): the destination is C rows by R columns. -/
def execMxTranspose (s : State) : Result :=
  runCommand .mxTranspose
    (dimChecks s.params [s.mx.r, s.mx.c] ++
      regionChecks s.params [mxRegionA s.mx] [matRegion s.mx.dst s.mx.c.toNat s.mx.r.toNat])
    (storeMatrix s s.mx.c.toNat s.mx.r.toNat
      (matByte s.mx.r.toNat (fun c r => matBit s.mem s.mx.a s.mx.c.toNat r c))) s

end Sys2Proof.Machine
end

