-- ==== Sys2Proof/Machine/Viterbi.lean ====
section
/-! DEFINITION. The Viterbi decoder (44_viterbi.md). -/

namespace Sys2Proof.Machine

/-- `NS = 2^(K−1)`, the number of trellis states (R211). -/
def decStates (c : DecConfig) : Nat := 2 ^ (c.k.toNat - 1)

/-- `MAX = 2^METRIC_W − 1`, the metric infinity (00_scope.md R10). -/
def metricMax (p : Params) : Nat := 2 ^ p.metricW - 1

/-- Slot `t` of the window RAM. -/
def slot (w : List StepRecord) (t : Nat) : StepRecord := w.getD t StepRecord.blank

/-- The record of `Fresh` (R213) in a slot that held `old`: the `ns` states of the session at the infinity values. -/
def freshRecord (ns max : Nat) (old : StepRecord) : StepRecord :=
  { m := List.replicate ns max ++ old.m.drop ns
    bit := List.replicate ns false ++ old.bit.drop ns
    prev := List.replicate ns 0 ++ old.prev.drop ns
    lo := 0
    lom := max }

/-- `Fresh(t)` (R213). -/
def fresh (ns max : Nat) (w : List StepRecord) (t : Nat) : List StepRecord :=
  setAt StepRecord.blank w t (freshRecord ns max (slot w t))

/-- The window of `VdInit` (R214): slots 0 .. D−1 fresh, the zero state of slot 0 at metric 0. -/
def initWindow (ns max d : Nat) (w : List StepRecord) : List StepRecord :=
  let v := (List.range d).map (fun t => freshRecord ns max (slot w t)) ++ w.drop d
  setAt StepRecord.blank v 0 { slot v 0 with m := setAt 0 (slot v 0).m 0 0, lo := 0, lom := 0 }

/-- `nextSR = s | (b << (K−1))` (R211). -/
def branchSr (c : DecConfig) (s : Nat) (b : Bool) : Word :=
  BitVec.ofNat 32 s ||| (if b then 1#32 <<< (c.k.toNat - 1) else 0#32)

/-- `BranchOut(s, b)` (R212): polynomial 0 highest. -/
def branchOut (c : DecConfig) (s : Nat) (b : Bool) : Byte :=
  packBits 8 c.n.toNat (fun j => parity (branchSr c s b &&& c.poly.getD (c.n.toNat - 1 - j) 0))

/-- `nextS = nextSR >> 1` (R211). -/
def branchTo (c : DecConfig) (s : Nat) (b : Bool) : Nat := (branchSr c s b >>> 1).toNat

/-- The candidate metric `min(m + hamming(o, rb), MAX)` of the transition (s, b) (R216). -/
def candidate (c : DecConfig) (max : Nat) (cur : StepRecord) (rb : Byte) (s : Nat) (b : Bool) : Nat :=
  min (cur.m.getD s 0 + hamming (branchOut c s b) rb) max

/-- One transition of add-compare-select into the record `nx`: the candidate is written when it is `<=` the stored metric
(R216, R217). -/
def acsBranch (c : DecConfig) (max : Nat) (cur : StepRecord) (rb : Byte) (s : Nat) (b : Bool) (nx : StepRecord) : StepRecord :=
  if candidate c max cur rb s b ≤ nx.m.getD (branchTo c s b) 0 then
    { nx with
      m := setAt 0 nx.m (branchTo c s b) (candidate c max cur rb s b)
      prev := setAt 0 nx.prev (branchTo c s b) s
      bit := setAt false nx.bit (branchTo c s b) b }
  else nx

/-- The two transitions of state `s`, b = 0 first; a state whose metric is MAX is skipped (R216). -/
def acsState (c : DecConfig) (max : Nat) (cur : StepRecord) (rb : Byte) (s : Nat) (nx : StepRecord) : StepRecord :=
  if cur.m.getD s 0 = max then nx
  else acsBranch c max cur rb s true (acsBranch c max cur rb s false nx)

/-- The states below `n`, in ascending order (R217). -/
def acsStates (c : DecConfig) (max : Nat) (cur : StepRecord) (rb : Byte) : Nat → StepRecord → StepRecord
  | 0, nx => nx
  | n + 1, nx => acsState c max cur rb n (acsStates c max cur rb n nx)

/-- `Lowest` (R218) over states 0 .. n: the lowest-numbered state of least metric, and its metric. -/
def lowest (m : List Nat) : Nat → Nat × Nat
  | 0 => (0, m.getD 0 0)
  | n + 1 => if m.getD (n + 1) 0 < (lowest m n).2 then (n + 1, m.getD (n + 1) 0) else lowest m n

/-- The record of the new step: add-compare-select over all states, then `(lo, lom)` (R216, R218). -/
def acsRecord (c : DecConfig) (max : Nat) (cur : StepRecord) (rb : Byte) (nx : StepRecord) : StepRecord :=
  let r := acsStates c max cur rb (decStates c) nx
  { r with lo := (lowest r.m (decStates c - 1)).1, lom := (lowest r.m (decStates c - 1)).2 }

/-- `n` back-pointers followed from state `x` of slot `t` in a ring of `d` slots (R219): the state and the slot reached. -/
def followBack (w : List StepRecord) (d : Nat) : Nat → Nat × Nat → Nat × Nat
  | 0, p => p
  | n + 1, (x, t) => followBack w d n ((slot w t).prev.getD x 0, (t + d - 1) % d)

/-- `Traceback(nx)` (R219). -/
def traceback (w : List StepRecord) (d nx : Nat) : Bool :=
  let p := followBack w d (d - 1) ((slot w nx).lo, nx)
  (slot w p.2).bit.getD p.1 false

/-- `EmitV(v)` (R222): the bit is OR-merged, no byte is cleared. -/
def emitV (v : Bool) (s : State) : State :=
  { s with
    mem := Memory.orBit s.mem (s.vd.lat.outBase.toNat + s.vd.out.byte.toNat) s.vd.out.bit.toNat v
    vd := { s.vd with out := s.vd.out.advance } }

/-- The slot after the newest, `(VD_WPOS + 1) mod D` (R216). -/
def nextSlot (d : Decoder) : Nat := (d.wpos.toNat + 1) % d.lat.depth.toNat

/-- Add-compare-select of `Step(rb)` (R216): the next slot's record written. -/
def acsStep (rb : Byte) (s : State) : State :=
  { s with vd := { s.vd with
      window := setAt StepRecord.blank s.vd.window (nextSlot s.vd)
        (acsRecord s.vd.lat (metricMax s.params) (slot s.vd.window s.vd.wpos.toNat) rb (slot s.vd.window (nextSlot s.vd))) } }

/-- Emission of `Step(rb)` (R219): one decoded bit once the window is full. -/
def emitStep (s : State) : State :=
  if s.vd.lat.depth.toNat - 1 ≤ s.vd.stepcnt.toNat then
    emitV (traceback s.vd.window s.vd.lat.depth.toNat (nextSlot s.vd)) s
  else s

/-- The step count, ring advance and best state of `Step(rb)` (R220, R221, R216). -/
def advanceStep (s : State) : State :=
  let nx := nextSlot s.vd
  { s with vd := { s.vd with
      stepcnt := if s.vd.stepcnt.toNat < s.vd.lat.depth.toNat - 1 then s.vd.stepcnt + 1 else s.vd.stepcnt
      wpos := BitVec.ofNat 16 nx
      window := fresh (decStates s.vd.lat) (metricMax s.params) s.vd.window ((nx + 1) % s.vd.lat.depth.toNat)
      bestState := BitVec.ofNat 16 (slot s.vd.window nx).lo
      bestMetric := BitVec.ofNat 32 (slot s.vd.window nx).lom } }

/-- `Step(rb)` (R216). -/
def trellisStep (rb : Byte) (s : State) : State := advanceStep (emitStep (acsStep rb s))

/-- The decoder with one more received bit pending (R215). -/
def shiftRx (d : Decoder) (b : Bool) : Decoder :=
  { d with rxBits := d.rxBits <<< 1 ||| (if b then 1#8 else 0#8), rxCnt := d.rxCnt + 1 }

/-- The decoder with no received bit pending. -/
def clearRx (d : Decoder) : Decoder := { d with rxBits := 0, rxCnt := 0 }

/-- One received bit (R215, R224): a trellis step runs when n bits are there. -/
def decBit (b : Bool) (s : State) : State :=
  let s1 := { s with vd := shiftRx s.vd b }
  if s1.vd.rxCnt.toNat = s1.vd.lat.n.toNat then
    let s2 := trellisStep s1.vd.rxBits s1
    { s2 with vd := clearRx s2.vd }
  else s1

/-- One received byte, bit 7 first (R224). -/
def decByte (b : Byte) (s : State) : State :=
  [7, 6, 5, 4, 3, 2, 1, 0].foldl (fun t p => decBit (b.getLsbD p) t) s

/-- The `n` received bytes from address `a` on, in address order (R224). -/
def decBytes : Nat → Nat → State → State
  | 0, _, s => s
  | n + 1, a, s => decBytes n (a + 1) (decByte (Memory.read s.mem a) s)

/-- The trellis steps the next `VD_DECODE` runs (R224). -/
def decodeSteps (s : State) : Nat := (s.vd.rxCnt.toNat + 8 * s.ctl.srcLen.toNat) / s.vd.lat.n.toNat

/-- The bits the next `VD_DECODE` emits: `max(0, T − max(0, D − 1 − VD_STEPCNT))` (R224). -/
def decodeEmits (s : State) : Nat := decodeSteps s - (s.vd.lat.depth.toNat - 1 - s.vd.stepcnt.toNat)

/-- The bits the next `VD_FLUSH` emits: `min(VD_STEPCNT, D − 1)` (R225). -/
def decFlushEmits (s : State) : Nat := min s.vd.stepcnt.toNat (s.vd.lat.depth.toNat - 1)

/-- `OutRegionV(E)` (R224). -/
def decOutRegion (s : State) (e : Nat) : Region := s.vd.out.region s.vd.lat.outBase e

/-- The bits of the flush's walk (R225): `n` presumed input bits collected from state `x` of slot `t` backwards, put before
`later`, so that the list is in forward order. -/
def walkBack (w : List StepRecord) (d : Nat) : Nat → Nat → Nat → List Bool → List Bool
  | 0, _, _, later => later
  | n + 1, x, t, later =>
    walkBack w d n ((slot w t).prev.getD x 0) ((t + d - 1) % d) ((slot w t).bit.getD x false :: later)

/-- Decoded bits emitted in order (R225). -/
def emitAll (bits : List Bool) (s : State) : State := bits.foldl (fun t v => emitV v t) s

/-- `VD_RESET` (R223). -/
def execVdReset (s : State) : Result :=
  runCommand .vdReset
    [ (!decide (decLegal s.params s.vd.cfg), .badConfig),
      (!decide (Region.inRange s.params ⟨s.vd.cfg.outBase.toNat, s.vd.cfg.outLimit.toNat⟩), .range) ]
    { s with vd := { s.vd with
        lat := { s.vd.cfg with poly := latchPolys s.params s.vd.cfg.poly s.vd.lat.poly }
        window := initWindow (decStates s.vd.cfg) (metricMax s.params) s.vd.cfg.depth.toNat s.vd.window
        wpos := 0
        stepcnt := 0
        out := Cursor.start
        rxCnt := 0
        rxBits := 0
        bestState := 0
        bestMetric := 0
        session := .active } }
    s

/-- `VD_DECODE` (R224). -/
def execVdDecode (s : State) : Result :=
  runCommand .vdDecode
    [ (decide (s.vd.session = .idle), .notReset),
      (decide (s.vd.session = .spent), .spent),
      (!decide (Region.inRange s.params (srcRegion s)), .range),
      (decide (0 < decodeEmits s ∧ Region.overlaps (srcRegion s) (decOutRegion s (decodeEmits s))), .overlap),
      (decide (8 * s.vd.lat.outLimit.toNat < s.vd.out.pos + decodeEmits s), .outOverflow) ]
    (decBytes s.ctl.srcLen.toNat s.ctl.srcAddr.toNat s)
    s

/-- `VD_FLUSH` (R225). -/
def execVdFlush (s : State) : Result :=
  runCommand .vdFlush
    [ (decide (s.vd.session = .idle), .notReset),
      (decide (s.vd.session = .spent), .spent),
      (decide (8 * s.vd.lat.outLimit.toNat < s.vd.out.pos + decFlushEmits s), .outOverflow) ]
    (let t := emitAll (walkBack s.vd.window s.vd.lat.depth.toNat (decFlushEmits s)
        (slot s.vd.window s.vd.wpos.toNat).lo s.vd.wpos.toNat []) s
     { t with vd := { clearRx t.vd with session := .spent } })
    s

/-- The byte count of `VD_CALCSIZE` for `I` encoded bytes (R226). -/
def decSize (c : DecConfig) (bytes : Nat) : Nat :=
  (bytes - ceilDiv (c.k.toNat * c.n.toNat) 8) / c.n.toNat + ceilDiv (c.k.toNat * c.n.toNat) 8

/-- `VD_CALCSIZE` (R226). -/
def execVdCalcsize (arg : BitVec 24) (s : State) : Result :=
  runCommand (.vdCalcsize arg) [(!decide (decRateLegal s.params s.vd.cfg), .badConfig)]
    { s with vd := { s.vd with size := BitVec.ofNat 32 (decSize s.vd.cfg arg.toNat) } } s

end Sys2Proof.Machine
end

