-- ==== Sys2Proof/Machine/Dispatch.lean ====
section
/-! DEFINITION. The dispatch of `Execute` (30_encoding.md R137): one arm per command. -/

namespace Sys2Proof.Machine

def exec (i : Instr) (s : State) : Host.Outcome State Fault Refusal :=
  match i with
  | .nop => Sys2Proof.Machine.execNop s
  | .softReset => Sys2Proof.Machine.execSoftReset s
  | .ceReset => Sys2Proof.Machine.execCeReset s
  | .ceEncode => Sys2Proof.Machine.execCeEncode s
  | .ceFlush => Sys2Proof.Machine.execCeFlush s
  | .ceCalcsize arg => Sys2Proof.Machine.execCeCalcsize arg s
  | .vdReset => Sys2Proof.Machine.execVdReset s
  | .vdDecode => Sys2Proof.Machine.execVdDecode s
  | .vdFlush => Sys2Proof.Machine.execVdFlush s
  | .vdCalcsize arg => Sys2Proof.Machine.execVdCalcsize arg s
  | .mxZero => Sys2Proof.Machine.execMxZero s
  | .mxCopy => Sys2Proof.Machine.execMxCopy s
  | .mxSetbit => Sys2Proof.Machine.execMxSetbit s
  | .mxGetbit => Sys2Proof.Machine.execMxGetbit s
  | .mxEqual => Sys2Proof.Machine.execMxEqual s
  | .mxIszero => Sys2Proof.Machine.execMxIszero s
  | .mxMulvec => Sys2Proof.Machine.execMxMulvec s
  | .mxMulmat => Sys2Proof.Machine.execMxMulmat s
  | .mxTranspose => Sys2Proof.Machine.execMxTranspose s
  | .bcEncode => Sys2Proof.Machine.execBcEncode s
  | .bcDecode => Sys2Proof.Machine.execBcDecode s
  | .crcPreset arg => Sys2Proof.Machine.execCrcPreset arg s
  | .crcInit => Sys2Proof.Machine.execCrcInit s
  | .crcUpdate => Sys2Proof.Machine.execCrcUpdate s
  | .crcFinal => Sys2Proof.Machine.execCrcFinal s
  | .buParity => Sys2Proof.Machine.execBuParity s
  | .buPopcount => Sys2Proof.Machine.execBuPopcount s
  | .buHamdist => Sys2Proof.Machine.execBuHamdist s
  | .buRev8 => Sys2Proof.Machine.execBuRev8 s
  | .buRev32 => Sys2Proof.Machine.execBuRev32 s
  | .mgInit => Sys2Proof.Machine.execMgInit s
  | .mgNext => Sys2Proof.Machine.execMgNext s

end Sys2Proof.Machine
end

