-- ==== Sys2Proof/Machine/Engine.lean ====
section
/-! DEFINITION. The core step (10_state.md R94): `Execute` of the pending word, then completion. -/

namespace Sys2Proof.Machine

/-- `Execute(w)` (30_encoding.md R137): a word that is no command raises `BAD_CMD`, with the word's own opcode recorded. -/
def execute (w : Word) (s : State) : Result :=
  match decode w with
  | .ok i => exec i s
  | .error _ => .next (recordError s .badCmd (opOf w))

/-- A result with the command completed: `PENDING <- none; DONE <- 1`. -/
def completeResult (r : Result) : Result :=
  match r with
  | .next t => .next (completeCommand t)
  | .fault f => .fault f
  | .refused x => .refused x

/-- `CoreStep` (R94). With no command pending the core is idle and keeps its state (60_exceptions.md R338, log 21). -/
def coreStep (s : State) : Result :=
  match s.ctl.pending with
  | none => .next s
  | some w => completeResult (execute w s)

/-- The state with the listed turns. -/
def setTurns (s : State) (l : List Turn) : State := { s with host := { s.host with turns := l } }

end Sys2Proof.Machine
end

