-- ==== Sys2Proof/Machine/Footprint.lean ====
section
/-! DEFINITION. The footprint of a command (20_memory.md R118): the buffer-memory regions it reads and writes. -/

namespace Sys2Proof.Machine

/-- The output bytes of an encoder command that emits `e` bits; none where it emits none or no session ever began (the
latched copies are then unspecified and no rule reads them, 70_reset_and_hazards.md R350; log 15). -/
def encOutBytes (s : State) (e : Nat) : List Region :=
  if s.ce.session = .idle ∨ e = 0 then [] else [encOutRegion s e]

/-- The output bytes of a decoder command that emits `e` bits (log 15). -/
def decOutBytes (s : State) (e : Nat) : List Region :=
  if s.vd.session = .idle ∨ e = 0 then [] else [decOutRegion s e]

/-- The read regions of R118. -/
def readRegions (s : State) : Instr → List Region
  | .ceEncode | .crcUpdate => [srcRegion s]
  | .vdDecode => srcRegion s :: decOutBytes s (decodeEmits s)
  | .vdFlush => decOutBytes s (decFlushEmits s)
  | .mxCopy | .mxIszero | .mxMulvec | .mxTranspose => [mxRegionA s.mx]
  | .mxSetbit | .mxGetbit => [⟨mxBitAddr s.mx, 1⟩]
  | .mxEqual => [mxRegionA s.mx, matRegion s.mx.b s.mx.r.toNat s.mx.c.toNat]
  | .mxMulmat => [mxRegionA s.mx, matRegion s.mx.b s.mx.c.toNat s.mx.x.toNat]
  | .bcEncode => [bcRegionG s.bc]
  | .bcDecode => [bcRegionH s.bc, bcRegionD s.bc]
  | .nop | .softReset | .ceReset | .ceFlush | .ceCalcsize _ | .vdReset | .vdCalcsize _ | .mxZero => []
  | .crcPreset _ | .crcInit | .crcFinal | .buParity | .buPopcount | .buHamdist | .buRev8 | .buRev32 | .mgInit | .mgNext => []

/-- The written regions of R118. -/
def writeRegions (s : State) : Instr → List Region
  | .ceEncode => encOutBytes s (encodeEmits s)
  | .ceFlush => encOutBytes s (flushEmits s)
  | .vdDecode => decOutBytes s (decodeEmits s)
  | .vdFlush => decOutBytes s (decFlushEmits s)
  | .mxZero | .mxCopy => [matRegion s.mx.dst s.mx.r.toNat s.mx.c.toNat]
  | .mxSetbit => [⟨mxBitAddr s.mx, 1⟩]
  | .mxMulmat => [matRegion s.mx.dst s.mx.r.toNat s.mx.x.toNat]
  | .mxTranspose => [matRegion s.mx.dst s.mx.c.toNat s.mx.r.toNat]
  | .nop | .softReset | .ceReset | .ceCalcsize _ | .vdReset | .vdCalcsize _ => []
  | .mxGetbit | .mxEqual | .mxIszero | .mxMulvec | .bcEncode | .bcDecode => []
  | .crcPreset _ | .crcInit | .crcUpdate | .crcFinal => []
  | .buParity | .buPopcount | .buHamdist | .buRev8 | .buRev32 | .mgInit | .mgNext => []

/-- The byte at `a` is in one of the regions. -/
def inRegions (l : List Region) (a : Nat) : Bool := l.any (fun g => decide (Region.has g a))

/-- The byte at `a` is in the footprint of the pending command (R118, 70_reset_and_hazards.md R357). A word that is no command
touches nothing. -/
def inPendingFootprint (s : State) (a : Nat) : Bool :=
  match s.ctl.pending with
  | none => false
  | some w =>
    match decode w with
    | .error _ => false
    | .ok i => inRegions (readRegions s i ++ writeRegions s i) a

/-- The byte at `a` is in the output region of an ACTIVE session (70_reset_and_hazards.md R358). -/
def inSessionOutput (s : State) (a : Nat) : Bool :=
  (decide (s.ce.session = .active ∧ Region.has ⟨s.ce.lat.outBase.toNat, s.ce.lat.outLimit.toNat⟩ a)) ||
  (decide (s.vd.session = .active ∧ Region.has ⟨s.vd.lat.outBase.toNat, s.vd.lat.outLimit.toNat⟩ a))

end Sys2Proof.Machine
end

