-- ==== Sys2Proof/Machine/Flags.lean ====
section
/-! DEFINITION. The status bits (10_state.md R39, R95), the error codes (60_exceptions.md R323) and the interrupt line
(60_exceptions.md R327). The core has no condition codes. -/

namespace Sys2Proof.Machine

/-- `STATUS.ERR_CODE` of each error (60_exceptions.md R323). -/
def ErrCode.code : ErrCode → Byte
  | .none => 0x00#8
  | .badCmd => 0x01#8
  | .notReset => 0x02#8
  | .spent => 0x03#8
  | .badConfig => 0x04#8
  | .range => 0x05#8
  | .overlap => 0x06#8
  | .outOverflow => 0x07#8
  | .index => 0x08#8

/-- `STATE` of a session register (10_state.md R51, R63). -/
def Session.code : Session → BitVec 2
  | .idle => 0#2
  | .active => 1#2
  | .spent => 2#2

/-- `STATUS.BUSY`: 1 exactly when a command is pending (10_state.md R91). -/
def busy (s : State) : Bool := s.ctl.pending.isSome

/-- The word a host read of `STATUS` returns (10_state.md R39). -/
def statusWord (s : State) : Word :=
  0#8 ++ s.ctl.errOp ++ s.ctl.errCode.code ++ 0#4 ++ BitVec.ofBool s.ctl.overrun ++ BitVec.ofBool s.ctl.err ++
    BitVec.ofBool s.ctl.done ++ BitVec.ofBool (busy s)

/-- A host write of `v` to `STATUS`: write 1 to clear (10_state.md R39). Bit 2 clears `ERR`, `ERR_CODE` and `ERR_OP`. -/
def writeStatus (c : Control) (v : Word) : Control :=
  { c with
    done := c.done && !v.getLsbD 1
    overrun := c.overrun && !v.getLsbD 3
    err := c.err && !v.getLsbD 2
    errCode := if v.getLsbD 2 then .none else c.errCode
    errOp := if v.getLsbD 2 then 0#8 else c.errOp }

/-- The word a host read of `IRQ_EN` returns (10_state.md R40). -/
def irqEnWord (c : Control) : Word := 0#30 ++ BitVec.ofBool c.errIe ++ BitVec.ofBool c.doneIe

/-- The interrupt line (60_exceptions.md R327). -/
def irq (s : State) : Bool := (s.ctl.done && s.ctl.doneIe) || ((s.ctl.err || s.ctl.overrun) && s.ctl.errIe)

/-- `OVERRUN` set by a host write the busy core does not take (60_exceptions.md R325). -/
def setOverrun (s : State) : State := { s with ctl := { s.ctl with overrun := true } }

/-- `MG_STATE` (10_state.md R90). -/
def mgStateWord (g : MaskUnit) : Word := 0#30 ++ BitVec.ofBool g.done ++ BitVec.ofBool g.valid

/-- `CRC_CFG` (10_state.md R83). -/
def crcCfgWord (c : CrcUnit) : Word := 0#29 ++ BitVec.ofBool c.refout ++ BitVec.ofBool c.refin ++ BitVec.ofBool c.w32

end Sys2Proof.Machine
end

