-- ==== Sys2Proof/Machine/Registers.lean ====
section
/-! DEFINITION. The register window (10_state.md R31 to R90): which register an offset selects, what a host read returns,
what a host write changes while the core is idle. -/

namespace Sys2Proof.Machine

/-- R33: the control rows of the register map. -/
def controlRegisters : List (Nat × Reg) :=
  [ (0x000, .id), (0x004, .cap0), (0x008, .cap1), (0x00C, .cap2), (0x010, .cmd), (0x014, .status), (0x018, .irqEn),
    (0x01C, .cmdLast), (0x020, .srcAddr), (0x024, .srcLen) ]

/-- R33: the encoder rows of the register map. -/
def encoderRegisters : List (Nat × Reg) :=
  [ (0x100, .ceK), (0x104, .ceN), (0x108, .cePlen), (0x10C, .cePmask), (0x110, .ceOutBase), (0x114, .ceOutLimit),
    (0x120, .cePoly 0), (0x124, .cePoly 1), (0x128, .cePoly 2), (0x12C, .cePoly 3), (0x130, .cePoly 4),
    (0x134, .cePoly 5), (0x138, .cePoly 6), (0x13C, .cePoly 7), (0x140, .ceSession), (0x144, .ceSr),
    (0x148, .ceOutByte), (0x14C, .ceOutBit), (0x150, .cePcur), (0x154, .ceInBytes), (0x158, .ceSize) ]

/-- R33: the decoder rows of the register map. -/
def decoderRegisters : List (Nat × Reg) :=
  [ (0x200, .vdK), (0x204, .vdN), (0x208, .vdDepth), (0x210, .vdOutBase), (0x214, .vdOutLimit), (0x220, .vdPoly 0),
    (0x224, .vdPoly 1), (0x228, .vdPoly 2), (0x22C, .vdPoly 3), (0x230, .vdPoly 4), (0x234, .vdPoly 5),
    (0x238, .vdPoly 6), (0x23C, .vdPoly 7), (0x240, .vdSession), (0x244, .vdWpos), (0x248, .vdStepcnt),
    (0x24C, .vdOutByte), (0x250, .vdOutBit), (0x254, .vdRxCnt), (0x258, .vdRxBits), (0x25C, .vdBestState),
    (0x260, .vdBestMetric), (0x264, .vdSize) ]

/-- R33: the matrix rows of the register map. -/
def matrixRegisters : List (Nat × Reg) :=
  [ (0x300, .mxA), (0x304, .mxB), (0x308, .mxDst), (0x30C, .mxR), (0x310, .mxC), (0x314, .mxX), (0x318, .mxRow),
    (0x31C, .mxCol), (0x320, .mxBitval), (0x324, .mxVecLo), (0x328, .mxVecHi), (0x32C, .mxResLo), (0x330, .mxResHi) ]

/-- R33: the block rows of the register map. -/
def blockRegisters : List (Nat × Reg) :=
  [ (0x400, .bcG), (0x404, .bcH), (0x408, .bcD), (0x40C, .bcCwW), (0x410, .bcSrcW), (0x414, .bcSynW),
    (0x418, .bcMaxerr), (0x420, .bcInLo), (0x424, .bcInHi), (0x428, .bcOutLo), (0x42C, .bcOutHi), (0x430, .bcOk),
    (0x434, .bcSynLo), (0x438, .bcSynHi), (0x43C, .bcMaskLo), (0x440, .bcMaskHi) ]

/-- R33: the CRC, bit-utility and mask-generator rows of the register map. -/
def utilityRegisters : List (Nat × Reg) :=
  [ (0x500, .crcCfg), (0x504, .crcPoly), (0x508, .crcInit), (0x50C, .crcXorout), (0x510, .crcAcc),
    (0x514, .crcResult), (0x600, .buALo), (0x604, .buAHi), (0x608, .buBLo), (0x60C, .buBHi), (0x610, .buResLo),
    (0x614, .buResHi), (0x700, .mgL), (0x704, .mgK), (0x708, .mgMaskLo), (0x70C, .mgMaskHi), (0x710, .mgState) ]

/-- The register map (R33). -/
def registerMap : List (Nat × Reg) :=
  controlRegisters ++ encoderRegisters ++ decoderRegisters ++ matrixRegisters ++ blockRegisters ++ utilityRegisters

/-- The register at a byte offset of the window; none where no register is (R32: RAZ/WI). -/
def regAt (offset : Nat) : Option Reg := (registerMap.find? (fun e => e.1 == offset)).map (·.2)

/-- `CAP0` (R35). -/
def cap0Word (p : Params) : Word :=
  BitVec.ofNat 8 p.maskKMax ++ BitVec.ofNat 8 p.vdKMax ++ BitVec.ofNat 8 p.nMax ++ BitVec.ofNat 8 p.ceKMax

/-- `CAP1` (R36). -/
def cap1Word (p : Params) : Word := BitVec.ofNat 8 p.metricW ++ BitVec.ofNat 8 p.addrW ++ BitVec.ofNat 16 p.vdDMax

/-- `CAP2` (R37). -/
def cap2Word (p : Params) : Word := BitVec.ofNat 32 (p.mxDimMax % 2 ^ 16)

/-- `_POLYj` read: registers with j ≥ `N_MAX` read as zero (R50, R62). -/
def polyWord (p : Params) (l : List Word) (j : Nat) : Word := if j < p.nMax then l.getD j 0 else 0

/-- The polynomials after a host write to `_POLYj`: registers with j ≥ `N_MAX` ignore writes (R50, R62). -/
def setPoly (p : Params) (l : List Word) (j : Nat) (v : Word) : List Word := if j < p.nMax then setAt 0 l j v else l

/-- The value of a register (R34 to R90): what a host read returns while the core is idle. Bits no field occupies read 0;
`CMD` is write-only (R38). `CRC_ACC` and `CRC_RESULT` show bits T−1:0 for the width T now configured, upper bits 0 (R85, log 20). -/
def readReg (s : State) : Reg → Word
  | .id => 0x46454331#32
  | .cap0 => cap0Word s.params
  | .cap1 => cap1Word s.params
  | .cap2 => cap2Word s.params
  | .cmd => 0
  | .status => statusWord s
  | .irqEn => irqEnWord s.ctl
  | .cmdLast => s.ctl.cmdLast
  | .srcAddr => s.ctl.srcAddr
  | .srcLen => s.ctl.srcLen
  | .ceK => s.ce.cfg.k.setWidth 32
  | .ceN => s.ce.cfg.n.setWidth 32
  | .cePlen => s.ce.cfg.plen.setWidth 32
  | .cePmask => s.ce.cfg.pmask
  | .ceOutBase => s.ce.cfg.outBase
  | .ceOutLimit => s.ce.cfg.outLimit
  | .cePoly j => polyWord s.params s.ce.cfg.poly j.val
  | .ceSession => s.ce.session.code.setWidth 32
  | .ceSr => s.ce.sr
  | .ceOutByte => s.ce.out.byte
  | .ceOutBit => s.ce.out.bit.setWidth 32
  | .cePcur => s.ce.pcur.setWidth 32
  | .ceInBytes => s.ce.inBytes
  | .ceSize => s.ce.size
  | .vdK => s.vd.cfg.k.setWidth 32
  | .vdN => s.vd.cfg.n.setWidth 32
  | .vdDepth => s.vd.cfg.depth.setWidth 32
  | .vdOutBase => s.vd.cfg.outBase
  | .vdOutLimit => s.vd.cfg.outLimit
  | .vdPoly j => polyWord s.params s.vd.cfg.poly j.val
  | .vdSession => s.vd.session.code.setWidth 32
  | .vdWpos => s.vd.wpos.setWidth 32
  | .vdStepcnt => s.vd.stepcnt.setWidth 32
  | .vdOutByte => s.vd.out.byte
  | .vdOutBit => s.vd.out.bit.setWidth 32
  | .vdRxCnt => s.vd.rxCnt.setWidth 32
  | .vdRxBits => s.vd.rxBits.setWidth 32
  | .vdBestState => s.vd.bestState.setWidth 32
  | .vdBestMetric => s.vd.bestMetric
  | .vdSize => s.vd.size
  | .mxA => s.mx.a
  | .mxB => s.mx.b
  | .mxDst => s.mx.dst
  | .mxR => s.mx.r.setWidth 32
  | .mxC => s.mx.c.setWidth 32
  | .mxX => s.mx.x.setWidth 32
  | .mxRow => s.mx.row.setWidth 32
  | .mxCol => s.mx.col.setWidth 32
  | .mxBitval => (BitVec.ofBool s.mx.bitval).setWidth 32
  | .mxVecLo => loWord s.mx.vec
  | .mxVecHi => hiWord s.mx.vec
  | .mxResLo => loWord s.mx.res
  | .mxResHi => hiWord s.mx.res
  | .bcG => s.bc.g
  | .bcH => s.bc.h
  | .bcD => s.bc.d
  | .bcCwW => s.bc.cwW.setWidth 32
  | .bcSrcW => s.bc.srcW.setWidth 32
  | .bcSynW => s.bc.synW.setWidth 32
  | .bcMaxerr => s.bc.maxerr.setWidth 32
  | .bcInLo => loWord s.bc.input
  | .bcInHi => hiWord s.bc.input
  | .bcOutLo => loWord s.bc.out
  | .bcOutHi => hiWord s.bc.out
  | .bcOk => (BitVec.ofBool s.bc.ok).setWidth 32
  | .bcSynLo => loWord s.bc.syn
  | .bcSynHi => hiWord s.bc.syn
  | .bcMaskLo => loWord s.bc.mask
  | .bcMaskHi => hiWord s.bc.mask
  | .crcCfg => crcCfgWord s.crc
  | .crcPoly => s.crc.poly
  | .crcInit => s.crc.init
  | .crcXorout => s.crc.xorout
  | .crcAcc => crcMask s.crc s.crc.acc
  | .crcResult => crcMask s.crc s.crc.result
  | .buALo => loWord s.bu.a
  | .buAHi => hiWord s.bu.a
  | .buBLo => loWord s.bu.b
  | .buBHi => hiWord s.bu.b
  | .buResLo => loWord s.bu.res
  | .buResHi => hiWord s.bu.res
  | .mgL => s.mg.l.setWidth 32
  | .mgK => s.mg.k.setWidth 32
  | .mgMaskLo => loWord s.mg.mask
  | .mgMaskHi => hiWord s.mg.mask
  | .mgState => mgStateWord s.mg

/-- The state after a host write of `v` to a register while the core is idle (R32 to R90): an RW field takes its bits, an RO
register ignores the write, `STATUS` is write-1-to-clear, `CMD` accepts the word (R38). -/
def writeReg (s : State) (r : Reg) (v : Word) : State :=
  match r with
  | .id | .cap0 | .cap1 | .cap2 | .cmdLast => s
  | .cmd => acceptCommand s v
  | .status => { s with ctl := writeStatus s.ctl v }
  | .irqEn => { s with ctl := { s.ctl with doneIe := v.getLsbD 0, errIe := v.getLsbD 1 } }
  | .srcAddr => { s with ctl := { s.ctl with srcAddr := addrField s.params v } }
  | .srcLen => { s with ctl := { s.ctl with srcLen := v } }
  | .ceK => { s with ce := { s.ce with cfg := { s.ce.cfg with k := v.setWidth 6 } } }
  | .ceN => { s with ce := { s.ce with cfg := { s.ce.cfg with n := v.setWidth 4 } } }
  | .cePlen => { s with ce := { s.ce with cfg := { s.ce.cfg with plen := v.setWidth 6 } } }
  | .cePmask => { s with ce := { s.ce with cfg := { s.ce.cfg with pmask := v } } }
  | .ceOutBase => { s with ce := { s.ce with cfg := { s.ce.cfg with outBase := addrField s.params v } } }
  | .ceOutLimit => { s with ce := { s.ce with cfg := { s.ce.cfg with outLimit := v } } }
  | .cePoly j => { s with ce := { s.ce with cfg := { s.ce.cfg with poly := setPoly s.params s.ce.cfg.poly j.val v } } }
  | .ceSession | .ceSr | .ceOutByte | .ceOutBit | .cePcur | .ceInBytes | .ceSize => s
  | .vdK => { s with vd := { s.vd with cfg := { s.vd.cfg with k := v.setWidth 6 } } }
  | .vdN => { s with vd := { s.vd with cfg := { s.vd.cfg with n := v.setWidth 4 } } }
  | .vdDepth => { s with vd := { s.vd with cfg := { s.vd.cfg with depth := v.setWidth 16 } } }
  | .vdOutBase => { s with vd := { s.vd with cfg := { s.vd.cfg with outBase := addrField s.params v } } }
  | .vdOutLimit => { s with vd := { s.vd with cfg := { s.vd.cfg with outLimit := v } } }
  | .vdPoly j => { s with vd := { s.vd with cfg := { s.vd.cfg with poly := setPoly s.params s.vd.cfg.poly j.val v } } }
  | .vdSession | .vdWpos | .vdStepcnt | .vdOutByte | .vdOutBit | .vdRxCnt | .vdRxBits => s
  | .vdBestState | .vdBestMetric | .vdSize => s
  | .mxA => { s with mx := { s.mx with a := addrField s.params v } }
  | .mxB => { s with mx := { s.mx with b := addrField s.params v } }
  | .mxDst => { s with mx := { s.mx with dst := addrField s.params v } }
  | .mxR => { s with mx := { s.mx with r := v.setWidth 16 } }
  | .mxC => { s with mx := { s.mx with c := v.setWidth 16 } }
  | .mxX => { s with mx := { s.mx with x := v.setWidth 16 } }
  | .mxRow => { s with mx := { s.mx with row := v.setWidth 16 } }
  | .mxCol => { s with mx := { s.mx with col := v.setWidth 16 } }
  | .mxBitval => { s with mx := { s.mx with bitval := v.getLsbD 0 } }
  | .mxVecLo => { s with mx := { s.mx with vec := setLo s.mx.vec v } }
  | .mxVecHi => { s with mx := { s.mx with vec := setHi s.mx.vec v } }
  | .mxResLo | .mxResHi => s
  | .bcG => { s with bc := { s.bc with g := addrField s.params v } }
  | .bcH => { s with bc := { s.bc with h := addrField s.params v } }
  | .bcD => { s with bc := { s.bc with d := addrField s.params v } }
  | .bcCwW => { s with bc := { s.bc with cwW := v.setWidth 8 } }
  | .bcSrcW => { s with bc := { s.bc with srcW := v.setWidth 8 } }
  | .bcSynW => { s with bc := { s.bc with synW := v.setWidth 8 } }
  | .bcMaxerr => { s with bc := { s.bc with maxerr := v.setWidth 4 } }
  | .bcInLo => { s with bc := { s.bc with input := setLo s.bc.input v } }
  | .bcInHi => { s with bc := { s.bc with input := setHi s.bc.input v } }
  | .bcOutLo | .bcOutHi | .bcOk | .bcSynLo | .bcSynHi | .bcMaskLo | .bcMaskHi => s
  | .crcCfg => { s with crc := { s.crc with w32 := v.getLsbD 0, refin := v.getLsbD 1, refout := v.getLsbD 2 } }
  | .crcPoly => { s with crc := { s.crc with poly := v } }
  | .crcInit => { s with crc := { s.crc with init := v } }
  | .crcXorout => { s with crc := { s.crc with xorout := v } }
  | .crcAcc | .crcResult => s
  | .buALo => { s with bu := { s.bu with a := setLo s.bu.a v } }
  | .buAHi => { s with bu := { s.bu with a := setHi s.bu.a v } }
  | .buBLo => { s with bu := { s.bu with b := setLo s.bu.b v } }
  | .buBHi => { s with bu := { s.bu with b := setHi s.bu.b v } }
  | .buResLo | .buResHi => s
  | .mgL => { s with mg := { s.mg with l := v.setWidth 7 } }
  | .mgK => { s with mg := { s.mg with k := v.setWidth 4 } }
  | .mgMaskLo | .mgMaskHi | .mgState => s

/-- The registers a host reads as usual while the core is busy (R93). -/
def readableBusy : Reg → Bool
  | .id | .cap0 | .cap1 | .cap2 | .status | .irqEn | .cmdLast => true
  | _ => false

/-- The registers a host writes as usual while the core is busy (R92); a `CMD` write is dropped with `OVERRUN` (R38). -/
def writableBusy : Reg → Bool
  | .status | .irqEn => true
  | _ => false

end Sys2Proof.Machine
end

