-- ==== Sys2Proof/Machine/HostAccess.lean ====
section
/-! DEFINITION. What an access of the host does (10_state.md R31, R32, R38, R92, R93; 70_reset_and_hazards.md R350, R355 to
R358). -/

namespace Sys2Proof.Machine

/-- The register window is 4096 bytes (R31). -/
def windowBytes : Nat := 4096

/-- The byte offset in the register window, which lies at `REG_BASE`, of an address of the host's map (20_memory.md R109);
none outside the window (R31). -/
def windowOffset (p : Params) (address : Nat) : Option Nat :=
  if p.regBase ≤ address ∧ address < p.regBase + windowBytes then some (address - p.regBase) else none

/-- The offset a register access selects: it has a meaning when it is a naturally aligned 32-bit one inside the register
window (R31; the alignment is that of the offset, log 11). -/
def registerOffset (p : Params) (address bytes : Nat) : Option Nat :=
  match windowOffset p address with
  | none => none
  | some off => if bytes = 4 ∧ off % 4 = 0 then some off else none

/-- What a host register read returns goes to the host (log 13); nothing else changes (20_memory.md R102). -/
def returnReg (s : State) (v : Word) : State := { s with host := { s.host with regData := v } }

/-- The free value of a read while busy (R93, log 6). -/
def returnFree (s : State) : State :=
  { s with host := { s.host with regData := Config.freeWord s.host.freeCount, freeCount := s.host.freeCount + 1 } }

/-- A host read of the register at an offset: RAZ where there is none (R32; also while busy, log 17). -/
def hostReadReg (s : State) (r : Option Reg) : State :=
  match r with
  | none => returnReg s 0
  | some r => if busy s && !readableBusy r then returnFree s else returnReg s (readReg s r)

/-- A host write to the register at an offset: WI where there is none (R32; also while busy, log 17); dropped with `OVERRUN`
while busy (R38, R92, R325). -/
def hostWriteReg (s : State) (r : Option Reg) (v : Word) : State :=
  match r with
  | none => s
  | some r => if busy s && !writableBusy r then setOverrun s else writeReg s r v

/-- The byte at `a` exists (R101). -/
def inMemory (s : State) (a : Nat) : Bool := decide (a < 2 ^ s.params.addrW)

/-- An access of the host. -/
def hostAccess (a : HostAccess) (s : State) : Result :=
  match a with
  | .regRead x bytes =>
    match registerOffset s.params x bytes with
    | none => .refused .registerAccess
    | some off => .next (hostReadReg s (regAt off))
  | .regWrite x bytes v =>
    match registerOffset s.params x bytes with
    | none => .refused .registerAccess
    | some off => .next (hostWriteReg s (regAt off) v)
  | .memRead x =>
    if !inMemory s x then .fault .noSuchAddress
    else if inPendingFootprint s x then .fault .pendingFootprint
    else .next { s with host := { s.host with memData := Memory.read s.mem x } }
  | .memWrite x v =>
    if !inMemory s x then .fault .noSuchAddress
    else if inPendingFootprint s x then .fault .pendingFootprint
    else if inSessionOutput s x then .fault .sessionOutput
    else .next { s with mem := Memory.write s.mem x v }
  | .powerReset => .next (powerReset s)

end Sys2Proof.Machine
end

