-- ==== Sys2Proof/Machine/Step.lean ====
section
/-! DEFINITION. One step of the machine: the agent whose turn it is moves (00_scope.md R8, 10_state.md R94). -/

namespace Sys2Proof.Machine

/-- One step (log 4): the first listed turn is taken; with none listed the core moves, so that a pending command is executed
eventually (70_reset_and_hazards.md R363). -/
def step (s : State) : Host.Outcome State Fault Refusal :=
  match s.host.turns with
  | [] => coreStep s
  | .core :: l => coreStep (setTurns s l)
  | .host a :: l => hostAccess a (setTurns s l)

/-- The low `nbits` bits of `w` accepted as the command word (10_state.md R38) and the next turn given to the core, so that the
very next step executes that word (log 5). -/
def State.withFetchWord (s : State) (nbits w : Nat) : State :=
  setTurns (acceptCommand s (BitVec.ofNat 32 (w % 2 ^ nbits))) (.core :: s.host.turns)

end Sys2Proof.Machine
end

