-- ==== Sys2Proof/Safety.lean ====
section
/-! DEFINITION. What a sound state of the machine is: the bounds the rules give the registers and the hidden state. The model
does not build them into its types; that every step keeps them is stated in Certificates/Slice0/Obligations.lean. -/

namespace Sys2Proof.Machine

/-- The error record (60_exceptions.md R323: `NONE` exactly when no error is recorded) and the pending command (10_state.md R38,
R91: the word last accepted, `DONE` clear until it completes). -/
structure ControlSound (s : State) : Prop where
  noError  : s.ctl.err = false → s.ctl.errCode = .none ∧ s.ctl.errOp = 0
  error    : s.ctl.err = true → s.ctl.errCode ≠ .none
  accepted : ∀ w, s.ctl.pending = some w → s.ctl.cmdLast = w ∧ s.ctl.done = false

/-- Every address register holds `ADDR_W` bits (10_state.md R42, R48, R61, R72, R77). -/
structure AddressesSound (s : State) : Prop where
  src : s.ctl.srcAddr.toNat < 2 ^ s.params.addrW
  ce  : s.ce.cfg.outBase.toNat < 2 ^ s.params.addrW
  vd  : s.vd.cfg.outBase.toNat < 2 ^ s.params.addrW
  mxA : s.mx.a.toNat < 2 ^ s.params.addrW
  mxB : s.mx.b.toNat < 2 ^ s.params.addrW
  mxD : s.mx.dst.toNat < 2 ^ s.params.addrW
  bcG : s.bc.g.toNat < 2 ^ s.params.addrW
  bcH : s.bc.h.toNat < 2 ^ s.params.addrW
  bcD : s.bc.d.toNat < 2 ^ s.params.addrW

/-- The buffer memory lists only addresses of the address space (20_memory.md R101). -/
abbrev MemoryInSpace (s : State) : Prop := ∀ c ∈ s.mem, c.1 < 2 ^ s.params.addrW

/-- The output cursor of a session stays inside its output buffer, which is in range (43_conv_encoder.md R185, R186). -/
structure OutputSound (p : Params) (base limit : Word) (c : Cursor) : Prop where
  region : base.toNat + limit.toNat ≤ 2 ^ p.addrW
  cursor : c.pos ≤ 8 * limit.toNat

/-- The encoder once a session has begun: a legal latched configuration (43_conv_encoder.md R180), `SR < 2^K` (R181),
`PCUR < PLEN` (10_state.md R54). -/
structure EncoderSound (s : State) : Prop where
  legal  : s.ce.session ≠ .idle → encLegal s.params s.ce.lat
  output : s.ce.session ≠ .idle → OutputSound s.params s.ce.lat.outBase s.ce.lat.outLimit s.ce.out
  pcur   : s.ce.session ≠ .idle → s.ce.pcur.toNat < s.ce.lat.plen.toNat
  sr     : s.ce.session ≠ .idle → s.ce.sr.toNat < 2 ^ s.ce.lat.k.toNat

/-- A step record of a session with `ns` states and metric infinity `max` (10_state.md R71): metrics at most MAX (44_viterbi.md
R227), back-pointers and the best state are states. -/
structure RecordSound (ns max : Nat) (r : StepRecord) : Prop where
  metric : ∀ x < ns, r.m.getD x 0 ≤ max
  prev   : ∀ x < ns, r.prev.getD x 0 < ns
  lo     : r.lo < ns
  lom    : r.lom ≤ max

/-- The decoder once a session has begun: a legal latched configuration (44_viterbi.md R210), `windowPos ∈ [0, D)` (10_state.md
R64), a step count of at most D − 1 (R65), fewer than n received bits pending (R67), sound records in the slots in use, the
best-state registers copies of the newest slot's (R68), and the slot written next fresh (44_viterbi.md R221). -/
structure DecoderSound (s : State) : Prop where
  legal      : s.vd.session ≠ .idle → decLegal s.params s.vd.lat
  output     : s.vd.session ≠ .idle → OutputSound s.params s.vd.lat.outBase s.vd.lat.outLimit s.vd.out
  wpos       : s.vd.session ≠ .idle → s.vd.wpos.toNat < s.vd.lat.depth.toNat
  stepcnt    : s.vd.session ≠ .idle → s.vd.stepcnt.toNat ≤ s.vd.lat.depth.toNat - 1
  rxCnt      : s.vd.session ≠ .idle → s.vd.rxCnt.toNat < s.vd.lat.n.toNat
  rxBits     : s.vd.session ≠ .idle → s.vd.rxBits.toNat < 2 ^ s.vd.rxCnt.toNat
  records    : s.vd.session ≠ .idle → ∀ t < s.vd.lat.depth.toNat,
                 RecordSound (decStates s.vd.lat) (metricMax s.params) (slot s.vd.window t)
  nextFresh  : s.vd.session ≠ .idle → ∀ x < decStates s.vd.lat,
                 (slot s.vd.window (nextSlot s.vd)).m.getD x 0 = metricMax s.params
  bestState  : s.vd.session ≠ .idle → s.vd.bestState.toNat = (slot s.vd.window s.vd.wpos.toNat).lo
  bestMetric : s.vd.session ≠ .idle → s.vd.bestMetric.toNat = (slot s.vd.window s.vd.wpos.toNat).lom

/-- The mask generator while `VALID` (42_mask_generator.md R170, R172): a legal length and weight, positions strictly rising and
below L, and `DONE` from the start for k = 0. -/
structure MaskGenSound (s : State) : Prop where
  length    : s.mg.valid = true → 1 ≤ s.mg.latL.toNat ∧ s.mg.latL.toNat ≤ 64
  weight    : s.mg.valid = true → s.mg.latK.toNat ≤ s.params.maskKMax ∧ s.mg.latK.toNat ≤ s.mg.latL.toNat
  rising    : s.mg.valid = true → ∀ i j, i < j → j < s.mg.latK.toNat → s.mg.x.getD i 0 < s.mg.x.getD j 0
  below     : s.mg.valid = true → ∀ i < s.mg.latK.toNat, s.mg.x.getD i 0 < s.mg.latL.toNat
  emptyDone : s.mg.valid = true → s.mg.latK.toNat = 0 → s.mg.done = true

/-- A sound state: every bound together, over legal parameters and a canonical buffer memory. -/
structure Sound (s : State) : Prop where
  params    : s.params.Legal
  memory    : Memory.wf s.mem
  space     : MemoryInSpace s
  control   : ControlSound s
  addresses : AddressesSound s
  encoder   : EncoderSound s
  decoder   : DecoderSound s
  maskGen   : MaskGenSound s

end Sys2Proof.Machine
end

