-- ==== Sys2Proof/Certificates/Slice0/Obligations.lean ====
section
/-! DEFINITION. The statements about the model, for the provers. Each docstring names the rules of spec/ it formalises. A
statement about a command names the whole next state: `t = { s with … }` says that nothing but the fields written there
changes. -/

open Sys2Proof Sys2Proof.Machine

/-! ## Words used by the statements -/

namespace Sys2Proof.Claims

/-- Whether an odd number of indexes below `n` satisfy `f`: the GF(2) sum. -/
def oddCount (n : Nat) (f : Nat → Bool) : Bool :=
  decide (((Finset.range n).filter (fun i => f i = true)).card % 2 = 1)

/-- Every byte outside the region reads as before. -/
def SameOutside (g : Region) (m m' : Memory) : Prop := ∀ a, ¬ (g.base ≤ a ∧ a < g.base + g.len) → Memory.read m' a = Memory.read m a

/-- Bit `q` of the byte stream at `base`, bit 7 of each byte first (20_memory.md R104). -/
def streamBit (m : Memory) (base q : Nat) : Bool := (Memory.read m (base + q / 8)).getLsbD (7 - q % 8)

/-- The address of the register at offset `off` in the host's address map (10_state.md R31, 20_memory.md R109). -/
def regAddr (s : State) (off : Nat) : Nat := s.params.regBase + off

/-- A CMD-format command (30_encoding.md R130, R135): its word is its opcode, and a non-zero argument raises `BAD_CMD`. -/
def CmdFormat (op : Byte) (i : Instr) : Prop :=
  ∀ w, opOf w = op → (argOf w = 0#24 → decode w = .ok i) ∧
    (argOf w ≠ 0#24 → ∀ s, execute w s = .next (recordError s .badCmd op))

/-- How many of the `m` output positions from puncture cursor `p` on emit a bit (43_conv_encoder.md R189). -/
def kept (c : EncConfig) (p m : Nat) : Nat :=
  ((Finset.range m).filter (fun q => c.pmask.getLsbD ((p + q) % c.plen.toNat) = true)).card

/-- The output positions and the emitted bits of the next `CE_ENCODE` and `CE_FLUSH` (R186, R187). -/
def encodePositions (s : State) : Nat := 8 * s.ctl.srcLen.toNat * s.ce.lat.n.toNat
def encodeBits (s : State) : Nat := kept s.ce.lat s.ce.pcur.toNat (encodePositions s)
def tailPositions (s : State) : Nat := s.ce.lat.k.toNat * s.ce.lat.n.toNat
def tailBits (s : State) : Nat := kept s.ce.lat s.ce.pcur.toNat (tailPositions s)

/-- The trellis steps and the emitted bits of the next `VD_DECODE`, and the bits of the next `VD_FLUSH` (R224, R225). -/
def steps (s : State) : Nat := (s.vd.rxCnt.toNat + 8 * s.ctl.srcLen.toNat) / s.vd.lat.n.toNat
def decodeBits (s : State) : Nat := steps s - (s.vd.lat.depth.toNat - 1 - s.vd.stepcnt.toNat)
def walkBits (s : State) : Nat := min s.vd.stepcnt.toNat (s.vd.lat.depth.toNat - 1)

/-- The state with the listed turns (log 4). -/
def withTurns (s : State) (l : List Turn) : State := { s with host := { s.host with turns := l } }

/-- The number of bits emitted since the session began: `8*BYTE + (7 − BIT)` (10_state.md R53, R66). -/
def outPos (c : Cursor) : Nat := 8 * c.byte.toNat + (7 - c.bit.toNat)

/-- The output bytes that the next `e` bits from the cursor on touch: `(base + BYTE, ⌈(POS + e)/8⌉ − BYTE)` (R186, R187, R224). -/
def outBytes (base : Word) (c : Cursor) (e : Nat) : Region := ⟨base.toNat + c.byte.toNat, (outPos c + e + 7) / 8 - c.byte.toNat⟩

/-- The input region `(SRC_ADDR, SRC_LEN)` (10_state.md R42, R43). -/
def source (s : State) : Region := ⟨s.ctl.srcAddr.toNat, s.ctl.srcLen.toNat⟩

/-- The legal configurations: of the encoder (43_conv_encoder.md R180), of the decoder without and with its depth (44_viterbi.md R226,
R210), of the block-code unit (46_block_code.md R280). -/
abbrev encOk (p : Params) (c : EncConfig) : Prop :=
  2 ≤ c.k.toNat ∧ c.k.toNat ≤ p.ceKMax ∧ 2 ≤ c.n.toNat ∧ c.n.toNat ≤ p.nMax ∧ 1 ≤ c.plen.toNat ∧ c.plen.toNat ≤ 32
abbrev decRateOk (p : Params) (c : DecConfig) : Prop :=
  2 ≤ c.k.toNat ∧ c.k.toNat ≤ p.vdKMax ∧ 2 ≤ c.n.toNat ∧ c.n.toNat ≤ p.nMax
abbrev decOk (p : Params) (c : DecConfig) : Prop := decRateOk p c ∧ 2 ≤ c.depth.toNat ∧ c.depth.toNat ≤ p.vdDMax
abbrev blockOk (p : Params) (b : BlockUnit) : Prop :=
  b.cwW.toNat ∈ [8, 16, 32, 64] ∧ b.srcW.toNat ∈ [8, 16, 32, 64] ∧ b.synW.toNat ∈ [8, 16, 32, 64] ∧
  b.srcW.toNat ≤ b.cwW.toNat ∧ b.cwW.toNat - b.srcW.toNat ≤ b.synW.toNat ∧ b.maxerr.toNat ≤ p.maskKMax

/-- The checks of a session command before its output limit (R186, R224): no session, session spent. -/
def sessionChecks (x : Session) : List (Bool × ErrCode) := [(decide (x = .idle), .notReset), (decide (x = .spent), .spent)]

/-- A region that passes the top of the address space (20_memory.md R106). -/
def beyond (s : State) (base len : Nat) : Bool := decide (2 ^ s.params.addrW < base + len)

/-- A matrix dimension outside its legal range (45_matrix.md R250). -/
def badDim (s : State) (d : BitVec 16) : Bool := decide (d.toNat % 8 ≠ 0 ∨ d.toNat < 8 ∨ s.params.mxDimMax < d.toNat)

/-- Two non-empty regions that meet (20_memory.md R108). -/
def meets (g h : Region) : Bool := decide (0 < g.len ∧ 0 < h.len ∧ g.base < h.base + h.len ∧ h.base < g.base + g.len)

/-- The matrix regions of the commands: A, B of `r × c`, the destination of `r × c`. -/
def regA (s : State) : Region := ⟨s.mx.a.toNat, s.mx.r.toNat * s.mx.c.toNat / 8⟩
def regB (s : State) (r c : BitVec 16) : Region := ⟨s.mx.b.toNat, r.toNat * c.toNat / 8⟩
def regDst (s : State) (r c : BitVec 16) : Region := ⟨s.mx.dst.toNat, r.toNat * c.toNat / 8⟩

/-- A region that passes the top of the address space. -/
def beyondReg (s : State) (g : Region) : Bool := beyond s g.base g.len

/-- The block-code configuration is illegal (46_block_code.md R280). -/
def badBlock (s : State) : Bool := !decide (blockOk s.params s.bc)

/-- The checks of each command, in the order of 60_exceptions.md R321. -/
def checksOf (s : State) : Instr → List (Bool × ErrCode)
  | .nop | .softReset | .crcInit | .crcFinal => []
  | .buParity | .buPopcount | .buHamdist | .buRev8 | .buRev32 => []
  | .crcPreset k => [(decide (5 < k.toNat), .badCmd)]
  | .ceReset => [(!decide (encOk s.params s.ce.cfg), .badConfig),
      (beyond s s.ce.cfg.outBase.toNat s.ce.cfg.outLimit.toNat, .range)]
  | .ceEncode => sessionChecks s.ce.session ++ [(beyond s s.ctl.srcAddr.toNat s.ctl.srcLen.toNat, .range),
      (decide (0 < encodeBits s) && meets (source s) (outBytes s.ce.lat.outBase s.ce.out (encodeBits s)), .overlap),
      (decide (8 * s.ce.lat.outLimit.toNat < outPos s.ce.out + encodeBits s), .outOverflow)]
  | .ceFlush => sessionChecks s.ce.session ++
      [(decide (8 * s.ce.lat.outLimit.toNat < outPos s.ce.out + tailBits s), .outOverflow)]
  | .ceCalcsize _ => [(!decide (encOk s.params s.ce.cfg), .badConfig)]
  | .vdReset => [(!decide (decOk s.params s.vd.cfg), .badConfig),
      (beyond s s.vd.cfg.outBase.toNat s.vd.cfg.outLimit.toNat, .range)]
  | .vdDecode => sessionChecks s.vd.session ++ [(beyond s s.ctl.srcAddr.toNat s.ctl.srcLen.toNat, .range),
      (decide (0 < decodeBits s) && meets (source s) (outBytes s.vd.lat.outBase s.vd.out (decodeBits s)), .overlap),
      (decide (8 * s.vd.lat.outLimit.toNat < outPos s.vd.out + decodeBits s), .outOverflow)]
  | .vdFlush => sessionChecks s.vd.session ++
      [(decide (8 * s.vd.lat.outLimit.toNat < outPos s.vd.out + walkBits s), .outOverflow)]
  | .vdCalcsize _ => [(!decide (decRateOk s.params s.vd.cfg), .badConfig)]
  | .mxZero => [(badDim s s.mx.r || badDim s s.mx.c, .badConfig), (beyondReg s (regDst s s.mx.r s.mx.c), .range)]
  | .mxCopy => [(badDim s s.mx.r || badDim s s.mx.c, .badConfig),
      (beyondReg s (regA s) || beyondReg s (regDst s s.mx.r s.mx.c), .range),
      (meets (regDst s s.mx.r s.mx.c) (regA s), .overlap)]
  | .mxSetbit | .mxGetbit => [(badDim s s.mx.r || badDim s s.mx.c, .badConfig),
      (decide (s.mx.r.toNat ≤ s.mx.row.toNat ∨ s.mx.c.toNat ≤ s.mx.col.toNat), .index), (beyondReg s (regA s), .range)]
  | .mxEqual => [(badDim s s.mx.r || badDim s s.mx.c, .badConfig),
      (beyondReg s (regA s) || beyondReg s (regB s s.mx.r s.mx.c), .range)]
  | .mxIszero => [(badDim s s.mx.r || badDim s s.mx.c, .badConfig), (beyondReg s (regA s), .range)]
  | .mxMulvec => [(badDim s s.mx.r || badDim s s.mx.c || decide (64 < s.mx.r.toNat ∨ 64 < s.mx.c.toNat), .badConfig),
      (beyondReg s (regA s), .range)]
  | .mxMulmat => [(badDim s s.mx.r || badDim s s.mx.c || badDim s s.mx.x, .badConfig),
      (beyondReg s (regA s) || beyondReg s (regB s s.mx.c s.mx.x) || beyondReg s (regDst s s.mx.r s.mx.x), .range),
      (meets (regDst s s.mx.r s.mx.x) (regA s) || meets (regDst s s.mx.r s.mx.x) (regB s s.mx.c s.mx.x), .overlap)]
  | .mxTranspose => [(badDim s s.mx.r || badDim s s.mx.c, .badConfig),
      (beyondReg s (regA s) || beyondReg s (regDst s s.mx.c s.mx.r), .range),
      (meets (regDst s s.mx.c s.mx.r) (regA s), .overlap)]
  | .bcEncode => [(badBlock s, .badConfig), (beyond s s.bc.g.toNat (s.bc.cwW.toNat * s.bc.srcW.toNat / 8), .range)]
  | .bcDecode => [(badBlock s, .badConfig), (beyond s s.bc.h.toNat (s.bc.synW.toNat * s.bc.cwW.toNat / 8) ||
      beyond s s.bc.d.toNat (s.bc.srcW.toNat * s.bc.cwW.toNat / 8), .range)]
  | .crcUpdate => [(beyond s s.ctl.srcAddr.toNat s.ctl.srcLen.toNat, .range)]
  | .mgInit => [(decide (s.mg.l.toNat < 1 ∨ 64 < s.mg.l.toNat) ||
      decide (s.params.maskKMax < s.mg.k.toNat ∨ s.mg.l.toNat < s.mg.k.toNat), .badConfig)]
  | .mgNext => [(!s.mg.valid, .notReset)]

/-- The error a command raises: that of its first check that fails. -/
def errorOf (s : State) (i : Instr) : Option ErrCode := ((checksOf s i).find? (fun c => c.1)).map (fun c => c.2)

/-- The command passes its checks. -/
def passes (s : State) (i : Instr) : Bool := (errorOf s i).isNone

end Sys2Proof.Claims

open Sys2Proof.Claims

/-! ## Encoding -/

/-- 30_encoding.md R130, R133, R135 to R137: a word decodes to a command exactly when it is the word of that command and the
command is legal, so no bit of a word is dropped. -/
def Obligations.DecodeIffEncodedWord : Prop :=
  ∀ (w : Word) (i : Instr), decode w = .ok i ↔ (i.wellFormed = true ∧ encode i = w)

/-- 30_encoding.md R133, 95_test_vectors.md: the words of some commands of every unit, written from the opcode map. -/
def Obligations.OpcodeMapWordsDecode : Prop :=
  decode 0x00000000#32 = .ok .nop ∧ decode 0x00000001#32 = .ok .softReset ∧
  decode 0x00000011#32 = .ok .ceEncode ∧ decode 0x00000213#32 = .ok (.ceCalcsize 2#24) ∧
  decode 0x00000022#32 = .ok .vdFlush ∧ decode 0x00002223#32 = .ok (.vdCalcsize 34#24) ∧
  decode 0x00000037#32 = .ok .mxMulmat ∧ decode 0x00000041#32 = .ok .bcDecode ∧
  decode 0x00000350#32 = .ok (.crcPreset 3#24) ∧ decode 0x00000052#32 = .ok .crcUpdate ∧
  decode 0x00000064#32 = .ok .buRev32 ∧ decode 0x00000071#32 = .ok .mgNext

/-- The reserved opcodes of 30_encoding.md R134. -/
def Sys2Proof.Claims.reserved (o : Nat) : Prop :=
  (0x02 ≤ o ∧ o ≤ 0x0F) ∨ (0x14 ≤ o ∧ o ≤ 0x1F) ∨ (0x24 ≤ o ∧ o ≤ 0x2F) ∨ (0x39 ≤ o ∧ o ≤ 0x3F) ∨
  (0x42 ≤ o ∧ o ≤ 0x4F) ∨ (0x54 ≤ o ∧ o ≤ 0x5F) ∨ (0x65 ≤ o ∧ o ≤ 0x6F) ∨ (0x72 ≤ o ∧ o ≤ 0x7F) ∨ 0x80 ≤ o

/-- The opcodes of the CMDA format (30_encoding.md R132). -/
def Sys2Proof.Claims.takesArgument (o : Nat) : Prop := o = 0x13 ∨ o = 0x23 ∨ o = 0x50

/-- 30_encoding.md R134, R135: a pending word with a reserved opcode, with an argument where the format takes none, or with
a preset above 5, records `BAD_CMD` and changes nothing else (but for the completion of 10_state.md R94 and, on a listed core turn, the
turn used up, log 4). -/
def Obligations.IllegalWordOnlyRecordsBadCmd : Prop :=
  ∀ (s : State) (w : Word), s.ctl.pending = some w →
    (reserved (opOf w).toNat ∨ (¬ takesArgument (opOf w).toNat ∧ argOf w ≠ 0#24) ∨
      ((opOf w).toNat = 0x50 ∧ 5 < (argOf w).toNat)) →
    (s.host.turns = [] → ∃ t, t = recordError s .badCmd (opOf w) ∧
      step s = .next { t with ctl := { t.ctl with pending := none, done := true } }) ∧
    (∀ l, s.host.turns = .core :: l → ∃ t, t = recordError (withTurns s l) .badCmd (opOf w) ∧
      step s = .next { t with ctl := { t.ctl with pending := none, done := true } })

/-! ## The core step, checks and errors -/

/-- 10_state.md R94, 30_encoding.md R137: when the pending word decodes to a command and the core has the turn, the step is
`exec` of it, then `PENDING <- none` and `STATUS.DONE <- 1`; a listed turn is used up. 00_scope.md R8: on a turn of the host the step
is the host's access. 60_exceptions.md R338: with no command pending a core turn leaves the state (log 21). The list of turns is the
model's (log 4). -/
def Obligations.StepExecutesPendingCommand : Prop :=
  (∀ (s : State) (w : Word) (i : Instr) (l : List Turn), s.ctl.pending = some w → decode w = .ok i →
    (s.host.turns = [] → ∀ t, exec i s = .next t →
      step s = .next { t with ctl := { t.ctl with pending := none, done := true } }) ∧
    (s.host.turns = .core :: l → ∀ t, exec i (withTurns s l) = .next t →
      step s = .next { t with ctl := { t.ctl with pending := none, done := true } })) ∧
  (∀ (s : State) (a : HostAccess) (l : List Turn), s.host.turns = .host a :: l → step s = hostAccess a (withTurns s l)) ∧
  (∀ (s : State) (l : List Turn), s.ctl.pending = none →
    (s.host.turns = [] → step s = .next s) ∧ (s.host.turns = .core :: l → step s = .next (withTurns s l)))

/-- 60_exceptions.md R321, R324: every command reports the first check of its row that fails, in the order of the table, with
its own opcode; a word that is no command reports `BAD_CMD` before anything else. -/
def Obligations.ChecksReportFirstFailure : Prop :=
  (∀ (i : Instr) (s : State) (e : ErrCode), errorOf s i = some e → exec i s = .next (recordError s e i.opcode)) ∧
  (∀ (w : Word) (s : State), (∀ i, decode w ≠ .ok i) → execute w s = .next (recordError s .badCmd (opOf w)))

/-- 60_exceptions.md R320: a command either only records an error or, its checks passed, performs its effects and touches
neither the error record nor any other register of the control unit. -/
def Obligations.CommandIsAllOrNothing : Prop :=
  ∀ (i : Instr) (s : State), ∃ t, exec i s = .next t ∧
    ((passes s i = true ∧ t.ctl = s.ctl) ∨
      (∃ e, e ≠ .none ∧ errorOf s i = some e ∧ t = recordError s e i.opcode))

/-- 60_exceptions.md R322: the first error is recorded with its code and opcode, a later one is not, and a host write of 1 to
bit 2 of `STATUS` clears the record. -/
def Obligations.FirstErrorIsKeptUntilCleared : Prop :=
  ∀ (s : State) (e : ErrCode) (op : Byte) (v : Word),
    (s.ctl.err = false → recordError s e op = { s with ctl := { s.ctl with err := true, errCode := e, errOp := op } }) ∧
    (s.ctl.err = true → recordError s e op = s) ∧
    (v.getLsbD 2 = true → hostAccess (.regWrite (regAddr s 0x014) 4 v) s = .next { s with ctl := { s.ctl with
      err := false, errCode := .none, errOp := 0#8, done := s.ctl.done && !v.getLsbD 1,
      overrun := s.ctl.overrun && !v.getLsbD 3 } })

/-- 60_exceptions.md R326: every pending command completes, with or without an error, in the core step, be the core's turn listed or not
(log 4), and `DONE` then stays 1 until a `STATUS` write of 1 to bit 1, an accepted `CMD` write, or reset
(70_reset_and_hazards.md R350). -/
def Obligations.EveryCommandCompletes : Prop :=
  (∀ (s : State) (w : Word), s.ctl.pending = some w → (s.host.turns = [] ∨ ∃ l, s.host.turns = .core :: l) →
    ∃ t, step s = .next t ∧ t.ctl.done = true ∧ t.ctl.pending = none ∧ busy t = false ∧ t.host.turns = s.host.turns.tail) ∧
  (∀ (s t : State), s.ctl.done = true → step s = .next t → t.ctl.done = false →
    ∃ l, (∃ v, s.host.turns = .host (.regWrite (regAddr s 0x014) 4 v) :: l ∧ v.getLsbD 1 = true) ∨
      (∃ v, s.host.turns = .host (.regWrite (regAddr s 0x010) 4 v) :: l ∧ busy s = false ∧ t.ctl.pending = some v) ∨
      s.host.turns = .host .powerReset :: l)

/-- 10_state.md R32 ("A command changes an RO field only as its rule says"), R40 to R90: a command changes only its own unit, the
error record and the buffer memory; but for `SOFT_RESET`, which changes no configuration, and `CRC_PRESET`, no command changes
a configuration register. -/
def Obligations.CommandsChangeOnlyTheirUnit : Prop :=
  ∀ (i : Instr) (s t : State), exec i s = .next t →
    t.params = s.params ∧ t.host = s.host ∧
    t.ctl = { s.ctl with err := t.ctl.err, errCode := t.ctl.errCode, errOp := t.ctl.errOp } ∧
    (i.opcode.toNat / 16 ≠ 1 → i ≠ .softReset → t.ce = s.ce) ∧ (i.opcode.toNat / 16 ≠ 2 → i ≠ .softReset → t.vd = s.vd) ∧
    (i.opcode.toNat / 16 ≠ 3 → i ≠ .softReset → t.mx = s.mx) ∧ (i.opcode.toNat / 16 ≠ 4 → i ≠ .softReset → t.bc = s.bc) ∧
    (i.opcode.toNat / 16 ≠ 5 → i ≠ .softReset → t.crc = s.crc) ∧ (i.opcode.toNat / 16 ≠ 6 → i ≠ .softReset → t.bu = s.bu) ∧
    (i.opcode.toNat / 16 ≠ 7 → i ≠ .softReset → t.mg = s.mg) ∧
    (i.opcode.toNat / 16 = 0 ∨ 4 ≤ i.opcode.toNat / 16 → t.mem = s.mem) ∧
    t.ce.cfg = s.ce.cfg ∧ t.vd.cfg = s.vd.cfg ∧ t.mx = { s.mx with res := t.mx.res } ∧
    t.bc = { s.bc with out := t.bc.out, ok := t.bc.ok, syn := t.bc.syn, mask := t.bc.mask } ∧
    ((∀ k, i ≠ .crcPreset k) → t.crc = { s.crc with acc := t.crc.acc, result := t.crc.result }) ∧
    t.bu = { s.bu with res := t.bu.res } ∧ t.mg.l = s.mg.l ∧ t.mg.k = s.mg.k

/-! ## Control -/

/-- 40_control.md R150: `NOP` changes nothing; the core step sets `DONE`. -/
def Obligations.NopChangesNothing : Prop :=
  CmdFormat 0x00#8 .nop ∧ (∀ s, exec .nop s = .next s) ∧
  (∀ s : State, s.host.turns = [] → s.ctl.pending = some 0#32 →
    step s = .next { s with ctl := { s.ctl with pending := none, done := true } })

/-- 40_control.md R151: `SOFT_RESET` returns the session, cursor and result state of every unit to its power-on value and leaves
everything else; until their unit is reset again the session commands and `MG_NEXT` raise `NOT_RESET`. -/
def Obligations.SoftResetClearsResultState : Prop :=
  CmdFormat 0x01#8 .softReset ∧
  ∀ s, ∃ t, exec .softReset s = .next t ∧
    t = { s with
      ce := { s.ce with session := .idle, sr := 0, out := ⟨0, 7⟩, pcur := 0, inBytes := 0, size := 0 }
      vd := { s.vd with session := .idle, wpos := 0, stepcnt := 0, out := ⟨0, 7⟩, rxCnt := 0, rxBits := 0, bestState := 0,
                        bestMetric := 0, size := 0 }
      mx := { s.mx with res := 0 }
      bc := { s.bc with out := 0, ok := false, syn := 0, mask := 0 }
      crc := { s.crc with acc := 0, result := 0 }
      bu := { s.bu with res := 0 }
      mg := { s.mg with mask := 0, valid := false, done := false } } ∧
    exec .ceEncode t = .next (recordError t .notReset 0x11#8) ∧ exec .ceFlush t = .next (recordError t .notReset 0x12#8) ∧
    exec .vdDecode t = .next (recordError t .notReset 0x21#8) ∧ exec .vdFlush t = .next (recordError t .notReset 0x22#8) ∧
    exec .mgNext t = .next (recordError t .notReset 0x71#8)

/-! ## Bit utilities -/

/-- 41_bit_utilities.md R160, R161, R162: parity, population count and Hamming distance of the 64-bit operands. -/
def Obligations.BitUtilitiesCountOnes : Prop :=
  CmdFormat 0x60#8 .buParity ∧ CmdFormat 0x61#8 .buPopcount ∧ CmdFormat 0x62#8 .buHamdist ∧
  ∀ s : State,
    (∃ v : DWord, exec .buParity s = .next { s with bu := { s.bu with res := v } } ∧
      v.toNat = ((Finset.range 64).filter (fun i => s.bu.a.getLsbD i = true)).card % 2) ∧
    (∃ v : DWord, exec .buPopcount s = .next { s with bu := { s.bu with res := v } } ∧
      v.toNat = ((Finset.range 64).filter (fun i => s.bu.a.getLsbD i = true)).card) ∧
    (∃ v : DWord, exec .buHamdist s = .next { s with bu := { s.bu with res := v } } ∧
      v.toNat = ((Finset.range 64).filter (fun i => s.bu.a.getLsbD i ≠ s.bu.b.getLsbD i)).card)

/-- 41_bit_utilities.md R163, R164: bit i of the result is bit 7 − i (31 − i) of the operand; the operand's higher bits never
reach it; reversing twice gives the byte (the word) back. -/
def Obligations.BitUtilitiesReverse : Prop :=
  CmdFormat 0x63#8 .buRev8 ∧ CmdFormat 0x64#8 .buRev32 ∧
  ∀ s : State,
    (∃ v : DWord, exec .buRev8 s = .next { s with bu := { s.bu with res := v } } ∧
      (∀ i < 8, v.getLsbD i = s.bu.a.getLsbD (7 - i)) ∧ v.toNat < 2 ^ 8 ∧
      ∃ u : DWord, exec .buRev8 { s with bu := { s.bu with a := v } } =
          .next { s with bu := { s.bu with a := v, res := u } } ∧ u.toNat = s.bu.a.toNat % 2 ^ 8) ∧
    (∃ v : DWord, exec .buRev32 s = .next { s with bu := { s.bu with res := v } } ∧
      (∀ i < 32, v.getLsbD i = s.bu.a.getLsbD (31 - i)) ∧ v.toNat < 2 ^ 32 ∧
      ∃ u : DWord, exec .buRev32 { s with bu := { s.bu with a := v } } =
          .next { s with bu := { s.bu with a := v, res := u } } ∧ u.toNat = s.bu.a.toNat % 2 ^ 32)

/-! ## Error-mask generator -/

/-- 42_mask_generator.md R172: `MG_INIT` latches a legal (L, k), sets the positions 0 .. k−1 and starts the enumeration, done at
once for k = 0; an illegal (L, k) raises `BAD_CONFIG`. -/
def Obligations.MgInitStartsEnumeration : Prop :=
  CmdFormat 0x70#8 .mgInit ∧
  ∀ s : State,
    ((s.mg.l.toNat < 1 ∨ 64 < s.mg.l.toNat ∨ s.params.maskKMax < s.mg.k.toNat ∨ s.mg.l.toNat < s.mg.k.toNat) →
      exec .mgInit s = .next (recordError s .badConfig 0x70#8)) ∧
    (1 ≤ s.mg.l.toNat → s.mg.l.toNat ≤ 64 → s.mg.k.toNat ≤ s.params.maskKMax → s.mg.k.toNat ≤ s.mg.l.toNat →
      ∃ x : List Nat, exec .mgInit s = .next { s with mg := { s.mg with
          latL := s.mg.l, latK := s.mg.k, x := x, mask := 0, valid := true, done := decide (s.mg.k = 0) } } ∧
        (∀ i < s.mg.k.toNat, x.getD i 0 = i) ∧ (∀ i, s.mg.k.toNat ≤ i → x.getD i 0 = s.mg.x.getD i 0))

/-- 42_mask_generator.md R170, R171, R173: `MG_NEXT` raises `NOT_RESET` before any `MG_INIT`; once done it returns 0 and changes
nothing else; otherwise it returns the mask of the positions and advances them. -/
def Obligations.MgNextReturnsMaskAndAdvances : Prop :=
  CmdFormat 0x71#8 .mgNext ∧
  (∀ s : State, s.mg.valid = false → exec .mgNext s = .next (recordError s .notReset 0x71#8)) ∧
  (∀ s : State, s.mg.valid = true → s.mg.done = true → exec .mgNext s = .next { s with mg := { s.mg with mask := 0 } }) ∧
  (∀ s : State, MaskGenSound s → s.mg.valid = true → s.mg.done = false →
    ∃ t, exec .mgNext s = .next t ∧
      t = { s with mg := { s.mg with mask := t.mg.mask, x := t.mg.x, done := t.mg.done } } ∧
      (∀ i < 64, t.mg.mask.getLsbD i = true ↔
        ∃ j < s.mg.latK.toNat, s.mg.x.getD j 0 + i + 1 = s.mg.latL.toNat) ∧
      (((∀ j < s.mg.latK.toNat, s.mg.x.getD j 0 = s.mg.latL.toNat - (s.mg.latK.toNat - j)) ∧
          t.mg.done = true ∧ t.mg.x = s.mg.x) ∨
        (∃ i < s.mg.latK.toNat, s.mg.x.getD i 0 ≠ s.mg.latL.toNat - (s.mg.latK.toNat - i) ∧
          (∀ j, i < j → j < s.mg.latK.toNat → s.mg.x.getD j 0 = s.mg.latL.toNat - (s.mg.latK.toNat - j)) ∧
          t.mg.done = false ∧ t.mg.x.getD i 0 = s.mg.x.getD i 0 + 1 ∧
          (∀ j, i < j → j < s.mg.latK.toNat → t.mg.x.getD j 0 = t.mg.x.getD (j - 1) 0 + 1) ∧
          (∀ j, j < i ∨ s.mg.latK.toNat ≤ j → t.mg.x.getD j 0 = s.mg.x.getD j 0))))

/-- The masks that `n` successive `MG_NEXT` commands return. -/
def Sys2Proof.Claims.masksReturned : Nat → State → List DWord
  | 0, _ => []
  | n + 1, s =>
    match exec .mgNext s with
    | .next t => t.mg.mask :: masksReturned n t
    | _ => []

/-- 42_mask_generator.md R174: after `MG_INIT` with a legal (L, k), k ≥ 1, the C(L, k) following `MG_NEXT` commands return L-bit
masks of weight k in strictly decreasing order, hence all of them, each once; every later one returns 0. -/
def Obligations.MaskEnumerationIsComplete : Prop :=
  ∀ (s t : State), passes s .mgInit = true → 1 ≤ s.mg.k.toNat → exec .mgInit s = .next t →
    (masksReturned (Nat.choose s.mg.l.toNat s.mg.k.toNat) t).length = Nat.choose s.mg.l.toNat s.mg.k.toNat ∧
    (masksReturned (Nat.choose s.mg.l.toNat s.mg.k.toNat) t).Pairwise (fun a b => b.toNat < a.toNat) ∧
    (∀ m ∈ masksReturned (Nat.choose s.mg.l.toNat s.mg.k.toNat) t,
      m.toNat < 2 ^ s.mg.l.toNat ∧ ((Finset.range 64).filter (fun i => m.getLsbD i = true)).card = s.mg.k.toNat) ∧
    (∀ n m, Nat.choose s.mg.l.toNat s.mg.k.toNat ≤ n → (masksReturned (n + 1) t)[n]? = some m → m = 0)

/-- 46_block_code.md R282: the masks of weight w that the block-code search tries are, in order, those the mask generator returns
for L = the codeword width and k = w. (log 18: the model lists them by a recursion of its own.) -/
def Obligations.SearchOrderIsGeneratorOrder : Prop :=
  ∀ (s t : State), passes s .mgInit = true → 1 ≤ s.mg.k.toNat → exec .mgInit s = .next t →
    masksOfWeight s.mg.l.toNat s.mg.k.toNat = masksReturned (Nat.choose s.mg.l.toNat s.mg.k.toNat) t

/-! ## Convolutional encoder -/

/-- 43_conv_encoder.md R180, R185: `CE_RESET` latches a legal configuration and begins a session in any session state, writing no
memory; `CE_SIZE` is not changed. -/
def Obligations.CeResetBeginsSession : Prop :=
  CmdFormat 0x10#8 .ceReset ∧
  ∀ s : State,
    (¬ (2 ≤ s.ce.cfg.k.toNat ∧ s.ce.cfg.k.toNat ≤ s.params.ceKMax ∧ 2 ≤ s.ce.cfg.n.toNat ∧ s.ce.cfg.n.toNat ≤ s.params.nMax ∧
        1 ≤ s.ce.cfg.plen.toNat ∧ s.ce.cfg.plen.toNat ≤ 32) → exec .ceReset s = .next (recordError s .badConfig 0x10#8)) ∧
    (encOk s.params s.ce.cfg → 2 ^ s.params.addrW < s.ce.cfg.outBase.toNat + s.ce.cfg.outLimit.toNat →
      exec .ceReset s = .next (recordError s .range 0x10#8)) ∧
    (encOk s.params s.ce.cfg → s.ce.cfg.outBase.toNat + s.ce.cfg.outLimit.toNat ≤ 2 ^ s.params.addrW →
      ∃ pl : List Word, exec .ceReset s = .next { s with ce := { s.ce with
          lat := { s.ce.cfg with poly := pl }, sr := 0, out := ⟨0, 7⟩, pcur := 0, inBytes := 0, session := .active } } ∧
        ∀ j < 8, pl.getD j 0 = if j < s.params.nMax then s.ce.cfg.poly.getD j 0 else s.ce.lat.poly.getD j 0)

/-- 43_conv_encoder.md R186, R189: a `CE_ENCODE` that passes its checks completes, consumes n puncture entries a bit, moves the
output cursor by exactly the bits it emits, counts its input bytes, and writes no byte outside the output bytes it touches. -/
def Obligations.CeEncodeCompletes : Prop :=
  ∀ s : State, s.params.Legal → EncoderSound s → passes s .ceEncode = true →
    ∃ t, exec .ceEncode s = .next t ∧
      t = { s with mem := t.mem, ce := { s.ce with
        sr := t.ce.sr, out := t.ce.out, pcur := t.ce.pcur, inBytes := s.ce.inBytes + s.ctl.srcLen } } ∧
      outPos t.ce.out = outPos s.ce.out + encodeBits s ∧
      t.ce.pcur.toNat = (s.ce.pcur.toNat + encodePositions s) % s.ce.lat.plen.toNat ∧
      SameOutside (outBytes s.ce.lat.outBase s.ce.out (encodeBits s)) s.mem t.mem ∧
      (encodeBits s = 0 → t.mem = s.mem)

/-- Bit `i` of the shift register after `c` cycles that shift in the bits `f 0, f 1, …` (43_conv_encoder.md R181, R184): the newest
input bit in bit K−1. -/
def Sys2Proof.Claims.srBit (s : State) (f : Nat → Bool) (c i : Nat) : Bool :=
  if s.ce.lat.k.toNat ≤ i + c then f (i + c - s.ce.lat.k.toNat) else s.ce.sr.getLsbD (i + c)

/-- Output position `q` of a run of cycles (43_conv_encoder.md R184, R192): polynomial `q mod n` of cycle `q div n`, the GF(2) sum of
the taps it selects. -/
def Sys2Proof.Claims.codeBit (s : State) (f : Nat → Bool) (q : Nat) : Bool :=
  oddCount s.ce.lat.k.toNat (fun i => srBit s f (q / s.ce.lat.n.toNat + 1) i &&
    (s.ce.lat.poly.getD (q % s.ce.lat.n.toNat) 0).getLsbD i)

/-- Input bit `j` of the source region of `s`, MSB first (43_conv_encoder.md R186). -/
def Sys2Proof.Claims.inputBit (s : State) (j : Nat) : Bool := streamBit s.mem s.ctl.srcAddr.toNat j

/-- What output bit `p` of the encoder's stream holds before anything is emitted there (43_conv_encoder.md R183): a byte begun at its
bit 7 is first cleared, so only a byte that the cursor already stands inside keeps its bits, and the emitted ones are OR-merged. -/
def Sys2Proof.Claims.merged (s : State) (p : Nat) : Bool :=
  decide (s.ce.out.bit ≠ 7 ∧ p / 8 = s.ce.out.byte.toNat) && streamBit s.mem s.ce.lat.outBase.toNat p

/-- 43_conv_encoder.md R181, R183, R184, R186, R191: `CE_ENCODE` writes, for every output position the puncture pattern keeps, the
parity of the tapped register bits, in order from the output cursor on and MSB first, OR-merged into a byte begun earlier; earlier
output bits stay; the shift register holds the newest input bits; the bits of the last byte below the cursor are 0 but in a byte
begun earlier. -/
def Obligations.CeEncodeWritesTapParities : Prop :=
  ∀ s t : State, s.params.Legal → EncoderSound s → passes s .ceEncode = true → exec .ceEncode s = .next t →
    (∀ q < encodePositions s, s.ce.lat.pmask.getLsbD ((s.ce.pcur.toNat + q) % s.ce.lat.plen.toNat) = true →
      streamBit t.mem s.ce.lat.outBase.toNat (outPos s.ce.out + kept s.ce.lat s.ce.pcur.toNat q) =
        (codeBit s (inputBit s) q || merged s (outPos s.ce.out + kept s.ce.lat s.ce.pcur.toNat q))) ∧
    (∀ p < outPos s.ce.out, streamBit t.mem s.ce.lat.outBase.toNat p = streamBit s.mem s.ce.lat.outBase.toNat p) ∧
    (∀ i < s.ce.lat.k.toNat, t.ce.sr.getLsbD i = srBit s (inputBit s) (8 * s.ctl.srcLen.toNat) i) ∧
    (∀ p, outPos t.ce.out ≤ p → p < 8 * ((outPos t.ce.out + 7) / 8) →
      streamBit t.mem s.ce.lat.outBase.toNat p = merged s p)

/-- 43_conv_encoder.md R187: `CE_FLUSH` raises `NOT_RESET`, `SPENT`, `OUT_OVERFLOW` in this order, and otherwise runs K cycles with
input bit 0, writing the tail's kept parities from the cursor on (R183), and leaves the session spent with an empty register.
Earlier output bits stay; the bits of the last byte below the final cursor are 0 but in a byte begun before the flush (R191). -/
def Obligations.CeFlushWritesTail : Prop :=
  CmdFormat 0x12#8 .ceFlush ∧
  ∀ s : State,
    (s.ce.session = .idle → exec .ceFlush s = .next (recordError s .notReset 0x12#8)) ∧
    (s.ce.session = .spent → exec .ceFlush s = .next (recordError s .spent 0x12#8)) ∧
    (s.ce.session = .active → 8 * s.ce.lat.outLimit.toNat < outPos s.ce.out + tailBits s →
      exec .ceFlush s = .next (recordError s .outOverflow 0x12#8)) ∧
    (s.params.Legal → EncoderSound s → s.ce.session = .active → outPos s.ce.out + tailBits s ≤ 8 * s.ce.lat.outLimit.toNat →
      ∃ t, exec .ceFlush s = .next t ∧
        t = { s with mem := t.mem, ce := { s.ce with sr := 0, out := t.ce.out, pcur := t.ce.pcur, session := .spent } } ∧
        outPos t.ce.out = outPos s.ce.out + tailBits s ∧
        t.ce.pcur.toNat = (s.ce.pcur.toNat + tailPositions s) % s.ce.lat.plen.toNat ∧
        SameOutside (outBytes s.ce.lat.outBase s.ce.out (tailBits s)) s.mem t.mem ∧
        (∀ q < tailPositions s, s.ce.lat.pmask.getLsbD ((s.ce.pcur.toNat + q) % s.ce.lat.plen.toNat) = true →
          streamBit t.mem s.ce.lat.outBase.toNat (outPos s.ce.out + kept s.ce.lat s.ce.pcur.toNat q) =
            (codeBit s (fun _ => false) q || merged s (outPos s.ce.out + kept s.ce.lat s.ce.pcur.toNat q))) ∧
        (∀ p < outPos s.ce.out, streamBit t.mem s.ce.lat.outBase.toNat p = streamBit s.mem s.ce.lat.outBase.toNat p) ∧
        (∀ p, outPos t.ce.out ≤ p → p < 8 * ((outPos t.ce.out + 7) / 8) →
          streamBit t.mem s.ce.lat.outBase.toNat p = merged s p))

/-- 43_conv_encoder.md R188: `CE_CALCSIZE` computes the document's formula exactly, below 2^28, from the live configuration. -/
def Obligations.CeCalcsizeIsTheFormula : Prop :=
  (∀ w, opOf w = 0x13#8 → decode w = .ok (.ceCalcsize (argOf w))) ∧
  ∀ (s : State) (a : BitVec 24),
    (¬ encOk s.params s.ce.cfg → exec (.ceCalcsize a) s = .next (recordError s .badConfig 0x13#8)) ∧
    (encOk s.params s.ce.cfg → ∃ v : Word,
      exec (.ceCalcsize a) s = .next { s with ce := { s.ce with size := v } } ∧ v.toNat < 2 ^ 28 ∧
      ∃ pb : Nat,
        pb = ((8 * a.toNat + s.ce.cfg.k.toNat) * s.ce.cfg.n.toNat *
            ((Finset.range s.ce.cfg.plen.toNat).filter (fun i => s.ce.cfg.pmask.getLsbD i = true)).card +
          (s.ce.cfg.plen.toNat - 1)) / s.ce.cfg.plen.toNat ∧
        v.toNat = (pb + 7) / 8)

/-- 43_conv_encoder.md R190: two `CE_ENCODE` commands on the two parts of an input leave the encoder, the memory and everything
else as one command on the whole input does (but for `SRC_ADDR` and `SRC_LEN`, which the host writes between them). -/
def Obligations.EncodeStreamingIdentity : Prop :=
  ∀ (s t : State) (n : Nat), s.params.Legal → EncoderSound s → passes s .ceEncode = true → n ≤ s.ctl.srcLen.toNat →
    s.ctl.srcAddr.toNat + n < 2 ^ 32 → exec .ceEncode s = .next t →
    ∃ u v, exec .ceEncode { s with ctl := { s.ctl with srcLen := BitVec.ofNat 32 n } } = .next u ∧
      exec .ceEncode { u with ctl := { u.ctl with
        srcAddr := s.ctl.srcAddr + BitVec.ofNat 32 n, srcLen := s.ctl.srcLen - BitVec.ofNat 32 n } } = .next v ∧
      t = { v with ctl := s.ctl }

/-- `x` is `s` with the encoder's session and its output region as `s` left them: the host may have written registers, other bytes of
the memory and commands of other units in between (70_reset_and_hazards.md R358, R359). -/
def Sys2Proof.Claims.SessionKept (s x : State) : Prop :=
  x.params = s.params ∧ x.ce = { s.ce with cfg := x.ce.cfg, size := x.ce.size } ∧
  ∀ a, s.ce.lat.outBase.toNat ≤ a → a < s.ce.lat.outBase.toNat + s.ce.lat.outLimit.toNat → Memory.read x.mem a = Memory.read s.mem a

/-- `CE_ENCODE` commands issued in the states `xs`, from the session of `s` on, consume the bits `bits` and leave `t`. -/
def Sys2Proof.Claims.Encodes : State → List State → List Bool → State → Prop
  | s, [], bits, t => bits = [] ∧ t = s
  | s, x :: xs, bits, t => SessionKept s x ∧ passes x .ceEncode = true ∧ ∃ y rest, exec .ceEncode x = .next y ∧
      bits = (List.range (8 * x.ctl.srcLen.toNat)).map (inputBit x) ++ rest ∧ Encodes y xs rest t

/-- A whole encoder session (00_scope.md R21: from the unit reset to the flush): `CE_RESET` in `r`, any number of `CE_ENCODE` that
consume `bits`, and `CE_FLUSH`, each passing its checks; `u` is the state after it. -/
def Sys2Proof.Claims.EncodeSession (r : State) (bits : List Bool) (u : State) : Prop :=
  ∃ s xs t x, passes r .ceReset = true ∧ exec .ceReset r = .next s ∧ Encodes s xs bits t ∧
    SessionKept t x ∧ passes x .ceFlush = true ∧ exec .ceFlush x = .next u

/-- 43_conv_encoder.md R192, R190: a punctured session, its tail included, emits, in order, exactly the bits of the non-punctured one on
the same input that the pattern keeps, however the input is split over its commands. -/
def Obligations.PunctureConsistency : Prop :=
  ∀ (r r' u u' : State) (bits : List Bool), r.params.Legal → r'.params.Legal →
    EncodeSession r bits u → EncodeSession r' bits u' →
    r'.ce.cfg.k = r.ce.cfg.k → r'.ce.cfg.n = r.ce.cfg.n → (∀ j < r.ce.cfg.n.toNat, r'.ce.cfg.poly.getD j 0 = r.ce.cfg.poly.getD j 0) →
    r'.ce.cfg.plen = 1 → r'.ce.cfg.pmask.getLsbD 0 = true →
    ∃ m, m = (bits.length + r.ce.cfg.k.toNat) * r.ce.cfg.n.toNat ∧
      (∀ q < m, r.ce.cfg.pmask.getLsbD (q % r.ce.cfg.plen.toNat) = true →
        streamBit u.mem r.ce.cfg.outBase.toNat (kept r.ce.cfg 0 q) = streamBit u'.mem r'.ce.cfg.outBase.toNat q) ∧
      outPos u.ce.out = kept r.ce.cfg 0 m ∧ outPos u'.ce.out = m

/-! ## Viterbi decoder -/

/-- 44_viterbi.md R210, R213, R214, R223: `VD_RESET` latches a legal configuration and sets every slot in use to the infinity record,
the zero state of slot 0 at metric 0; it writes no memory and leaves `VD_SIZE`. -/
def Obligations.VdResetInitialisesTrellis : Prop :=
  CmdFormat 0x20#8 .vdReset ∧
  ∀ s : State,
    (¬ (2 ≤ s.vd.cfg.k.toNat ∧ s.vd.cfg.k.toNat ≤ s.params.vdKMax ∧ 2 ≤ s.vd.cfg.n.toNat ∧ s.vd.cfg.n.toNat ≤ s.params.nMax ∧
        2 ≤ s.vd.cfg.depth.toNat ∧ s.vd.cfg.depth.toNat ≤ s.params.vdDMax) →
      exec .vdReset s = .next (recordError s .badConfig 0x20#8)) ∧
    (decOk s.params s.vd.cfg → 2 ^ s.params.addrW < s.vd.cfg.outBase.toNat + s.vd.cfg.outLimit.toNat →
      exec .vdReset s = .next (recordError s .range 0x20#8)) ∧
    (decOk s.params s.vd.cfg → s.vd.cfg.outBase.toNat + s.vd.cfg.outLimit.toNat ≤ 2 ^ s.params.addrW →
      ∃ (pl : List Word) (w : List StepRecord),
        exec .vdReset s = .next { s with vd := { s.vd with
          lat := { s.vd.cfg with poly := pl }, window := w, wpos := 0, stepcnt := 0, out := ⟨0, 7⟩, rxCnt := 0, rxBits := 0,
          bestState := 0, bestMetric := 0, session := .active } } ∧
        (∀ j < 8, pl.getD j 0 = if j < s.params.nMax then s.vd.cfg.poly.getD j 0 else s.vd.lat.poly.getD j 0) ∧
        (∀ t < s.vd.cfg.depth.toNat, (slot w t).lo = 0 ∧
          (slot w t).lom = (if t = 0 then 0 else 2 ^ s.params.metricW - 1) ∧
          ∀ x < 2 ^ (s.vd.cfg.k.toNat - 1), (slot w t).prev.getD x 0 = 0 ∧ (slot w t).bit.getD x false = false ∧
            (slot w t).m.getD x 0 = if t = 0 ∧ x = 0 then 0 else 2 ^ s.params.metricW - 1))

/-- Bit `j` of the received bits of the next `VD_DECODE`, first-read first (44_viterbi.md R215): the bits pending in `VD_RX_BITS`, then
those of the source region, each byte from bit 7 on. -/
def Sys2Proof.Claims.rxBit (s : State) (j : Nat) : Bool :=
  if j < s.vd.rxCnt.toNat then s.vd.rxBits.getLsbD (s.vd.rxCnt.toNat - 1 - j)
  else streamBit s.mem s.ctl.srcAddr.toNat (j - s.vd.rxCnt.toNat)

/-- The `c` received bits from bit `j` on, packed with the first-read bit in the highest position (44_viterbi.md R215). -/
def Sys2Proof.Claims.rxPacked (s : State) (j c : Nat) : Byte :=
  BitVec.ofNat 8 ((List.range c).map (fun i => (rxBit s (j + i)).toNat * 2 ^ (c - 1 - i))).sum

/-- 44_viterbi.md R215, R220, R221, R224: a `VD_DECODE` that passes its checks completes: it runs the trellis step (R216; what a step
does and which bit it emits is `TrellisStepSelectsSurvivors`) on each n received bits in turn, packed first-read bit highest; the
output cursor moves by the bits emitted, the step count saturates at D − 1, the window position advances by T, the bits left over
wait in `VD_RX_BITS`, and no bit is changed outside the output bits emitted. -/
def Obligations.VdDecodeCompletes : Prop :=
  ∀ s : State, s.params.Legal → DecoderSound s → passes s .vdDecode = true →
    ∃ t, exec .vdDecode s = .next t ∧
      t = { s with mem := t.mem, vd := { s.vd with
        wpos := t.vd.wpos, stepcnt := t.vd.stepcnt, out := t.vd.out, rxCnt := t.vd.rxCnt, rxBits := t.vd.rxBits,
        bestState := t.vd.bestState, bestMetric := t.vd.bestMetric, window := t.vd.window } } ∧
      outPos t.vd.out = outPos s.vd.out + decodeBits s ∧
      t.vd.stepcnt.toNat = min (s.vd.stepcnt.toNat + steps s) (s.vd.lat.depth.toNat - 1) ∧
      t.vd.wpos.toNat = (s.vd.wpos.toNat + steps s) % s.vd.lat.depth.toNat ∧
      (∃ u, u = (List.range (steps s)).foldl (fun x i => trellisStep (rxPacked s (i * s.vd.lat.n.toNat) s.vd.lat.n.toNat) x) s ∧
        t = { u with vd := { u.vd with rxCnt := t.vd.rxCnt, rxBits := t.vd.rxBits } }) ∧
      t.vd.rxCnt.toNat = (s.vd.rxCnt.toNat + 8 * s.ctl.srcLen.toNat) % s.vd.lat.n.toNat ∧
      t.vd.rxBits = rxPacked s (steps s * s.vd.lat.n.toNat) t.vd.rxCnt.toNat ∧
      (∀ p, p < outPos s.vd.out ∨ outPos s.vd.out + decodeBits s ≤ p →
        streamBit t.mem s.vd.lat.outBase.toNat p = streamBit s.mem s.vd.lat.outBase.toNat p) ∧
      SameOutside (outBytes s.vd.lat.outBase s.vd.out (decodeBits s)) s.mem t.mem ∧
      (decodeBits s = 0 → t.mem = s.mem)

/-- The state reached from state `x` of slot `t` by `n` back-pointers in a ring of `d` slots: the i-th is read in slot `t − i` modulo
`d` (44_viterbi.md R219). -/
def Sys2Proof.Claims.backState (w : List StepRecord) (d t x : Nat) : Nat → Nat
  | 0 => x
  | n + 1 => (slot w ((t + n * (d - 1)) % d)).prev.getD (backState w d t x n) 0

/-- 44_viterbi.md R225: `VD_FLUSH` raises `NOT_RESET`, `SPENT`, `OUT_OVERFLOW` in this order; otherwise it ORs the m bits of the walk
back from the best state into the output, in forward order from the cursor on, discards the leftover bits and leaves the session
spent. Every other bit of the output stream, before the cursor or from cursor + m on, keeps its value (R222). -/
def Obligations.VdFlushWritesWalk : Prop :=
  CmdFormat 0x22#8 .vdFlush ∧
  ∀ s : State,
    (s.vd.session = .idle → exec .vdFlush s = .next (recordError s .notReset 0x22#8)) ∧
    (s.vd.session = .spent → exec .vdFlush s = .next (recordError s .spent 0x22#8)) ∧
    (s.vd.session = .active → 8 * s.vd.lat.outLimit.toNat < outPos s.vd.out + walkBits s →
      exec .vdFlush s = .next (recordError s .outOverflow 0x22#8)) ∧
    (s.params.Legal → DecoderSound s → s.vd.session = .active → outPos s.vd.out + walkBits s ≤ 8 * s.vd.lat.outLimit.toNat →
      ∃ t, exec .vdFlush s = .next t ∧
        t = { s with mem := t.mem, vd := { s.vd with out := t.vd.out, rxCnt := 0, rxBits := 0, session := .spent } } ∧
        outPos t.vd.out = outPos s.vd.out + walkBits s ∧
        SameOutside (outBytes s.vd.lat.outBase s.vd.out (walkBits s)) s.mem t.mem ∧
        (∀ i < walkBits s, ∃ j x r : Nat, j = walkBits s - 1 - i ∧
          x = backState s.vd.window s.vd.lat.depth.toNat s.vd.wpos.toNat (slot s.vd.window s.vd.wpos.toNat).lo j ∧
          r = (s.vd.wpos.toNat + j * (s.vd.lat.depth.toNat - 1)) % s.vd.lat.depth.toNat ∧
          streamBit t.mem s.vd.lat.outBase.toNat (outPos s.vd.out + i) =
            (streamBit s.mem s.vd.lat.outBase.toNat (outPos s.vd.out + i) || (slot s.vd.window r).bit.getD x false)) ∧
        (∀ p, p < outPos s.vd.out ∨ outPos s.vd.out + walkBits s ≤ p →
          streamBit t.mem s.vd.lat.outBase.toNat p = streamBit s.mem s.vd.lat.outBase.toNat p))

/-- 44_viterbi.md R222, 70_reset_and_hazards.md R354: the decoder ORs its bits into the output bytes; no bit of the buffer memory that
is 1 becomes 0 in `VD_DECODE` or `VD_FLUSH`, in any state. -/
def Obligations.DecoderNeverClearsABit : Prop :=
  ∀ (i : Instr) (s t : State), i = .vdDecode ∨ i = .vdFlush → exec i s = .next t →
    ∀ a b, (Memory.read s.mem a).getLsbD b = true → (Memory.read t.mem a).getLsbD b = true

/-- Bit `i` of the n-bit branch output of state `x` and input bit `b`: for i = n − 1 − j the GF(2) sum of the bits of
`x + b·2^(K−1)` that polynomial j selects (44_viterbi.md R211, R212). -/
def Sys2Proof.Claims.branchBit (c : DecConfig) (x : Nat) (b : Bool) (i : Nat) : Bool :=
  decide (i < c.n.toNat) && oddCount c.k.toNat (fun q =>
    (x + b.toNat * 2 ^ (c.k.toNat - 1)).testBit q && (c.poly.getD (c.n.toNat - 1 - i) 0).getLsbD q)

/-- The Hamming distance of that branch output and the received bits `r` (44_viterbi.md R216). -/
def Sys2Proof.Claims.branchDistance (c : DecConfig) (x : Nat) (b : Bool) (r : Byte) : Nat :=
  ((Finset.range 8).filter (fun i => branchBit c x b i ≠ r.getLsbD i)).card

/-- 44_viterbi.md R216 to R222: after a trellis step every state holds the lesser of its two predecessors' candidates, each
predecessor counting only while its metric is not MAX; on equal candidates the higher-numbered predecessor's back-pointer is
kept; the best state is the lowest-numbered one of least metric, and the ring has advanced onto a fresh next slot. Before D − 1
steps are counted it emits nothing and counts the step; from then on it ORs one bit into the output at the cursor: the presumed
input bit, in the oldest slot of the window before the step, of the state that D − 1 back-pointers lead to from the new best state;
no other bit of the memory changes. The slots of the window but the new one and the refreshed one keep their records (R216, R221), the
refreshed one is the infinity record (R213), and nothing else of the state changes. The branch output of a state and an input bit has the GF(2) sum of the taps that polynomial j
selects in bit n − 1 − j, and no other bit (R212). -/
def Obligations.TrellisStepSelectsSurvivors : Prop :=
  ∀ (s t : State) (rb : Byte) (x : Nat), s.params.Legal → DecoderSound s → s.vd.session = .active → t = trellisStep rb s →
    x < 2 ^ (s.vd.lat.k.toNat - 1) →
    ∃ (p0 p1 c0 c1 : Nat) (b : Bool) (old new : StepRecord),
      p0 = 2 * x % 2 ^ (s.vd.lat.k.toNat - 1) ∧ p1 = p0 + 1 ∧ b = x.testBit (s.vd.lat.k.toNat - 2) ∧
      old = slot s.vd.window s.vd.wpos.toNat ∧ new = slot t.vd.window t.vd.wpos.toNat ∧
      c0 = min (old.m.getD p0 0 + branchDistance s.vd.lat p0 b rb) (2 ^ s.params.metricW - 1) ∧
      c1 = min (old.m.getD p1 0 + branchDistance s.vd.lat p1 b rb) (2 ^ s.params.metricW - 1) ∧
      (old.m.getD p0 0 = 2 ^ s.params.metricW - 1 → old.m.getD p1 0 = 2 ^ s.params.metricW - 1 →
        new.m.getD x 0 = 2 ^ s.params.metricW - 1 ∧
        new.prev.getD x 0 = (slot s.vd.window ((s.vd.wpos.toNat + 1) % s.vd.lat.depth.toNat)).prev.getD x 0 ∧
        new.bit.getD x false = (slot s.vd.window ((s.vd.wpos.toNat + 1) % s.vd.lat.depth.toNat)).bit.getD x false) ∧
      (old.m.getD p0 0 ≠ 2 ^ s.params.metricW - 1 → old.m.getD p1 0 = 2 ^ s.params.metricW - 1 →
        new.m.getD x 0 = c0 ∧ new.prev.getD x 0 = p0 ∧ new.bit.getD x false = b) ∧
      (old.m.getD p0 0 = 2 ^ s.params.metricW - 1 → old.m.getD p1 0 ≠ 2 ^ s.params.metricW - 1 →
        new.m.getD x 0 = c1 ∧ new.prev.getD x 0 = p1 ∧ new.bit.getD x false = b) ∧
      (old.m.getD p0 0 ≠ 2 ^ s.params.metricW - 1 → old.m.getD p1 0 ≠ 2 ^ s.params.metricW - 1 →
        new.m.getD x 0 = min c0 c1 ∧ new.prev.getD x 0 = (if c1 ≤ c0 then p1 else p0) ∧ new.bit.getD x false = b) ∧
      new.lo < 2 ^ (s.vd.lat.k.toNat - 1) ∧ new.lom = new.m.getD new.lo 0 ∧ new.lom ≤ new.m.getD x 0 ∧
      (x < new.lo → new.lom < new.m.getD x 0) ∧
      t.vd.wpos.toNat = (s.vd.wpos.toNat + 1) % s.vd.lat.depth.toNat ∧
      (∃ next, next = slot t.vd.window ((t.vd.wpos.toNat + 1) % s.vd.lat.depth.toNat) ∧
        next.m.getD x 0 = 2 ^ s.params.metricW - 1 ∧ next.prev.getD x 0 = 0 ∧ next.bit.getD x false = false ∧
        next.lo = 0 ∧ next.lom = 2 ^ s.params.metricW - 1) ∧
      (∀ r < s.vd.lat.depth.toNat, r ≠ t.vd.wpos.toNat → r ≠ (t.vd.wpos.toNat + 1) % s.vd.lat.depth.toNat →
        slot t.vd.window r = slot s.vd.window r) ∧
      t = { s with mem := t.mem, vd := { s.vd with
        wpos := t.vd.wpos, stepcnt := t.vd.stepcnt, out := t.vd.out, bestState := t.vd.bestState,
        bestMetric := t.vd.bestMetric, window := t.vd.window } } ∧
      t.vd.bestState.toNat = new.lo ∧ t.vd.bestMetric.toNat = new.lom ∧
      (s.vd.stepcnt.toNat < s.vd.lat.depth.toNat - 1 →
        t.mem = s.mem ∧ t.vd.out = s.vd.out ∧ t.vd.stepcnt.toNat = s.vd.stepcnt.toNat + 1) ∧
      (s.vd.lat.depth.toNat - 1 ≤ s.vd.stepcnt.toNat →
        t.vd.stepcnt = s.vd.stepcnt ∧ outPos t.vd.out = outPos s.vd.out + 1 ∧
        streamBit t.mem s.vd.lat.outBase.toNat (outPos s.vd.out) = (streamBit s.mem s.vd.lat.outBase.toNat (outPos s.vd.out) ||
          (slot s.vd.window ((s.vd.wpos.toNat + 2) % s.vd.lat.depth.toNat)).bit.getD
            (backState t.vd.window s.vd.lat.depth.toNat t.vd.wpos.toNat new.lo (s.vd.lat.depth.toNat - 1)) false) ∧
        (∀ a b, ¬ (a = s.vd.lat.outBase.toNat + outPos s.vd.out / 8 ∧ b = 7 - outPos s.vd.out % 8) →
          (Memory.read t.mem a).getLsbD b = (Memory.read s.mem a).getLsbD b)) ∧
      (∀ y < 2 ^ (s.vd.lat.k.toNat - 1), ∀ d i, (branchOut s.vd.lat y d).getLsbD i = branchBit s.vd.lat y d i)

/-- The trellis state reached from state `x` by the input bits (44_viterbi.md R211). -/
def Sys2Proof.Claims.pathEnd (k : Nat) : Nat → List Bool → Nat
  | x, [] => x
  | x, b :: l => pathEnd k ((x + b.toNat * 2 ^ (k - 1)) / 2) l

/-- The Hamming distance between the branch outputs of the path from state `x` by the input bits and the received words. -/
def Sys2Proof.Claims.pathDistance (c : DecConfig) : Nat → List Bool → List Byte → Nat
  | _, [], _ => 0
  | _, _ :: _, [] => 0
  | x, b :: l, r :: rs =>
    branchDistance c x b r + pathDistance c ((x + b.toNat * 2 ^ (c.k.toNat - 1)) / 2) l rs

/-- 44_viterbi.md R211, R216, R227 (maximum likelihood): after `VD_RESET` and any received words, each state's metric is the least
Hamming distance of any path of input bits from state 0 to it, saturated at MAX, and MAX where no path reaches it. -/
def Obligations.ViterbiMetricIsLeastPathDistance : Prop :=
  ∀ (s r : State) (rbs : List Byte) (x : Nat), s.params.Legal → passes s .vdReset = true → exec .vdReset s = .next r →
    x < 2 ^ (r.vd.lat.k.toNat - 1) →
    ∃ (t : State) (m : Nat), t = rbs.foldl (fun u rb => trellisStep rb u) r ∧
      m = (slot t.vd.window t.vd.wpos.toNat).m.getD x 0 ∧ m ≤ 2 ^ s.params.metricW - 1 ∧
      (∀ l : List Bool, l.length = rbs.length → pathEnd r.vd.lat.k.toNat 0 l = x → m ≤ pathDistance r.vd.lat 0 l rbs) ∧
      (m = 2 ^ s.params.metricW - 1 ∨
        ∃ l : List Bool, l.length = rbs.length ∧ pathEnd r.vd.lat.k.toNat 0 l = x ∧ pathDistance r.vd.lat 0 l rbs = m)

/-- 44_viterbi.md R224 (corner case), R215: two `VD_DECODE` commands on the two parts of an input leave the decoder, the memory and
everything else as one command on the whole input does. -/
def Obligations.DecodeStreamingIdentity : Prop :=
  ∀ (s t : State) (n : Nat), s.params.Legal → DecoderSound s → passes s .vdDecode = true → n ≤ s.ctl.srcLen.toNat →
    s.ctl.srcAddr.toNat + n < 2 ^ 32 → exec .vdDecode s = .next t →
    ∃ u v, exec .vdDecode { s with ctl := { s.ctl with srcLen := BitVec.ofNat 32 n } } = .next u ∧
      exec .vdDecode { u with ctl := { u.ctl with
        srcAddr := s.ctl.srcAddr + BitVec.ofNat 32 n, srcLen := s.ctl.srcLen - BitVec.ofNat 32 n } } = .next v ∧
      t = { v with ctl := s.ctl }

/-- 44_viterbi.md R226: `VD_CALCSIZE` computes the document's formula with I − Ct clamped at 0 and integer division; `VD_DEPTH` is not
checked. -/
def Obligations.VdCalcsizeIsTheFormula : Prop :=
  (∀ w, opOf w = 0x23#8 → decode w = .ok (.vdCalcsize (argOf w))) ∧
  ∀ (s : State) (a : BitVec 24),
    ((s.vd.cfg.k.toNat < 2 ∨ s.params.vdKMax < s.vd.cfg.k.toNat ∨ s.vd.cfg.n.toNat < 2 ∨ s.params.nMax < s.vd.cfg.n.toNat) →
      exec (.vdCalcsize a) s = .next (recordError s .badConfig 0x23#8)) ∧
    (2 ≤ s.vd.cfg.k.toNat → s.vd.cfg.k.toNat ≤ s.params.vdKMax → 2 ≤ s.vd.cfg.n.toNat → s.vd.cfg.n.toNat ≤ s.params.nMax →
      ∃ (ct : Nat) (v : Word), ct = (s.vd.cfg.k.toNat * s.vd.cfg.n.toNat + 7) / 8 ∧
        exec (.vdCalcsize a) s = .next { s with vd := { s.vd with size := v } } ∧
        v.toNat = (a.toNat - ct) / s.vd.cfg.n.toNat + ct)

/-- 44_viterbi.md R229: the bytes `VD_CALCSIZE` reserves hold every bit that a session on I bytes decodes. -/
def Obligations.DecoderReservationIsAdequate : Prop :=
  ∀ (s t : State) (a : BitVec 24), passes s (.vdCalcsize a) = true → exec (.vdCalcsize a) s = .next t →
    (8 * a.toNat / s.vd.cfg.n.toNat + 7) / 8 ≤ t.vd.size.toNat

/-! ## Binary matrix unit -/

/-- 45_matrix.md R251, R252: `MX_ZERO` and `MX_COPY` write exactly the bytes of the destination. -/
def Obligations.MxZeroAndCopyFillDestination : Prop :=
  CmdFormat 0x30#8 .mxZero ∧ CmdFormat 0x31#8 .mxCopy ∧
  ∀ s : State,
    (∀ e, errorOf s .mxZero = some e → exec .mxZero s = .next (recordError s e 0x30#8)) ∧
    (∀ e, errorOf s .mxCopy = some e → exec .mxCopy s = .next (recordError s e 0x31#8)) ∧
    (passes s .mxZero = true → ∃ t, exec .mxZero s = .next t ∧ t = { s with mem := t.mem } ∧
      (∀ i < s.mx.r.toNat * s.mx.c.toNat / 8, Memory.read t.mem (s.mx.dst.toNat + i) = 0#8) ∧
      SameOutside (regDst s s.mx.r s.mx.c) s.mem t.mem) ∧
    (passes s .mxCopy = true → ∃ t, exec .mxCopy s = .next t ∧ t = { s with mem := t.mem } ∧
      (∀ i < s.mx.r.toNat * s.mx.c.toNat / 8,
        Memory.read t.mem (s.mx.dst.toNat + i) = Memory.read t.mem (s.mx.a.toNat + i)) ∧
      SameOutside (regDst s s.mx.r s.mx.c) s.mem t.mem)

/-- `M.bit(r, c)` of a matrix of `c0` columns at `base` (00_scope.md R18). -/
def Sys2Proof.Claims.mbit (m : Memory) (base : Word) (c0 r c : Nat) : Bool :=
  (Memory.read m (base.toNat + (r * (c0 / 8) + c / 8))).getLsbD (7 - c % 8)

/-- 45_matrix.md R253, R254: `MX_SETBIT` sets the addressed bit and changes no other; `MX_GETBIT` returns it. -/
def Obligations.MxSetbitAndGetbitAddressOneBit : Prop :=
  CmdFormat 0x32#8 .mxSetbit ∧ CmdFormat 0x33#8 .mxGetbit ∧
  ∀ s : State,
    (∀ e, errorOf s .mxSetbit = some e → exec .mxSetbit s = .next (recordError s e 0x32#8)) ∧
    (∀ e, errorOf s .mxGetbit = some e → exec .mxGetbit s = .next (recordError s e 0x33#8)) ∧
    (passes s .mxSetbit = true → ∃ t, exec .mxSetbit s = .next t ∧ t = { s with mem := t.mem } ∧
      mbit t.mem s.mx.a s.mx.c.toNat s.mx.row.toNat s.mx.col.toNat = s.mx.bitval ∧
      (∀ a b, ¬ (a = s.mx.a.toNat + (s.mx.row.toNat * (s.mx.c.toNat / 8) + s.mx.col.toNat / 8) ∧ b = 7 - s.mx.col.toNat % 8) →
        (Memory.read t.mem a).getLsbD b = (Memory.read s.mem a).getLsbD b)) ∧
    (passes s .mxGetbit = true → ∃ v : DWord, exec .mxGetbit s = .next { s with mx := { s.mx with res := v } } ∧
      v.toNat = (mbit s.mem s.mx.a s.mx.c.toNat s.mx.row.toNat s.mx.col.toNat).toNat)

/-- 45_matrix.md R255, R256: `MX_EQUAL` and `MX_ISZERO` give 1 exactly when every byte of the matrix agrees (is 0), else 0. -/
def Obligations.MxComparisonsAreBytewise : Prop :=
  CmdFormat 0x34#8 .mxEqual ∧ CmdFormat 0x35#8 .mxIszero ∧
  ∀ s : State,
    (∀ e, errorOf s .mxEqual = some e → exec .mxEqual s = .next (recordError s e 0x34#8)) ∧
    (∀ e, errorOf s .mxIszero = some e → exec .mxIszero s = .next (recordError s e 0x35#8)) ∧
    (passes s .mxEqual = true → ∃ v : DWord, exec .mxEqual s = .next { s with mx := { s.mx with res := v } } ∧
      (v = 1 ∨ v = 0) ∧ (v = 1 ↔ ∀ i < s.mx.r.toNat * s.mx.c.toNat / 8,
        Memory.read s.mem (s.mx.a.toNat + i) = Memory.read s.mem (s.mx.b.toNat + i))) ∧
    (passes s .mxIszero = true → ∃ v : DWord, exec .mxIszero s = .next { s with mx := { s.mx with res := v } } ∧
      (v = 1 ∨ v = 0) ∧ (v = 1 ↔ ∀ i < s.mx.r.toNat * s.mx.c.toNat / 8, Memory.read s.mem (s.mx.a.toNat + i) = 0#8))

/-- 45_matrix.md R257: element i of the product vector (bit R−1−i) is the GF(2) sum over the columns; vector bits at positions ≥ C
are ignored and result bits at positions ≥ R are 0. -/
def Obligations.MxMulvecIsRowParity : Prop :=
  CmdFormat 0x36#8 .mxMulvec ∧
  ∀ s : State,
    (∀ e, errorOf s .mxMulvec = some e → exec .mxMulvec s = .next (recordError s e 0x36#8)) ∧
    (passes s .mxMulvec = true → ∃ v : DWord, exec .mxMulvec s = .next { s with mx := { s.mx with res := v } } ∧
      v.toNat < 2 ^ s.mx.r.toNat ∧
      ∀ i < s.mx.r.toNat, v.getLsbD (s.mx.r.toNat - 1 - i) = oddCount s.mx.c.toNat (fun k =>
        mbit s.mem s.mx.a s.mx.c.toNat i k && s.mx.vec.getLsbD (s.mx.c.toNat - 1 - k)))

/-- 45_matrix.md R258: bit (i, j) of the destination is the GF(2) sum over k of `A.bit(i, k) & B.bit(k, j)`. -/
def Obligations.MxMulmatIsGf2Product : Prop :=
  CmdFormat 0x37#8 .mxMulmat ∧
  ∀ s : State,
    (∀ e, errorOf s .mxMulmat = some e → exec .mxMulmat s = .next (recordError s e 0x37#8)) ∧
    (passes s .mxMulmat = true → ∃ t, exec .mxMulmat s = .next t ∧ t = { s with mem := t.mem } ∧
      (∀ i < s.mx.r.toNat, ∀ j < s.mx.x.toNat, mbit t.mem s.mx.dst s.mx.x.toNat i j =
        oddCount s.mx.c.toNat (fun k => mbit s.mem s.mx.a s.mx.c.toNat i k && mbit s.mem s.mx.b s.mx.x.toNat k j)) ∧
      SameOutside (regDst s s.mx.r s.mx.x) s.mem t.mem)

/-- 45_matrix.md R259: the destination is the C × R matrix with `DST.bit(c, r) = A.bit(r, c)`. -/
def Obligations.MxTransposeSwapsIndices : Prop :=
  CmdFormat 0x38#8 .mxTranspose ∧
  ∀ s : State,
    (∀ e, errorOf s .mxTranspose = some e → exec .mxTranspose s = .next (recordError s e 0x38#8)) ∧
    (passes s .mxTranspose = true → ∃ t, exec .mxTranspose s = .next t ∧ t = { s with mem := t.mem } ∧
      (∀ c < s.mx.c.toNat, ∀ r < s.mx.r.toNat,
        mbit t.mem s.mx.dst s.mx.r.toNat c r = mbit s.mem s.mx.a s.mx.c.toNat r c) ∧
      SameOutside (regDst s s.mx.c s.mx.r) s.mem t.mem)

/-- 45_matrix.md R262: two `MX_TRANSPOSE` commands with R and C exchanged give back the original bytes. -/
def Obligations.TransposeTwiceIsIdentity : Prop :=
  ∀ (s t u v : State) (d : Word), passes s .mxTranspose = true → exec .mxTranspose s = .next t →
    u = { t with mx := { t.mx with a := s.mx.dst, dst := d, r := s.mx.c, c := s.mx.r } } →
    passes u .mxTranspose = true → exec .mxTranspose u = .next v →
    ∀ i < s.mx.r.toNat * s.mx.c.toNat / 8, Memory.read v.mem (d.toNat + i) = Memory.read s.mem (s.mx.a.toNat + i)

/-! ## Block code -/

/-- `M · v` as a predicate on the result's bits (46_block_code.md R281): bit r0−1−i is the GF(2) sum over the columns, and no bit at a
position ≥ r0 is set. -/
def Sys2Proof.Claims.IsProduct (m : Memory) (base : Word) (r0 c0 : Nat) (v res : DWord) : Prop :=
  res.toNat < 2 ^ r0 ∧ ∀ i < r0, res.getLsbD (r0 - 1 - i) =
    oddCount c0 (fun k => mbit m base c0 i k && v.getLsbD (c0 - 1 - k))

/-- 46_block_code.md R280, R281, R283: `BC_ENCODE` gives G · src, source bits at positions ≥ SW ignored; a configuration that R280 does
not allow raises `BAD_CONFIG`, in `BC_DECODE` too. -/
def Obligations.BcEncodeIsGeneratorProduct : Prop :=
  CmdFormat 0x40#8 .bcEncode ∧
  ∀ s : State,
    (∀ e, errorOf s .bcEncode = some e → exec .bcEncode s = .next (recordError s e 0x40#8)) ∧
    (¬ blockOk s.params s.bc → exec .bcEncode s = .next (recordError s .badConfig 0x40#8) ∧
      exec .bcDecode s = .next (recordError s .badConfig 0x41#8)) ∧
    (passes s .bcEncode = true → ∃ v : DWord, exec .bcEncode s = .next { s with bc := { s.bc with out := v } } ∧
      IsProduct s.mem s.bc.g s.bc.cwW.toNat s.bc.srcW.toNat s.bc.input v)

/-- The number of 1 bits of a mask. -/
def Sys2Proof.Claims.weight (m : DWord) : Nat := ((Finset.range 64).filter (fun i => m.getLsbD i = true)).card

/-- 46_block_code.md R280, R281, R282, R284, R285: `BC_DECODE` returns D · cw for a zero syndrome; otherwise it corrects by the mask of
least weight (1 .. ME), and of greatest value among those, whose syndrome is that of the word, and always succeeds with it; it
fails, with `BC_OK` = 0, exactly when there is none. -/
def Obligations.BcDecodeCorrectsByFirstMask : Prop :=
  CmdFormat 0x41#8 .bcDecode ∧
  ∀ s : State,
    (∀ e, errorOf s .bcDecode = some e → exec .bcDecode s = .next (recordError s e 0x41#8)) ∧
    (passes s .bcDecode = true → ∃ (cw y out mask : DWord) (ok : Bool),
      exec .bcDecode s = .next { s with bc := { s.bc with out := out, ok := ok, syn := y, mask := mask } } ∧
      cw.toNat = s.bc.input.toNat % 2 ^ s.bc.cwW.toNat ∧
      IsProduct s.mem s.bc.h s.bc.synW.toNat s.bc.cwW.toNat cw y ∧
      (y = 0 → ok = true ∧ mask = 0 ∧ IsProduct s.mem s.bc.d s.bc.srcW.toNat s.bc.cwW.toNat cw out) ∧
      (y ≠ 0 → ok = true →
        mask.toNat < 2 ^ s.bc.cwW.toNat ∧ 1 ≤ weight mask ∧ weight mask ≤ s.bc.maxerr.toNat ∧
        IsProduct s.mem s.bc.h s.bc.synW.toNat s.bc.cwW.toNat mask y ∧
        (∀ e : DWord, e.toNat < 2 ^ s.bc.cwW.toNat → 1 ≤ weight e →
          IsProduct s.mem s.bc.h s.bc.synW.toNat s.bc.cwW.toNat e y →
          weight mask < weight e ∨ (weight mask = weight e ∧ e.toNat ≤ mask.toNat)) ∧
        IsProduct s.mem s.bc.d s.bc.srcW.toNat s.bc.cwW.toNat (cw ^^^ mask) out) ∧
      (y ≠ 0 → ok = false → out = 0 ∧ mask = 0 ∧
        ∀ e : DWord, e.toNat < 2 ^ s.bc.cwW.toNat → 1 ≤ weight e → weight e ≤ s.bc.maxerr.toNat →
          ¬ IsProduct s.mem s.bc.h s.bc.synW.toNat s.bc.cwW.toNat e y))

/-- 46_block_code.md R286: when H·G = 0, D·G is the identity and the error masks of weight 1 .. ME have distinct non-zero syndromes,
encoding, corrupting by a mask of weight at most ME and decoding gives the source block back, with that mask. -/
def Obligations.BlockCodeCorrectsUpToMaxErrors : Prop :=
  ∀ (s t u : State) (src m : DWord),
    passes s .bcEncode = true → passes s .bcDecode = true →
    (∀ v g : DWord, v.toNat < 2 ^ s.bc.srcW.toNat → IsProduct s.mem s.bc.g s.bc.cwW.toNat s.bc.srcW.toNat v g →
      IsProduct s.mem s.bc.h s.bc.synW.toNat s.bc.cwW.toNat g 0 ∧
      IsProduct s.mem s.bc.d s.bc.srcW.toNat s.bc.cwW.toNat g v) →
    (∀ e f y : DWord, e.toNat < 2 ^ s.bc.cwW.toNat → f.toNat < 2 ^ s.bc.cwW.toNat → 1 ≤ weight e →
      weight e ≤ s.bc.maxerr.toNat → 1 ≤ weight f → weight f ≤ s.bc.maxerr.toNat →
      IsProduct s.mem s.bc.h s.bc.synW.toNat s.bc.cwW.toNat e y →
      IsProduct s.mem s.bc.h s.bc.synW.toNat s.bc.cwW.toNat f y → y ≠ 0 ∧ e = f) →
    src.toNat < 2 ^ s.bc.srcW.toNat → m.toNat < 2 ^ s.bc.cwW.toNat → weight m ≤ s.bc.maxerr.toNat →
    exec .bcEncode { s with bc := { s.bc with input := src } } = .next t →
    exec .bcDecode { t with bc := { t.bc with input := t.bc.out ^^^ m } } = .next u →
    u.bc.out = src ∧ u.bc.ok = true ∧ u.bc.mask = m

/-! ## CRC engine -/

/-- The CRC width (47_crc.md). -/
def Sys2Proof.Claims.width (c : CrcUnit) : Nat := if c.w32 then 32 else 16

/-- 47_crc.md R301, R305 (the table is the spec's general knowledge, log 12): `CRC_PRESET` loads the four configuration registers of
its row and nothing else; above 5 it raises `BAD_CMD`. -/
def Obligations.CrcPresetLoadsItsRow : Prop :=
  ∀ (s : State) (k : BitVec 24),
    (5 < k.toNat → exec (.crcPreset k) s = .next (recordError s .badCmd 0x50#8)) ∧
    (k.toNat ≤ 5 → ∃ c, exec (.crcPreset k) s = .next { s with crc := c } ∧
      c = { s.crc with w32 := c.w32, refin := c.refin, refout := c.refout, poly := c.poly, init := c.init, xorout := c.xorout } ∧
      c.w32 = decide (3 ≤ k.toNat) ∧ c.refin = decide (k.toNat ≠ 0 ∧ k.toNat ≠ 4) ∧ c.refout = c.refin ∧
      c.poly = (if k.toNat ≤ 2 then 0x8005#32 else if k.toNat ≤ 4 then 0x04C11DB7#32 else 0x1EDC6F41#32) ∧
      c.init = (if k.toNat = 2 then 0xFFFF#32 else if k.toNat = 3 ∨ k.toNat = 5 then 0xFFFFFFFF#32 else 0#32) ∧
      c.xorout = (if k.toNat = 2 then 0xFFFF#32 else if 3 ≤ k.toNat then 0xFFFFFFFF#32 else 0#32))

/-- 47_crc.md R302, R304, R306: `CRC_INIT` loads the initial value masked to T bits, unreflected; `CRC_FINAL` gives the accumulator,
reversed within T bits when `REFOUT`, XORed with X, and leaves `CRC_ACC`. -/
def Obligations.CrcInitAndFinal : Prop :=
  CmdFormat 0x51#8 .crcInit ∧ CmdFormat 0x53#8 .crcFinal ∧
  ∀ s : State,
    (∃ v : Word, exec .crcInit s = .next { s with crc := { s.crc with acc := v } } ∧
      v.toNat = s.crc.init.toNat % 2 ^ width s.crc) ∧
    (∃ v : Word, exec .crcFinal s = .next { s with crc := { s.crc with result := v } } ∧
      v.toNat < 2 ^ width s.crc ∧
      ∀ i < width s.crc, v.getLsbD i =
        ((if s.crc.refout then s.crc.acc.getLsbD (width s.crc - 1 - i) else s.crc.acc.getLsbD i) ^^ s.crc.xorout.getLsbD i))

/-- One bit position of the CRC over numbers: double, and reduce by the polynomial when the T-bit value overflows (47_crc.md R300). -/
def Sys2Proof.Claims.crcDouble (t p acc : Nat) : Nat := if 2 ^ t ≤ 2 * acc then (2 * acc - 2 ^ t) ^^^ p else 2 * acc

/-- The byte with its bits reversed, as a number (00_scope.md R17). -/
def Sys2Proof.Claims.reversedByte (b : Byte) : Nat :=
  ((List.range 8).map (fun i => (b.getLsbD (7 - i)).toNat * 2 ^ i)).sum

/-- The CRC of one byte over numbers (47_crc.md R300). -/
def Sys2Proof.Claims.crcNext (t p : Nat) (refin : Bool) (acc : Nat) (b : Byte) : Nat :=
  (crcDouble t p)^[8] (acc ^^^ ((if refin then reversedByte b else b.toNat) * 2 ^ (t - 8)))

/-- 47_crc.md R300, R303, R306: `CRC_UPDATE` folds the bit-serial update over the input bytes in address order, from the accumulator
masked to T bits, and changes nothing else. -/
def Obligations.CrcUpdateFoldsBytes : Prop :=
  CmdFormat 0x52#8 .crcUpdate ∧
  ∀ s : State,
    (2 ^ s.params.addrW < s.ctl.srcAddr.toNat + s.ctl.srcLen.toNat →
      exec .crcUpdate s = .next (recordError s .range 0x52#8)) ∧
    (s.ctl.srcAddr.toNat + s.ctl.srcLen.toNat ≤ 2 ^ s.params.addrW →
      ∃ v : Word, exec .crcUpdate s = .next { s with crc := { s.crc with acc := v } } ∧
        v.toNat = ((List.range s.ctl.srcLen.toNat).map (fun i => Memory.read s.mem (s.ctl.srcAddr.toNat + i))).foldl
          (crcNext (width s.crc) (s.crc.poly.toNat % 2 ^ width s.crc) s.crc.refin) (s.crc.acc.toNat % 2 ^ width s.crc))

/-- 47_crc.md R303 (corner case): splitting the input over two `CRC_UPDATE` commands gives the same accumulator as one. -/
def Obligations.CrcUpdateSplits : Prop :=
  ∀ (s : State) (n : Nat), passes s .crcUpdate = true → n ≤ s.ctl.srcLen.toNat → s.ctl.srcAddr.toNat + n < 2 ^ 32 →
    ∃ t u v, exec .crcUpdate s = .next t ∧
      exec .crcUpdate { s with ctl := { s.ctl with srcLen := BitVec.ofNat 32 n } } = .next u ∧
      exec .crcUpdate { u with ctl := { u.ctl with
        srcAddr := s.ctl.srcAddr + BitVec.ofNat 32 n, srcLen := s.ctl.srcLen - BitVec.ofNat 32 n } } = .next v ∧
      t = { v with ctl := s.ctl }

/-! ## Footprints -/

/-- The output bytes in a footprint (20_memory.md R118): none where no bit is emitted or the session is IDLE (log 15). -/
def Sys2Proof.Claims.outTable (x : Session) (base : Word) (c : Cursor) (e : Nat) : List Region :=
  if x = .idle ∨ e = 0 then [] else [outBytes base c e]

/-- The byte of the bit (MX_ROW, MX_COL) of the matrix A (00_scope.md R18). -/
def Sys2Proof.Claims.bitByte (s : State) : Region :=
  ⟨s.mx.a.toNat + s.mx.row.toNat * (s.mx.c.toNat / 8) + s.mx.col.toNat / 8, 1⟩

/-- The read regions of the table of 20_memory.md R118. -/
def Sys2Proof.Claims.readTable (s : State) : Instr → List Region
  | .ceEncode | .crcUpdate => [source s]
  | .vdDecode => source s :: outTable s.vd.session s.vd.lat.outBase s.vd.out (decodeBits s)
  | .vdFlush => outTable s.vd.session s.vd.lat.outBase s.vd.out (walkBits s)
  | .mxCopy | .mxIszero | .mxMulvec | .mxTranspose => [regA s]
  | .mxSetbit | .mxGetbit => [bitByte s]
  | .mxEqual => [regA s, regB s s.mx.r s.mx.c]
  | .mxMulmat => [regA s, regB s s.mx.c s.mx.x]
  | .bcEncode => [⟨s.bc.g.toNat, s.bc.cwW.toNat * s.bc.srcW.toNat / 8⟩]
  | .bcDecode => [⟨s.bc.h.toNat, s.bc.synW.toNat * s.bc.cwW.toNat / 8⟩, ⟨s.bc.d.toNat, s.bc.srcW.toNat * s.bc.cwW.toNat / 8⟩]
  | .ceFlush | .mxZero => []
  | .nop | .softReset | .ceReset | .ceCalcsize _ | .vdReset | .vdCalcsize _ | .crcPreset _ | .crcInit | .crcFinal => []
  | .buParity | .buPopcount | .buHamdist | .buRev8 | .buRev32 | .mgInit | .mgNext => []

/-- The written regions of the table of 20_memory.md R118. -/
def Sys2Proof.Claims.writeTable (s : State) : Instr → List Region
  | .ceEncode => outTable s.ce.session s.ce.lat.outBase s.ce.out (encodeBits s)
  | .ceFlush => outTable s.ce.session s.ce.lat.outBase s.ce.out (tailBits s)
  | .vdDecode => outTable s.vd.session s.vd.lat.outBase s.vd.out (decodeBits s)
  | .vdFlush => outTable s.vd.session s.vd.lat.outBase s.vd.out (walkBits s)
  | .mxZero | .mxCopy => [regDst s s.mx.r s.mx.c]
  | .mxSetbit => [bitByte s]
  | .mxMulmat => [regDst s s.mx.r s.mx.x]
  | .mxTranspose => [regDst s s.mx.c s.mx.r]
  | .mxGetbit | .mxEqual | .mxIszero | .mxMulvec | .bcEncode | .bcDecode | .crcUpdate => []
  | .nop | .softReset | .ceReset | .ceCalcsize _ | .vdReset | .vdCalcsize _ | .crcPreset _ | .crcInit | .crcFinal => []
  | .buParity | .buPopcount | .buHamdist | .buRev8 | .buRev32 | .mgInit | .mgNext => []

/-- The byte at `a` is in one of the regions. -/
abbrev Sys2Proof.Claims.Touches (l : List Region) (a : Nat) : Prop := ∃ g ∈ l, g.base ≤ a ∧ a < g.base + g.len

/-- 20_memory.md R118 (log 15): in a sound state a command leaves every byte outside its written regions as it was. -/
def Obligations.FootprintCoversWrites : Prop :=
  ∀ (i : Instr) (s t : State), Sound s → exec i s = .next t →
    ∀ a, ¬ Touches (writeTable s i) a → Memory.read t.mem a = Memory.read s.mem a

/-- 20_memory.md R118 (log 15): what a command does depends on no byte outside its footprint: with the rest of the memory changed it gives
the same registers and the same bytes in its footprint. -/
def Obligations.FootprintCoversReads : Prop :=
  ∀ (i : Instr) (s t : State) (m : Memory), Sound s →
    (∀ a, Touches (readTable s i ++ writeTable s i) a → Memory.read m a = Memory.read s.mem a) →
    exec i s = .next t →
    ∃ u, exec i { s with mem := m } = .next u ∧ u = { t with mem := u.mem } ∧
      ∀ a, Touches (readTable s i ++ writeTable s i) a → Memory.read u.mem a = Memory.read t.mem a

/-! ## Invariants -/

/-- 70_reset_and_hazards.md R350: the machine after reset is sound, with any legal parameters, and with the default ones. (That the
parameters are the defaults is the model's choice, log 1; the hidden state after reset too, log 3.) -/
def Obligations.ResetIsSound : Prop := (∀ p : Params, p.Legal → Sound (State.resetWith p)) ∧ Sound State.reset

/-- log 2, 20_memory.md R101: every step keeps the canonical form of the buffer memory. -/
def Obligations.StepKeepsMemoryCanonical : Prop :=
  ∀ s t : State, Memory.wf s.mem → step s = .next t → Memory.wf t.mem

/-- 10_state.md R38, R91, 60_exceptions.md R322, R323; R42 and the other address registers; 42_mask_generator.md R170 to R173: every
step from a sound state keeps the parameters legal and the control unit, the address registers and the mask generator sound. -/
def Obligations.StepKeepsRegistersSound : Prop :=
  ∀ s t : State, Sound s → step s = .next t →
    t.params = s.params ∧ ControlSound t ∧ AddressesSound t ∧ MaskGenSound t

/-- 20_memory.md R106: every step from a sound state lists only addresses of the address space: no address wraps around its top. -/
def Obligations.StepStaysInAddressSpace : Prop :=
  ∀ s t : State, Sound s → step s = .next t → MemoryInSpace t

/-- 10_state.md R53, R54, 43_conv_encoder.md R180, R181, R185 to R187: every step from a sound state keeps the encoder sound. -/
def Obligations.StepKeepsEncoderSound : Prop :=
  ∀ s t : State, Sound s → step s = .next t → EncoderSound t

/-- 10_state.md R64 to R71, 44_viterbi.md R216 to R221, R227: every step from a sound state keeps the decoder sound. -/
def Obligations.StepKeepsDecoderSound : Prop :=
  ∀ s t : State, Sound s → step s = .next t → DecoderSound t

/-! ## The host -/

/-- The writable bits of an RW register (10_state.md R40 to R88): `none` for a register with another access type. -/
def Sys2Proof.Claims.rwBits (p : Params) : Reg → Option Nat
  | .irqEn => some 2
  | .srcAddr | .ceOutBase | .vdOutBase | .mxA | .mxB | .mxDst | .bcG | .bcH | .bcD => some p.addrW
  | .srcLen | .cePmask | .ceOutLimit | .vdOutLimit => some 32
  | .cePoly j | .vdPoly j => some (if j.val < p.nMax then 32 else 0)
  | .ceK | .cePlen | .vdK => some 6
  | .ceN | .vdN | .bcMaxerr | .mgK => some 4
  | .vdDepth | .mxR | .mxC | .mxX | .mxRow | .mxCol => some 16
  | .mxBitval => some 1
  | .mxVecLo | .mxVecHi | .bcInLo | .bcInHi | .buALo | .buAHi | .buBLo | .buBHi => some 32
  | .bcCwW | .bcSrcW | .bcSynW => some 8
  | .crcCfg => some 3
  | .crcPoly | .crcInit | .crcXorout => some 32
  | .mgL => some 7
  | _ => none

/-- The number of each error code (60_exceptions.md R323). -/
def Sys2Proof.Claims.errNumber : ErrCode → Nat
  | .none => 0 | .badCmd => 1 | .notReset => 2 | .spent => 3 | .badConfig => 4 | .range => 5 | .overlap => 6
  | .outOverflow => 7 | .index => 8

/-- The number of each session state (10_state.md R51, R63). -/
def Sys2Proof.Claims.sessionNumber : Session → Nat
  | .idle => 0 | .active => 1 | .spent => 2

/-- A polynomial as the host reads it (10_state.md R50, R62). -/
def Sys2Proof.Claims.polyRead (s : State) (l : List Word) (j : Nat) : Nat := if j < s.params.nMax then (l.getD j 0).toNat else 0

/-- The control and encoder rows of the register map (10_state.md R33 to R57): each offset and what an idle core reads there. -/
def Sys2Proof.Claims.controlReads (s : State) : List (Nat × Nat) :=
  [ (0x000, 0x46454331),
    (0x004, s.params.ceKMax + 2 ^ 8 * s.params.nMax + 2 ^ 16 * s.params.vdKMax + 2 ^ 24 * s.params.maskKMax),
    (0x008, s.params.vdDMax + 2 ^ 16 * s.params.addrW + 2 ^ 24 * s.params.metricW), (0x00C, s.params.mxDimMax), (0x010, 0),
    (0x014, s.ctl.pending.isSome.toNat + 2 * s.ctl.done.toNat + 4 * s.ctl.err.toNat + 8 * s.ctl.overrun.toNat +
      2 ^ 8 * errNumber s.ctl.errCode + 2 ^ 16 * s.ctl.errOp.toNat),
    (0x018, s.ctl.doneIe.toNat + 2 * s.ctl.errIe.toNat), (0x01C, s.ctl.cmdLast.toNat), (0x020, s.ctl.srcAddr.toNat),
    (0x024, s.ctl.srcLen.toNat) ]

def Sys2Proof.Claims.encoderReads (s : State) : List (Nat × Nat) :=
  [ (0x100, s.ce.cfg.k.toNat), (0x104, s.ce.cfg.n.toNat), (0x108, s.ce.cfg.plen.toNat), (0x10C, s.ce.cfg.pmask.toNat),
    (0x110, s.ce.cfg.outBase.toNat), (0x114, s.ce.cfg.outLimit.toNat), (0x140, sessionNumber s.ce.session),
    (0x144, s.ce.sr.toNat), (0x148, s.ce.out.byte.toNat), (0x14C, s.ce.out.bit.toNat), (0x150, s.ce.pcur.toNat),
    (0x154, s.ce.inBytes.toNat), (0x158, s.ce.size.toNat) ] ++
  (List.range 8).map (fun j => (0x120 + 4 * j, polyRead s s.ce.cfg.poly j))

/-- The decoder rows (10_state.md R58 to R71). -/
def Sys2Proof.Claims.decoderReads (s : State) : List (Nat × Nat) :=
  [ (0x200, s.vd.cfg.k.toNat), (0x204, s.vd.cfg.n.toNat), (0x208, s.vd.cfg.depth.toNat), (0x210, s.vd.cfg.outBase.toNat),
    (0x214, s.vd.cfg.outLimit.toNat), (0x240, sessionNumber s.vd.session), (0x244, s.vd.wpos.toNat),
    (0x248, s.vd.stepcnt.toNat), (0x24C, s.vd.out.byte.toNat), (0x250, s.vd.out.bit.toNat), (0x254, s.vd.rxCnt.toNat),
    (0x258, s.vd.rxBits.toNat), (0x25C, s.vd.bestState.toNat), (0x260, s.vd.bestMetric.toNat), (0x264, s.vd.size.toNat) ] ++
  (List.range 8).map (fun j => (0x220 + 4 * j, polyRead s s.vd.cfg.poly j))

/-- The matrix and block-code rows (10_state.md R72 to R82); a 64-bit pair has its bits 31:0 in `_LO`, 63:32 in `_HI`. -/
def Sys2Proof.Claims.matrixReads (s : State) : List (Nat × Nat) :=
  [ (0x300, s.mx.a.toNat), (0x304, s.mx.b.toNat), (0x308, s.mx.dst.toNat), (0x30C, s.mx.r.toNat), (0x310, s.mx.c.toNat),
    (0x314, s.mx.x.toNat), (0x318, s.mx.row.toNat), (0x31C, s.mx.col.toNat), (0x320, s.mx.bitval.toNat),
    (0x324, s.mx.vec.toNat % 2 ^ 32), (0x328, s.mx.vec.toNat / 2 ^ 32), (0x32C, s.mx.res.toNat % 2 ^ 32),
    (0x330, s.mx.res.toNat / 2 ^ 32) ]

def Sys2Proof.Claims.blockReads (s : State) : List (Nat × Nat) :=
  [ (0x400, s.bc.g.toNat), (0x404, s.bc.h.toNat), (0x408, s.bc.d.toNat), (0x40C, s.bc.cwW.toNat), (0x410, s.bc.srcW.toNat),
    (0x414, s.bc.synW.toNat), (0x418, s.bc.maxerr.toNat), (0x420, s.bc.input.toNat % 2 ^ 32),
    (0x424, s.bc.input.toNat / 2 ^ 32), (0x428, s.bc.out.toNat % 2 ^ 32), (0x42C, s.bc.out.toNat / 2 ^ 32),
    (0x430, s.bc.ok.toNat), (0x434, s.bc.syn.toNat % 2 ^ 32), (0x438, s.bc.syn.toNat / 2 ^ 32),
    (0x43C, s.bc.mask.toNat % 2 ^ 32), (0x440, s.bc.mask.toNat / 2 ^ 32) ]

/-- The CRC, bit-utility and mask-generator rows (10_state.md R83 to R90); `CRC_ACC` and `CRC_RESULT` show T bits (R85). -/
def Sys2Proof.Claims.utilityReads (s : State) : List (Nat × Nat) :=
  [ (0x500, s.crc.w32.toNat + 2 * s.crc.refin.toNat + 4 * s.crc.refout.toNat), (0x504, s.crc.poly.toNat),
    (0x508, s.crc.init.toNat), (0x50C, s.crc.xorout.toNat), (0x510, s.crc.acc.toNat % 2 ^ width s.crc),
    (0x514, s.crc.result.toNat % 2 ^ width s.crc), (0x600, s.bu.a.toNat % 2 ^ 32), (0x604, s.bu.a.toNat / 2 ^ 32),
    (0x608, s.bu.b.toNat % 2 ^ 32), (0x60C, s.bu.b.toNat / 2 ^ 32), (0x610, s.bu.res.toNat % 2 ^ 32),
    (0x614, s.bu.res.toNat / 2 ^ 32), (0x700, s.mg.l.toNat), (0x704, s.mg.k.toNat), (0x708, s.mg.mask.toNat % 2 ^ 32),
    (0x70C, s.mg.mask.toNat / 2 ^ 32), (0x710, s.mg.valid.toNat + 2 * s.mg.done.toNat) ]

/-- Every register's offset and what an idle core reads there. -/
def Sys2Proof.Claims.registerReads (s : State) : List (Nat × Nat) :=
  controlReads s ++ encoderReads s ++ decoderReads s ++ matrixReads s ++ blockReads s ++ utilityReads s

/-- An address field after a write of `v` (10_state.md R42). -/
def Sys2Proof.Claims.addrOf (s : State) (v : Word) : Word := BitVec.ofNat 32 (v.toNat % 2 ^ s.params.addrW)

/-- A 64-bit pair after a write of `v` to its `_LO` or its `_HI` register (10_state.md R33). -/
def Sys2Proof.Claims.pairLo (d : DWord) (v : Word) : DWord := BitVec.ofNat 64 (2 ^ 32 * (d.toNat / 2 ^ 32) + v.toNat)
def Sys2Proof.Claims.pairHi (d : DWord) (v : Word) : DWord := BitVec.ofNat 64 (2 ^ 32 * v.toNat + d.toNat % 2 ^ 32)

/-- The control and session registers the host writes (10_state.md R33, R38 to R62), the polynomials apart: each offset and the
state after a write of `v` by an idle core, which names the one field it changes. -/
def Sys2Proof.Claims.sessionWrites (s : State) (v : Word) : List (Nat × State) :=
  [ (0x010, { s with ctl := { s.ctl with pending := some v, cmdLast := v, done := false } }),
    (0x014, { s with ctl := { s.ctl with
      done := s.ctl.done && !v.getLsbD 1, err := s.ctl.err && !v.getLsbD 2, overrun := s.ctl.overrun && !v.getLsbD 3,
      errCode := (if v.getLsbD 2 then .none else s.ctl.errCode), errOp := (if v.getLsbD 2 then 0 else s.ctl.errOp) } }),
    (0x018, { s with ctl := { s.ctl with doneIe := v.getLsbD 0, errIe := v.getLsbD 1 } }),
    (0x020, { s with ctl := { s.ctl with srcAddr := addrOf s v } }),
    (0x024, { s with ctl := { s.ctl with srcLen := v } }),
    (0x100, { s with ce := { s.ce with cfg := { s.ce.cfg with k := BitVec.ofNat 6 v.toNat } } }),
    (0x104, { s with ce := { s.ce with cfg := { s.ce.cfg with n := BitVec.ofNat 4 v.toNat } } }),
    (0x108, { s with ce := { s.ce with cfg := { s.ce.cfg with plen := BitVec.ofNat 6 v.toNat } } }),
    (0x10C, { s with ce := { s.ce with cfg := { s.ce.cfg with pmask := v } } }),
    (0x110, { s with ce := { s.ce with cfg := { s.ce.cfg with outBase := addrOf s v } } }),
    (0x114, { s with ce := { s.ce with cfg := { s.ce.cfg with outLimit := v } } }),
    (0x200, { s with vd := { s.vd with cfg := { s.vd.cfg with k := BitVec.ofNat 6 v.toNat } } }),
    (0x204, { s with vd := { s.vd with cfg := { s.vd.cfg with n := BitVec.ofNat 4 v.toNat } } }),
    (0x208, { s with vd := { s.vd with cfg := { s.vd.cfg with depth := BitVec.ofNat 16 v.toNat } } }),
    (0x210, { s with vd := { s.vd with cfg := { s.vd.cfg with outBase := addrOf s v } } }),
    (0x214, { s with vd := { s.vd with cfg := { s.vd.cfg with outLimit := v } } }) ]

/-- The matrix and block-code registers the host writes (10_state.md R72 to R80). -/
def Sys2Proof.Claims.matrixWrites (s : State) (v : Word) : List (Nat × State) :=
  [ (0x300, { s with mx := { s.mx with a := addrOf s v } }), (0x304, { s with mx := { s.mx with b := addrOf s v } }),
    (0x308, { s with mx := { s.mx with dst := addrOf s v } }),
    (0x30C, { s with mx := { s.mx with r := BitVec.ofNat 16 v.toNat } }),
    (0x310, { s with mx := { s.mx with c := BitVec.ofNat 16 v.toNat } }),
    (0x314, { s with mx := { s.mx with x := BitVec.ofNat 16 v.toNat } }),
    (0x318, { s with mx := { s.mx with row := BitVec.ofNat 16 v.toNat } }),
    (0x31C, { s with mx := { s.mx with col := BitVec.ofNat 16 v.toNat } }),
    (0x320, { s with mx := { s.mx with bitval := v.getLsbD 0 } }),
    (0x324, { s with mx := { s.mx with vec := pairLo s.mx.vec v } }),
    (0x328, { s with mx := { s.mx with vec := pairHi s.mx.vec v } }),
    (0x400, { s with bc := { s.bc with g := addrOf s v } }), (0x404, { s with bc := { s.bc with h := addrOf s v } }),
    (0x408, { s with bc := { s.bc with d := addrOf s v } }),
    (0x40C, { s with bc := { s.bc with cwW := BitVec.ofNat 8 v.toNat } }),
    (0x410, { s with bc := { s.bc with srcW := BitVec.ofNat 8 v.toNat } }),
    (0x414, { s with bc := { s.bc with synW := BitVec.ofNat 8 v.toNat } }),
    (0x418, { s with bc := { s.bc with maxerr := BitVec.ofNat 4 v.toNat } }),
    (0x420, { s with bc := { s.bc with input := pairLo s.bc.input v } }),
    (0x424, { s with bc := { s.bc with input := pairHi s.bc.input v } }) ]

/-- The CRC, bit-utility and mask-generator registers the host writes (10_state.md R83, R84, R86, R88). -/
def Sys2Proof.Claims.utilityWrites (s : State) (v : Word) : List (Nat × State) :=
  [ (0x500, { s with crc := { s.crc with w32 := v.getLsbD 0, refin := v.getLsbD 1, refout := v.getLsbD 2 } }),
    (0x504, { s with crc := { s.crc with poly := v } }), (0x508, { s with crc := { s.crc with init := v } }),
    (0x50C, { s with crc := { s.crc with xorout := v } }),
    (0x600, { s with bu := { s.bu with a := pairLo s.bu.a v } }), (0x604, { s with bu := { s.bu with a := pairHi s.bu.a v } }),
    (0x608, { s with bu := { s.bu with b := pairLo s.bu.b v } }), (0x60C, { s with bu := { s.bu with b := pairHi s.bu.b v } }),
    (0x700, { s with mg := { s.mg with l := BitVec.ofNat 7 v.toNat } }),
    (0x704, { s with mg := { s.mg with k := BitVec.ofNat 4 v.toNat } }) ]

/-- Every offset but the polynomials' that a host write has an effect on, with the state after the write by an idle core. -/
def Sys2Proof.Claims.registerWrites (s : State) (v : Word) : List (Nat × State) :=
  sessionWrites s v ++ matrixWrites s v ++ utilityWrites s v

/-- The offset of a polynomial register (10_state.md R33). -/
def Sys2Proof.Claims.polyOffset (off : Nat) : Prop := (0x120 ≤ off ∧ off < 0x140) ∨ (0x220 ≤ off ∧ off < 0x240)

/-- The polynomials after a write of `v` to number `j` (10_state.md R50, R62): those of numbers from `N_MAX` on ignore it. -/
def Sys2Proof.Claims.PolyWritten (s : State) (old new : List Word) (j : Nat) (v : Word) : Prop :=
  ∀ i, new.getD i 0 = if i = j ∧ j < s.params.nMax then v else old.getD i 0

/-- 10_state.md R31 to R33, R38 to R90, 20_memory.md R102: while the core is idle, a read of a register returns its field and a write
changes its field and nothing else, at the offset the register map gives it from `REG_BASE` on; a write to any other offset changes
nothing, and a read where no register is returns 0. An RW register reads back what the host wrote, the bits no field occupies 0.
An access of another size or alignment, or outside the window, is refused (log 7, log 11). -/
def Obligations.HostWritesReadBack : Prop :=
  ∀ (s : State) (v : Word), s.params.Legal → busy s = false →
    (∀ off n, (off, n) ∈ registerReads s → ∃ w : Word, w.toNat = n ∧
      hostAccess (.regRead (regAddr s off) 4) s = .next { s with host := { s.host with regData := w } }) ∧
    (∀ off t, (off, t) ∈ registerWrites s v → hostAccess (.regWrite (regAddr s off) 4 v) s = .next t) ∧
    (∀ j < 8, ∃ l, PolyWritten s s.ce.cfg.poly l j v ∧ hostAccess (.regWrite (regAddr s (0x120 + 4 * j)) 4 v) s =
      .next { s with ce := { s.ce with cfg := { s.ce.cfg with poly := l } } }) ∧
    (∀ j < 8, ∃ l, PolyWritten s s.vd.cfg.poly l j v ∧ hostAccess (.regWrite (regAddr s (0x220 + 4 * j)) 4 v) s =
      .next { s with vd := { s.vd with cfg := { s.vd.cfg with poly := l } } }) ∧
    (∀ off < 4096, off % 4 = 0 → ¬ polyOffset off → off ∉ (registerWrites s v).map Prod.fst →
      hostAccess (.regWrite (regAddr s off) 4 v) s = .next s) ∧
    (∀ off < 4096, off % 4 = 0 → off ∉ (registerReads s).map Prod.fst →
      hostAccess (.regRead (regAddr s off) 4) s = .next { s with host := { s.host with regData := 0 } }) ∧
    (∀ off r n, regAt off = some r → rwBits s.params r = some n →
      ∃ t u, hostAccess (.regWrite (regAddr s off) 4 v) s = .next t ∧ t.mem = s.mem ∧
        hostAccess (.regRead (regAddr s off) 4) t = .next u ∧ u.host.regData.toNat = v.toNat % 2 ^ n) ∧
    (∀ x bytes, x < s.params.regBase ∨ s.params.regBase + 4096 ≤ x ∨ bytes ≠ 4 ∨ (x - s.params.regBase) % 4 ≠ 0 →
      hostAccess (.regRead x bytes) s = .refused .registerAccess ∧
      hostAccess (.regWrite x bytes v) s = .refused .registerAccess)

/-- 10_state.md R38, R92, R93, 60_exceptions.md R325: an idle core accepts a `CMD` write; a busy one drops it, and every write to a
register but `STATUS` and `IRQ_EN`, and sets `OVERRUN` only; a busy core answers reads of `ID`, `CAP0`-`CAP2`, `STATUS`, `IRQ_EN` and
`CMD_LAST` as usual and every other with the free value, `CMD` among them (R93 over R38, log 6). Busy or not, the host writes `STATUS` (write 1 to clear) and `IRQ_EN`; an
aligned offset where no register is reads 0 and ignores writes (R32; while busy, log 17), and an access of another size or alignment
or outside the window is refused (R31, log 7, log 11). -/
def Obligations.BusyCoreDropsWritesAndHidesRegisters : Prop :=
  (∀ (s : State) (off : Nat) (v : Word) (r : Reg), regAt off = some r →
    (busy s = false → r = .cmd → hostAccess (.regWrite (regAddr s off) 4 v) s =
      .next { s with ctl := { s.ctl with pending := some v, cmdLast := v, done := false } }) ∧
    (busy s = true → r ≠ .status → r ≠ .irqEn →
      hostAccess (.regWrite (regAddr s off) 4 v) s = .next { s with ctl := { s.ctl with overrun := true } }) ∧
    (busy s = true → (r = .id ∨ r = .cap0 ∨ r = .cap1 ∨ r = .cap2 ∨ r = .status ∨ r = .irqEn ∨ r = .cmdLast) →
      hostAccess (.regRead (regAddr s off) 4) s = .next { s with host := { s.host with regData := readReg s r } }) ∧
    (busy s = true → ¬ (r = .id ∨ r = .cap0 ∨ r = .cap1 ∨ r = .cap2 ∨ r = .status ∨ r = .irqEn ∨ r = .cmdLast) →
      hostAccess (.regRead (regAddr s off) 4) s = .next { s with host := { s.host with
        regData := Config.freeWord s.host.freeCount, freeCount := s.host.freeCount + 1 } })) ∧
  (∀ (s : State) (off : Nat), busy s = true →
    (∀ n, s.params.Legal → (off, n) ∈ controlReads s → off ∈ [0x000, 0x004, 0x008, 0x00C, 0x014, 0x018, 0x01C] → ∃ w : Word,
      w.toNat = n ∧ hostAccess (.regRead (regAddr s off) 4) s = .next { s with host := { s.host with regData := w } }) ∧
    (off ∈ (registerReads s).map Prod.fst → off ∉ [0x000, 0x004, 0x008, 0x00C, 0x014, 0x018, 0x01C] →
      hostAccess (.regRead (regAddr s off) 4) s = .next { s with host := { s.host with
        regData := Config.freeWord s.host.freeCount, freeCount := s.host.freeCount + 1 } }) ∧
    (∀ v : Word, off ∈ (registerReads s).map Prod.fst → off ≠ 0x014 → off ≠ 0x018 →
      hostAccess (.regWrite (regAddr s off) 4 v) s = .next { s with ctl := { s.ctl with overrun := true } })) ∧
  (∀ (s : State) (v : Word),
    hostAccess (.regWrite (regAddr s 0x014) 4 v) s = .next { s with ctl := { s.ctl with
      done := s.ctl.done && !v.getLsbD 1, err := s.ctl.err && !v.getLsbD 2, overrun := s.ctl.overrun && !v.getLsbD 3,
      errCode := (if v.getLsbD 2 then .none else s.ctl.errCode), errOp := (if v.getLsbD 2 then 0 else s.ctl.errOp) } } ∧
    hostAccess (.regWrite (regAddr s 0x018) 4 v) s = .next { s with ctl := { s.ctl with
      doneIe := v.getLsbD 0, errIe := v.getLsbD 1 } } ∧
    (∀ off < 4096, off % 4 = 0 → off ∉ (registerReads s).map Prod.fst →
      hostAccess (.regWrite (regAddr s off) 4 v) s = .next s ∧
      hostAccess (.regRead (regAddr s off) 4) s = .next { s with host := { s.host with regData := 0 } }) ∧
    (∀ x bytes, x < s.params.regBase ∨ s.params.regBase + 4096 ≤ x ∨ bytes ≠ 4 ∨ (x - s.params.regBase) % 4 ≠ 0 →
      hostAccess (.regRead x bytes) s = .refused .registerAccess ∧
      hostAccess (.regWrite x bytes v) s = .refused .registerAccess))

/-- 10_state.md R39, R91, 60_exceptions.md R327, R328: the fields of the `STATUS` word, and that a write of 0xE to `STATUS`, busy or
not, clears `DONE`, `ERR` (with its code and opcode) and `OVERRUN` and so drops `irq`, leaving everything else. -/
def Obligations.StatusFieldsAndInterrupt : Prop :=
  ∀ s : State,
    ((readReg s .status).getLsbD 0 = s.ctl.pending.isSome ∧ (readReg s .status).getLsbD 1 = s.ctl.done ∧
      (readReg s .status).getLsbD 2 = s.ctl.err ∧ (readReg s .status).getLsbD 3 = s.ctl.overrun ∧
      (readReg s .status).extractLsb' 4 4 = 0#4 ∧ (readReg s .status).extractLsb' 8 8 = s.ctl.errCode.code ∧
      (readReg s .status).extractLsb' 16 8 = s.ctl.errOp ∧ (readReg s .status).extractLsb' 24 8 = 0#8) ∧
    (irq s = true ↔ (s.ctl.done = true ∧ s.ctl.doneIe = true) ∨
      ((s.ctl.err = true ∨ s.ctl.overrun = true) ∧ s.ctl.errIe = true)) ∧
    ∃ t, hostAccess (.regWrite (regAddr s 0x014) 4 0x0000000E#32) s = .next t ∧ irq t = false ∧
      t = { s with ctl := { s.ctl with done := false, err := false, overrun := false, errCode := .none, errOp := 0#8 } }

/-- 70_reset_and_hazards.md R357, R358, 20_memory.md R101, R118: a host access to a byte of the pending command's footprint stops with
its fault; so does, whether or not a command is pending, a host write of a byte outside that footprint in the output region of an
ACTIVE session; every other host access to a byte of the buffer memory reads or writes that byte and changes nothing else. (Log 15:
the footprint has no output byte where the command emits no bit or its session is IDLE, and is empty for a pending word that is no
command. Log 10: an access at an address of 2^ADDR_W or above faults.) -/
def Obligations.HostMemoryAccessesAndHazards : Prop :=
  ∀ (s : State) (a : Nat) (v : Byte),
    (2 ^ s.params.addrW ≤ a →
      hostAccess (.memRead a) s = .fault .noSuchAddress ∧ hostAccess (.memWrite a v) s = .fault .noSuchAddress) ∧
    (a < 2 ^ s.params.addrW →
      (∀ w i, s.ctl.pending = some w → decode w = .ok i → Touches (readTable s i ++ writeTable s i) a →
        hostAccess (.memRead a) s = .fault .pendingFootprint ∧ hostAccess (.memWrite a v) s = .fault .pendingFootprint) ∧
      ((∀ w i, s.ctl.pending = some w → decode w = .ok i → ¬ Touches (readTable s i ++ writeTable s i) a) →
        (s.ce.session = .active ∧ s.ce.lat.outBase.toNat ≤ a ∧ a < s.ce.lat.outBase.toNat + s.ce.lat.outLimit.toNat) ∨
        (s.vd.session = .active ∧ s.vd.lat.outBase.toNat ≤ a ∧ a < s.vd.lat.outBase.toNat + s.vd.lat.outLimit.toNat) →
        hostAccess (.memWrite a v) s = .fault .sessionOutput) ∧
      ((∀ w i, s.ctl.pending = some w → decode w = .ok i → ¬ Touches (readTable s i ++ writeTable s i) a) →
        hostAccess (.memRead a) s = .next { s with host := { s.host with memData := Memory.read s.mem a } } ∧
        (¬ (s.ce.session = .active ∧ s.ce.lat.outBase.toNat ≤ a ∧ a < s.ce.lat.outBase.toNat + s.ce.lat.outLimit.toNat) →
         ¬ (s.vd.session = .active ∧ s.vd.lat.outBase.toNat ≤ a ∧ a < s.vd.lat.outBase.toNat + s.vd.lat.outLimit.toNat) →
          ∃ t, hostAccess (.memWrite a v) s = .next t ∧ t = { s with mem := t.mem } ∧ Memory.read t.mem a = v ∧
            ∀ b, b ≠ a → Memory.read t.mem b = Memory.read s.mem b)))

/-- What a register reads after reset (70_reset_and_hazards.md R350). -/
def Sys2Proof.Claims.resetWord (p : Params) : Reg → Word
  | .id => 0x46454331#32
  | .cap0 => BitVec.ofNat 8 p.maskKMax ++ BitVec.ofNat 8 p.vdKMax ++ BitVec.ofNat 8 p.nMax ++ BitVec.ofNat 8 p.ceKMax
  | .cap1 => BitVec.ofNat 8 p.metricW ++ BitVec.ofNat 8 p.addrW ++ BitVec.ofNat 16 p.vdDMax
  | .cap2 => BitVec.ofNat 32 (p.mxDimMax % 2 ^ 16)
  | .cePlen | .cePmask => 1
  | .ceOutBit | .vdOutBit => 7
  | _ => 0

/-- 70_reset_and_hazards.md R350, R351: reset gives every register its value, discards a pending command, masks the interrupt and
leaves the buffer memory (log 8: the model takes reset as one event, which leaves its own fields). All 32 stored bits of `CRC_ACC` and
`CRC_RESULT` are 0, those a host read hides while T = 16 too (log 20). -/
def Obligations.PowerResetGivesEveryRegisterItsValue : Prop :=
  ∀ s : State, ∃ t, hostAccess .powerReset s = .next t ∧ t.params = s.params ∧ t.mem = s.mem ∧ t.ctl.pending = none ∧
    t.host = s.host ∧ irq t = false ∧ t.ce.session = .idle ∧ t.vd.session = .idle ∧ t.mg.valid = false ∧
    t.crc.acc = 0 ∧ t.crc.result = 0 ∧
    ∀ r : Reg, readReg t r = resetWord s.params r
end

