-- ==== Sys2Proof/Laws/Bits.lean ====
section
/-! SUPPORT. What the bit primitives of Machine/Bits.lean do, said once. -/

namespace Sys2Proof.Machine

@[simp] theorem countBits_zero (f : Nat → Bool) : countBits 0 f = 0 := rfl

theorem countBits_succ (n : Nat) (f : Nat → Bool) : countBits (n + 1) f = countBits n f + (f n).toNat := rfl

theorem countBits_le (n : Nat) (f : Nat → Bool) : countBits n f ≤ n := by
  induction n with
  | zero => simp
  | succ n ih => rw [countBits_succ]; have := Bool.toNat_le (f n); omega

theorem countBits_congr {n : Nat} {f g : Nat → Bool} (h : ∀ i < n, f i = g i) : countBits n f = countBits n g := by
  induction n with
  | zero => rfl
  | succ n ih => rw [countBits_succ, countBits_succ, ih fun i hi => h i (by omega), h n (by omega)]

theorem countBits_eq_card (n : Nat) (f : Nat → Bool) : countBits n f = ((Finset.range n).filter (fun i => f i = true)).card := by
  induction n with
  | zero => rfl
  | succ n ih =>
    rw [countBits_succ, ih, Finset.range_add_one, Finset.filter_insert]
    cases h : f n <;> simp

/-- The parity of a count is additive under xor: the product over GF(2) is linear. -/
theorem countBits_xor_mod (n : Nat) (f g : Nat → Bool) :
    countBits n (fun i => f i ^^ g i) % 2 = (countBits n f + countBits n g) % 2 := by
  induction n with
  | zero => rfl
  | succ n ih =>
    simp only [countBits_succ]
    have : (f n ^^ g n).toNat % 2 = ((f n).toNat + (g n).toNat) % 2 := by cases f n <;> cases g n <;> rfl
    omega

/-- Bit j of `packBits w n f`. -/
@[simp] theorem packBits_getLsbD (w n : Nat) (f : Nat → Bool) (j : Nat) :
    (packBits w n f).getLsbD j = (decide (j < w) && decide (j < n) && f j) := by
  induction n with
  | zero => simp [packBits]
  | succ n ih =>
    rw [packBits, BitVec.getLsbD_or, ih]
    by_cases hj : j = n
    · subst hj
      cases h : f j
      · simp
      · simp only [if_true, BitVec.getLsbD_shiftLeft, BitVec.getLsbD_one]
        by_cases hw : j < w
        · have : 0 < w := by omega
          simp [hw, this]
        · simp [hw]
    · have hn : decide (j < n + 1) = decide (j < n) := by
        by_cases h : j < n <;> simp [h] <;> omega
      have hs : (if f n then 1#w <<< n else 0#w).getLsbD j = false := by
        split
        · rw [BitVec.getLsbD_shiftLeft, BitVec.getLsbD_one]
          by_cases h : j < n
          · simp [h]
          · have : ¬ j - n = 0 := by omega
            simp [this]
        · simp
      rw [hn, hs, Bool.or_false]

theorem packBits_congr {w n : Nat} {f g : Nat → Bool} (h : ∀ i < n, f i = g i) : packBits w n f = packBits w n g := by
  induction n with
  | zero => rfl
  | succ n ih => rw [packBits, packBits, ih fun i hi => h i (by omega), h n (by omega)]

@[simp] theorem revBits_getLsbD {w : Nat} (t : Nat) (v : BitVec w) (j : Nat) :
    (revBits t v).getLsbD j = (decide (j < w) && decide (j < t) && v.getLsbD (t - 1 - j)) := by
  simp [revBits]

@[simp] theorem lowBits_getLsbD (w : Nat) (v : DWord) (j : Nat) :
    (lowBits w v).getLsbD j = (decide (j < w) && v.getLsbD j) := by
  rw [lowBits, packBits_getLsbD]
  by_cases h : j < 64
  · simp [h]
  · simp [h, BitVec.getLsbD_of_ge v j (by omega)]

theorem parity_eq_odd {w : Nat} (v : BitVec w) :
    parity v = true ↔ Odd ((Finset.range w).filter (fun i => v.getLsbD i = true)).card := by
  rw [parity, popcount, countBits_eq_card, Nat.odd_iff, beq_iff_eq]

/-- Parity is linear (46_block_code.md R285). -/
theorem parity_xor {w : Nat} (a b : BitVec w) : parity (a ^^^ b) = (parity a ^^ parity b) := by
  have h := countBits_xor_mod w (fun i => a.getLsbD i) (fun i => b.getLsbD i)
  simp only [parity, popcount, BitVec.getLsbD_xor]
  rcases Nat.mod_two_eq_zero_or_one (countBits w fun i => a.getLsbD i) with ha | ha <;>
    rcases Nat.mod_two_eq_zero_or_one (countBits w fun i => b.getLsbD i) with hb | hb <;>
    simp [ha, hb, h, Nat.add_mod]

theorem ceilDiv_le_iff {a b c : Nat} (hb : 0 < b) : ceilDiv a b ≤ c ↔ a ≤ b * c := by
  rw [ceilDiv, Nat.div_le_iff_le_mul_add_pred hb]
  omega

theorem boolDWord_toNat (b : Bool) : (boolDWord b).toNat = b.toNat := by cases b <;> rfl

theorem setAt_getD {α : Type} (d : α) (l : List α) (i j : Nat) (v : α) :
    (setAt d l i v).getD j d = if j = i then v else l.getD j d := by
  induction i generalizing l j with
  | zero => cases l <;> cases j <;> simp [setAt]
  | succ i ih => cases l <;> cases j <;> simp_all [setAt]

@[simp] theorem setAt_getD_same {α : Type} (d : α) (l : List α) (i : Nat) (v : α) : (setAt d l i v).getD i d = v := by
  rw [setAt_getD, if_pos rfl]

theorem setAt_getD_ne {α : Type} (d : α) (l : List α) {i j : Nat} (v : α) (h : j ≠ i) :
    (setAt d l i v).getD j d = l.getD j d := by
  rw [setAt_getD, if_neg h]

theorem setLo_getLsbD (v : DWord) (x : Word) (i : Nat) :
    (setLo v x).getLsbD i = if i < 32 then x.getLsbD i else (hiWord v).getLsbD (i - 32) :=
  BitVec.getLsbD_append

theorem setHi_getLsbD (v : DWord) (x : Word) (i : Nat) :
    (setHi v x).getLsbD i = if i < 32 then (loWord v).getLsbD i else x.getLsbD (i - 32) :=
  BitVec.getLsbD_append

theorem loWord_getLsbD (v : DWord) (i : Nat) : (loWord v).getLsbD i = (decide (i < 32) && v.getLsbD i) := by
  rw [loWord, BitVec.getLsbD_extractLsb', Nat.zero_add]

theorem hiWord_getLsbD (v : DWord) (i : Nat) : (hiWord v).getLsbD i = (decide (i < 32) && v.getLsbD (32 + i)) := by
  rw [hiWord, BitVec.getLsbD_extractLsb']

@[simp] theorem loWord_setLo (v : DWord) (x : Word) : loWord (setLo v x) = x := by
  apply BitVec.eq_of_getLsbD_eq
  intro i hi
  rw [loWord_getLsbD, setLo_getLsbD, if_pos hi, decide_eq_true hi, Bool.true_and]

@[simp] theorem hiWord_setLo (v : DWord) (x : Word) : hiWord (setLo v x) = hiWord v := by
  apply BitVec.eq_of_getLsbD_eq
  intro i hi
  rw [hiWord_getLsbD, setLo_getLsbD, if_neg (by omega), decide_eq_true hi, Bool.true_and, Nat.add_sub_cancel_left]

@[simp] theorem loWord_setHi (v : DWord) (x : Word) : loWord (setHi v x) = loWord v := by
  apply BitVec.eq_of_getLsbD_eq
  intro i hi
  rw [loWord_getLsbD, setHi_getLsbD, if_pos hi, decide_eq_true hi, Bool.true_and]

@[simp] theorem hiWord_setHi (v : DWord) (x : Word) : hiWord (setHi v x) = x := by
  apply BitVec.eq_of_getLsbD_eq
  intro i hi
  rw [hiWord_getLsbD, setHi_getLsbD, if_neg (by omega), decide_eq_true hi, Bool.true_and, Nat.add_sub_cancel_left]

end Sys2Proof.Machine
end

