-- ==== Sys2Proof/Laws/Memory.lean ====
section
/-! SUPPORT. The laws of the buffer memory: what a read gives after each operation, and that each operation keeps the
canonical form. The read laws hold of every list, canonical or not. -/

namespace Sys2Proof.Machine

@[simp] theorem Memory.read_nil (a : Nat) : Memory.read [] a = Memory.unlisted := rfl

theorem Memory.read_erase (m : Memory) (a b : Nat) :
    Memory.read (Memory.erase m a) b = if b = a then Memory.unlisted else Memory.read m b := by
  induction m with
  | nil => simp [Memory.erase]
  | cons c m ih =>
    obtain ⟨k, v⟩ := c
    by_cases hk : k = a
    · subst hk
      simp only [Memory.erase, if_true, ih, Memory.read]
      by_cases hb : b = k
      · simp [hb]
      · simp [hb, Ne.symm hb]
    · simp only [Memory.erase, if_neg hk, Memory.read, ih]
      by_cases hb : b = a
      · simp [hb, hk]
      · simp [hb]

theorem Memory.mem_erase {m : Memory} {a : Nat} {c : Host.Cell} : c ∈ Memory.erase m a ↔ c ∈ m ∧ c.1 ≠ a := by
  induction m with
  | nil => simp [Memory.erase]
  | cons d m ih =>
    obtain ⟨k, v⟩ := d
    by_cases hk : k = a
    · simp only [Memory.erase, if_pos hk, ih, List.mem_cons]
      constructor
      · rintro ⟨h, h'⟩; exact ⟨.inr h, h'⟩
      · rintro ⟨h | h, h'⟩
        · subst h; exact absurd hk h'
        · exact ⟨h, h'⟩
    · simp only [Memory.erase, if_neg hk, ih, List.mem_cons]
      constructor
      · rintro (h | ⟨h, h'⟩)
        · subst h; exact ⟨.inl rfl, hk⟩
        · exact ⟨.inr h, h'⟩
      · rintro ⟨h | h, h'⟩
        · exact .inl h
        · exact .inr ⟨h, h'⟩

theorem Memory.mem_insert {m : Memory} {a : Nat} {v : Byte} {c : Host.Cell} :
    c ∈ Memory.insert m a v ↔ c = (a, v) ∨ c ∈ m := by
  induction m with
  | nil => simp [Memory.insert]
  | cons d m ih =>
    obtain ⟨k, b⟩ := d
    by_cases h : a < k
    · simp [Memory.insert, h]
    · simp only [Memory.insert, if_neg h, List.mem_cons, ih]
      tauto

theorem Memory.read_insert {m : Memory} {a : Nat} (v : Byte) (b : Nat) (h : ∀ c ∈ m, c.1 ≠ a) :
    Memory.read (Memory.insert m a v) b = if b = a then v else Memory.read m b := by
  induction m with
  | nil => simp only [Memory.insert, Memory.read, eq_comm]
  | cons d m ih =>
    obtain ⟨k, w⟩ := d
    have hk : k ≠ a := h (k, w) (by simp)
    by_cases hlt : a < k
    · simp only [Memory.insert, if_pos hlt, Memory.read, eq_comm (a := a)]
    · simp only [Memory.insert, if_neg hlt, Memory.read, ih fun c hc => h c (by simp [hc])]
      by_cases hb : k = b
      · have : b ≠ a := hb ▸ hk
        simp [hb, this]
      · simp [hb]

/-- Read after write. -/
theorem Memory.read_write (m : Memory) (a : Nat) (v : Byte) (b : Nat) :
    Memory.read (Memory.write m a v) b = if b = a then v else Memory.read m b := by
  unfold Memory.write
  split
  · next h => rw [Memory.read_erase, h]
  · rw [Memory.read_insert _ _ fun c hc => (Memory.mem_erase.1 hc).2, Memory.read_erase]
    split <;> rfl

@[simp] theorem Memory.read_write_same (m : Memory) (a : Nat) (v : Byte) : Memory.read (Memory.write m a v) a = v := by
  rw [Memory.read_write, if_pos rfl]

theorem Memory.read_write_ne (m : Memory) {a b : Nat} (v : Byte) (h : b ≠ a) :
    Memory.read (Memory.write m a v) b = Memory.read m b := by
  rw [Memory.read_write, if_neg h]

theorem Memory.read_orBit (m : Memory) (a i : Nat) (v : Bool) (b : Nat) :
    Memory.read (Memory.orBit m a i v) b =
      if b = a then Memory.read m a ||| (if v then 1#8 <<< i else 0#8) else Memory.read m b :=
  Memory.read_write ..

/-- Read after a store of `n` bytes from `base` on. -/
theorem Memory.read_store (m : Memory) (base n : Nat) (f : Nat → Byte) (b : Nat) :
    Memory.read (Memory.store m base n f) b = if base ≤ b ∧ b < base + n then f (b - base) else Memory.read m b := by
  induction n with
  | zero =>
    rw [Memory.store, if_neg (by omega)]
  | succ n ih =>
    rw [Memory.store, Memory.read_write, ih]
    by_cases h : b = base + n
    · rw [if_pos h, if_pos (by omega), h, Nat.add_sub_cancel_left]
    · rw [if_neg h]
      by_cases hb : base ≤ b ∧ b < base + n
      · rw [if_pos hb, if_pos (by omega)]
      · rw [if_neg hb, if_neg (by omega)]

/-! ## The canonical form -/

theorem Memory.erase_sublist (m : Memory) (a : Nat) : (Memory.erase m a).Sublist m := by
  induction m with
  | nil => exact List.Sublist.refl _
  | cons d m ih =>
    obtain ⟨k, v⟩ := d
    by_cases h : k = a
    · simpa [Memory.erase, h] using ih.cons (a, v)
    · simpa [Memory.erase, h] using ih

theorem Memory.erase_wf {m : Memory} (h : Memory.wf m) (a : Nat) : Memory.wf (Memory.erase m a) :=
  ⟨h.1.sublist (Memory.erase_sublist m a), fun c hc => h.2 c (Memory.mem_erase.1 hc).1⟩

theorem Memory.insert_pairwise {m : Memory} {a : Nat} {v : Byte} (h : m.Pairwise (fun c d => c.1 < d.1))
    (ha : ∀ c ∈ m, c.1 ≠ a) : (Memory.insert m a v).Pairwise (fun c d => c.1 < d.1) := by
  induction m with
  | nil => simp [Memory.insert]
  | cons d m ih =>
    obtain ⟨k, w⟩ := d
    rw [List.pairwise_cons] at h
    by_cases hlt : a < k
    · rw [Memory.insert, if_pos hlt, List.pairwise_cons, List.pairwise_cons]
      refine ⟨fun c hc => ?_, h⟩
      rcases List.mem_cons.1 hc with rfl | hc
      · exact hlt
      · exact Nat.lt_trans hlt (h.1 c hc)
    · have hk : k ≠ a := ha (k, w) (by simp)
      rw [Memory.insert, if_neg hlt, List.pairwise_cons]
      refine ⟨fun c hc => ?_, ih h.2 fun c hc => ha c (by simp [hc])⟩
      rcases Memory.mem_insert.1 hc with rfl | hc
      · change k < a
        omega
      · exact h.1 c hc

/-- Every write keeps the canonical form. -/
theorem Memory.write_wf {m : Memory} (h : Memory.wf m) (a : Nat) (v : Byte) : Memory.wf (Memory.write m a v) := by
  unfold Memory.write
  have he := Memory.erase_wf h a
  split
  · exact he
  · next hv =>
    refine ⟨Memory.insert_pairwise he.1 fun c hc => (Memory.mem_erase.1 hc).2, fun c hc => ?_⟩
    rcases Memory.mem_insert.1 hc with rfl | hc
    · exact hv
    · exact he.2 c hc

theorem Memory.orBit_wf {m : Memory} (h : Memory.wf m) (a i : Nat) (v : Bool) : Memory.wf (Memory.orBit m a i v) :=
  Memory.write_wf h a _

theorem Memory.store_wf {m : Memory} (h : Memory.wf m) (base n : Nat) (f : Nat → Byte) :
    Memory.wf (Memory.store m base n f) := by
  induction n with
  | zero => exact h
  | succ n ih => exact Memory.write_wf ih _ _

/-- The memory after reset is canonical. -/
theorem Memory.reset_wf : Memory.wf State.reset.mem := by decide

/-- Every address a write lists was listed before or is the one written. -/
theorem Memory.mem_write {m : Memory} {a : Nat} {v : Byte} {c : Host.Cell} (h : c ∈ Memory.write m a v) :
    c = (a, v) ∨ c ∈ m := by
  unfold Memory.write at h
  split at h
  · exact .inr (Memory.mem_erase.1 h).1
  · rcases Memory.mem_insert.1 h with h | h
    · exact .inl h
    · exact .inr (Memory.mem_erase.1 h).1

theorem Memory.read_of_notMem {m : Memory} {a : Nat} (h : ∀ c ∈ m, c.1 ≠ a) : Memory.read m a = Memory.unlisted := by
  induction m with
  | nil => rfl
  | cons d m ih =>
    obtain ⟨k, v⟩ := d
    rw [Memory.read, if_neg (h (k, v) (by simp)), ih fun c hc => h c (by simp [hc])]

theorem Memory.read_of_mem {m : Memory} (h : m.Pairwise (fun c d => c.1 < d.1)) {c : Host.Cell} (hc : c ∈ m) :
    Memory.read m c.1 = c.2 := by
  induction m with
  | nil => cases hc
  | cons d m ih =>
    obtain ⟨k, v⟩ := d
    rw [List.pairwise_cons] at h
    rcases List.mem_cons.1 hc with rfl | hc
    · simp [Memory.read]
    · have : k ≠ c.1 := Nat.ne_of_lt (h.1 c hc)
      rw [Memory.read, if_neg this, ih h.2 hc]

/-- Canonical memories that read alike are equal. -/
theorem Memory.ext {m n : Memory} (hm : Memory.wf m) (hn : Memory.wf n) (h : ∀ a, Memory.read m a = Memory.read n a) :
    m = n := by
  have sub : ∀ {m n : Memory}, Memory.wf m → Memory.wf n → (∀ a, Memory.read m a = Memory.read n a) →
      ∀ c ∈ m, c ∈ n := by
    intro m n hm hn h c hc
    have hr : Memory.read n c.1 = c.2 := by rw [← h, Memory.read_of_mem hm.1 hc]
    by_contra hnot
    by_cases hl : ∀ d ∈ n, d.1 ≠ c.1
    · exact hm.2 c hc (by rw [← hr, Memory.read_of_notMem hl])
    · push Not at hl
      obtain ⟨d, hd, hdc⟩ := hl
      have := Memory.read_of_mem hn.1 hd
      rw [hdc, hr] at this
      exact hnot (by rwa [show c = d from Prod.ext hdc.symm this])
  have asymm : ∀ a b : Host.Cell, a.1 < b.1 → b.1 < a.1 → a = b := fun a b h1 h2 => absurd h1 (by omega)
  refine List.Perm.eq_of_pairwise (le := fun c d => c.1 < d.1) (fun a b _ _ h1 h2 => asymm a b h1 h2) hm.1 hn.1 ?_
  have nd : ∀ {m : Memory}, Memory.wf m → m.Nodup := fun hm => hm.1.imp fun h e => by rw [e] at h; exact Nat.lt_irrefl _ h
  exact (List.perm_ext_iff_of_nodup (nd hm) (nd hn)).2 fun c => ⟨sub hm hn h c, sub hn hm (fun a => (h a).symm) c⟩

end Sys2Proof.Machine
end

