-- ==== Sys2Proof/Laws/State.lean ====
section
/-! SUPPORT. One lemma per field per named update of the state, so that no later proof unfolds an update. -/

namespace Sys2Proof.Machine

/-! ## Recording an error: only the error record of the control unit changes -/

@[simp] theorem recordError_params (s : State) (c : ErrCode) (o : Byte) : (recordError s c o).params = s.params := by
  unfold recordError; split <;> rfl
@[simp] theorem recordError_ce (s : State) (c : ErrCode) (o : Byte) : (recordError s c o).ce = s.ce := by
  unfold recordError; split <;> rfl
@[simp] theorem recordError_vd (s : State) (c : ErrCode) (o : Byte) : (recordError s c o).vd = s.vd := by
  unfold recordError; split <;> rfl
@[simp] theorem recordError_mx (s : State) (c : ErrCode) (o : Byte) : (recordError s c o).mx = s.mx := by
  unfold recordError; split <;> rfl
@[simp] theorem recordError_bc (s : State) (c : ErrCode) (o : Byte) : (recordError s c o).bc = s.bc := by
  unfold recordError; split <;> rfl
@[simp] theorem recordError_crc (s : State) (c : ErrCode) (o : Byte) : (recordError s c o).crc = s.crc := by
  unfold recordError; split <;> rfl
@[simp] theorem recordError_bu (s : State) (c : ErrCode) (o : Byte) : (recordError s c o).bu = s.bu := by
  unfold recordError; split <;> rfl
@[simp] theorem recordError_mg (s : State) (c : ErrCode) (o : Byte) : (recordError s c o).mg = s.mg := by
  unfold recordError; split <;> rfl
@[simp] theorem recordError_mem (s : State) (c : ErrCode) (o : Byte) : (recordError s c o).mem = s.mem := by
  unfold recordError; split <;> rfl
@[simp] theorem recordError_host (s : State) (c : ErrCode) (o : Byte) : (recordError s c o).host = s.host := by
  unfold recordError; split <;> rfl
@[simp] theorem recordError_done (s : State) (c : ErrCode) (o : Byte) : (recordError s c o).ctl.done = s.ctl.done := by
  unfold recordError; split <;> rfl
@[simp] theorem recordError_overrun (s : State) (c : ErrCode) (o : Byte) : (recordError s c o).ctl.overrun = s.ctl.overrun := by
  unfold recordError; split <;> rfl
@[simp] theorem recordError_err (s : State) (c : ErrCode) (o : Byte) : (recordError s c o).ctl.err = true := by
  unfold recordError; split <;> simp_all
@[simp] theorem recordError_pending (s : State) (c : ErrCode) (o : Byte) : (recordError s c o).ctl.pending = s.ctl.pending := by
  unfold recordError; split <;> rfl
@[simp] theorem recordError_cmdLast (s : State) (c : ErrCode) (o : Byte) : (recordError s c o).ctl.cmdLast = s.ctl.cmdLast := by
  unfold recordError; split <;> rfl
@[simp] theorem recordError_srcAddr (s : State) (c : ErrCode) (o : Byte) : (recordError s c o).ctl.srcAddr = s.ctl.srcAddr := by
  unfold recordError; split <;> rfl

/-- The first error is kept (60_exceptions.md R322). -/
theorem recordError_of_err {s : State} (h : s.ctl.err = true) (c : ErrCode) (o : Byte) : recordError s c o = s := by
  unfold recordError; rw [if_pos h]

/-- The first error is recorded with its code and opcode (60_exceptions.md R322). -/
theorem recordError_of_noErr {s : State} (h : s.ctl.err = false) (c : ErrCode) (o : Byte) :
    recordError s c o = { s with ctl := { s.ctl with err := true, errCode := c, errOp := o } } := by
  unfold recordError; rw [h]; rfl

/-! ## Completion, acceptance, turns -/

@[simp] theorem completeCommand_params (s : State) : (completeCommand s).params = s.params := rfl
@[simp] theorem completeCommand_ce (s : State) : (completeCommand s).ce = s.ce := rfl
@[simp] theorem completeCommand_vd (s : State) : (completeCommand s).vd = s.vd := rfl
@[simp] theorem completeCommand_mx (s : State) : (completeCommand s).mx = s.mx := rfl
@[simp] theorem completeCommand_bc (s : State) : (completeCommand s).bc = s.bc := rfl
@[simp] theorem completeCommand_crc (s : State) : (completeCommand s).crc = s.crc := rfl
@[simp] theorem completeCommand_bu (s : State) : (completeCommand s).bu = s.bu := rfl
@[simp] theorem completeCommand_mg (s : State) : (completeCommand s).mg = s.mg := rfl
@[simp] theorem completeCommand_mem (s : State) : (completeCommand s).mem = s.mem := rfl
@[simp] theorem completeCommand_host (s : State) : (completeCommand s).host = s.host := rfl
@[simp] theorem completeCommand_pending (s : State) : (completeCommand s).ctl.pending = none := rfl
@[simp] theorem completeCommand_done (s : State) : (completeCommand s).ctl.done = true := rfl
@[simp] theorem completeCommand_err (s : State) : (completeCommand s).ctl.err = s.ctl.err := rfl
@[simp] theorem completeCommand_errCode (s : State) : (completeCommand s).ctl.errCode = s.ctl.errCode := rfl
@[simp] theorem completeCommand_errOp (s : State) : (completeCommand s).ctl.errOp = s.ctl.errOp := rfl
@[simp] theorem completeCommand_srcAddr (s : State) : (completeCommand s).ctl.srcAddr = s.ctl.srcAddr := rfl
@[simp] theorem completeCommand_busy (s : State) : busy (completeCommand s) = false := rfl

@[simp] theorem acceptCommand_params (s : State) (w : Word) : (acceptCommand s w).params = s.params := rfl
@[simp] theorem acceptCommand_ce (s : State) (w : Word) : (acceptCommand s w).ce = s.ce := rfl
@[simp] theorem acceptCommand_vd (s : State) (w : Word) : (acceptCommand s w).vd = s.vd := rfl
@[simp] theorem acceptCommand_mem (s : State) (w : Word) : (acceptCommand s w).mem = s.mem := rfl
@[simp] theorem acceptCommand_host (s : State) (w : Word) : (acceptCommand s w).host = s.host := rfl
@[simp] theorem acceptCommand_pending (s : State) (w : Word) : (acceptCommand s w).ctl.pending = some w := rfl
@[simp] theorem acceptCommand_done (s : State) (w : Word) : (acceptCommand s w).ctl.done = false := rfl
@[simp] theorem acceptCommand_cmdLast (s : State) (w : Word) : (acceptCommand s w).ctl.cmdLast = w := rfl

@[simp] theorem setTurns_params (s : State) (l : List Turn) : (setTurns s l).params = s.params := rfl
@[simp] theorem setTurns_ctl (s : State) (l : List Turn) : (setTurns s l).ctl = s.ctl := rfl
@[simp] theorem setTurns_ce (s : State) (l : List Turn) : (setTurns s l).ce = s.ce := rfl
@[simp] theorem setTurns_vd (s : State) (l : List Turn) : (setTurns s l).vd = s.vd := rfl
@[simp] theorem setTurns_mx (s : State) (l : List Turn) : (setTurns s l).mx = s.mx := rfl
@[simp] theorem setTurns_bc (s : State) (l : List Turn) : (setTurns s l).bc = s.bc := rfl
@[simp] theorem setTurns_crc (s : State) (l : List Turn) : (setTurns s l).crc = s.crc := rfl
@[simp] theorem setTurns_bu (s : State) (l : List Turn) : (setTurns s l).bu = s.bu := rfl
@[simp] theorem setTurns_mg (s : State) (l : List Turn) : (setTurns s l).mg = s.mg := rfl
@[simp] theorem setTurns_mem (s : State) (l : List Turn) : (setTurns s l).mem = s.mem := rfl
@[simp] theorem setTurns_turns (s : State) (l : List Turn) : (setTurns s l).host.turns = l := rfl

/-! ## Overruns -/

@[simp] theorem setOverrun_params (s : State) : (setOverrun s).params = s.params := rfl
@[simp] theorem setOverrun_ce (s : State) : (setOverrun s).ce = s.ce := rfl
@[simp] theorem setOverrun_vd (s : State) : (setOverrun s).vd = s.vd := rfl
@[simp] theorem setOverrun_mem (s : State) : (setOverrun s).mem = s.mem := rfl
@[simp] theorem setOverrun_overrun (s : State) : (setOverrun s).ctl.overrun = true := rfl
@[simp] theorem setOverrun_err (s : State) : (setOverrun s).ctl.err = s.ctl.err := rfl
@[simp] theorem setOverrun_pending (s : State) : (setOverrun s).ctl.pending = s.ctl.pending := rfl

/-! ## Matrix results -/

@[simp] theorem setMxRes_mem (s : State) (v : DWord) : (setMxRes s v).mem = s.mem := rfl
@[simp] theorem setMxRes_res (s : State) (v : DWord) : (setMxRes s v).mx.res = v := rfl
@[simp] theorem setMxRes_ctl (s : State) (v : DWord) : (setMxRes s v).ctl = s.ctl := rfl
@[simp] theorem storeMatrix_ctl (s : State) (r c : Nat) (f : Nat → Byte) : (storeMatrix s r c f).ctl = s.ctl := rfl
@[simp] theorem storeMatrix_mx (s : State) (r c : Nat) (f : Nat → Byte) : (storeMatrix s r c f).mx = s.mx := rfl
@[simp] theorem storeMatrix_mem (s : State) (r c : Nat) (f : Nat → Byte) :
    (storeMatrix s r c f).mem = Memory.store s.mem s.mx.dst.toNat (r * c / 8) f := rfl

end Sys2Proof.Machine
end

