-- ==== Sys2Proof/Laws/Ops.lean ====
section
/-! SUPPORT. What the shared operations can do: a command's checks and effects, the output cursor, one core step. -/

namespace Sys2Proof.Machine

/-! ## Checks -/

@[simp] theorem firstFailure_nil : firstFailure [] = none := rfl

@[simp] theorem firstFailure_cons (c : Bool) (e : ErrCode) (l : List (Bool × ErrCode)) :
    firstFailure ((c, e) :: l) = if c then some e else firstFailure l := rfl

theorem firstFailure_append (l m : List (Bool × ErrCode)) :
    firstFailure (l ++ m) = (firstFailure l).or (firstFailure m) := by
  induction l with
  | nil => rfl
  | cons c l ih => obtain ⟨b, e⟩ := c; cases b <;> simp [ih]

/-- No check fails exactly when every check is false. -/
theorem firstFailure_eq_none {l : List (Bool × ErrCode)} : firstFailure l = none ↔ ∀ c ∈ l, c.1 = false := by
  induction l with
  | nil => simp
  | cons c l ih => obtain ⟨b, e⟩ := c; cases b <;> simp [ih]

/-- The code of a failed check is in the list. -/
theorem firstFailure_mem {l : List (Bool × ErrCode)} {e : ErrCode} (h : firstFailure l = some e) : (true, e) ∈ l := by
  induction l with
  | nil => cases h
  | cons c l ih =>
    obtain ⟨b, e'⟩ := c
    cases b
    · exact List.mem_cons_of_mem _ (ih (by simpa using h))
    · have : e' = e := by simpa using h
      simp [this]

/-- Everything a command can do: its first failed check recorded, or its effect (60_exceptions.md R320). -/
theorem runCommand_cases (i : Instr) (l : List (Bool × ErrCode)) (e s : State) :
    (∃ c, firstFailure l = some c ∧ runCommand i l e s = .next (recordError s c i.opcode)) ∨
      (firstFailure l = none ∧ runCommand i l e s = .next e) := by
  unfold runCommand
  cases firstFailure l with
  | none => exact .inr ⟨rfl, rfl⟩
  | some c => exact .inl ⟨c, rfl, rfl⟩

@[simp] theorem runCommand_nil (i : Instr) (e s : State) : runCommand i [] e s = .next e := rfl

theorem runCommand_of_none {i : Instr} {l : List (Bool × ErrCode)} {e s : State} (h : firstFailure l = none) :
    runCommand i l e s = .next e := by
  unfold runCommand; rw [h]

theorem runCommand_of_some {i : Instr} {l : List (Bool × ErrCode)} {e s : State} {c : ErrCode} (h : firstFailure l = some c) :
    runCommand i l e s = .next (recordError s c i.opcode) := by
  unfold runCommand; rw [h]

/-! ## Cursors -/

theorem Cursor.start_pos : Cursor.start.pos = 0 := by decide

/-- One bit further: the position grows by one, as long as the byte index does not wrap. -/
theorem Cursor.advance_pos {c : Cursor} (h : c.byte.toNat + 1 < 2 ^ 32) : c.advance.pos = c.pos + 1 := by
  unfold Cursor.advance Cursor.pos
  split
  · next h0 =>
    have hb : (c.byte + 1).toNat = c.byte.toNat + 1 := by
      rw [BitVec.toNat_add]; exact Nat.mod_eq_of_lt (by simpa using h)
    have h7 : (7#3).toNat = 7 := rfl
    simp only [h0, hb]
    simp
    omega
  · next h0 =>
    have hpos : 1 ≤ c.bit.toNat := by
      rcases Nat.eq_zero_or_pos c.bit.toNat with h | h
      · exact absurd (BitVec.eq_of_toNat_eq (by simpa using h)) h0
      · exact h
    have hlt := c.bit.isLt
    have : (c.bit - 1).toNat = c.bit.toNat - 1 := by
      rw [BitVec.toNat_sub]
      simp
      omega
    simp only [this]
    omega

/-- The byte and the bit index of a cursor, from its position. -/
theorem Cursor.pos_split (c : Cursor) : c.byte.toNat = c.pos / 8 ∧ c.bit.toNat = 7 - c.pos % 8 := by
  have := c.bit.isLt
  unfold Cursor.pos
  omega

/-! ## A step -/

theorem step_core {s : State} (h : s.host.turns = []) : step s = coreStep s := by
  unfold step; rw [h]

theorem step_core_turn {s : State} {l : List Turn} (h : s.host.turns = .core :: l) : step s = coreStep (setTurns s l) := by
  unfold step; rw [h]

theorem step_host_turn {s : State} {a : HostAccess} {l : List Turn} (h : s.host.turns = .host a :: l) :
    step s = hostAccess a (setTurns s l) := by
  unfold step; rw [h]

theorem coreStep_idle {s : State} (h : s.ctl.pending = none) : coreStep s = .next s := by
  unfold coreStep; rw [h]

theorem coreStep_pending {s : State} {w : Word} (h : s.ctl.pending = some w) :
    coreStep s = completeResult (execute w s) := by
  unfold coreStep; rw [h]

theorem execute_ok {w : Word} {i : Instr} (h : decode w = .ok i) (s : State) : execute w s = exec i s := by
  unfold execute; rw [h]

theorem execute_error {w : Word} {e : DecodeReject} (h : decode w = .error e) (s : State) :
    execute w s = .next (recordError s .badCmd (opOf w)) := by
  unfold execute; rw [h]

end Sys2Proof.Machine
end

