-- ==== Sys2Proof/Laws/Encoder.lean ====
section
/-! SUPPORT. What the encoder's datapath can change, the puncture count, and where its output bits go. -/

namespace Sys2Proof.Machine

/-- `t` is `s` after encoder cycles: only the shift register, the output cursor, the puncture cursor and the memory may
differ. -/
def EncMoves (s t : State) : Prop :=
  ∃ m sr o p, t = { s with mem := m, ce := { s.ce with sr := sr, out := o, pcur := p } }

theorem EncMoves.refl (s : State) : EncMoves s s := ⟨s.mem, s.ce.sr, s.ce.out, s.ce.pcur, rfl⟩

theorem EncMoves.trans {s t u : State} (h : EncMoves s t) (k : EncMoves t u) : EncMoves s u := by
  obtain ⟨m, sr, o, p, rfl⟩ := h
  obtain ⟨m', sr', o', p', rfl⟩ := k
  exact ⟨m', sr', o', p', rfl⟩

theorem EncMoves.lat {s t : State} (h : EncMoves s t) : t.ce.lat = s.ce.lat := by
  obtain ⟨m, sr, o, p, rfl⟩ := h; rfl

theorem EncMoves.ctl {s t : State} (h : EncMoves s t) : t.ctl = s.ctl := by
  obtain ⟨m, sr, o, p, rfl⟩ := h; rfl

theorem EncMoves.params {s t : State} (h : EncMoves s t) : t.params = s.params := by
  obtain ⟨m, sr, o, p, rfl⟩ := h; rfl

theorem encOutput_moves (j : Nat) (s : State) : EncMoves s (encOutput j s) := by
  unfold encOutput
  split
  · exact ⟨_, _, _, _, rfl⟩
  · exact ⟨_, _, _, _, rfl⟩

theorem encOutputs_moves (n : Nat) (s : State) : EncMoves s (encOutputs n s) := by
  induction n with
  | zero => exact EncMoves.refl s
  | succ n ih => exact ih.trans (encOutput_moves n _)

theorem encCycle_moves (b : Bool) (s : State) : EncMoves s (encCycle b s) :=
  EncMoves.trans ⟨_, _, _, _, rfl⟩ (encOutputs_moves _ _)

theorem encTail_moves (n : Nat) (s : State) : EncMoves s (encTail n s) := by
  induction n generalizing s with
  | zero => exact EncMoves.refl s
  | succ n ih => exact (encCycle_moves false s).trans (ih _)

theorem foldl_encCycle_moves (f : Nat → Bool) (l : List Nat) (s : State) :
    EncMoves s (l.foldl (fun t p => encCycle (f p) t) s) := by
  induction l generalizing s with
  | nil => exact EncMoves.refl s
  | cons p l ih => exact (encCycle_moves _ s).trans (ih _)

theorem encByte_moves (b : Byte) (s : State) : EncMoves s (encByte b s) := foldl_encCycle_moves _ _ s

theorem encBytes_moves (n a : Nat) (s : State) : EncMoves s (encBytes n a s) := by
  induction n generalizing a s with
  | zero => exact EncMoves.refl s
  | succ n ih => exact (encByte_moves _ s).trans (ih _ _)

/-! ## The canonical form of the memory -/

theorem encOutput_wf {s : State} (h : Memory.wf s.mem) (j : Nat) : Memory.wf (encOutput j s).mem := by
  unfold encOutput
  split
  · refine Memory.orBit_wf ?_ _ _ _
    split
    · exact Memory.write_wf h _ _
    · exact h
  · exact h

theorem encOutputs_wf {s : State} (h : Memory.wf s.mem) (n : Nat) : Memory.wf (encOutputs n s).mem := by
  induction n with
  | zero => exact h
  | succ n ih => exact encOutput_wf ih n

theorem encCycle_wf {s : State} (h : Memory.wf s.mem) (b : Bool) : Memory.wf (encCycle b s).mem :=
  encOutputs_wf (s := { s with ce := { s.ce with sr := encShift s.ce b } }) h _

theorem encTail_wf {s : State} (h : Memory.wf s.mem) (n : Nat) : Memory.wf (encTail n s).mem := by
  induction n generalizing s with
  | zero => exact h
  | succ n ih => exact ih (encCycle_wf h false)

theorem encByte_wf {s : State} (h : Memory.wf s.mem) (b : Byte) : Memory.wf (encByte b s).mem := by
  unfold encByte
  generalize [7, 6, 5, 4, 3, 2, 1, 0] = l
  induction l generalizing s with
  | nil => exact h
  | cons p l ih => exact ih (encCycle_wf h _)

theorem encBytes_wf {s : State} (h : Memory.wf s.mem) (n a : Nat) : Memory.wf (encBytes n a s).mem := by
  induction n generalizing a s with
  | zero => exact h
  | succ n ih => exact ih (encByte_wf h _) _

/-! ## The puncture count (43_conv_encoder.md R189) -/

theorem countBits_add (m n : Nat) (f : Nat → Bool) :
    countBits (m + n) f = countBits m f + countBits n (fun i => f (m + i)) := by
  induction n with
  | zero => rfl
  | succ n ih => rw [← Nat.add_assoc, countBits_succ, ih, countBits_succ, Nat.add_assoc]

/-- A full period counts the same wherever it starts. -/
theorem countBits_period {q : Nat} (hq : 0 < q) (g : Nat → Bool) (p : Nat) :
    countBits q (fun i => g ((p + i) % q)) = countBits q g := by
  induction p with
  | zero => exact countBits_congr fun i hi => by rw [Nat.zero_add, Nat.mod_eq_of_lt hi]
  | succ p ih =>
    rw [← ih]
    obtain ⟨r, rfl⟩ : ∃ r, q = r + 1 := ⟨q - 1, by omega⟩
    rw [countBits_succ, Nat.add_comm r 1, countBits_add 1 r]
    have h1 : (p + 1 + r) % (1 + r) = (p + 0) % (1 + r) := by
      rw [show p + 1 + r = p + 0 + (1 + r) by omega, Nat.add_mod_right]
    have h2 : countBits r (fun i => g ((p + 1 + i) % (1 + r))) = countBits r (fun i => g ((p + (1 + i)) % (1 + r))) :=
      countBits_congr fun i _ => by rw [Nat.add_assoc]
    rw [h1, h2]
    simp only [countBits, Nat.zero_add]
    omega

/-- `EmitCount` counts the emitting positions. -/
theorem emitCount_eq_count {c : EncConfig} (h : 0 < c.plen.toNat) (p m : Nat) :
    emitCount c p m = countBits m (fun i => c.pmask.getLsbD ((p + i) % c.plen.toNat)) := by
  have key : ∀ k, countBits (c.plen.toNat * k) (fun i => c.pmask.getLsbD ((p + i) % c.plen.toNat)) = k * patternOnes c := by
    intro k
    induction k with
    | zero => simp
    | succ k ih =>
      rw [Nat.mul_succ, countBits_add, ih, Nat.succ_mul]
      congr 1
      rw [countBits_congr (g := fun i => c.pmask.getLsbD ((p + i) % c.plen.toNat)),
        countBits_period h (fun i => c.pmask.getLsbD i)]
      · rfl
      · intro i _
        rw [show p + (c.plen.toNat * k + i) = p + i + c.plen.toNat * k by omega, Nat.add_mul_mod_self_left]
  conv_rhs => rw [← Nat.div_add_mod m c.plen.toNat]
  rw [countBits_add, key, emitCount]
  congr 1
  refine countBits_congr fun i _ => ?_
  rw [show p + (c.plen.toNat * (m / c.plen.toNat) + i) = p + i + c.plen.toNat * (m / c.plen.toNat) by omega,
    Nat.add_mul_mod_self_left]

end Sys2Proof.Machine
end

