-- ==== Sys2Proof/Laws/Host.lean ====
section
/-! SUPPORT. What a host access can do: the offset a register access selects, and the CRC registers as the host reads them. -/

namespace Sys2Proof.Machine

/-- An aligned 32-bit access at `REG_BASE + off` selects the offset `off`, wherever the window lies. -/
theorem registerOffset_base (p : Params) {off : Nat} (h : off < 4096) (h4 : off % 4 = 0) :
    registerOffset p (p.regBase + off) 4 = some off := by
  simp [registerOffset, windowOffset, windowBytes, h, h4]

/-- Every other register access selects none (10_state.md R31). -/
theorem registerOffset_eq_none {p : Params} {x bytes : Nat} :
    registerOffset p x bytes = none ↔
      x < p.regBase ∨ p.regBase + 4096 ≤ x ∨ bytes ≠ 4 ∨ (x - p.regBase) % 4 ≠ 0 := by
  unfold registerOffset windowOffset windowBytes
  by_cases h : p.regBase ≤ x ∧ x < p.regBase + 4096
  · rw [if_pos h]
    dsimp only
    split
    · next g => simp; omega
    · next g => simp; omega
  · rw [if_neg h]
    simp
    omega

theorem hostAccess_regRead (s : State) {off : Nat} (h : off < 4096) (h4 : off % 4 = 0) :
    hostAccess (.regRead (s.params.regBase + off) 4) s = .next (hostReadReg s (regAt off)) := by
  simp only [hostAccess, registerOffset_base s.params h h4]

theorem hostAccess_regWrite (s : State) {off : Nat} (v : Word) (h : off < 4096) (h4 : off % 4 = 0) :
    hostAccess (.regWrite (s.params.regBase + off) 4 v) s = .next (hostWriteReg s (regAt off) v) := by
  simp only [hostAccess, registerOffset_base s.params h h4]

/-- The offset of every register of the map is aligned and inside the window (10_state.md R33). -/
theorem registerMap_aligned : ∀ e ∈ registerMap, e.1 < 4096 ∧ e.1 % 4 = 0 := by decide

theorem hostWriteReg_idle {s : State} (h : busy s = false) (r : Reg) (v : Word) :
    hostWriteReg s (some r) v = writeReg s r v := by simp [hostWriteReg, h]

theorem hostReadReg_idle {s : State} (h : busy s = false) (r : Reg) :
    hostReadReg s (some r) = returnReg s (readReg s r) := by simp [hostReadReg, h]

/-- `v & maskT` as a number (47_crc.md R306). -/
theorem crcMask_toNat (c : CrcUnit) (v : Word) : (crcMask c v).toNat = v.toNat % 2 ^ crcWidth c := by
  unfold crcMask crcWidth
  cases c.w32
  · exact Nat.and_two_pow_sub_one_eq_mod v.toNat 16
  · exact (Nat.mod_eq_of_lt v.isLt).symm

/-- A host read of `CRC_ACC` shows T bits (10_state.md R85). -/
theorem readReg_crcAcc_lt (s : State) : (readReg s .crcAcc).toNat < 2 ^ crcWidth s.crc := by
  rw [readReg, crcMask_toNat]; exact Nat.mod_lt _ (Nat.two_pow_pos _)

/-- A host read of `CRC_RESULT` shows T bits (10_state.md R85). -/
theorem readReg_crcResult_lt (s : State) : (readReg s .crcResult).toNat < 2 ^ crcWidth s.crc := by
  rw [readReg, crcMask_toNat]; exact Nat.mod_lt _ (Nat.two_pow_pos _)

end Sys2Proof.Machine
end

