-- ==== Sys2Proof/Laws/PerInstr.lean ====
section
/-! SUPPORT. Statements about every command as syntax, one lemma per constructor (LAWS.json). -/

namespace Sys2Proof

theorem opOf_append (a : BitVec 24) (o : Byte) : opOf (a ++ o) = o := by
  apply BitVec.eq_of_getLsbD_eq
  intro i hi
  rw [opOf, BitVec.getLsbD_extractLsb', decide_eq_true hi, Bool.true_and, Nat.zero_add, BitVec.getLsbD_append, if_pos hi]

theorem argOf_append (a : BitVec 24) (o : Byte) : argOf (a ++ o) = a := by
  apply BitVec.eq_of_getLsbD_eq
  intro i hi
  have h : ¬ 8 + i < 8 := by omega
  rw [argOf, BitVec.getLsbD_extractLsb', decide_eq_true hi, Bool.true_and, BitVec.getLsbD_append, if_neg h,
    Nat.add_sub_cancel_left]

/-- The opcode and the argument of an encoded command are its own (30_encoding.md R130). -/
theorem fields_encode (i : Instr) : opOf (encode i) = i.opcode ∧ argOf (encode i) = i.arg :=
  ⟨opOf_append _ _, argOf_append _ _⟩

namespace Laws.WordFields

/-- The word of a command holds its opcode in bits 7:0 and its argument in bits 31:8, 0 in a CMD-format command (R130). -/
def Statement (i : Instr) : Prop :=
  opOf (encode i) = i.opcode ∧ argOf (encode i) = i.arg ∧ (i.takesArg = false → i.arg = 0#24)

theorem nop : Statement .nop := ⟨(fields_encode _).1, (fields_encode _).2, fun _ => rfl⟩
theorem softReset : Statement .softReset := ⟨(fields_encode _).1, (fields_encode _).2, fun _ => rfl⟩
theorem ceReset : Statement .ceReset := ⟨(fields_encode _).1, (fields_encode _).2, fun _ => rfl⟩
theorem ceEncode : Statement .ceEncode := ⟨(fields_encode _).1, (fields_encode _).2, fun _ => rfl⟩
theorem ceFlush : Statement .ceFlush := ⟨(fields_encode _).1, (fields_encode _).2, fun _ => rfl⟩
theorem ceCalcsize (arg : BitVec 24) : Statement (.ceCalcsize arg) :=
  ⟨(fields_encode _).1, (fields_encode _).2, fun h => by cases h⟩
theorem vdReset : Statement .vdReset := ⟨(fields_encode _).1, (fields_encode _).2, fun _ => rfl⟩
theorem vdDecode : Statement .vdDecode := ⟨(fields_encode _).1, (fields_encode _).2, fun _ => rfl⟩
theorem vdFlush : Statement .vdFlush := ⟨(fields_encode _).1, (fields_encode _).2, fun _ => rfl⟩
theorem vdCalcsize (arg : BitVec 24) : Statement (.vdCalcsize arg) :=
  ⟨(fields_encode _).1, (fields_encode _).2, fun h => by cases h⟩
theorem mxZero : Statement .mxZero := ⟨(fields_encode _).1, (fields_encode _).2, fun _ => rfl⟩
theorem mxCopy : Statement .mxCopy := ⟨(fields_encode _).1, (fields_encode _).2, fun _ => rfl⟩
theorem mxSetbit : Statement .mxSetbit := ⟨(fields_encode _).1, (fields_encode _).2, fun _ => rfl⟩
theorem mxGetbit : Statement .mxGetbit := ⟨(fields_encode _).1, (fields_encode _).2, fun _ => rfl⟩
theorem mxEqual : Statement .mxEqual := ⟨(fields_encode _).1, (fields_encode _).2, fun _ => rfl⟩
theorem mxIszero : Statement .mxIszero := ⟨(fields_encode _).1, (fields_encode _).2, fun _ => rfl⟩
theorem mxMulvec : Statement .mxMulvec := ⟨(fields_encode _).1, (fields_encode _).2, fun _ => rfl⟩
theorem mxMulmat : Statement .mxMulmat := ⟨(fields_encode _).1, (fields_encode _).2, fun _ => rfl⟩
theorem mxTranspose : Statement .mxTranspose := ⟨(fields_encode _).1, (fields_encode _).2, fun _ => rfl⟩
theorem bcEncode : Statement .bcEncode := ⟨(fields_encode _).1, (fields_encode _).2, fun _ => rfl⟩
theorem bcDecode : Statement .bcDecode := ⟨(fields_encode _).1, (fields_encode _).2, fun _ => rfl⟩
theorem crcPreset (arg : BitVec 24) : Statement (.crcPreset arg) :=
  ⟨(fields_encode _).1, (fields_encode _).2, fun h => by cases h⟩
theorem crcInit : Statement .crcInit := ⟨(fields_encode _).1, (fields_encode _).2, fun _ => rfl⟩
theorem crcUpdate : Statement .crcUpdate := ⟨(fields_encode _).1, (fields_encode _).2, fun _ => rfl⟩
theorem crcFinal : Statement .crcFinal := ⟨(fields_encode _).1, (fields_encode _).2, fun _ => rfl⟩
theorem buParity : Statement .buParity := ⟨(fields_encode _).1, (fields_encode _).2, fun _ => rfl⟩
theorem buPopcount : Statement .buPopcount := ⟨(fields_encode _).1, (fields_encode _).2, fun _ => rfl⟩
theorem buHamdist : Statement .buHamdist := ⟨(fields_encode _).1, (fields_encode _).2, fun _ => rfl⟩
theorem buRev8 : Statement .buRev8 := ⟨(fields_encode _).1, (fields_encode _).2, fun _ => rfl⟩
theorem buRev32 : Statement .buRev32 := ⟨(fields_encode _).1, (fields_encode _).2, fun _ => rfl⟩
theorem mgInit : Statement .mgInit := ⟨(fields_encode _).1, (fields_encode _).2, fun _ => rfl⟩
theorem mgNext : Statement .mgNext := ⟨(fields_encode _).1, (fields_encode _).2, fun _ => rfl⟩

end Laws.WordFields

end Sys2Proof
end

