-- ==== Sys2Proof/Laws/Viterbi.lean ====
section
/-! SUPPORT. What the decoder's datapath can change, and the reads of the window RAM after each operation. -/

namespace Sys2Proof.Machine

/-- `t` is `s` after trellis steps: only the decoder's running state and the memory may differ. -/
def DecMoves (s t : State) : Prop :=
  ∃ m w st o rc rb bs bm win, t = { s with mem := m, vd := { s.vd with
    wpos := w, stepcnt := st, out := o, rxCnt := rc, rxBits := rb, bestState := bs, bestMetric := bm, window := win } }

theorem DecMoves.refl (s : State) : DecMoves s s := ⟨_, _, _, _, _, _, _, _, _, rfl⟩

theorem DecMoves.trans {s t u : State} (h : DecMoves s t) (k : DecMoves t u) : DecMoves s u := by
  obtain ⟨_, _, _, _, _, _, _, _, _, rfl⟩ := h
  obtain ⟨_, _, _, _, _, _, _, _, _, rfl⟩ := k
  exact ⟨_, _, _, _, _, _, _, _, _, rfl⟩

theorem DecMoves.lat {s t : State} (h : DecMoves s t) : t.vd.lat = s.vd.lat := by
  obtain ⟨_, _, _, _, _, _, _, _, _, rfl⟩ := h; rfl

theorem DecMoves.ctl {s t : State} (h : DecMoves s t) : t.ctl = s.ctl := by
  obtain ⟨_, _, _, _, _, _, _, _, _, rfl⟩ := h; rfl

theorem DecMoves.params {s t : State} (h : DecMoves s t) : t.params = s.params := by
  obtain ⟨_, _, _, _, _, _, _, _, _, rfl⟩ := h; rfl

theorem emitV_moves (v : Bool) (s : State) : DecMoves s (emitV v s) := ⟨_, _, _, _, _, _, _, _, _, rfl⟩

theorem emitAll_moves (l : List Bool) (s : State) : DecMoves s (emitAll l s) := by
  unfold emitAll
  induction l generalizing s with
  | nil => exact DecMoves.refl s
  | cons v l ih => exact (emitV_moves v s).trans (ih _)

theorem emitStep_moves (s : State) : DecMoves s (emitStep s) := by
  unfold emitStep
  split
  · exact emitV_moves _ s
  · exact DecMoves.refl s

theorem trellisStep_moves (rb : Byte) (s : State) : DecMoves s (trellisStep rb s) :=
  (DecMoves.trans ⟨_, _, _, _, _, _, _, _, _, rfl⟩ (emitStep_moves (acsStep rb s))).trans
    ⟨_, _, _, _, _, _, _, _, _, rfl⟩

theorem decBit_moves (b : Bool) (s : State) : DecMoves s (decBit b s) := by
  unfold decBit
  have h : DecMoves s { s with vd := shiftRx s.vd b } := ⟨_, _, _, _, _, _, _, _, _, rfl⟩
  dsimp only
  split
  · exact (h.trans (trellisStep_moves _ _)).trans ⟨_, _, _, _, _, _, _, _, _, rfl⟩
  · exact h

theorem decByte_moves (b : Byte) (s : State) : DecMoves s (decByte b s) := by
  unfold decByte
  generalize [7, 6, 5, 4, 3, 2, 1, 0] = l
  induction l generalizing s with
  | nil => exact DecMoves.refl s
  | cons p l ih => exact (decBit_moves _ s).trans (ih _)

theorem decBytes_moves (n a : Nat) (s : State) : DecMoves s (decBytes n a s) := by
  induction n generalizing a s with
  | zero => exact DecMoves.refl s
  | succ n ih => exact (decByte_moves _ s).trans (ih _ _)

/-! ## The canonical form of the memory -/

theorem emitV_wf {s : State} (h : Memory.wf s.mem) (v : Bool) : Memory.wf (emitV v s).mem := Memory.orBit_wf h _ _ _

theorem emitAll_wf {s : State} (h : Memory.wf s.mem) (l : List Bool) : Memory.wf (emitAll l s).mem := by
  unfold emitAll
  induction l generalizing s with
  | nil => exact h
  | cons v l ih => exact ih (emitV_wf h v)

theorem emitStep_wf {s : State} (h : Memory.wf s.mem) : Memory.wf (emitStep s).mem := by
  unfold emitStep
  split
  · exact emitV_wf h _
  · exact h

theorem trellisStep_wf {s : State} (h : Memory.wf s.mem) (rb : Byte) : Memory.wf (trellisStep rb s).mem :=
  emitStep_wf (s := acsStep rb s) h

theorem decBit_wf {s : State} (h : Memory.wf s.mem) (b : Bool) : Memory.wf (decBit b s).mem := by
  unfold decBit
  dsimp only
  split
  · exact trellisStep_wf (s := { s with vd := shiftRx s.vd b }) h _
  · exact h

theorem decByte_wf {s : State} (h : Memory.wf s.mem) (b : Byte) : Memory.wf (decByte b s).mem := by
  unfold decByte
  generalize [7, 6, 5, 4, 3, 2, 1, 0] = l
  induction l generalizing s with
  | nil => exact h
  | cons p l ih => exact ih (decBit_wf h _)

theorem decBytes_wf {s : State} (h : Memory.wf s.mem) (n a : Nat) : Memory.wf (decBytes n a s).mem := by
  induction n generalizing a s with
  | zero => exact h
  | succ n ih => exact ih (decByte_wf h _) _

/-! ## The window RAM -/

theorem slot_fresh (ns max : Nat) (w : List StepRecord) (t u : Nat) :
    slot (fresh ns max w t) u = if u = t then freshRecord ns max (slot w t) else slot w u :=
  setAt_getD _ _ _ _ _

theorem freshRecord_metric {ns max x : Nat} (h : x < ns) (old : StepRecord) : (freshRecord ns max old).m.getD x 0 = max := by
  simp [freshRecord, List.getD_eq_getElem?_getD, List.getElem?_append, h]

theorem freshRecord_prev {ns max x : Nat} (h : x < ns) (old : StepRecord) : (freshRecord ns max old).prev.getD x 0 = 0 := by
  simp [freshRecord, List.getD_eq_getElem?_getD, List.getElem?_append, h]

theorem freshRecord_bit {ns max x : Nat} (h : x < ns) (old : StepRecord) :
    (freshRecord ns max old).bit.getD x false = false := by
  simp [freshRecord, List.getD_eq_getElem?_getD, List.getElem?_append, h]

theorem lowest_le (m : List Nat) (n : Nat) : ∀ x ≤ n, (lowest m n).2 ≤ m.getD x 0 := by
  induction n with
  | zero => intro x hx; rw [Nat.le_zero.1 hx]; exact Nat.le_refl _
  | succ n ih =>
    intro x hx
    rw [lowest]
    split
    · next h =>
      rcases Nat.lt_or_eq_of_le hx with h' | rfl
      · exact Nat.le_trans (Nat.le_of_lt h) (ih x (by omega))
      · exact Nat.le_refl _
    · next h =>
      rcases Nat.lt_or_eq_of_le hx with h' | rfl
      · exact ih x (by omega)
      · exact Nat.le_of_not_lt h

theorem lowest_attained (m : List Nat) (n : Nat) : (lowest m n).1 ≤ n ∧ (lowest m n).2 = m.getD (lowest m n).1 0 := by
  induction n with
  | zero => exact ⟨Nat.le_refl _, rfl⟩
  | succ n ih =>
    rw [lowest]
    split
    · exact ⟨Nat.le_refl _, rfl⟩
    · exact ⟨Nat.le_succ_of_le ih.1, ih.2⟩

end Sys2Proof.Machine
end

