-- ==== Sys2Proof/Tests/Slice0.lean ====
section
/-! SUPPORT. The model's own tests: the WellFormed smoke test, command words written out from the spec's encoding, one-step tests
whose expected values are those of 95_test_vectors.md (the vector's number stands beside each), and for every statement with
hypotheses a state and operands that meet them. -/

open Sys2Proof Sys2Proof.Machine Sys2Proof.Claims

namespace Sys2Proof.Tests

/-! ## Helpers -/

/-- The next state of a result. -/
def got (r : Result) : State :=
  match r with
  | .next t => t
  | .fault _ => State.reset
  | .refused _ => State.reset

/-- Whether a result is a next state. -/
def isNext (r : Result) : Bool :=
  match r with
  | .next _ => true
  | .fault _ => false
  | .refused _ => false

theorem eq_got {r : Result} (h : isNext r = true) : r = .next (got r) := by
  cases r with
  | next t => rfl
  | fault f => cases h
  | refused f => cases h

/-- The state after a command. -/
abbrev after (i : Instr) (s : State) : State := got (exec i s)

/-- A configured encoder session, K = 3, n = 2, polynomials 7 and 5, one input byte 5C (L2.4). -/
def enc : State :=
  { State.reset with
    ctl := { Control.reset with srcAddr := 0x800#32, srcLen := 1#32 }
    mem := [(0x800, 0x5C#8)]
    ce := { Encoder.reset with
      cfg := { k := 3, n := 2, plen := 1, pmask := 1, outBase := 0x1000#32, outLimit := 2#32, poly := [7, 5] }
      lat := { k := 3, n := 2, plen := 1, pmask := 1, outBase := 0x1000#32, outLimit := 2#32, poly := [7, 5] }
      session := .active } }

/-- A configured decoder session, K = 3, n = 2, D = 2, polynomials 7 and 5, one received byte 38 (L2.5 rows 5 and 7). -/
def dec : State :=
  { State.reset with
    ctl := { Control.reset with srcAddr := 0x900#32, srcLen := 1#32 }
    mem := [(0x900, 0x38#8)]
    vd := { Decoder.reset with
      cfg := { k := 3, n := 2, depth := 2, outBase := 0x2000#32, outLimit := 1#32, poly := [7, 5] }
      lat := { k := 3, n := 2, depth := 2, outBase := 0x2000#32, outLimit := 1#32, poly := [7, 5] }
      window := initWindow 4 (2 ^ 32 - 1) 2 []
      session := .active } }

/-- The bytes `l` at `a ..`, for a memory literal. -/
def cells (a : Nat) : List Byte → Memory
  | [] => []
  | b :: l => (a, b) :: cells (a + 1) l

/-- The matrix M of L1.6 at 0x5000, the identity at 0x5100, destination 0x5200, all 8 × 8. -/
def mat : State :=
  { State.reset with
    mem := cells 0x5000 [0x5C#8, 0xA2#8, 0x38#8, 0x67#8, 0xE2#8, 0xCE#8, 0xC0#8, 0x01#8] ++
      cells 0x5100 [0x80#8, 0x40#8, 0x20#8, 0x10#8, 0x08#8, 0x04#8, 0x02#8, 0x01#8]
    mx := { MatrixUnit.reset with a := 0x5000#32, b := 0x5100#32, dst := 0x5200#32, r := 8, c := 8, x := 8 } }

/-- The Hamming(7,4) matrices of L1.7: G at 0x4000, H at 0x4008, D at 0x4010. -/
def blk : State :=
  { State.reset with
    mem := cells 0x4000 [0x08#8, 0x04#8, 0x02#8, 0x01#8, 0x0D#8, 0x0B#8, 0x07#8] ++
      cells 0x4008 [0xD8#8, 0xB4#8, 0x72#8] ++ cells 0x4014 [0x80#8, 0x40#8, 0x20#8, 0x10#8]
    bc := { BlockUnit.reset with g := 0x4000#32, h := 0x4008#32, d := 0x4010#32, cwW := 8, srcW := 8, synW := 8, maxerr := 1 } }

/-- A block-code state with the input word `v`. -/
def blkIn (v : DWord) : State := { blk with bc := { blk.bc with input := v } }

/-- CRC preset `k` loaded and initialised, the one byte 01 as input (L2.8 row 8). -/
def crcIn (k : BitVec 24) : State :=
  after .crcInit (after (.crcPreset k) { State.reset with
    ctl := { Control.reset with srcAddr := 0x3000#32, srcLen := 1#32 }, mem := [(0x3000, 0x01#8)] })

/-- The bit utilities with operands `a`, `b`. -/
def buIn (a b : DWord) : State := { State.reset with bu := { BitUnit.reset with a := a, b := b } }

/-- The mask generator with `MG_L` = l, `MG_K` = k. -/
def mgIn (l : BitVec 7) (k : BitVec 4) : State := { State.reset with mg := { MaskUnit.reset with l := l, k := k } }

/-- `w` pending, the core's turn. -/
def pend (w : Word) (s : State) : State := { s with ctl := { s.ctl with pending := some w, cmdLast := w, done := false } }

/-! ## Well-formedness and decoding -/

/-- 30_encoding.md R135: the one ill-formed term, a preset above 5, is refused; 5 is the last legal one. -/
theorem test_wellFormed_preset :
    (Instr.crcPreset 6#24).wellFormed = false ∧ (Instr.crcPreset 0xFFFFFF#24).wellFormed = false ∧
    (Instr.crcPreset 5#24).wellFormed = true := by decide

/-- R134, R135: the three rejections, by name. -/
theorem test_decode_rejects :
    decode 0x00000002#32 = .error .reservedOpcode ∧ decode 0x000000FF#32 = .error .reservedOpcode ∧
    decode 0x00000100#32 = .error .nonzeroArg ∧ decode 0x00000650#32 = .error .presetArg := ⟨rfl, rfl, rfl, rfl⟩

/-- R133, control and bit utilities: OP in bits 7:0, ARG = 0 in bits 31:8. -/
theorem test_decode_control_bits :
    decode 0b00000000_00000000_00000000_00000000#32 = .ok .nop ∧
    decode 0b00000000_00000000_00000000_00000001#32 = .ok .softReset ∧
    decode 0b00000000_00000000_00000000_01100000#32 = .ok .buParity ∧
    decode 0b00000000_00000000_00000000_01100001#32 = .ok .buPopcount ∧
    decode 0b00000000_00000000_00000000_01100010#32 = .ok .buHamdist ∧
    decode 0b00000000_00000000_00000000_01100011#32 = .ok .buRev8 ∧
    decode 0b00000000_00000000_00000000_01100100#32 = .ok .buRev32 := ⟨rfl, rfl, rfl, rfl, rfl, rfl, rfl⟩

/-- R133, encoder: `CE_CALCSIZE 4` carries its argument in bits 31:8. -/
theorem test_decode_encoder :
    decode 0b00000000_00000000_00000000_00010000#32 = .ok .ceReset ∧
    decode 0b00000000_00000000_00000000_00010001#32 = .ok .ceEncode ∧
    decode 0b00000000_00000000_00000000_00010010#32 = .ok .ceFlush ∧
    decode 0b00000000_00000000_00000100_00010011#32 = .ok (.ceCalcsize 4#24) ∧
    decode 0b11111111_11111111_11111111_00010011#32 = .ok (.ceCalcsize 0xFFFFFF#24) := ⟨rfl, rfl, rfl, rfl, rfl⟩

/-- R133, decoder. -/
theorem test_decode_decoder :
    decode 0b00000000_00000000_00000000_00100000#32 = .ok .vdReset ∧
    decode 0b00000000_00000000_00000000_00100001#32 = .ok .vdDecode ∧
    decode 0b00000000_00000000_00000000_00100010#32 = .ok .vdFlush ∧
    decode 0b00000000_00000001_00000000_00100011#32 = .ok (.vdCalcsize 256#24) := ⟨rfl, rfl, rfl, rfl⟩

/-- R133, matrix unit. -/
theorem test_decode_matrix :
    decode 0b00000000_00000000_00000000_00110000#32 = .ok .mxZero ∧
    decode 0b00000000_00000000_00000000_00110001#32 = .ok .mxCopy ∧
    decode 0b00000000_00000000_00000000_00110010#32 = .ok .mxSetbit ∧
    decode 0b00000000_00000000_00000000_00110011#32 = .ok .mxGetbit ∧
    decode 0b00000000_00000000_00000000_00110100#32 = .ok .mxEqual ∧
    decode 0b00000000_00000000_00000000_00110101#32 = .ok .mxIszero ∧
    decode 0b00000000_00000000_00000000_00110110#32 = .ok .mxMulvec ∧
    decode 0b00000000_00000000_00000000_00110111#32 = .ok .mxMulmat ∧
    decode 0b00000000_00000000_00000000_00111000#32 = .ok .mxTranspose := ⟨rfl, rfl, rfl, rfl, rfl, rfl, rfl, rfl, rfl⟩

/-- R133, block code, CRC, mask generator. -/
theorem test_decode_block_crc_mask :
    decode 0b00000000_00000000_00000000_01000000#32 = .ok .bcEncode ∧
    decode 0b00000000_00000000_00000000_01000001#32 = .ok .bcDecode ∧
    decode 0b00000000_00000000_00000101_01010000#32 = .ok (.crcPreset 5#24) ∧
    decode 0b00000000_00000000_00000000_01010001#32 = .ok .crcInit ∧
    decode 0b00000000_00000000_00000000_01010010#32 = .ok .crcUpdate ∧
    decode 0b00000000_00000000_00000000_01010011#32 = .ok .crcFinal ∧
    decode 0b00000000_00000000_00000000_01110000#32 = .ok .mgInit ∧
    decode 0b00000000_00000000_00000000_01110001#32 = .ok .mgNext := ⟨rfl, rfl, rfl, rfl, rfl, rfl, rfl, rfl⟩

/-- R138: the encoder on one word of each format. -/
theorem test_encode : encode (.ceCalcsize 2#24) = 0x00000213#32 ∧ encode .mgNext = 0x00000071#32 := by decide

/-- The table's row of `CRC_PRESET` with argument 3, and a command word fetched and run after reset. -/
theorem test_table_word :
    decodeTableWord 32 0x350 = some (.crcPreset 3#24) ∧
    (got (step (State.withFetchWord State.reset 32 0x350))).crc.poly = 0x04C11DB7#32 := by decide

/-! ## One step of each command -/

/-- L2.1 rows 2 and 3: `STATUS` after `NOP` and after a reserved word. -/
theorem test_nop_status :
    statusWord (got (step (pend 0#32 State.reset))) = 0x00000002#32 ∧
    statusWord (got (step (pend 2#32 State.reset))) = 0x00020106#32 := by decide

/-- L2.1 row 12: the session is gone, the configuration stays. -/
theorem test_softReset :
    (after .softReset enc).ce.session = .idle ∧ (after .softReset enc).ce.cfg.k = 3 ∧
    (after .softReset enc).ce.out.bit = 7 := by decide

/-- L2.2. -/
theorem test_buParity :
    (after .buParity (buIn 7 0)).bu.res = 1 ∧ (after .buParity (buIn 0x8000000000000000#64 0)).bu.res = 1 ∧
    (after .buParity (buIn 0x5C 0)).bu.res = 0 := by decide
theorem test_buPopcount :
    (after .buPopcount (buIn 0xFFFFFFFFFFFFFFFF#64 0)).bu.res = 64 ∧
    (after .buPopcount (buIn 0x8000000000000001#64 0)).bu.res = 2 := by decide
theorem test_buHamdist : (after .buHamdist (buIn 0x5C 0xA2)).bu.res = 7 := by decide
theorem test_buRev8 :
    (after .buRev8 (buIn 0x5C 0)).bu.res = 0x3A ∧ (after .buRev8 (buIn 0xFFFFFFFFFFFFFF01#64 0)).bu.res = 0x80 := by
  decide
theorem test_buRev32 :
    (after .buRev32 (buIn 0x12345678 0)).bu.res = 0x1E6A2C48 ∧
    (after .buRev32 (buIn 0xFFFFFFFF00000001#64 0)).bu.res = 0x80000000#64 := by decide

/-- L2.3 rows 1, 3, 8. -/
theorem test_mgInit :
    mgStateWord (after .mgInit (mgIn 4 2)).mg = 1 ∧ mgStateWord (after .mgInit (mgIn 5 0)).mg = 3 ∧
    statusWord (after .mgInit (mgIn 0 0)) = 0x00700404#32 := by decide

/-- L2.3 rows 1 and 4: the first two masks. -/
theorem test_mgNext :
    (after .mgNext (after .mgInit (mgIn 4 2))).mg.mask = 0xC ∧
    (after .mgNext (after .mgNext (after .mgInit (mgIn 64 1)))).mg.mask = 0x4000000000000000#64 := by decide

/-- L2.4 rows 20 and 28: an illegal K, an output region past the top. -/
theorem test_ceReset :
    (after .ceReset { enc with ce := { enc.ce with cfg := { enc.ce.cfg with k := 1 } } }).ctl.errCode = .badConfig ∧
    (after .ceReset { enc with ce := { enc.ce with
      cfg := { enc.ce.cfg with outBase := 0xFFFFFFF8#32, outLimit := 16 } } }).ctl.errCode = .range := by decide

/-- L2.4 row 1: 5C encodes to 38 67. -/
theorem test_ceEncode :
    Memory.read (after .ceEncode enc).mem 0x1000 = 0x38#8 ∧ Memory.read (after .ceEncode enc).mem 0x1001 = 0x67#8 ∧
    (after .ceEncode enc).ce.sr = 1 ∧ (after .ceEncode enc).ce.out.byte = 2 := by decide +kernel

/-- L2.4 row 4: a flush alone writes six zero bits, clearing a byte that held FF. -/
theorem test_ceFlush :
    Memory.read (after .ceFlush { enc with mem := [(0x1000, 0xFF#8)] }).mem 0x1000 = 0#8 ∧
    (after .ceFlush enc).ce.out.bit = 1 ∧ (after .ceFlush enc).ce.session = .spent := by decide

/-- L2.4 rows 15 and 17. -/
theorem test_ceCalcsize :
    (after (.ceCalcsize 2) enc).ce.size = 5 ∧
    (after (.ceCalcsize 2) { enc with ce := { enc.ce with cfg := { enc.ce.cfg with plen := 4, pmask := 7 } } }).ce.size = 4 := by
  decide

/-- L2.5 row 21: D = 1 is illegal; D = 2 starts a session. -/
theorem test_vdReset :
    (after .vdReset { dec with vd := { dec.vd with cfg := { dec.vd.cfg with depth := 1 } } }).ctl.errCode = .badConfig ∧
    (slot (after .vdReset dec).vd.window 0).m = [0, 2 ^ 32 - 1, 2 ^ 32 - 1, 2 ^ 32 - 1] := by decide

/-- L2.5 rows 5 and 7: four steps, three emitted bits (the first three of 5C), best state 2 at metric 0. -/
theorem test_vdDecode :
    Memory.read (after .vdDecode dec).mem 0x2000 = 0x40#8 ∧ (after .vdDecode dec).vd.bestState = 2 ∧
    (after .vdDecode dec).vd.bestMetric = 0 := by decide +kernel

/-- L2.5 rows 6 and 12: the flush adds the fourth bit; with no step before it emits nothing. -/
theorem test_vdFlush :
    Memory.read (after .vdFlush (after .vdDecode dec)).mem 0x2000 = 0x50#8 ∧
    (after .vdFlush dec).vd.session = .spent ∧ (after .vdFlush dec).mem = dec.mem := by decide +kernel

/-- L2.5 rows 17 and 19. -/
theorem test_vdCalcsize : (after (.vdCalcsize 5) dec).vd.size = 3 ∧ (after (.vdCalcsize 0) dec).vd.size = 1 := by decide

/-- L2.6: zeroed bytes are no longer listed; R = 12 is illegal (row 17). -/
theorem test_mxZero :
    (after .mxZero { mat with mx := { mat.mx with dst := 0x5100#32 } }).mem = mat.mem.take 8 ∧
    (after .mxZero { mat with mx := { mat.mx with r := 12 } }).ctl.errCode = .badConfig := by decide

/-- L2.6 row 21: a copy onto an overlapping destination is refused. -/
theorem test_mxCopy :
    Memory.read (after .mxCopy mat).mem 0x5207 = 0x01#8 ∧
    (after .mxCopy { mat with mx := { mat.mx with dst := 0x5004#32 } }).ctl.errCode = .overlap := by decide

/-- L2.6 rows 12 and 13: bit (2, 7) of a zero matrix. -/
theorem test_mxSetbit :
    (after .mxSetbit { mat with mx := { mat.mx with a := 0x3000#32, row := 2, col := 7, bitval := true } }).mem =
      (0x3002, 0x01#8) :: mat.mem := by decide

/-- L2.6 row 16: a row index of 8 is out of range; bit (0, 1) of M (5C) is 1. -/
theorem test_mxGetbit :
    (after .mxGetbit { mat with mx := { mat.mx with row := 0, col := 1 } }).mx.res = 1 ∧
    (after .mxGetbit { mat with mx := { mat.mx with row := 8 } }).ctl.errCode = .index := by decide

/-- L2.6 rows 14 and 15. -/
theorem test_mxEqual_mxIszero :
    (after .mxEqual mat).mx.res = 0 ∧ (after .mxEqual { mat with mx := { mat.mx with b := 0x5000#32 } }).mx.res = 1 ∧
    (after .mxIszero mat).mx.res = 0 ∧ (after .mxIszero { mat with mx := { mat.mx with a := 0x5200#32 } }).mx.res = 1 := by
  decide

/-- L2.6 rows 4 and 6: vector bits at positions ≥ C are ignored. -/
theorem test_mxMulvec :
    (after .mxMulvec { mat with mx := { mat.mx with vec := 0xFF } }).mx.res = 0x75 ∧
    (after .mxMulvec { mat with mx := { mat.mx with vec := 0xFFFFFFFFFFFFFF80#64 } }).mx.res = 0x4E := by decide

/-- L1.6: M times the identity is M (first and last byte). -/
theorem test_mxMulmat :
    Memory.read (after .mxMulmat mat).mem 0x5200 = 0x5C#8 ∧ Memory.read (after .mxMulmat mat).mem 0x5207 = 0x01#8 := by
  decide

/-- L2.6 row 1: M transposes to 4E 9E … 11. -/
theorem test_mxTranspose :
    Memory.read (after .mxTranspose mat).mem 0x5200 = 0x4E#8 ∧ Memory.read (after .mxTranspose mat).mem 0x5207 = 0x11#8 := by
  decide

/-- L2.7 rows 1 and 2. -/
theorem test_bcEncode :
    (after .bcEncode (blkIn 0xB)).bc.out = 0xB4 ∧ (after .bcEncode (blkIn 0xFB)).bc.out = 0xB4 := by decide

/-- L2.7: F4 is B4 with bit 6 flipped: corrected with the mask 40; not with a budget of 0. -/
theorem test_bcDecode :
    ((after .bcDecode (blkIn 0xF4)).bc.out, (after .bcDecode (blkIn 0xF4)).bc.mask) = (0xB, 0x40) ∧
    (after .bcDecode { blkIn 0xF4 with bc := { (blkIn 0xF4).bc with maxerr := 0 } }).bc.ok = false := by decide

/-- L2.8 row 7: preset 3 is `CRC_CFG` = 7, P = 04C11DB7. -/
theorem test_crcPreset :
    crcCfgWord (after (.crcPreset 3) State.reset).crc = 7 ∧
    (after (.crcPreset 6) State.reset).ctl.errCode = .badCmd := by decide

/-- L2.8 row 14: with W32 = 0 the initial value is masked to 16 bits. -/
theorem test_crcInit :
    (after .crcInit { State.reset with crc := { CrcUnit.reset with init := 0x1234FFFF#32 } }).crc.acc = 0xFFFF := by
  decide

/-- L2.8 row 8: the byte 01 gives 8005 with preset 0. -/
theorem test_crcUpdate : (after .crcUpdate (crcIn 0)).crc.acc = 0x8005 := by decide

/-- L2.8 row 7: the final value of preset 3 over no byte is 0. -/
theorem test_crcFinal :
    (after .crcFinal (crcIn 3)).crc.result = 0 ∧ (after .crcFinal (crcIn 3)).crc.acc = 0xFFFFFFFF#32 := by decide

/-! ## The host -/

/-- L2.1 rows 8 and 9: a write while busy is dropped and sets `OVERRUN`. -/
theorem test_overrun :
    statusWord (got (hostAccess (.regWrite 0x024 4 5#32) (pend 0#32 State.reset))) = 0x00000009#32 ∧
    (got (hostAccess (.regWrite 0x024 4 5#32) (pend 0#32 State.reset))).ctl.srcLen = 0 := by decide

/-- R31, R357, R358: the stops of a host access, by name. -/
theorem test_host_stops :
    hostAccess (.regRead 0x002 4) State.reset = .refused .registerAccess ∧
    hostAccess (.memRead (2 ^ 32)) State.reset = .fault .noSuchAddress ∧
    hostAccess (.memRead 0x800) (pend 0x11#32 enc) = .fault .pendingFootprint ∧
    hostAccess (.memWrite 0x1001 0#8) enc = .fault .sessionOutput := ⟨rfl, rfl, rfl, rfl⟩

/-- A build with the register window at 40000000 (R10, 20_memory.md R109). -/
def based : State := State.resetWith { Params.defaults with regBase := 0x40000000 }

/-- R33 from `REG_BASE` on: `SRC_LEN` is at 40000024; the window ends before 40001000. -/
theorem test_regBase :
    (got (hostAccess (.regWrite 0x40000024 4 5#32) based)).ctl.srcLen = 5 ∧
    hostAccess (.regRead 0x40001000 4) based = .refused .registerAccess ∧
    hostAccess (.regRead 0x3FFFFFFC 4) based = .refused .registerAccess := ⟨rfl, rfl, rfl⟩

/-- R85: with T = 32 the accumulator holds FFFFFFFF; once the host clears `W32` it reads 0000FFFF, and `CRC_RESULT` too. -/
theorem test_crc_upper_bits :
    readReg (got (hostAccess (.regWrite 0x500 4 0#32) (crcIn 3))) .crcAcc = 0x0000FFFF#32 ∧
    readReg { State.reset with crc := { CrcUnit.reset with result := 0xCBF43926#32 } } .crcResult = 0x00003926#32 := by decide

/-! ## States that meet the hypotheses of the statements -/

theorem enc_sound : EncoderSound enc where
  legal := by decide
  output := fun _ => ⟨by decide, by decide⟩
  pcur := by decide
  sr := by decide

theorem recordSound_of {ns max : Nat} {r : StepRecord}
    (h : (∀ x < ns, r.m.getD x 0 ≤ max) ∧ (∀ x < ns, r.prev.getD x 0 < ns) ∧ r.lo < ns ∧ r.lom ≤ max) :
    RecordSound ns max r :=
  ⟨h.1, h.2.1, h.2.2.1, h.2.2.2⟩

theorem dec_sound : DecoderSound dec where
  legal := by decide
  output := fun _ => ⟨by decide, by decide⟩
  wpos := by decide
  stepcnt := by decide
  rxCnt := by decide
  rxBits := by decide
  records := fun _ t ht => recordSound_of ((by decide :
    ∀ t < 2, (∀ x < 4, (slot dec.vd.window t).m.getD x 0 ≤ 2 ^ 32 - 1) ∧
      (∀ x < 4, (slot dec.vd.window t).prev.getD x 0 < 4) ∧ (slot dec.vd.window t).lo < 4 ∧
      (slot dec.vd.window t).lom ≤ 2 ^ 32 - 1) t ht)
  nextFresh := fun _ x hx => (by decide :
    ∀ x < 4, (slot dec.vd.window (nextSlot dec.vd)).m.getD x 0 = 2 ^ 32 - 1) x hx
  bestState := by decide
  bestMetric := by decide

theorem mgIn_sound : MaskGenSound (after .mgInit (mgIn 4 2)) where
  length := by decide
  weight := by decide
  rising := fun _ i j hij hj => (by decide :
    ∀ j < 2, ∀ i < j, (after .mgInit (mgIn 4 2)).mg.x.getD i 0 < (after .mgInit (mgIn 4 2)).mg.x.getD j 0) j hj i hij
  below := fun _ i hi => (by decide : ∀ i < 2, (after .mgInit (mgIn 4 2)).mg.x.getD i 0 < 4) i hi
  emptyDone := by decide

/-- Both sessions ACTIVE, the mask generator begun, `w` pending. -/
def full (w : Word) : State :=
  { enc with
    ctl := { enc.ctl with pending := some w, cmdLast := w }
    vd := dec.vd
    mg := (after .mgInit (mgIn 4 2)).mg }

theorem full_sound (w : Word) : Sound (full w) where
  params := (by decide : enc.params.Legal)
  memory := (by decide : Memory.wf enc.mem)
  space := (by decide : MemoryInSpace enc)
  control := ⟨fun _ => ⟨rfl, rfl⟩, nofun, fun v h => by cases h; exact ⟨rfl, rfl⟩⟩
  addresses := ⟨(by decide : enc.ctl.srcAddr.toNat < 2 ^ 32), (by decide : enc.ce.cfg.outBase.toNat < 2 ^ 32),
    (by decide : dec.vd.cfg.outBase.toNat < 2 ^ 32), Nat.two_pow_pos 32, Nat.two_pow_pos 32, Nat.two_pow_pos 32,
    Nat.two_pow_pos 32, Nat.two_pow_pos 32, Nat.two_pow_pos 32⟩
  encoder := ⟨enc_sound.legal, enc_sound.output, enc_sound.pcur, enc_sound.sr⟩
  decoder := ⟨dec_sound.legal, dec_sound.output, dec_sound.wpos, dec_sound.stepcnt, dec_sound.rxCnt, dec_sound.rxBits,
    dec_sound.records, dec_sound.nextFresh, dec_sound.bestState, dec_sound.bestMetric⟩
  maskGen := ⟨mgIn_sound.length, mgIn_sound.weight, mgIn_sound.rising, mgIn_sound.below, mgIn_sound.emptyDone⟩

/-- A word that is no command. -/
theorem not_command {w : Word} {e : DecodeReject} (h : decode w = .error e) (i : Instr) : decode w ≠ .ok i := by
  rw [h]; nofun

/-! ### Encoding, the core step, errors -/

theorem witness_DecodeIffEncodedWord :
    decode 0x00000550#32 = .ok (.crcPreset 5) ∧ (Instr.crcPreset 5).wellFormed = true ∧ encode (.crcPreset 5) = 0x00000550#32 :=
  ⟨rfl, rfl, rfl⟩

/-- Both ends of every reserved range. -/
theorem witness_IllegalWord_reserved :
    ∀ o ∈ [0x02, 0x0F, 0x14, 0x1F, 0x24, 0x2F, 0x39, 0x3F, 0x42, 0x4F, 0x54, 0x5F, 0x65, 0x6F, 0x72, 0x7F, 0x80, 0xFF],
      reserved o ∧ (pend (BitVec.ofNat 32 o) State.reset).host.turns = [] ∧
        (pend (BitVec.ofNat 32 o) State.reset).ctl.pending = some (BitVec.ofNat 32 o) ∧
        (opOf (BitVec.ofNat 32 o)).toNat = o := by
  unfold reserved; decide

theorem witness_IllegalWord_argument :
    (pend 0x00000100#32 State.reset).ctl.pending = some 0x00000100#32 ∧ ¬ takesArgument (opOf 0x00000100#32).toNat ∧
    argOf 0x00000100#32 ≠ 0#24 := by
  unfold takesArgument; decide

theorem witness_IllegalWord_preset :
    (pend 0x00000650#32 State.reset).ctl.pending = some 0x00000650#32 ∧ (opOf 0x00000650#32).toNat = 0x50 ∧
    5 < (argOf 0x00000650#32).toNat := by decide

theorem witness_StepExecutesPendingCommand_idle :
    (pend 0x11#32 enc).ctl.pending = some 0x11#32 ∧ decode 0x11#32 = .ok .ceEncode ∧ (pend 0x11#32 enc).host.turns = [] ∧
    exec .ceEncode (pend 0x11#32 enc) = .next (after .ceEncode (pend 0x11#32 enc)) :=
  ⟨rfl, rfl, rfl, eq_got (by decide)⟩

theorem witness_StepExecutesPendingCommand_turn :
    (State.withFetchWord enc 32 0x11).ctl.pending = some 0x11#32 ∧ decode 0x11#32 = .ok .ceEncode ∧
    (State.withFetchWord enc 32 0x11).host.turns = .core :: [] ∧
    exec .ceEncode (withTurns (State.withFetchWord enc 32 0x11) []) =
      .next (after .ceEncode (withTurns (State.withFetchWord enc 32 0x11) [])) :=
  ⟨rfl, rfl, rfl, eq_got (by decide)⟩

/-- A turn of the host, and a core turn with nothing pending. -/
theorem witness_StepExecutesPendingCommand_host :
    (withTurns enc [.host (.memRead 0x800)]).host.turns = .host (.memRead 0x800) :: [] ∧
    enc.ctl.pending = none ∧ enc.host.turns = [] ∧ (withTurns enc [.core]).ctl.pending = none ∧
    (withTurns enc [.core]).host.turns = .core :: [] := ⟨rfl, rfl, rfl, rfl, rfl⟩

/-- R8: the host's access on its turn is the one listed: the byte 5C at 800 is read and the turn used up. -/
theorem test_host_turn :
    (got (step (withTurns enc [.host (.memRead 0x800), .core]))).host.memData = 0x5C#8 ∧
    (got (step (withTurns enc [.host (.memRead 0x800), .core]))).host.turns = [.core] := by decide

/-- Each error code is the first failed check of some command in some state. -/
theorem witness_ChecksReportFirstFailure_codes :
    errorOf State.reset .ceEncode = some .notReset ∧ errorOf (after .ceFlush enc) .ceEncode = some .spent ∧
    errorOf State.reset .ceReset = some .badConfig ∧
    errorOf { enc with ctl := { enc.ctl with srcAddr := 0xFFFFFFFF#32, srcLen := 2 } } .ceEncode = some .range ∧
    errorOf { enc with ctl := { enc.ctl with srcAddr := 0x1001#32 } } .ceEncode = some .overlap ∧
    errorOf { enc with ctl := { enc.ctl with srcLen := 2 } } .ceEncode = some .outOverflow ∧
    errorOf { mat with mx := { mat.mx with row := 8 } } .mxGetbit = some .index ∧
    errorOf State.reset (.crcPreset 6) = some .badCmd := by decide

theorem witness_ChecksReportFirstFailure_word : ∀ i, decode 0x00000002#32 ≠ .ok i := not_command rfl

theorem witness_CommandIsAllOrNothing :
    passes enc .ceEncode = true ∧ passes State.reset .ceEncode = false := by decide

theorem witness_FirstErrorIsKeptUntilCleared :
    State.reset.ctl.err = false ∧ (recordError State.reset .range 0x52#8).ctl.err = true ∧
    (0x00000004#32).getLsbD 2 = true := by decide

/-- An illegal word on a listed core turn: the state `withFetchWord` makes. -/
theorem witness_IllegalWord_turn :
    (State.withFetchWord enc 32 0x100).ctl.pending = some 0x00000100#32 ∧
    (State.withFetchWord enc 32 0x100).host.turns = .core :: [] ∧ argOf 0x00000100#32 ≠ 0#24 := by decide

theorem witness_EveryCommandCompletes_step :
    (pend 0x11#32 enc).host.turns = [] ∧ (pend 0x11#32 enc).ctl.pending = some 0x11#32 := by decide

/-- `DONE` set and a host turn listed that clears it, one for each of the three causes. -/
def doneThen (a : HostAccess) : State :=
  { State.reset with ctl := { Control.reset with done := true }, host := { HostPort.reset with turns := [.host a] } }

theorem witness_EveryCommandCompletes_clears :
    ∀ a ∈ [HostAccess.regWrite (regAddr State.reset 0x014) 4 2#32, .regWrite (regAddr State.reset 0x010) 4 0#32, .powerReset],
      (doneThen a).ctl.done = true ∧ isNext (step (doneThen a)) = true ∧ (got (step (doneThen a))).ctl.done = false := by
  decide

theorem witness_CommandsChangeOnlyTheirUnit : exec .mxMulmat mat = .next (after .mxMulmat mat) := eq_got (by decide)

theorem witness_NopChangesNothing :
    opOf 0x00000100#32 = 0x00#8 ∧ argOf 0x00000100#32 ≠ 0#24 ∧ argOf 0#32 = 0#24 ∧
    (pend 0#32 enc).host.turns = [] ∧ (pend 0#32 enc).ctl.pending = some 0#32 := by decide

/-- The words with and without an argument of every CMD-format command (the hypotheses of `CmdFormat`). -/
theorem witness_CmdFormat :
    ∀ op ∈ [0x00#8, 0x01#8, 0x10#8, 0x12#8, 0x20#8, 0x22#8, 0x30#8, 0x38#8, 0x40#8, 0x41#8, 0x51#8, 0x53#8, 0x60#8, 0x64#8,
        0x70#8, 0x71#8],
      opOf (0#24 ++ op) = op ∧ argOf (0#24 ++ op) = 0#24 ∧ opOf (1#24 ++ op) = op ∧ argOf (1#24 ++ op) ≠ 0#24 := by
  decide

/-! ### Mask generator -/

/-- The boundaries of the legal (L, k), and one value outside each (log 1: `MASK_K_MAX` = 8). -/
theorem witness_MgInitStartsEnumeration :
    (∀ g ∈ [mgIn 1 0, mgIn 1 1, mgIn 64 8], 1 ≤ g.mg.l.toNat ∧ g.mg.l.toNat ≤ 64 ∧ g.mg.k.toNat ≤ g.params.maskKMax ∧
      g.mg.k.toNat ≤ g.mg.l.toNat) ∧
    (mgIn 0 0).mg.l.toNat < 1 ∧ 64 < (mgIn 65 0).mg.l.toNat ∧ (mgIn 64 9).params.maskKMax < (mgIn 64 9).mg.k.toNat ∧
    (mgIn 1 2).mg.l.toNat < (mgIn 1 2).mg.k.toNat := by decide

theorem witness_MgNextReturnsMaskAndAdvances_stopped :
    State.reset.mg.valid = false ∧ (after .mgInit (mgIn 5 0)).mg.valid = true ∧ (after .mgInit (mgIn 5 0)).mg.done = true := by
  decide

theorem witness_MgNextReturnsMaskAndAdvances_running :
    MaskGenSound (after .mgInit (mgIn 4 2)) ∧ (after .mgInit (mgIn 4 2)).mg.valid = true ∧
    (after .mgInit (mgIn 4 2)).mg.done = false :=
  ⟨mgIn_sound, by decide, by decide⟩

/-- For `MaskEnumerationIsComplete` and `SearchOrderIsGeneratorOrder`: the smallest and the largest legal (L, k). -/
theorem witness_MaskEnumerationIsComplete :
    (∀ g ∈ [mgIn 1 1, mgIn 64 8], passes g .mgInit = true ∧ 1 ≤ g.mg.k.toNat) ∧
    exec .mgInit (mgIn 64 8) = .next (after .mgInit (mgIn 64 8)) :=
  ⟨by decide, eq_got (by decide)⟩

/-! ### Encoder -/

/-- An encoder with the live configuration changed. -/
def encCfg (k n plen : Nat) (base limit : Word) : State :=
  { enc with ce := { enc.ce with cfg := { enc.ce.cfg with
    k := BitVec.ofNat 6 k, n := BitVec.ofNat 4 n, plen := BitVec.ofNat 6 plen, outBase := base, outLimit := limit } } }

theorem witness_CeResetBeginsSession_illegal :
    ∀ s ∈ [encCfg 1 2 1 0 0, encCfg 33 2 1 0 0, encCfg 3 1 1 0 0, encCfg 3 9 1 0 0, encCfg 3 2 0 0 0, encCfg 3 2 33 0 0],
      ¬ (2 ≤ s.ce.cfg.k.toNat ∧ s.ce.cfg.k.toNat ≤ s.params.ceKMax ∧ 2 ≤ s.ce.cfg.n.toNat ∧ s.ce.cfg.n.toNat ≤ s.params.nMax ∧
        1 ≤ s.ce.cfg.plen.toNat ∧ s.ce.cfg.plen.toNat ≤ 32) := by decide

/-- An output region that ends exactly at the top of the address space, and one a byte longer. -/
theorem witness_CeResetBeginsSession_range :
    encOk (encCfg 32 8 32 0xFFFFFFF8#32 8).params (encCfg 32 8 32 0xFFFFFFF8#32 8).ce.cfg ∧
    (encCfg 32 8 32 0xFFFFFFF8#32 8).ce.cfg.outBase.toNat + (encCfg 32 8 32 0xFFFFFFF8#32 8).ce.cfg.outLimit.toNat = 2 ^ 32 ∧
    encOk (encCfg 2 2 1 0xFFFFFFF8#32 9).params (encCfg 2 2 1 0xFFFFFFF8#32 9).ce.cfg ∧
    2 ^ 32 < (encCfg 2 2 1 0xFFFFFFF8#32 9).ce.cfg.outBase.toNat + (encCfg 2 2 1 0xFFFFFFF8#32 9).ce.cfg.outLimit.toNat := by
  decide

/-- The 16 emitted bits fill the 2-byte output buffer exactly. -/
theorem witness_CeEncodeCompletes :
    enc.params.Legal ∧ EncoderSound enc ∧ passes enc .ceEncode = true ∧ encodeBits enc = 16 :=
  ⟨by decide, enc_sound, by decide, by decide⟩

theorem witness_CeEncodeWritesTapParities :
    enc.params.Legal ∧ EncoderSound enc ∧ passes enc .ceEncode = true ∧ exec .ceEncode enc = .next (after .ceEncode enc) :=
  ⟨by decide, enc_sound, by decide, eq_got (by decide)⟩

theorem witness_CeFlushWritesTail :
    State.reset.ce.session = .idle ∧ (after .ceFlush enc).ce.session = .spent ∧
    ((after .ceEncode enc).ce.session = .active ∧
      8 * (after .ceEncode enc).ce.lat.outLimit.toNat < outPos (after .ceEncode enc).ce.out + tailBits (after .ceEncode enc)) ∧
    enc.params.Legal ∧ EncoderSound enc ∧ enc.ce.session = .active ∧
      outPos enc.ce.out + tailBits enc ≤ 8 * enc.ce.lat.outLimit.toNat :=
  ⟨rfl, by decide, by decide, by decide, enc_sound, rfl, by decide⟩

theorem witness_CeCalcsizeIsTheFormula :
    ¬ encOk (encCfg 1 2 1 0 0).params (encCfg 1 2 1 0 0).ce.cfg ∧ encOk enc.params enc.ce.cfg ∧
    opOf 0xFFFFFF13#32 = 0x13#8 := by decide

theorem witness_EncodeStreamingIdentity :
    enc.params.Legal ∧ EncoderSound enc ∧ passes enc .ceEncode = true ∧ 1 ≤ enc.ctl.srcLen.toNat ∧
    enc.ctl.srcAddr.toNat + 1 < 2 ^ 32 ∧ exec .ceEncode enc = .next (after .ceEncode enc) :=
  ⟨by decide, enc_sound, by decide, by decide, by decide, eq_got (by decide)⟩

/-- An encoder configured, not begun: `enc` without its session, an output buffer of 3 bytes, the given pattern. -/
def encIdle (plen : BitVec 6) (pmask : Word) : State :=
  { enc with ce := { Encoder.reset with cfg := { enc.ce.cfg with plen := plen, pmask := pmask, outLimit := 3 } } }

theorem sessionKept_refl (s : State) : SessionKept s s := ⟨rfl, rfl, fun _ _ _ => rfl⟩

/-- A session of one `CE_ENCODE`, from the checks of its three commands. -/
theorem session_of_one {r : State} (h1 : passes r .ceReset = true) (h2 : isNext (exec .ceReset r) = true)
    (h3 : passes (after .ceReset r) .ceEncode = true) (h4 : isNext (exec .ceEncode (after .ceReset r)) = true)
    (h5 : passes (after .ceEncode (after .ceReset r)) .ceFlush = true)
    (h6 : isNext (exec .ceFlush (after .ceEncode (after .ceReset r))) = true) :
    EncodeSession r
      ((List.range (8 * (after .ceReset r).ctl.srcLen.toNat)).map (inputBit (after .ceReset r)))
      (after .ceFlush (after .ceEncode (after .ceReset r))) :=
  ⟨_, [after .ceReset r], after .ceEncode (after .ceReset r), after .ceEncode (after .ceReset r), h1, eq_got h2,
    ⟨sessionKept_refl _, h3, _, [], eq_got h4, (List.append_nil _).symm, rfl, rfl⟩, sessionKept_refl _, h5, eq_got h6⟩

/-- Two sessions on the byte 5C that differ in the pattern alone: 22 bits, and the 17 that 1, 1, 1, 0 keeps. -/
theorem witness_PunctureConsistency :
    (encIdle 4 7).params.Legal ∧
    (∃ bits u u', bits.length = 8 ∧ EncodeSession (encIdle 4 7) bits u ∧ EncodeSession (encIdle 1 1) bits u') ∧
    (encIdle 1 1).ce.cfg.k = (encIdle 4 7).ce.cfg.k ∧ (encIdle 1 1).ce.cfg.n = (encIdle 4 7).ce.cfg.n ∧
    (∀ j < (encIdle 4 7).ce.cfg.n.toNat, (encIdle 1 1).ce.cfg.poly.getD j 0 = (encIdle 4 7).ce.cfg.poly.getD j 0) ∧
    (encIdle 1 1).ce.cfg.plen = 1 ∧ (encIdle 1 1).ce.cfg.pmask.getLsbD 0 = true ∧
    (8 + (encIdle 4 7).ce.cfg.k.toNat) * (encIdle 4 7).ce.cfg.n.toNat = 22 ∧ kept (encIdle 4 7).ce.cfg 0 22 = 17 :=
  ⟨by decide, ⟨_, _, _, by rfl, session_of_one (by decide) (by decide) (by decide) (by decide) (by decide) (by decide),
    session_of_one (by decide) (by decide) (by decide) (by decide) (by decide) (by decide)⟩, rfl, rfl, fun _ _ => rfl, rfl, rfl, rfl,
    by decide⟩

/-! ### Decoder -/

/-- A decoder with the live configuration changed. -/
def decCfg (k n depth : Nat) (base limit : Word) : State :=
  { dec with vd := { dec.vd with cfg := { dec.vd.cfg with
    k := BitVec.ofNat 6 k, n := BitVec.ofNat 4 n, depth := BitVec.ofNat 16 depth, outBase := base, outLimit := limit } } }

theorem witness_VdResetInitialisesTrellis_illegal :
    ∀ s ∈ [decCfg 1 2 2 0 0, decCfg 10 2 2 0 0, decCfg 3 1 2 0 0, decCfg 3 9 2 0 0, decCfg 3 2 1 0 0, decCfg 3 2 257 0 0],
      ¬ (2 ≤ s.vd.cfg.k.toNat ∧ s.vd.cfg.k.toNat ≤ s.params.vdKMax ∧ 2 ≤ s.vd.cfg.n.toNat ∧ s.vd.cfg.n.toNat ≤ s.params.nMax ∧
        2 ≤ s.vd.cfg.depth.toNat ∧ s.vd.cfg.depth.toNat ≤ s.params.vdDMax) := by decide

theorem witness_VdResetInitialisesTrellis_range :
    decOk (decCfg 9 8 256 0xFFFFFFF8#32 8).params (decCfg 9 8 256 0xFFFFFFF8#32 8).vd.cfg ∧
    (decCfg 9 8 256 0xFFFFFFF8#32 8).vd.cfg.outBase.toNat + (decCfg 9 8 256 0xFFFFFFF8#32 8).vd.cfg.outLimit.toNat = 2 ^ 32 ∧
    decOk (decCfg 2 2 2 0xFFFFFFF8#32 9).params (decCfg 2 2 2 0xFFFFFFF8#32 9).vd.cfg ∧
    2 ^ 32 < (decCfg 2 2 2 0xFFFFFFF8#32 9).vd.cfg.outBase.toNat + (decCfg 2 2 2 0xFFFFFFF8#32 9).vd.cfg.outLimit.toNat := by
  decide

/-- Four steps and three emitted bits. -/
theorem witness_VdDecodeCompletes :
    dec.params.Legal ∧ DecoderSound dec ∧ passes dec .vdDecode = true ∧ steps dec = 4 ∧ decodeBits dec = 3 :=
  ⟨by decide, dec_sound, by decide, by decide, by decide⟩

/-- R215: the third pair of bits of 38 is 1, 0; the pending bits come before those of the source. -/
theorem test_rxPacked :
    rxPacked dec 4 2 = 2 ∧ rxPacked { dec with vd := { dec.vd with rxCnt := 1, rxBits := 1 } } 0 2 = 2 := by decide

/-- The decoder after one trellis step: D − 1 = 1 bit left to walk. -/
def decFlush (limit : Word) : State :=
  { dec with vd := { dec.vd with stepcnt := 1, lat := { dec.vd.lat with outLimit := limit } } }

theorem decFlush_sound : DecoderSound (decFlush 1) where
  legal := by decide
  output := fun _ => ⟨by decide, by decide⟩
  wpos := by decide
  stepcnt := by decide
  rxCnt := by decide
  rxBits := by decide
  records := dec_sound.records
  nextFresh := dec_sound.nextFresh
  bestState := dec_sound.bestState
  bestMetric := dec_sound.bestMetric

theorem witness_VdFlushWritesWalk :
    State.reset.vd.session = .idle ∧ (after .vdFlush dec).vd.session = .spent ∧
    ((decFlush 0).vd.session = .active ∧ 8 * (decFlush 0).vd.lat.outLimit.toNat < outPos (decFlush 0).vd.out + walkBits (decFlush 0)) ∧
    (decFlush 1).params.Legal ∧ DecoderSound (decFlush 1) ∧ (decFlush 1).vd.session = .active ∧ walkBits (decFlush 1) = 1 ∧
      outPos (decFlush 1).vd.out + walkBits (decFlush 1) ≤ 8 * (decFlush 1).vd.lat.outLimit.toNat :=
  ⟨rfl, by decide, by decide, by decide, decFlush_sound, rfl, by decide, by decide⟩

/-- A decode onto a byte that already holds a 1. -/
theorem witness_DecoderNeverClearsABit :
    exec .vdDecode { dec with mem := [(0x900, 0x38#8), (0x2000, 0x01#8)] } =
      .next (after .vdDecode { dec with mem := [(0x900, 0x38#8), (0x2000, 0x01#8)] }) ∧
    (Memory.read [(0x900, 0x38#8), (0x2000, 0x01#8)] 0x2000).getLsbD 0 = true :=
  ⟨eq_got (by decide), by decide⟩

/-- R212 with polynomials 111 and 101: from state 0 the input 1 gives 11, from state 2 the input 0 gives 10. -/
theorem test_branch :
    branchOut dec.vd.lat 0 true = 0b11#8 ∧ branchOut dec.vd.lat 2 false = 0b10#8 ∧ branchBit dec.vd.lat 2 false 1 = true ∧
    branchBit dec.vd.lat 2 false 0 = false ∧ branchDistance dec.vd.lat 2 false 0b01#8 = 2 := by decide

/-- In the step from `dec` the states 0 and 2 have one live predecessor (state 0); 1 and 3 have none. -/
theorem witness_TrellisStepSelectsSurvivors :
    dec.params.Legal ∧ DecoderSound dec ∧ dec.vd.session = .active ∧ 3 < 2 ^ (dec.vd.lat.k.toNat - 1) ∧
    (slot dec.vd.window dec.vd.wpos.toNat).m = [0, 2 ^ 32 - 1, 2 ^ 32 - 1, 2 ^ 32 - 1] :=
  ⟨by decide, dec_sound, rfl, by decide, by decide⟩

/-- Both emission clauses at their boundary: no step counted with D = 2, and D − 1 = 1 step counted. -/
theorem witness_TrellisStepSelectsSurvivors_emission :
    dec.vd.stepcnt.toNat < dec.vd.lat.depth.toNat - 1 ∧ DecoderSound (decFlush 1) ∧ (decFlush 1).vd.session = .active ∧
    (decFlush 1).vd.lat.depth.toNat - 1 ≤ (decFlush 1).vd.stepcnt.toNat :=
  ⟨by decide, decFlush_sound, rfl, by decide⟩

/-- With D = 3 slot 0 is neither the new nor the refreshed one after a step from it: the frame clause is not empty. -/
def dec3 : State :=
  { dec with vd := { dec.vd with lat := { dec.vd.lat with depth := 3 }, window := initWindow 4 (2 ^ 32 - 1) 3 [] } }

theorem dec3_sound : DecoderSound dec3 where
  legal := by decide
  output := fun _ => ⟨by decide, by decide⟩
  wpos := by decide
  stepcnt := by decide
  rxCnt := by decide
  rxBits := by decide
  records := fun _ t ht => recordSound_of ((by decide :
    ∀ t < 3, (∀ x < 4, (slot dec3.vd.window t).m.getD x 0 ≤ 2 ^ 32 - 1) ∧
      (∀ x < 4, (slot dec3.vd.window t).prev.getD x 0 < 4) ∧ (slot dec3.vd.window t).lo < 4 ∧
      (slot dec3.vd.window t).lom ≤ 2 ^ 32 - 1) t ht)
  nextFresh := fun _ x hx => (by decide :
    ∀ x < 4, (slot dec3.vd.window (nextSlot dec3.vd)).m.getD x 0 = 2 ^ 32 - 1) x hx
  bestState := by decide
  bestMetric := by decide

theorem witness_TrellisStepSelectsSurvivors_frame :
    DecoderSound dec3 ∧ dec3.vd.session = .active ∧ 0 < dec3.vd.lat.depth.toNat ∧ 0 ≠ (trellisStep 3 dec3).vd.wpos.toNat ∧
    0 ≠ ((trellisStep 3 dec3).vd.wpos.toNat + 1) % dec3.vd.lat.depth.toNat :=
  ⟨dec3_sound, rfl, by decide, by decide, by decide⟩

/-- After two steps every state of the session is live: both predecessors of each count in the third. -/
theorem witness_TrellisStepSelectsSurvivors_both :
    ∀ x < 4, (slot (trellisStep 3 (trellisStep 3 dec)).vd.window
      (trellisStep 3 (trellisStep 3 dec)).vd.wpos.toNat).m.getD x 0 ≠ 2 ^ 32 - 1 := by
  decide

theorem witness_ViterbiMetricIsLeastPathDistance :
    dec.params.Legal ∧ passes dec .vdReset = true ∧ exec .vdReset dec = .next (after .vdReset dec) ∧
    3 < 2 ^ ((after .vdReset dec).vd.lat.k.toNat - 1) :=
  ⟨by decide, by decide, eq_got (by decide), by decide⟩

theorem witness_DecodeStreamingIdentity :
    dec.params.Legal ∧ DecoderSound dec ∧ passes dec .vdDecode = true ∧ 1 ≤ dec.ctl.srcLen.toNat ∧
    dec.ctl.srcAddr.toNat + 1 < 2 ^ 32 ∧ exec .vdDecode dec = .next (after .vdDecode dec) :=
  ⟨by decide, dec_sound, by decide, by decide, by decide, eq_got (by decide)⟩

theorem witness_VdCalcsizeIsTheFormula :
    (decCfg 1 2 2 0 0).vd.cfg.k.toNat < 2 ∧ (decCfg 10 2 2 0 0).params.vdKMax < (decCfg 10 2 2 0 0).vd.cfg.k.toNat ∧
    (decCfg 3 1 2 0 0).vd.cfg.n.toNat < 2 ∧ (decCfg 3 9 2 0 0).params.nMax < (decCfg 3 9 2 0 0).vd.cfg.n.toNat ∧
    decRateOk (decCfg 9 8 0 0 0).params (decCfg 9 8 0 0 0).vd.cfg ∧ opOf 0x00000023#32 = 0x23#8 := by decide

theorem witness_DecoderReservationIsAdequate :
    passes dec (.vdCalcsize 5) = true ∧ exec (.vdCalcsize 5) dec = .next (after (.vdCalcsize 5) dec) :=
  ⟨by decide, eq_got (by decide)⟩

/-! ### Matrix unit -/

/-- `mat` with A at the top of the address space: the last legal base and the first illegal one. -/
def matTop (a : Word) : State := { mat with mx := { mat.mx with a := a } }

theorem witness_Mx_pass :
    (∀ i ∈ [Instr.mxZero, .mxCopy, .mxSetbit, .mxGetbit, .mxEqual, .mxIszero, .mxMulvec, .mxMulmat, .mxTranspose],
      passes mat i = true) ∧
    passes (matTop 0xFFFFFFF8#32) .mxCopy = true := by decide

theorem witness_Mx_errors :
    (∀ i ∈ [Instr.mxCopy, .mxSetbit, .mxGetbit, .mxEqual, .mxIszero, .mxMulvec, .mxMulmat, .mxTranspose],
      errorOf (matTop 0xFFFFFFF9#32) i = some .range) ∧
    errorOf { mat with mx := { mat.mx with r := 0 } } .mxZero = some .badConfig ∧
    errorOf { mat with mx := { mat.mx with c := 72 } } .mxMulvec = some .badConfig ∧
    errorOf { mat with mx := { mat.mx with dst := 0x5107#32 } } .mxMulmat = some .overlap := by decide

/-- M transposed to 0x5200 and back to 0x5400. -/
def matBack : State :=
  { after .mxTranspose mat with
    mx := { (after .mxTranspose mat).mx with a := mat.mx.dst, dst := 0x5400#32, r := mat.mx.c, c := mat.mx.r } }

theorem witness_TransposeTwiceIsIdentity :
    passes mat .mxTranspose = true ∧ exec .mxTranspose mat = .next (after .mxTranspose mat) ∧
    passes matBack .mxTranspose = true ∧ exec .mxTranspose matBack = .next (after .mxTranspose matBack) :=
  ⟨by decide, eq_got (by decide), by decide, eq_got (by decide)⟩

/-! ### Block code and CRC -/

theorem witness_BcEncodeIsGeneratorProduct :
    passes blk .bcEncode = true ∧ errorOf { blk with bc := { blk.bc with cwW := 12 } } .bcEncode = some .badConfig ∧
    errorOf { blk with bc := { blk.bc with g := 0xFFFFFFFC#32 } } .bcEncode = some .range := by decide

/-- R280: one configuration outside each condition, and the last ones inside. -/
theorem witness_BcEncodeIsGeneratorProduct_illegal :
    (∀ b ∈ [(12, 8, 8, 1), (8, 16, 8, 1), (32, 8, 16, 1), (8, 8, 0, 1), (8, 8, 8, 9)],
      ¬ blockOk Params.defaults { BlockUnit.reset with
        cwW := BitVec.ofNat 8 b.1, srcW := BitVec.ofNat 8 b.2.1, synW := BitVec.ofNat 8 b.2.2.1, maxerr := BitVec.ofNat 4 b.2.2.2 }) ∧
    blockOk Params.defaults { BlockUnit.reset with cwW := 64, srcW := 32, synW := 32, maxerr := 8 } := by decide

/-- The three outcomes of a decoding: a zero syndrome, a corrected word, no mask within the budget. -/
theorem witness_BcDecodeCorrectsByFirstMask :
    (passes (blkIn 0xB4) .bcDecode = true ∧ (after .bcDecode (blkIn 0xB4)).bc.syn = 0) ∧
    ((after .bcDecode (blkIn 0xF4)).bc.syn ≠ 0 ∧ (after .bcDecode (blkIn 0xF4)).bc.ok = true) ∧
    ((after .bcDecode { blkIn 0xF4 with bc := { (blkIn 0xF4).bc with maxerr := 0 } }).bc.syn ≠ 0 ∧
      (after .bcDecode { blkIn 0xF4 with bc := { (blkIn 0xF4).bc with maxerr := 0 } }).bc.ok = false) ∧
    errorOf { blk with bc := { blk.bc with h := 0xFFFFFFFC#32 } } .bcDecode = some .range := by decide

theorem witness_CrcPresetLoadsItsRow : 5 < (6#24).toNat ∧ (5#24).toNat ≤ 5 ∧ (0#24).toNat ≤ 5 := by decide

theorem witness_CrcUpdateFoldsBytes :
    (crcIn 0).ctl.srcAddr.toNat + (crcIn 0).ctl.srcLen.toNat ≤ 2 ^ (crcIn 0).params.addrW ∧
    2 ^ 32 < 0xFFFFFFFF + (2#32).toNat ∧ (2 : Nat) ^ 32 = 0xFFFFFFFF + (1#32).toNat := by decide

theorem witness_CrcUpdateSplits :
    passes (crcIn 0) .crcUpdate = true ∧ 1 ≤ (crcIn 0).ctl.srcLen.toNat ∧ (crcIn 0).ctl.srcAddr.toNat + 1 < 2 ^ 32 := by
  decide

/-! ### A single-error-correcting code with CW = 16, SW = YW = 8 -/

theorem oddCount_zero (f : Nat → Bool) : oddCount 0 f = false := by simp [oddCount]

theorem oddCount_succ (n : Nat) (f : Nat → Bool) : oddCount (n + 1) f = (oddCount n f ^^ f n) := by
  unfold oddCount
  rw [Finset.range_add_one, Finset.filter_insert]
  cases h : f n
  · simp
  · rw [if_pos rfl, Finset.card_insert_of_notMem (by simp)]
    rcases Nat.mod_two_eq_zero_or_one ((Finset.range n).filter (fun i => f i = true)).card with e | e <;>
      simp [e, Nat.add_mod]

theorem oddCount_congr {n : Nat} {f g : Nat → Bool} (h : ∀ k < n, f k = g k) : oddCount n f = oddCount n g := by
  induction n with
  | zero => simp [oddCount_zero]
  | succ n ih => rw [oddCount_succ, oddCount_succ, ih fun k hk => h k (by omega), h n (by omega)]

theorem oddCount_add (m n : Nat) (f : Nat → Bool) : oddCount (m + n) f = (oddCount m f ^^ oddCount n (fun k => f (m + k))) := by
  induction n with
  | zero => simp [oddCount_zero]
  | succ n ih => rw [← Nat.add_assoc, oddCount_succ, ih, oddCount_succ, Bool.xor_assoc]

/-- The sum has one term where only index `c` counts. -/
theorem oddCount_single (n c : Nat) (f : Nat → Bool) (h : c < n) : oddCount n (fun k => decide (c = k) && f k) = f c := by
  have z : ∀ m ≤ c, oddCount m (fun k => decide (c = k) && f k) = false := by
    intro m hm
    induction m with
    | zero => exact oddCount_zero _
    | succ m ih => rw [oddCount_succ, ih (by omega), decide_eq_false (by omega)]; rfl
  induction n with
  | zero => omega
  | succ n ih =>
    rw [oddCount_succ]
    by_cases e : c = n
    · subst e; rw [z c (Nat.le_refl _)]; simp
    · rw [ih (by omega), decide_eq_false e]; simp

/-- The check row j over the information bits: columns j and j − 1. -/
def checkRow : Nat → Byte
  | 0 => 0x81#8
  | 1 => 0xC0#8
  | 2 => 0x60#8
  | 3 => 0x30#8
  | 4 => 0x18#8
  | 5 => 0x0C#8
  | 6 => 0x06#8
  | _ => 0x03#8

/-- Row i of the identity. -/
def unitRow (i : Nat) : Byte := 0x80#8 >>> i

/-- G = [I; P] at 0x4000, H = [P | I] at 0x4010, D = [I | 0] at 0x4020. -/
def code : State :=
  { State.reset with
    mem := (List.range 8).map (fun i => (0x4000 + i, unitRow i)) ++ (List.range 8).map (fun j => (0x4008 + j, checkRow j)) ++
      (List.range 8).flatMap (fun j => [(0x4010 + 2 * j, checkRow j), (0x4011 + 2 * j, unitRow j)]) ++
      (List.range 8).map (fun i => (0x4020 + 2 * i, unitRow i))
    bc := { BlockUnit.reset with g := 0x4000#32, h := 0x4010#32, d := 0x4020#32, cwW := 16, srcW := 8, synW := 8, maxerr := 1 } }

theorem code_g : ∀ i < 8, ∀ k < 8, mbit code.mem code.bc.g 8 i k = decide (i = k) ∧
    mbit code.mem code.bc.g 8 (8 + i) k = (checkRow i).getLsbD (7 - k) := by decide

theorem code_h : ∀ j < 8, ∀ k < 8, mbit code.mem code.bc.h 16 j k = (checkRow j).getLsbD (7 - k) ∧
    mbit code.mem code.bc.h 16 j (8 + k) = decide (j = k) := by decide

theorem code_d : ∀ i < 8, ∀ k < 16, mbit code.mem code.bc.d 16 i k = decide (i = k) := by decide

theorem witness_BlockCode_generator (v g : DWord) (hv : v.toNat < 2 ^ 8)
    (h : IsProduct code.mem code.bc.g 16 8 v g) :
    IsProduct code.mem code.bc.h 8 16 g 0 ∧ IsProduct code.mem code.bc.d 8 16 g v := by
  have info : ∀ i < 8, g.getLsbD (15 - i) = v.getLsbD (7 - i) := by
    intro i hi
    rw [h.2 i (by omega), ← oddCount_single 8 i (fun k => v.getLsbD (7 - k)) hi]
    exact oddCount_congr fun k hk => by rw [(code_g i hi k hk).1]
  have check : ∀ j < 8, g.getLsbD (7 - j) = oddCount 8 (fun k => (checkRow j).getLsbD (7 - k) && v.getLsbD (7 - k)) := by
    intro j hj
    rw [show 7 - j = 16 - 1 - (8 + j) by omega, h.2 (8 + j) (by omega)]
    exact oddCount_congr fun k hk => by rw [(code_g j hj k hk).2]
  refine ⟨⟨by decide, fun j hj => ?_⟩, hv, fun i hi => ?_⟩
  · rw [show (16 : Nat) = 8 + 8 by rfl, oddCount_add]
    have e1 : oddCount 8 (fun k => mbit code.mem code.bc.h (8 + 8) j k && g.getLsbD (8 + 8 - 1 - k)) = g.getLsbD (7 - j) := by
      rw [check j hj]
      exact oddCount_congr fun k hk => by rw [(code_h j hj k hk).1, info k hk]
    have e2 : oddCount 8 (fun k => mbit code.mem code.bc.h (8 + 8) j (8 + k) && g.getLsbD (8 + 8 - 1 - (8 + k))) =
        g.getLsbD (7 - j) := by
      rw [← oddCount_single 8 j (fun k => g.getLsbD (7 - k)) hj]
      exact oddCount_congr fun k hk => by rw [(code_h j hj k hk).2, show 8 + 8 - 1 - (8 + k) = 7 - k by omega]
    rw [e1, e2]
    simp
  · rw [← info i hi, ← oddCount_single 16 i (fun k => g.getLsbD (15 - k)) (by omega)]
    exact oddCount_congr fun k hk => by rw [code_d i hi k hk]

/-- A mask of weight 1 has one bit. -/
theorem weight_one {e : DWord} (he : e.toNat < 2 ^ 16) (h1 : 1 ≤ weight e) (h2 : weight e ≤ 1) :
    ∃ a < 16, ∀ i, i < 64 → e.getLsbD i = decide (i = a) := by
  obtain ⟨a, ha⟩ := Finset.card_eq_one.1 (Nat.le_antisymm h2 h1)
  have mem : ∀ i, i < 64 → (e.getLsbD i = true ↔ i = a) := fun i hi => by
    refine Iff.trans ?_ (Finset.mem_singleton (a := a) (b := i))
    rw [← ha, Finset.mem_filter, Finset.mem_range]
    exact ⟨fun h => ⟨hi, h⟩, fun h => h.2⟩
  have h64 : a < 64 := by
    have : a ∈ ({a} : Finset Nat) := Finset.mem_singleton_self a
    rw [← ha] at this
    exact Finset.mem_range.1 (Finset.mem_filter.1 this).1
  refine ⟨a, ?_, fun i hi => by rw [Bool.eq_iff_iff, mem i hi, decide_eq_true_iff]⟩
  by_contra hge
  have ht := (mem a h64).2 rfl
  rw [BitVec.getLsbD, Nat.testBit_lt_two_pow (Nat.lt_of_lt_of_le he (Nat.pow_le_pow_right (by omega) (by omega)))] at ht
  cases ht

/-- The syndrome of a one-bit mask is a column of H. -/
theorem column {e y : DWord} {a : Nat} (ha : a < 16) (he : ∀ i, i < 64 → e.getLsbD i = decide (i = a))
    (h : IsProduct code.mem code.bc.h 8 16 e y) : ∀ j < 8, y.getLsbD (7 - j) = mbit code.mem code.bc.h 16 j (15 - a) := by
  intro j hj
  rw [h.2 j hj, ← oddCount_single 16 (15 - a) (fun k => mbit code.mem code.bc.h 16 j k) (by omega)]
  refine oddCount_congr fun k hk => ?_
  rw [he (15 - k) (by omega), Bool.and_comm]
  congr 1
  exact decide_eq_decide.2 (by omega)

theorem columns_distinct : ∀ a < 16, ∀ b < 16,
    (∀ j < 8, mbit code.mem code.bc.h 16 j (15 - a) = mbit code.mem code.bc.h 16 j (15 - b)) → a = b := by decide

theorem columns_nonzero : ∀ a < 16, ∃ j < 8, mbit code.mem code.bc.h 16 j (15 - a) = true := by decide

theorem witness_BlockCode_masks (e f y : DWord) (he : e.toNat < 2 ^ 16) (hf : f.toNat < 2 ^ 16) (e1 : 1 ≤ weight e)
    (e2 : weight e ≤ 1) (f1 : 1 ≤ weight f) (f2 : weight f ≤ 1) (hy : IsProduct code.mem code.bc.h 8 16 e y)
    (hz : IsProduct code.mem code.bc.h 8 16 f y) : y ≠ 0 ∧ e = f := by
  obtain ⟨a, ha, ea⟩ := weight_one he e1 e2
  obtain ⟨b, hb, fb⟩ := weight_one hf f1 f2
  have ca := column ha ea hy
  have cb := column hb fb hz
  refine ⟨fun h0 => ?_, ?_⟩
  · obtain ⟨j, hj, hm⟩ := columns_nonzero a ha
    rw [← ca j hj, h0] at hm
    simp at hm
  · have : a = b := columns_distinct a ha b hb fun j hj => by rw [← ca j hj, cb j hj]
    exact BitVec.eq_of_getLsbD_eq fun i hi => by rw [ea i hi, fb i hi, this]

/-- The code, a source block, and a mask of weight 1 meet every hypothesis. -/
theorem witness_BlockCodeCorrectsUpToMaxErrors :
    passes code .bcEncode = true ∧ passes code .bcDecode = true ∧
    (∀ v g : DWord, v.toNat < 2 ^ code.bc.srcW.toNat → IsProduct code.mem code.bc.g code.bc.cwW.toNat code.bc.srcW.toNat v g →
      IsProduct code.mem code.bc.h code.bc.synW.toNat code.bc.cwW.toNat g 0 ∧
      IsProduct code.mem code.bc.d code.bc.srcW.toNat code.bc.cwW.toNat g v) ∧
    (∀ e f y : DWord, e.toNat < 2 ^ code.bc.cwW.toNat → f.toNat < 2 ^ code.bc.cwW.toNat → 1 ≤ weight e →
      weight e ≤ code.bc.maxerr.toNat → 1 ≤ weight f → weight f ≤ code.bc.maxerr.toNat →
      IsProduct code.mem code.bc.h code.bc.synW.toNat code.bc.cwW.toNat e y →
      IsProduct code.mem code.bc.h code.bc.synW.toNat code.bc.cwW.toNat f y → y ≠ 0 ∧ e = f) ∧
    (0x5C#64).toNat < 2 ^ code.bc.srcW.toNat ∧ (0x8000#64).toNat < 2 ^ code.bc.cwW.toNat ∧
    weight 0x8000#64 ≤ code.bc.maxerr.toNat ∧
    exec .bcEncode { code with bc := { code.bc with input := 0x5C#64 } } =
      .next (after .bcEncode { code with bc := { code.bc with input := 0x5C#64 } }) ∧
    isNext (exec .bcDecode (after .bcEncode { code with bc := { code.bc with input := 0x5C#64 } })) = true :=
  ⟨by decide, by decide, witness_BlockCode_generator, witness_BlockCode_masks, by decide, by decide,
    by decide, eq_got (by decide), by decide⟩

/-! ### Footprints and invariants -/

theorem witness_FootprintCoversWrites :
    Sound (full 0x11#32) ∧ exec .ceEncode (full 0x11#32) = .next (after .ceEncode (full 0x11#32)) ∧
    ¬ Touches (writeTable (full 0x11#32) .ceEncode) 0x1002 ∧
    Touches (writeTable (full 0x11#32) .ceEncode) 0x1001 :=
  ⟨full_sound _, eq_got (by decide), by decide, by decide⟩

/-- The memory of `full` with a byte outside the footprint changed. -/
theorem witness_FootprintCoversReads :
    Sound (full 0x11#32) ∧
    (∀ a, Touches (readTable (full 0x11#32) .ceEncode ++ writeTable (full 0x11#32) .ceEncode) a →
      Memory.read (Memory.write (full 0x11#32).mem 0x801 0xFF#8) a = Memory.read (full 0x11#32).mem a) ∧
    exec .ceEncode (full 0x11#32) = .next (after .ceEncode (full 0x11#32)) := by
  refine ⟨full_sound _, fun a h => Memory.read_write_ne _ _ fun e => ?_, eq_got (by decide)⟩
  rw [e] at h
  exact absurd h (by decide)

theorem step_full {w : Word} {i : Instr} (h : decode w = .ok i) (k : isNext (exec i (full w)) = true) :
    step (full w) = .next (completeCommand (after i (full w))) := by
  rw [step_core rfl, coreStep_pending (w := w) rfl, execute_ok h]
  exact congrArg completeResult (eq_got k)

/-- For the `StepKeeps…` statements and `StepStaysInAddressSpace`: sound states whose step runs `CE_ENCODE`, `VD_DECODE`,
`MG_NEXT`. -/
theorem witness_StepKeeps_encoder :
    Sound (full 0x11#32) ∧ Memory.wf (full 0x11#32).mem ∧
    step (full 0x11#32) = .next (completeCommand (after .ceEncode (full 0x11#32))) :=
  ⟨full_sound _, (full_sound _).memory, step_full rfl (by decide)⟩

theorem witness_StepKeeps_decoder :
    Sound (full 0x21#32) ∧ step (full 0x21#32) = .next (completeCommand (after .vdDecode (full 0x21#32))) :=
  ⟨full_sound _, step_full rfl (by decide)⟩

theorem witness_StepKeeps_maskGen :
    Sound (full 0x71#32) ∧ step (full 0x71#32) = .next (completeCommand (after .mgNext (full 0x71#32))) :=
  ⟨full_sound _, step_full rfl (by decide)⟩

theorem witness_ResetIsSound : Params.defaults.Legal := by decide

/-! ### The host -/

/-- The first and the last offset of each kind: a register, one the host writes, one it does not, none at all. -/
theorem witness_HostWritesReadBack :
    (based.params.Legal ∧ busy based = false) ∧
    (0x000, 0x46454331) ∈ registerReads based ∧ (0x710, 0) ∈ registerReads based ∧ (0x13C, 0) ∈ registerReads based ∧
    (0x010 ∈ (registerWrites based 5#32).map Prod.fst ∧ 0x704 ∈ (registerWrites based 5#32).map Prod.fst) ∧
    (∀ off ∈ [0x000, 0x11C, 0x140, 0xFFC], off ∉ (registerWrites based 5#32).map Prod.fst) ∧
    (∀ off ∈ [0x028, 0x118, 0x714, 0xFFC], off ∉ (registerReads based).map Prod.fst) ∧
    regAt 0x020 = some .srcAddr ∧ rwBits based.params .srcAddr = some 32 := by decide

theorem witness_HostWritesReadBack_polynomials :
    (¬ polyOffset 0x11C ∧ polyOffset 0x120 ∧ polyOffset 0x13C ∧ ¬ polyOffset 0x140) ∧ ¬ polyOffset 0xFFC := by
  unfold polyOffset; decide

/-- The four causes of a refusal. -/
theorem witness_HostWritesReadBack_refused :
    0x3FFFFFFF < based.params.regBase ∧ based.params.regBase + 4096 ≤ 0x40001000 ∧ 2 ≠ 4 ∧
    (0x40000002 - based.params.regBase) % 4 ≠ 0 := by decide

theorem witness_BusyCoreDropsWritesAndHidesRegisters :
    busy State.reset = false ∧ regAt 0x010 = some .cmd ∧ busy (pend 0#32 State.reset) = true ∧
    regAt 0x020 = some .srcAddr ∧ regAt 0x01C = some .cmdLast := by decide

/-- While busy: offsets without a register, and the four causes of a refusal (as for `HostWritesReadBack`). -/
theorem witness_BusyCoreDropsWritesAndHidesRegisters_other :
    (∀ off ∈ [0x028, 0x714, 0xFFC], off ∉ (registerReads (pend 0#32 based)).map Prod.fst) ∧
    busy (pend 0#32 based) = true ∧ 0x3FFFFFFF < (pend 0#32 based).params.regBase := by decide

/-- R92: a busy core takes writes to `IRQ_EN`, and to `STATUS` with bit 2 clear (here `OVERRUN` is cleared and `ERR` stays). -/
theorem test_busy_writes :
    (got (hostAccess (.regWrite 0x018 4 3#32) (pend 0#32 State.reset))).ctl.errIe = true ∧
    (got (hostAccess (.regWrite 0x014 4 8#32) (setOverrun (recordError (pend 0#32 State.reset) .range 0x52#8)))).ctl.overrun = false ∧
    (got (hostAccess (.regWrite 0x014 4 8#32) (setOverrun (recordError (pend 0#32 State.reset) .range 0x52#8)))).ctl.err = true := by
  decide

/-- A register of each kind while busy. -/
theorem witness_BusyCoreDropsWritesAndHidesRegisters_offsets :
    (pend 0#32 based).params.Legal ∧ (0x014, 1) ∈ controlReads (pend 0#32 based) ∧
    (0x008, 0x20200100) ∈ controlReads (pend 0#32 based) ∧ 0x010 ∈ (registerReads (pend 0#32 based)).map Prod.fst ∧
    0x710 ∈ (registerReads (pend 0#32 based)).map Prod.fst := by decide

theorem witness_HostMemoryAccessesAndHazards_outside :
    2 ^ State.reset.params.addrW ≤ 0x100000000 ∧ 0xFFFFFFFF < 2 ^ State.reset.params.addrW := by decide

/-- `CE_ENCODE` pending in a session with an output buffer of 3 bytes: it writes 1000 and 1001, and the session owns 1002 too. -/
theorem witness_HostMemoryAccessesAndHazards_busy :
    ∀ s ∈ [pend 0x11#32 { enc with ce := { enc.ce with lat := { enc.ce.lat with outLimit := 3 } } }],
      s.ctl.pending = some 0x11#32 ∧ Touches (readTable s .ceEncode ++ writeTable s .ceEncode) 0x1001 ∧
      ¬ Touches (readTable s .ceEncode ++ writeTable s .ceEncode) 0x1002 ∧ s.ce.session = .active ∧
      s.ce.lat.outBase.toNat ≤ 0x1002 ∧ 0x1002 < s.ce.lat.outBase.toNat + s.ce.lat.outLimit.toNat := by decide

/-- A byte of the footprint, the ends of the output region, and the bytes just outside. -/
theorem witness_HostMemoryAccessesAndHazards :
    (0x800 < 2 ^ enc.params.addrW ∧ (pend 0x11#32 enc).ctl.pending = some 0x11#32 ∧ decode 0x11#32 = .ok .ceEncode ∧
      Touches (readTable (pend 0x11#32 enc) .ceEncode ++ writeTable (pend 0x11#32 enc) .ceEncode) 0x800) ∧
    (enc.ctl.pending = none ∧ enc.ce.session = .active ∧ enc.ce.lat.outBase.toNat ≤ 0x1001 ∧
      0x1001 < enc.ce.lat.outBase.toNat + enc.ce.lat.outLimit.toNat) ∧
    (∀ w i, enc.ctl.pending = some w → decode w = .ok i →
      ¬ Touches (readTable enc i ++ writeTable enc i) 0x1002) ∧
    ¬ (0x1002 < enc.ce.lat.outBase.toNat + enc.ce.lat.outLimit.toNat) ∧ enc.vd.session ≠ .active :=
  ⟨⟨by decide, rfl, rfl, by decide⟩, ⟨rfl, rfl, by decide, by decide⟩, nofun, by decide, by decide⟩

end Sys2Proof.Tests
end

section
/-! What a command can change, said once for all 32 (60_exceptions.md R320). -/

open Sys2Proof

namespace Sys2Proof.Machine

/-! ## What a command can do -/

/-- The state `SOFT_RESET` leaves (40_control.md R151). -/
def softResetState (s : State) : State :=
  { s with
    ce := softResetEncoder s.ce
    vd := softResetDecoder s.vd
    mx := { s.mx with res := 0 }
    bc := { s.bc with out := 0, ok := false, syn := 0, mask := 0 }
    crc := { s.crc with acc := 0, result := 0 }
    bu := { s.bu with res := 0 }
    mg := { s.mg with mask := 0, valid := false, done := false } }

/-- The generator `MG_INIT` leaves (42_mask_generator.md R172). -/
def initMask (g : MaskUnit) : MaskUnit :=
  { g with
    latL := g.l
    latK := g.k
    x := List.range g.k.toNat ++ g.x.drop g.k.toNat
    mask := 0
    valid := true
    done := decide (g.k = 0) }

/-- What a command whose checks pass may change: the memory and the state of its own unit, but no configuration or operand
register there; `SOFT_RESET`, `CRC_PRESET` and the two commands of the mask generator are given in full. -/
inductive CommandEffect (s : State) : Instr → State → Prop
  | nop : CommandEffect s .nop s
  | softReset : CommandEffect s .softReset (softResetState s)
  | encoder {i : Instr} (unit : i.opcode.toNat / 16 = 1) (m : Memory) (e : Encoder) (cfg : e.cfg = s.ce.cfg) :
      CommandEffect s i { s with mem := m, ce := e }
  | decoder {i : Instr} (unit : i.opcode.toNat / 16 = 2) (m : Memory) (d : Decoder) (cfg : d.cfg = s.vd.cfg) :
      CommandEffect s i { s with mem := m, vd := d }
  | matrix {i : Instr} (unit : i.opcode.toNat / 16 = 3) (m : Memory) (v : DWord) :
      CommandEffect s i { s with mem := m, mx := { s.mx with res := v } }
  | block {i : Instr} (unit : i.opcode.toNat / 16 = 4) (out : DWord) (ok : Bool) (syn mask : DWord) :
      CommandEffect s i { s with bc := { s.bc with out := out, ok := ok, syn := syn, mask := mask } }
  | crcPreset (k : BitVec 24) : CommandEffect s (.crcPreset k) { s with crc := loadPreset s.crc k.toNat }
  | crc {i : Instr} (unit : i.opcode.toNat / 16 = 5) (acc result : Word) :
      CommandEffect s i { s with crc := { s.crc with acc := acc, result := result } }
  | bitUtil {i : Instr} (unit : i.opcode.toNat / 16 = 6) (v : DWord) :
      CommandEffect s i { s with bu := { s.bu with res := v } }
  | mgInit (length : 1 ≤ s.mg.l.toNat ∧ s.mg.l.toNat ≤ 64)
      (weight : s.mg.k.toNat ≤ s.params.maskKMax ∧ s.mg.k.toNat ≤ s.mg.l.toNat) :
      CommandEffect s .mgInit { s with mg := initMask s.mg }
  | mgNext (valid : s.mg.valid = true) : CommandEffect s .mgNext { s with mg := nextMask s.mg }

/-- What a command may answer: an error recorded with its opcode and a code other than `NONE`, or its effect
(60_exceptions.md R320). -/
def CommandAnswer (s : State) (i : Instr) (t : State) : Prop :=
  (∃ c, c ≠ ErrCode.none ∧ t = recordError s c i.opcode) ∨ CommandEffect s i t

/-- A command of the shape of `runCommand` answers in one of the two ways, when no check has the code `NONE`. -/
theorem runCommand_answer {i : Instr} {l : List (Bool × ErrCode)} {e s t : State} (h : runCommand i l e s = .next t)
    (codes : ∀ c ∈ l, c.2 ≠ .none) (effect : firstFailure l = none → CommandEffect s i e) : CommandAnswer s i t := by
  rcases runCommand_cases i l e s with ⟨c, hc, hr⟩ | ⟨hn, hr⟩
  · rw [hr] at h
    cases h
    exact .inl ⟨c, codes _ (firstFailure_mem hc), rfl⟩
  · rw [hr] at h
    cases h
    exact .inr (effect hn)

/-- A command without a check answers its effect. -/
theorem unchecked_answer {i : Instr} {e s t : State} (h : (.next e : Result) = .next t) (effect : CommandEffect s i e) :
    CommandAnswer s i t := by
  cases h
  exact .inr effect

theorem dimChecks_code {p : Params} {dims : List (BitVec 16)} : ∀ c ∈ dimChecks p dims, c.2 ≠ .none := by
  simp [dimChecks]

theorem regionChecks_code {p : Params} {reads writes : List Region} :
    ∀ c ∈ regionChecks p reads writes, c.2 ≠ .none := by
  simp only [regionChecks, List.mem_append, List.mem_map, List.mem_flatMap]
  rintro c (⟨g, -, rfl⟩ | ⟨w, -, g, -, rfl⟩)
  · exact ErrCode.noConfusion
  · exact ErrCode.noConfusion

/-- The checks of a matrix command without a check of its own (45_matrix.md R250). -/
theorem matrixChecks_code {p : Params} {dims : List (BitVec 16)} {reads writes : List Region} :
    ∀ c ∈ dimChecks p dims ++ regionChecks p reads writes, c.2 ≠ .none :=
  List.forall_mem_append.2 ⟨dimChecks_code, regionChecks_code⟩

/-- The checks of a matrix command with one check of its own between its dimensions' and its regions'. -/
theorem matrixChecks_code_mid {p : Params} {dims : List (BitVec 16)} {mid : Bool × ErrCode} {reads writes : List Region}
    (h : mid.2 ≠ .none) : ∀ c ∈ dimChecks p dims ++ mid :: regionChecks p reads writes, c.2 ≠ .none :=
  List.forall_mem_append.2 ⟨dimChecks_code, List.forall_mem_cons.2 ⟨h, regionChecks_code⟩⟩

/-- The checks of `MG_INIT` passed (42_mask_generator.md R172). -/
theorem mgInit_effect {s : State}
    (h : firstFailure [ (decide (s.mg.l.toNat < 1 ∨ 64 < s.mg.l.toNat), ErrCode.badConfig),
      (decide (s.params.maskKMax < s.mg.k.toNat ∨ s.mg.l.toNat < s.mg.k.toNat), .badConfig) ] = none) :
    CommandEffect s .mgInit { s with mg := initMask s.mg } := by
  simp only [firstFailure_eq_none, List.mem_cons, List.not_mem_nil, or_false, forall_eq_or_imp, forall_eq,
    decide_eq_false_iff_not, not_or, Nat.not_lt] at h
  exact .mgInit h.1 h.2

theorem decodeBlock_effect {s : State} (m : Memory) (cw y : DWord) :
    CommandEffect s .bcDecode { s with bc := decodeBlock m s.bc cw y } := by
  unfold decodeBlock
  split
  · exact .block rfl _ _ _ _
  · split
    · exact .block rfl _ _ _ _
    · split <;> exact .block rfl _ _ _ _

theorem encMoves_effect {i : Instr} (unit : i.opcode.toNat / 16 = 1) {s t : State} (h : EncMoves s t) (b : Word)
    (x : Session) : CommandEffect s i { t with ce := { t.ce with inBytes := b, session := x } } := by
  obtain ⟨m, sr, o, p, rfl⟩ := h
  exact .encoder unit _ _ rfl

theorem decMoves_effect {i : Instr} (unit : i.opcode.toNat / 16 = 2) {s t : State} (h : DecMoves s t) :
    CommandEffect s i t := by
  obtain ⟨_, _, _, _, _, _, _, _, _, rfl⟩ := h
  exact .decoder unit _ _ rfl

/-- Everything a command can answer. -/
theorem exec_answer {i : Instr} {s t : State} (h : exec i s = .next t) : CommandAnswer s i t := by
  cases i with
  | nop => exact unchecked_answer h .nop
  | softReset => exact unchecked_answer h .softReset
  | ceReset => exact runCommand_answer h (by simp) (fun _ => .encoder rfl _ _ rfl)
  | ceEncode => exact runCommand_answer h (by simp) (fun _ => encMoves_effect rfl (encBytes_moves _ _ s) _ _)
  | ceFlush => exact runCommand_answer h (by simp) (fun _ => encMoves_effect rfl (encTail_moves _ s) _ _)
  | ceCalcsize k => exact runCommand_answer h (by simp) (fun _ => .encoder (by simp [Instr.opcode]) _ _ rfl)
  | vdReset => exact runCommand_answer h (by simp) (fun _ => .decoder rfl _ _ rfl)
  | vdDecode => exact runCommand_answer h (by simp) (fun _ => decMoves_effect rfl (decBytes_moves _ _ s))
  | vdFlush =>
    refine runCommand_answer h (by simp) (fun _ => ?_)
    obtain ⟨_, _, _, _, _, _, _, _, _, e⟩ := emitAll_moves (walkBack s.vd.window s.vd.lat.depth.toNat (decFlushEmits s)
      (slot s.vd.window s.vd.wpos.toNat).lo s.vd.wpos.toNat []) s
    rw [e]
    exact .decoder rfl _ _ rfl
  | vdCalcsize k => exact runCommand_answer h (by simp) (fun _ => .decoder (by simp [Instr.opcode]) _ _ rfl)
  | mxZero => exact runCommand_answer h matrixChecks_code (fun _ => .matrix rfl _ _)
  | mxCopy => exact runCommand_answer h matrixChecks_code (fun _ => .matrix rfl _ _)
  | mxSetbit => exact runCommand_answer h (matrixChecks_code_mid ErrCode.noConfusion) (fun _ => .matrix rfl _ _)
  | mxGetbit => exact runCommand_answer h (matrixChecks_code_mid ErrCode.noConfusion) (fun _ => .matrix rfl _ _)
  | mxEqual => exact runCommand_answer h matrixChecks_code (fun _ => .matrix rfl _ _)
  | mxIszero => exact runCommand_answer h matrixChecks_code (fun _ => .matrix rfl _ _)
  | mxMulvec => exact runCommand_answer h (matrixChecks_code_mid ErrCode.noConfusion) (fun _ => .matrix rfl _ _)
  | mxMulmat => exact runCommand_answer h matrixChecks_code (fun _ => .matrix rfl _ _)
  | mxTranspose => exact runCommand_answer h matrixChecks_code (fun _ => .matrix rfl _ _)
  | bcEncode => exact runCommand_answer h (by simp) (fun _ => .block rfl _ _ _ _)
  | bcDecode => exact runCommand_answer h (by simp) (fun _ => decodeBlock_effect _ _ _)
  | crcPreset k => exact runCommand_answer h (by simp) (fun _ => .crcPreset k)
  | crcInit => exact unchecked_answer h (.crc rfl _ _)
  | crcUpdate => exact runCommand_answer h (by simp) (fun _ => .crc rfl _ _)
  | crcFinal => exact unchecked_answer h (.crc rfl _ _)
  | buParity => exact unchecked_answer h (.bitUtil rfl _)
  | buPopcount => exact unchecked_answer h (.bitUtil rfl _)
  | buHamdist => exact unchecked_answer h (.bitUtil rfl _)
  | buRev8 => exact unchecked_answer h (.bitUtil rfl _)
  | buRev32 => exact unchecked_answer h (.bitUtil rfl _)
  | mgInit => exact runCommand_answer h (by simp) mgInit_effect
  | mgNext => exact runCommand_answer h (by simp) (fun hn => .mgNext (by simpa using hn))

end Sys2Proof.Machine
end

section
/-! What a command leaves unchanged, and the soundness of the control unit, the address registers and the mask generator
under every step (10_state.md R32, R38, R42, R91; 42_mask_generator.md R170 to R173). -/

open Sys2Proof

namespace Sys2Proof.Machine

/-! ## What a command leaves unchanged (10_state.md R32) -/

theorem recordError_ctl (s : State) (c : ErrCode) (o : Byte) :
    (recordError s c o).ctl = { s.ctl with
      err := (recordError s c o).ctl.err, errCode := (recordError s c o).ctl.errCode,
      errOp := (recordError s c o).ctl.errOp } := by
  unfold recordError
  split <;> rfl

theorem CommandEffect.params {i : Instr} {s t : State} (h : CommandEffect s i t) : t.params = s.params := by
  cases h <;> rfl

theorem CommandEffect.ctl {i : Instr} {s t : State} (h : CommandEffect s i t) : t.ctl = s.ctl := by
  cases h <;> rfl

theorem CommandEffect.host {i : Instr} {s t : State} (h : CommandEffect s i t) : t.host = s.host := by
  cases h <;> rfl

theorem nextMask_cfg (g : MaskUnit) : (nextMask g).l = g.l ∧ (nextMask g).k = g.k := by
  unfold nextMask
  split <;> exact ⟨rfl, rfl⟩

/-- Settles O9: each effect names the one unit it changes, and no configuration register of it. -/
theorem commandsChangeOnlyTheirUnit : Obligations.CommandsChangeOnlyTheirUnit := by
  intro i s t h
  rcases exec_answer h with ⟨c, -, rfl⟩ | he
  · exact ⟨recordError_params .., recordError_host .., recordError_ctl .., by simp⟩
  · refine ⟨he.params, he.host, by rw [he.ctl], ?_⟩
    cases he with
    | nop => simp
    | softReset => simp [softResetState, softResetEncoder, softResetDecoder, Instr.opcode]
    | encoder unit m e cfg => simp [unit, cfg]
    | decoder unit m d cfg => simp [unit, cfg]
    | matrix unit m v => simp [unit]
    | block unit out ok syn mask => simp [unit]
    | crcPreset k => simp [Instr.opcode]
    | crc unit acc result => simp [unit]
    | bitUtil unit v => simp [unit]
    | mgInit length weight => simp [Instr.opcode, initMask]
    | mgNext valid => simp [Instr.opcode, nextMask_cfg]

/-! ## The positions of the mask generator (42_mask_generator.md R170, R171) -/

theorem advanceAt_some {l k n i : Nat} {x : List Nat} (h : advanceAt l k x n = some i) :
    i < n ∧ x.getD i 0 ≠ l - (k - i) := by
  induction n with
  | zero => cases h
  | succ n ih =>
    rw [advanceAt] at h
    split at h
    · obtain ⟨hi, hx⟩ := ih h
      exact ⟨by omega, hx⟩
    · next hx =>
      cases h
      exact ⟨Nat.lt_succ_self _, hx⟩

theorem bumpAt_getD (k i j : Nat) (x : List Nat) :
    (bumpAt k i x).getD j 0 = if i ≤ j ∧ j < k then x.getD i 0 + 1 + (j - i) else x.getD j 0 := by
  unfold bumpAt
  by_cases hj : j < max k x.length
  · simp [List.getD_eq_getElem?_getD, hj]
  · have hx : x.length ≤ j := by omega
    have hk : ¬ j < k := by omega
    simp [List.getD_eq_getElem?_getD, hj, hk, hx]

/-- Strictly rising positions below `l`: the one at `i` leaves room for those after it. -/
theorem position_room {l k : Nat} {x : List Nat} (rising : ∀ i j, i < j → j < k → x.getD i 0 < x.getD j 0)
    (below : ∀ i < k, x.getD i 0 < l) {i : Nat} (hi : i < k) : x.getD i 0 + (k - i) ≤ l := by
  have step : ∀ d, i + d < k → x.getD i 0 + d ≤ x.getD (i + d) 0 := by
    intro d
    induction d with
    | zero => simp
    | succ d ih =>
      intro hd
      have := ih (by omega)
      have := rising (i + d) (i + (d + 1)) (by omega) hd
      omega
  have h1 := step (k - 1 - i) (by omega)
  have h2 := below (i + (k - 1 - i)) (by omega)
  omega

/-- The bumped positions still rise strictly and stay below `l`. -/
theorem bumpAt_rising_below {l k i : Nat} {x : List Nat} (rising : ∀ i j, i < j → j < k → x.getD i 0 < x.getD j 0)
    (below : ∀ i < k, x.getD i 0 < l) (hi : i < k) (hx : x.getD i 0 ≠ l - (k - i)) :
    (∀ a b, a < b → b < k → (bumpAt k i x).getD a 0 < (bumpAt k i x).getD b 0) ∧
      ∀ a < k, (bumpAt k i x).getD a 0 < l := by
  have room := position_room rising below hi
  refine ⟨fun a b hab hb => ?_, fun a ha => ?_⟩
  · have hr := rising a b hab hb
    rw [bumpAt_getD, bumpAt_getD]
    by_cases hai : i ≤ a
    · rw [if_pos ⟨hai, by omega⟩, if_pos ⟨by omega, hb⟩]
      omega
    · rw [if_neg fun h => hai h.1]
      by_cases hbi : i ≤ b
      · have := rising a i (by omega) hi
        rw [if_pos ⟨hbi, hb⟩]
        omega
      · rwa [if_neg fun h => hbi h.1]
  · have hb := below a ha
    rw [bumpAt_getD]
    split <;> omega

/-- `MG_INIT` starts a sound enumeration. -/
theorem initMask_sound {s : State} (length : 1 ≤ s.mg.l.toNat ∧ s.mg.l.toNat ≤ 64)
    (weight : s.mg.k.toNat ≤ s.params.maskKMax ∧ s.mg.k.toNat ≤ s.mg.l.toNat) :
    MaskGenSound { s with mg := initMask s.mg } := by
  have hx : ∀ j < s.mg.k.toNat, (initMask s.mg).x.getD j 0 = j := by
    intro j hj
    simp [initMask, List.getD_eq_getElem?_getD, List.getElem?_append, hj]
  refine ⟨fun _ => length, fun _ => weight, fun _ i j hij hj => ?_, fun _ i hi => ?_, fun _ h0 => ?_⟩
  · change j < s.mg.k.toNat at hj
    change (initMask s.mg).x.getD i 0 < (initMask s.mg).x.getD j 0
    rw [hx i (by omega), hx j hj]
    exact hij
  · change i < s.mg.k.toNat at hi
    change (initMask s.mg).x.getD i 0 < s.mg.l.toNat
    rw [hx i hi]
    omega
  · exact decide_eq_true (BitVec.eq_of_toNat_eq h0)

/-- `MG_NEXT` keeps the enumeration sound. -/
theorem nextMask_sound {s : State} (h : MaskGenSound s) (valid : s.mg.valid = true) :
    MaskGenSound { s with mg := nextMask s.mg } := by
  by_cases hd : s.mg.done = true
  · have e : nextMask s.mg = { s.mg with mask := 0 } := by rw [nextMask, if_pos hd]
    rw [e]
    exact { h with }
  · cases hadv : advanceAt s.mg.latL.toNat s.mg.latK.toNat s.mg.x s.mg.latK.toNat with
    | none =>
      have e : nextMask s.mg = { s.mg with mask := maskOf s.mg.latL.toNat s.mg.x s.mg.latK.toNat, done := true } := by
        rw [nextMask, if_neg hd, advance, hadv]
      rw [e]
      exact { h with emptyDone := fun _ _ => rfl }
    | some i =>
      have e : nextMask s.mg = { s.mg with
          mask := maskOf s.mg.latL.toNat s.mg.x s.mg.latK.toNat, x := bumpAt s.mg.latK.toNat i s.mg.x, done := false } := by
        rw [nextMask, if_neg hd, advance, hadv]
      obtain ⟨hi, hx⟩ := advanceAt_some hadv
      obtain ⟨rising, below⟩ := bumpAt_rising_below (h.rising valid) (h.below valid) hi hx
      rw [e]
      exact { h with
        rising := fun _ => rising
        below := fun _ => below
        emptyDone := fun v h0 => absurd (h.emptyDone v h0) hd }

/-! ## What keeps the registers sound -/

/-- The parameters are `p`, and the control unit, the address registers and the mask generator are sound. -/
structure RegistersSound (p : Params) (s : State) : Prop where
  params    : s.params = p
  control   : ControlSound s
  addresses : AddressesSound s
  maskGen   : MaskGenSound s

theorem addrField_lt (p : Params) (v : Word) : (addrField p v).toNat < 2 ^ p.addrW :=
  Nat.lt_of_le_of_lt (Nat.mod_le _ _) (Nat.mod_lt _ (Nat.two_pow_pos _))

namespace RegistersSound

variable {p : Params} {s t : State}

/-- Neither the memory nor the model's own fields matter. -/
theorem frame (h : RegistersSound p s) (m : Memory) (port : HostPort) :
    RegistersSound p { s with mem := m, host := port } :=
  ⟨h.params, { h.control with }, { h.addresses with }, { h.maskGen with }⟩

theorem setOverrun (h : RegistersSound p s) : RegistersSound p (setOverrun s) :=
  ⟨h.params, { h.control with }, { h.addresses with }, { h.maskGen with }⟩

theorem completeCommand (h : RegistersSound p s) : RegistersSound p (completeCommand s) :=
  ⟨h.params, { h.control with accepted := nofun }, { h.addresses with }, { h.maskGen with }⟩

/-- A recorded error has a code other than `NONE` (60_exceptions.md R323). -/
theorem recordError (h : RegistersSound p s) {c : ErrCode} (hc : c ≠ .none) (o : Byte) :
    RegistersSound p (recordError s c o) := by
  cases he : s.ctl.err with
  | true => rwa [recordError_of_err he]
  | false =>
    rw [recordError_of_noErr he]
    exact ⟨h.params, { h.control with noError := nofun, error := fun _ => hc }, { h.addresses with }, { h.maskGen with }⟩

theorem effect {i : Instr} (h : RegistersSound p s) (he : CommandEffect s i t) : RegistersSound p t := by
  have hctl : ControlSound t := by
    obtain ⟨h1, h2, h3⟩ := h.control
    rw [← he.ctl] at h1 h2 h3
    exact ⟨h1, h2, h3⟩
  have haddr : AddressesSound t := by
    cases he with
    | encoder unit m e cfg => exact { h.addresses with ce := by rw [cfg]; exact h.addresses.ce }
    | decoder unit m d cfg => exact { h.addresses with vd := by rw [cfg]; exact h.addresses.vd }
    | _ => exact { h.addresses with }
  have hmask : MaskGenSound t := by
    cases he with
    | softReset => exact ⟨nofun, nofun, nofun, nofun, nofun⟩
    | mgInit length weight => exact initMask_sound length weight
    | mgNext valid => exact nextMask_sound h.maskGen valid
    | _ => exact { h.maskGen with }
  exact ⟨he.params.trans h.params, hctl, haddr, hmask⟩

theorem execute {w : Word} (h : RegistersSound p s) (he : execute w s = .next t) : RegistersSound p t := by
  cases hw : decode w with
  | error e =>
    rw [execute_error hw] at he
    cases he
    exact h.recordError ErrCode.noConfusion _
  | ok i =>
    rw [execute_ok hw] at he
    rcases exec_answer he with ⟨c, hc, rfl⟩ | hf
    · exact h.recordError hc _
    · exact h.effect hf

theorem coreStep (h : RegistersSound p s) (he : coreStep s = .next t) : RegistersSound p t := by
  cases hp : s.ctl.pending with
  | none =>
    rw [coreStep_idle hp] at he
    cases he
    exact h
  | some w =>
    rw [coreStep_pending hp] at he
    cases hu : Machine.execute w s with
    | next u =>
      rw [hu] at he
      cases he
      exact (h.execute hu).completeCommand
    | fault f => rw [hu] at he; cases he
    | refused x => rw [hu] at he; cases he

theorem powerReset (h : RegistersSound p s) : RegistersSound p (powerReset s) where
  params := h.params
  control := ⟨fun _ => ⟨rfl, rfl⟩, nofun, nofun⟩
  addresses := by
    have zero : (0#32).toNat < 2 ^ s.params.addrW := Nat.two_pow_pos _
    exact ⟨zero, zero, zero, zero, zero, zero, zero, zero, zero⟩
  maskGen := ⟨nofun, nofun, nofun, nofun, nofun⟩

/-- A write of `STATUS` clears the error together with its record, or neither (10_state.md R39). -/
theorem writeStatus_sound (h : ControlSound s) (v : Word) : ControlSound { s with ctl := writeStatus s.ctl v } := by
  have haccepted : ∀ w, (writeStatus s.ctl v).pending = some w →
      (writeStatus s.ctl v).cmdLast = w ∧ (writeStatus s.ctl v).done = false := fun w hw =>
    ⟨(h.accepted w hw).1, by rw [writeStatus, (h.accepted w hw).2, Bool.false_and]⟩
  cases hv : v.getLsbD 2 with
  | true =>
    have he : (writeStatus s.ctl v).err = false := by rw [writeStatus, hv, Bool.not_true, Bool.and_false]
    refine ⟨fun _ => ⟨?_, ?_⟩, fun herr => absurd (herr.symm.trans he) nofun, haccepted⟩
    · exact if_pos hv
    · exact if_pos hv
  | false =>
    have he : (writeStatus s.ctl v).err = s.ctl.err := by rw [writeStatus, hv, Bool.not_false, Bool.and_true]
    have hc : (writeStatus s.ctl v).errCode = s.ctl.errCode := if_neg (by rw [hv]; nofun)
    have ho : (writeStatus s.ctl v).errOp = s.ctl.errOp := if_neg (by rw [hv]; nofun)
    refine ⟨fun herr => ?_, fun herr => ?_, haccepted⟩
    · exact hc ▸ ho ▸ h.noError (he ▸ herr)
    · exact hc ▸ h.error (he ▸ herr)

theorem writeReg (h : RegistersSound p s) (r : Reg) (v : Word) : RegistersSound p (writeReg s r v) where
  params := by cases r <;> exact h.params
  control := by
    cases r with
    | cmd => exact { h.control with accepted := fun w hw => ⟨Option.some.inj hw, rfl⟩ }
    | status => exact writeStatus_sound h.control v
    | _ => exact { h.control with }
  addresses := by
    have hv := addrField_lt s.params v
    cases r with
    | srcAddr => exact { h.addresses with src := hv }
    | ceOutBase => exact { h.addresses with ce := hv }
    | vdOutBase => exact { h.addresses with vd := hv }
    | mxA => exact { h.addresses with mxA := hv }
    | mxB => exact { h.addresses with mxB := hv }
    | mxDst => exact { h.addresses with mxD := hv }
    | bcG => exact { h.addresses with bcG := hv }
    | bcH => exact { h.addresses with bcH := hv }
    | bcD => exact { h.addresses with bcD := hv }
    | _ => exact { h.addresses with }
  maskGen := by cases r <;> exact { h.maskGen with }

theorem hostWriteReg (h : RegistersSound p s) (r : Option Reg) (v : Word) : RegistersSound p (hostWriteReg s r v) := by
  cases r with
  | none => exact h
  | some r =>
    rw [Machine.hostWriteReg]
    split
    · exact h.setOverrun
    · exact h.writeReg r v

theorem hostReadReg (h : RegistersSound p s) (r : Option Reg) : RegistersSound p (hostReadReg s r) := by
  cases r with
  | none => exact h.frame _ _
  | some r =>
    rw [Machine.hostReadReg]
    split
    · exact h.frame _ _
    · exact h.frame _ _

theorem hostAccess {a : HostAccess} (h : RegistersSound p s) (he : hostAccess a s = .next t) : RegistersSound p t := by
  cases a with
  | regRead x bytes =>
    rw [Machine.hostAccess] at he
    split at he
    · cases he
    · cases he
      exact h.hostReadReg _
  | regWrite x bytes v =>
    rw [Machine.hostAccess] at he
    split at he
    · cases he
    · cases he
      exact h.hostWriteReg _ v
  | memRead x =>
    rw [Machine.hostAccess] at he
    split_ifs at he
    cases he
    exact h.frame _ _
  | memWrite x v =>
    rw [Machine.hostAccess] at he
    split_ifs at he
    cases he
    exact h.frame _ _
  | powerReset =>
    cases he
    exact h.powerReset

theorem step (h : RegistersSound p s) (he : step s = .next t) : RegistersSound p t := by
  match hl : s.host.turns with
  | [] => exact h.coreStep (step_core hl ▸ he)
  | .core :: l => exact (h.frame s.mem { s.host with turns := l }).coreStep (step_core_turn hl ▸ he)
  | .host a :: l => exact (h.frame s.mem { s.host with turns := l }).hostAccess (step_host_turn hl ▸ he)

end RegistersSound

/-- Settles O52: the core's commands, their completion and every access of the host keep `RegistersSound`. -/
theorem stepKeepsRegistersSound : Obligations.StepKeepsRegistersSound := by
  intro s t hs h
  obtain ⟨params, control, addresses, maskGen⟩ :=
    RegistersSound.step ⟨rfl, hs.control, hs.addresses, hs.maskGen⟩ h
  exact ⟨params, control, addresses, maskGen⟩

end Sys2Proof.Machine
end

section
/-! The register window: which register an offset selects, what an access there does, and the number each register reads as
(10_state.md R31 to R90). -/

open Sys2Proof Sys2Proof.Claims

namespace Sys2Proof.Machine

/-! ## The register map (10_state.md R33) -/

theorem regAt_of_mem : ∀ e ∈ registerMap, regAt e.1 = some e.2 := by
  simp only [registerMap, List.forall_mem_append]
  decide

theorem regAt_eq_some_iff {off : Nat} {r : Reg} : regAt off = some r ↔ (off, r) ∈ registerMap := by
  refine ⟨fun h => ?_, regAt_of_mem (off, r)⟩
  obtain ⟨⟨o, r'⟩, hfind, rfl⟩ := Option.map_eq_some_iff.1 h
  obtain rfl : o = off := by simpa using List.find?_some hfind
  exact List.mem_of_find?_eq_some hfind

theorem regAt_aligned {off : Nat} {r : Reg} (h : regAt off = some r) : off < 4096 ∧ off % 4 = 0 :=
  registerMap_aligned _ (regAt_eq_some_iff.1 h)

theorem regRead_reg {s : State} {off : Nat} {r : Reg} (h : regAt off = some r) :
    hostAccess (.regRead (regAddr s off) 4) s = .next (hostReadReg s (some r)) := by
  obtain ⟨hlt, h4⟩ := regAt_aligned h
  rw [regAddr, hostAccess_regRead s hlt h4, h]

theorem regWrite_reg {s : State} {off : Nat} {r : Reg} (h : regAt off = some r) (v : Word) :
    hostAccess (.regWrite (regAddr s off) 4 v) s = .next (hostWriteReg s (some r) v) := by
  obtain ⟨hlt, h4⟩ := regAt_aligned h
  rw [regAddr, hostAccess_regWrite s v hlt h4, h]

/-- An offset where no register is reads 0 and ignores writes (10_state.md R32, log 17). -/
theorem access_noReg {s : State} {off : Nat} (hlt : off < 4096) (h4 : off % 4 = 0) (h : regAt off = none) (v : Word) :
    hostAccess (.regWrite (regAddr s off) 4 v) s = .next s ∧
      hostAccess (.regRead (regAddr s off) 4) s = .next { s with host := { s.host with regData := 0 } } := by
  rw [regAddr, hostAccess_regWrite s v hlt h4, hostAccess_regRead s hlt h4, h]
  exact ⟨rfl, rfl⟩

/-- The accesses the model refuses (10_state.md R31, log 7, log 11). -/
theorem access_refused {s : State} {x bytes : Nat}
    (h : x < s.params.regBase ∨ s.params.regBase + 4096 ≤ x ∨ bytes ≠ 4 ∨ (x - s.params.regBase) % 4 ≠ 0) (v : Word) :
    hostAccess (.regRead x bytes) s = .refused .registerAccess ∧
      hostAccess (.regWrite x bytes v) s = .refused .registerAccess := by
  simp only [hostAccess, registerOffset_eq_none.2 h, and_self]

/-! ## The number a register reads as (10_state.md R34 to R90) -/

theorem append_toNat {m n : Nat} (x : BitVec m) (y : BitVec n) : (x ++ y).toNat = 2 ^ n * x.toNat + y.toNat := by
  rw [BitVec.toNat_append, Nat.shiftLeft_eq, Nat.mul_comm, ← Nat.two_pow_add_eq_or_of_lt y.isLt]

theorem loWord_toNat (v : DWord) : (loWord v).toNat = v.toNat % 2 ^ 32 := by
  simp [loWord]

theorem hiWord_toNat (v : DWord) : (hiWord v).toNat = v.toNat / 2 ^ 32 := by
  have := v.isLt
  simp only [hiWord, BitVec.extractLsb'_toNat, Nat.shiftRight_eq_div_pow]
  omega

theorem errCode_code_toNat (c : ErrCode) : c.code.toNat = errNumber c := by cases c <;> rfl

theorem session_code_toNat (x : Session) : (x.code.setWidth 32).toNat = sessionNumber x := by cases x <;> rfl

theorem cap0Word_toNat {p : Params} (hp : p.Legal) :
    (cap0Word p).toNat = p.ceKMax + 2 ^ 8 * p.nMax + 2 ^ 16 * p.vdKMax + 2 ^ 24 * p.maskKMax := by
  simp only [cap0Word, append_toNat, BitVec.toNat_ofNat]
  omega

theorem cap1Word_toNat {p : Params} (hp : p.Legal) :
    (cap1Word p).toNat = p.vdDMax + 2 ^ 16 * p.addrW + 2 ^ 24 * p.metricW := by
  simp only [cap1Word, append_toNat, BitVec.toNat_ofNat]
  omega

theorem cap2Word_toNat {p : Params} (hp : p.Legal) : (cap2Word p).toNat = p.mxDimMax := by
  simp only [cap2Word, BitVec.toNat_ofNat]
  omega

theorem statusWord_toNat (s : State) : (statusWord s).toNat = s.ctl.pending.isSome.toNat + 2 * s.ctl.done.toNat +
    4 * s.ctl.err.toNat + 8 * s.ctl.overrun.toNat + 2 ^ 8 * errNumber s.ctl.errCode + 2 ^ 16 * s.ctl.errOp.toNat := by
  simp only [statusWord, busy, append_toNat, BitVec.toNat_ofNat, BitVec.toNat_ofBool, errCode_code_toNat]
  omega

theorem irqEnWord_toNat (c : Control) : (irqEnWord c).toNat = c.doneIe.toNat + 2 * c.errIe.toNat := by
  simp only [irqEnWord, append_toNat, BitVec.toNat_ofNat, BitVec.toNat_ofBool]
  omega

theorem crcCfgWord_toNat (c : CrcUnit) :
    (crcCfgWord c).toNat = c.w32.toNat + 2 * c.refin.toNat + 4 * c.refout.toNat := by
  simp only [crcCfgWord, append_toNat, BitVec.toNat_ofNat, BitVec.toNat_ofBool]
  omega

theorem mgStateWord_toNat (g : MaskUnit) : (mgStateWord g).toNat = g.valid.toNat + 2 * g.done.toNat := by
  simp only [mgStateWord, append_toNat, BitVec.toNat_ofNat, BitVec.toNat_ofBool]
  omega

theorem polyWord_toNat (s : State) (l : List Word) (j : Nat) : (polyWord s.params l j).toNat = polyRead s l j := by
  unfold polyWord polyRead
  split <;> rfl

end Sys2Proof.Machine
end

section
/-! The statements' read table is the register map with the numbers read there (10_state.md R33 to R90). -/

open Sys2Proof Sys2Proof.Claims

namespace Sys2Proof.Machine

/-- The polynomial registers (10_state.md R50, R62). -/
def isPoly : Reg → Bool
  | .cePoly _ | .vdPoly _ => true
  | _ => false

/-- The rows of a register table, those of the polynomials moved to its end. -/
def polysLast (l : List (Nat × Reg)) : List (Nat × Reg) := l.filter (fun e => !isPoly e.2) ++ l.filter (fun e => isPoly e.2)

theorem mem_polysLast {l : List (Nat × Reg)} {e : Nat × Reg} : e ∈ polysLast l ↔ e ∈ l := by
  cases h : isPoly e.2 <;> simp [polysLast, h]

/-- A row of the register map with the number an idle core reads there. -/
def readEntry (s : State) (e : Nat × Reg) : Nat × Nat := (e.1, (readReg s e.2).toNat)

theorem crcAcc_toNat (s : State) : (readReg s .crcAcc).toNat = s.crc.acc.toNat % 2 ^ width s.crc := crcMask_toNat _ _

theorem crcResult_toNat (s : State) : (readReg s .crcResult).toNat = s.crc.result.toNat % 2 ^ width s.crc :=
  crcMask_toNat _ _

theorem bit_toNat (b : Bool) : ((BitVec.ofBool b).setWidth 32).toNat = b.toNat := by cases b <;> rfl

section
variable {s : State}

theorem controlReads_eq (hp : s.params.Legal) : controlReads s = (polysLast controlRegisters).map (readEntry s) := by
  simp only [controlReads, ← cap0Word_toNat hp, ← cap1Word_toNat hp, ← cap2Word_toNat hp, ← statusWord_toNat,
    ← irqEnWord_toNat]
  rfl

theorem encoderReads_eq : encoderReads s = (polysLast encoderRegisters).map (readEntry s) := by
  simp only [encoderReads, ← session_code_toNat, ← polyWord_toNat]
  rfl

theorem decoderReads_eq : decoderReads s = (polysLast decoderRegisters).map (readEntry s) := by
  simp only [decoderReads, ← session_code_toNat, ← polyWord_toNat]
  rfl

theorem matrixReads_eq : matrixReads s = (polysLast matrixRegisters).map (readEntry s) := by
  simp only [matrixReads, ← bit_toNat, ← loWord_toNat, ← hiWord_toNat]
  rfl

theorem blockReads_eq : blockReads s = (polysLast blockRegisters).map (readEntry s) := by
  simp only [blockReads, ← bit_toNat, ← loWord_toNat, ← hiWord_toNat]
  rfl

theorem utilityReads_eq : utilityReads s = (polysLast utilityRegisters).map (readEntry s) := by
  simp only [utilityReads, ← crcCfgWord_toNat, ← mgStateWord_toNat, ← crcAcc_toNat, ← crcResult_toNat, ← loWord_toNat,
    ← hiWord_toNat]
  rfl

/-- The read table is the register map with the number each register reads as. -/
theorem mem_registerReads (hp : s.params.Legal) {e : Nat × Nat} :
    e ∈ registerReads s ↔ e ∈ registerMap.map (readEntry s) := by
  simp only [registerReads, controlReads_eq hp, encoderReads_eq, decoderReads_eq, matrixReads_eq, blockReads_eq,
    utilityReads_eq, registerMap, List.map_append, List.mem_append, List.mem_map, mem_polysLast]

/-- The offsets of the read table are those of the registers. -/
theorem mem_registerReads_offset {off : Nat} : off ∈ (registerReads s).map Prod.fst ↔ ∃ r, regAt off = some r := by
  have e : (registerReads s).map Prod.fst = (polysLast controlRegisters ++ polysLast encoderRegisters ++
      polysLast decoderRegisters ++ polysLast matrixRegisters ++ polysLast blockRegisters ++
      polysLast utilityRegisters).map Prod.fst := rfl
  simp only [e, regAt_eq_some_iff, registerMap, List.mem_map, List.mem_append, mem_polysLast, Prod.exists, exists_and_right,
    exists_eq_right]

theorem regAt_eq_none {off : Nat} (h : off ∉ (registerReads s).map Prod.fst) : regAt off = none :=
  Option.eq_none_iff_forall_ne_some.2 fun r hr => h (mem_registerReads_offset.2 ⟨r, hr⟩)

/-- Every row of the read table is a register that reads as its number. -/
theorem registerReads_reg (hp : s.params.Legal) {off n : Nat} (h : (off, n) ∈ registerReads s) :
    ∃ r, regAt off = some r ∧ (readReg s r).toNat = n := by
  obtain ⟨⟨o, r⟩, hmem, he⟩ := List.mem_map.1 ((mem_registerReads hp).1 h)
  cases he
  exact ⟨r, regAt_eq_some_iff.2 hmem, rfl⟩

end
end Sys2Proof.Machine
end

section
/-! What a host write of an idle core changes, and what it reads back (10_state.md R32 to R90). -/

open Sys2Proof Sys2Proof.Claims

namespace Sys2Proof.Machine

/-- The registers an idle core keeps whatever the host writes to them: those of access type RO (10_state.md R32). -/
def ignoresWrites : Reg → Bool
  | .id | .cap0 | .cap1 | .cap2 | .cmdLast => true
  | .ceSession | .ceSr | .ceOutByte | .ceOutBit | .cePcur | .ceInBytes | .ceSize => true
  | .vdSession | .vdWpos | .vdStepcnt | .vdOutByte | .vdOutBit | .vdRxCnt | .vdRxBits => true
  | .vdBestState | .vdBestMetric | .vdSize => true
  | .mxResLo | .mxResHi => true
  | .bcOutLo | .bcOutHi | .bcOk | .bcSynLo | .bcSynHi | .bcMaskLo | .bcMaskHi => true
  | .crcAcc | .crcResult => true
  | .buResLo | .buResHi => true
  | .mgMaskLo | .mgMaskHi | .mgState => true
  | _ => false

theorem writeReg_of_ignoresWrites {r : Reg} (h : ignoresWrites r = true) (s : State) (v : Word) : writeReg s r v = s := by
  cases r with
  | id | cap0 | cap1 | cap2 | cmdLast | ceSession | ceSr | ceOutByte | ceOutBit | cePcur | ceInBytes | ceSize
    | vdSession | vdWpos | vdStepcnt | vdOutByte | vdOutBit | vdRxCnt | vdRxBits | vdBestState | vdBestMetric | vdSize
    | mxResLo | mxResHi | bcOutLo | bcOutHi | bcOk | bcSynLo | bcSynHi | bcMaskLo | bcMaskHi | crcAcc | crcResult
    | buResLo | buResHi | mgMaskLo | mgMaskHi | mgState => rfl
  | _ => cases h

theorem pairLo_eq_setLo (d : DWord) (v : Word) : pairLo d v = setLo d v := by
  apply BitVec.eq_of_toNat_eq
  have := d.isLt
  have := v.isLt
  rw [setLo, append_toNat, hiWord_toNat, pairLo, BitVec.toNat_ofNat]
  omega

theorem pairHi_eq_setHi (d : DWord) (v : Word) : pairHi d v = setHi d v := by
  apply BitVec.eq_of_toNat_eq
  have := v.isLt
  rw [setHi, append_toNat, loWord_toNat, pairHi, BitVec.toNat_ofNat]
  omega

/-- The write table of the statements is the register map without the polynomials and the registers that ignore writes. -/
theorem registerWrites_eq (s : State) (v : Word) : registerWrites s v =
    (registerMap.filter (fun e => !ignoresWrites e.2 && !isPoly e.2)).map (fun e => (e.1, writeReg s e.2 v)) := by
  simp only [registerWrites, sessionWrites, matrixWrites, utilityWrites, pairLo_eq_setLo, pairHi_eq_setHi]
  rfl

theorem registerWrites_reg {s t : State} {v : Word} {off : Nat} (h : (off, t) ∈ registerWrites s v) :
    ∃ r, regAt off = some r ∧ t = writeReg s r v := by
  rw [registerWrites_eq] at h
  obtain ⟨⟨o, r⟩, hmem, he⟩ := List.mem_map.1 h
  cases he
  exact ⟨r, regAt_eq_some_iff.2 (List.mem_filter.1 hmem).1, rfl⟩

theorem polyOffset_of_isPoly : ∀ e ∈ registerMap, isPoly e.2 = true → polyOffset e.1 := by
  unfold polyOffset
  simp only [registerMap, List.forall_mem_append]
  decide

/-- A register whose offset is neither in the write table nor a polynomial's ignores writes. -/
theorem ignoresWrites_of_notMem {s : State} {v : Word} {off : Nat} {r : Reg} (hr : regAt off = some r)
    (hpoly : ¬ polyOffset off) (h : off ∉ (registerWrites s v).map Prod.fst) : ignoresWrites r = true := by
  have hmem := regAt_eq_some_iff.1 hr
  have hp : isPoly r = false := Bool.eq_false_iff.2 fun hp => hpoly (polyOffset_of_isPoly _ hmem hp)
  cases hi : ignoresWrites r with
  | true => rfl
  | false =>
    rw [registerWrites_eq, List.map_map] at h
    exact absurd (List.mem_map.2 ⟨(off, r), List.mem_filter.2 ⟨hmem, by simp [hi, hp]⟩, rfl⟩) h

theorem setPoly_written (s : State) (l : List Word) (j : Nat) (v : Word) :
    PolyWritten s l (setPoly s.params l j v) j v := by
  intro i
  by_cases hj : j < s.params.nMax
  · rw [setPoly, if_pos hj, setAt_getD]
    simp only [hj, and_true]
  · rw [setPoly, if_neg hj, if_neg fun h => hj h.2]

theorem regAt_cePoly : ∀ j : Fin 8, regAt (0x120 + 4 * j.val) = some (.cePoly j) := by decide
theorem regAt_vdPoly : ∀ j : Fin 8, regAt (0x220 + 4 * j.val) = some (.vdPoly j) := by decide

/-! ## Reading back what was written -/

@[simp] theorem writeReg_params (s : State) (r : Reg) (v : Word) : (writeReg s r v).params = s.params := by cases r <;> rfl
@[simp] theorem writeReg_mem (s : State) (r : Reg) (v : Word) : (writeReg s r v).mem = s.mem := by cases r <;> rfl

/-- Only a write of `CMD` makes the core busy. -/
theorem writeReg_busy {s : State} {r : Reg} (h : r ≠ .cmd) (v : Word) : busy (writeReg s r v) = busy s := by
  cases r with
  | cmd => exact absurd rfl h
  | _ => rfl

theorem addrField_toNat (p : Params) (v : Word) : (addrField p v).toNat = v.toNat % 2 ^ p.addrW :=
  Nat.mod_eq_of_lt (Nat.lt_of_le_of_lt (Nat.mod_le _ _) v.isLt)

/-- A field of `m` bits shows the low `m` bits of the written word. -/
theorem field_toNat {m : Nat} (h : m ≤ 32) (v : Word) : ((v.setWidth m).setWidth 32).toNat = v.toNat % 2 ^ m := by
  rw [BitVec.toNat_setWidth_of_le h, BitVec.toNat_setWidth]

theorem bits_toNat (v : Word) : (v.getLsbD 0).toNat = v.toNat % 2 ^ 1 ∧
    (v.getLsbD 0).toNat + 2 * (v.getLsbD 1).toNat = v.toNat % 2 ^ 2 ∧
    (v.getLsbD 0).toNat + 2 * (v.getLsbD 1).toNat + 4 * (v.getLsbD 2).toNat = v.toNat % 2 ^ 3 := by
  simp only [BitVec.getLsbD, Nat.toNat_testBit]
  omega

theorem polyWord_setPoly (p : Params) (l : List Word) (j : Nat) (v : Word) :
    (polyWord p (setPoly p l j v) j).toNat = v.toNat % 2 ^ (if j < p.nMax then 32 else 0) := by
  by_cases hj : j < p.nMax
  · rw [polyWord, if_pos hj, setPoly, if_pos hj, setAt_getD_same, if_pos hj, Nat.mod_eq_of_lt v.isLt]
  · simp [polyWord, hj, Nat.mod_one]

/-- An RW register reads back the written word, the bits no field occupies 0 (10_state.md R32). -/
theorem readReg_writeReg {s : State} {r : Reg} {n : Nat} (h : rwBits s.params r = some n) (v : Word) :
    (readReg (writeReg s r v) r).toNat = v.toNat % 2 ^ n := by
  have word : v.toNat = v.toNat % 2 ^ 32 := (Nat.mod_eq_of_lt v.isLt).symm
  obtain ⟨bit, bits2, bits3⟩ := bits_toNat v
  cases r with
  | irqEn => cases h; exact (irqEnWord_toNat _).trans bits2
  | srcAddr | ceOutBase | vdOutBase | mxA | mxB | mxDst | bcG | bcH | bcD => cases h; exact addrField_toNat _ v
  | srcLen | cePmask | ceOutLimit | vdOutLimit | crcPoly | crcInit | crcXorout => cases h; exact word
  | cePoly j | vdPoly j => cases h; exact polyWord_setPoly _ _ _ v
  | ceK | ceN | cePlen | vdK | vdN | vdDepth | mxR | mxC | mxX | mxRow | mxCol | bcCwW | bcSrcW | bcSynW | bcMaxerr
    | mgL | mgK => cases h; exact field_toNat (by decide) v
  | mxBitval => cases h; exact (bit_toNat _).trans bit
  | mxVecLo | bcInLo | buALo | buBLo => cases h; exact (congrArg BitVec.toNat (loWord_setLo _ v)).trans word
  | mxVecHi | bcInHi | buAHi | buBHi => cases h; exact (congrArg BitVec.toNat (hiWord_setHi _ v)).trans word
  | crcCfg => cases h; exact (crcCfgWord_toNat _).trans bits3
  | _ => cases h

theorem ne_cmd_of_rwBits {p : Params} {r : Reg} {n : Nat} (h : rwBits p r = some n) : r ≠ .cmd := by
  rintro rfl
  cases h

/-- Settles O56: the two tables of the statement are the register map, and each access goes to the register of its offset. -/
theorem hostWritesReadBack : Obligations.HostWritesReadBack := by
  intro s v hp hidle
  have write : ∀ {off r}, regAt off = some r → hostAccess (.regWrite (regAddr s off) 4 v) s = .next (writeReg s r v) :=
    fun hr => by rw [regWrite_reg hr, hostWriteReg_idle hidle]
  refine ⟨fun off n h => ?_, fun off t h => ?_, fun j hj => ?_, fun j hj => ?_, fun off hlt h4 hpoly hoff => ?_,
    fun off hlt h4 hoff => ?_, fun off r n hr hn => ?_, fun x bytes h => access_refused h v⟩
  · obtain ⟨r, hr, hn⟩ := registerReads_reg hp h
    exact ⟨readReg s r, hn, by rw [regRead_reg hr, hostReadReg_idle hidle]; rfl⟩
  · obtain ⟨r, hr, rfl⟩ := registerWrites_reg h
    exact write hr
  · exact ⟨_, setPoly_written s _ j v, write (regAt_cePoly ⟨j, hj⟩)⟩
  · exact ⟨_, setPoly_written s _ j v, write (regAt_vdPoly ⟨j, hj⟩)⟩
  · cases hr : regAt off with
    | none => exact (access_noReg hlt h4 hr v).1
    | some r => rw [write hr, writeReg_of_ignoresWrites (ignoresWrites_of_notMem hr hpoly hoff)]
  · exact (access_noReg hlt h4 (regAt_eq_none hoff) v).2
  · have hbusy : busy (writeReg s r v) = false := by rw [writeReg_busy (ne_cmd_of_rwBits hn), hidle]
    refine ⟨writeReg s r v, returnReg (writeReg s r v) (readReg (writeReg s r v) r), write hr, writeReg_mem s r v, ?_,
      readReg_writeReg hn v⟩
    have haddr : regAddr s off = regAddr (writeReg s r v) off := by rw [regAddr, regAddr, writeReg_params]
    rw [haddr, regRead_reg hr, hostReadReg_idle hbusy]

end Sys2Proof.Machine
end

section
/-! A busy core: what it drops, hides and still takes (10_state.md R92, R93; 60_exceptions.md R325). -/

open Sys2Proof Sys2Proof.Claims

namespace Sys2Proof.Machine

theorem hostWriteReg_taken {s : State} {r : Reg} (h : writableBusy r = true) (v : Word) :
    hostWriteReg s (some r) v = writeReg s r v := by
  simp [hostWriteReg, h]

theorem hostWriteReg_dropped {s : State} {r : Reg} (hb : busy s = true) (h : writableBusy r = false) (v : Word) :
    hostWriteReg s (some r) v = setOverrun s := by
  simp [hostWriteReg, hb, h]

theorem hostReadReg_shown {s : State} {r : Reg} (h : readableBusy r = true) :
    hostReadReg s (some r) = returnReg s (readReg s r) := by
  simp [hostReadReg, h]

theorem hostReadReg_hidden {s : State} {r : Reg} (hb : busy s = true) (h : readableBusy r = false) :
    hostReadReg s (some r) = returnFree s := by
  simp [hostReadReg, hb, h]

theorem readableBusy_iff {r : Reg} : readableBusy r = true ↔
    (r = .id ∨ r = .cap0 ∨ r = .cap1 ∨ r = .cap2 ∨ r = .status ∨ r = .irqEn ∨ r = .cmdLast) := by
  cases r <;> simp [readableBusy]

theorem writableBusy_iff {r : Reg} : writableBusy r = true ↔ r = .status ∨ r = .irqEn := by
  cases r <;> simp [writableBusy]

/-- The registers a busy core shows and those it lets the host write, by offset. -/
theorem busy_offsets : ∀ e ∈ registerMap,
    (readableBusy e.2 = true ↔ e.1 ∈ [0x000, 0x004, 0x008, 0x00C, 0x014, 0x018, 0x01C]) ∧
    (writableBusy e.2 = true ↔ e.1 = 0x014 ∨ e.1 = 0x018) := by
  simp only [registerMap, List.forall_mem_append]
  decide

theorem regAt_status : regAt 0x014 = some .status := rfl
theorem regAt_irqEn : regAt 0x018 = some .irqEn := rfl

theorem mem_registerReads_of_control {s : State} {e : Nat × Nat} (h : e ∈ controlReads s) : e ∈ registerReads s := by
  simp only [registerReads, List.mem_append, h, true_or]

/-- Settles O57: an access to a busy core is decided by `readableBusy` and `writableBusy`, by register and by offset. -/
theorem busyCoreDropsWritesAndHidesRegisters : Obligations.BusyCoreDropsWritesAndHidesRegisters := by
  refine ⟨fun s off v r hr => ⟨fun hidle hcmd => ?_, fun hb hs hi => ?_, fun _ hshown => ?_, fun hb hhidden => ?_⟩,
    fun s off hb => ⟨fun n hp hn hoff => ?_, fun hmem hoff => ?_, fun v hmem hs hi => ?_⟩,
    fun s v => ⟨?_, ?_, fun off hlt h4 hoff => access_noReg hlt h4 (regAt_eq_none hoff) v,
      fun x bytes h => access_refused h v⟩⟩
  · rw [regWrite_reg hr, hostWriteReg_idle hidle, hcmd]
    rfl
  · have hw : writableBusy r = false := by simp [Bool.eq_false_iff, writableBusy_iff, hs, hi]
    rw [regWrite_reg hr, hostWriteReg_dropped hb hw]
    rfl
  · rw [regRead_reg hr, hostReadReg_shown (readableBusy_iff.2 hshown)]
    rfl
  · rw [regRead_reg hr, hostReadReg_hidden hb (Bool.eq_false_iff.2 fun h => hhidden (readableBusy_iff.1 h))]
    rfl
  · obtain ⟨r, hr, hval⟩ := registerReads_reg hp (mem_registerReads_of_control hn)
    have hshown := (busy_offsets _ (regAt_eq_some_iff.1 hr)).1.2 hoff
    exact ⟨readReg s r, hval, by rw [regRead_reg hr, hostReadReg_shown hshown]; rfl⟩
  · obtain ⟨r, hr⟩ := mem_registerReads_offset.1 hmem
    have hhidden : readableBusy r = false :=
      Bool.eq_false_iff.2 fun h => hoff ((busy_offsets _ (regAt_eq_some_iff.1 hr)).1.1 h)
    rw [regRead_reg hr, hostReadReg_hidden hb hhidden]
    rfl
  · obtain ⟨r, hr⟩ := mem_registerReads_offset.1 hmem
    have hw : writableBusy r = false :=
      Bool.eq_false_iff.2 fun h => ((busy_offsets _ (regAt_eq_some_iff.1 hr)).2.1 h).elim hs hi
    rw [regWrite_reg hr, hostWriteReg_dropped hb hw]
    rfl
  · rw [regWrite_reg regAt_status, hostWriteReg_taken rfl]
    rfl
  · rw [regWrite_reg regAt_irqEn, hostWriteReg_taken rfl]
    rfl

end Sys2Proof.Machine
end

section
/-! The core step, the `STATUS` word and the interrupt line (10_state.md R39, R94; 60_exceptions.md R327, R328). -/

open Sys2Proof Sys2Proof.Claims

namespace Sys2Proof.Machine

theorem coreStep_exec {s t : State} {w : Word} {i : Instr} (hw : s.ctl.pending = some w) (hi : decode w = .ok i)
    (h : exec i s = .next t) : coreStep s = .next (completeCommand t) := by
  rw [coreStep_pending hw, execute_ok hi, h]
  rfl

/-- Settles O4: each listed turn is taken by its agent, and the core's is the execution of the pending word, if any. -/
theorem stepExecutesPendingCommand : Obligations.StepExecutesPendingCommand := by
  refine ⟨fun s w i l hw hi => ⟨fun ht t h => ?_, fun ht t h => ?_⟩, fun s a l ht => step_host_turn ht,
    fun s l hidle => ⟨fun ht => ?_, fun ht => ?_⟩⟩
  · rw [step_core ht, coreStep_exec hw hi h]
    rfl
  · rw [step_core_turn ht, coreStep_exec (s := setTurns s l) hw hi h]
    rfl
  · rw [step_core ht, coreStep_idle hidle]
  · rw [step_core_turn ht, coreStep_idle (s := setTurns s l) hidle]
    rfl

theorem getLsbD_of_toNat {n i : Nat} {x : BitVec n} {b : Bool} (h : x.toNat / 2 ^ i % 2 = b.toNat) : x.getLsbD i = b := by
  rw [BitVec.getLsbD, Nat.testBit_eq_decide_div_mod_eq, h]
  cases b <;> rfl

theorem extractLsb'_of_toNat {m n i : Nat} {x : BitVec m} {y : BitVec n} (h : x.toNat / 2 ^ i % 2 ^ n = y.toNat) :
    x.extractLsb' i n = y := by
  apply BitVec.eq_of_toNat_eq
  rw [BitVec.extractLsb'_toNat, Nat.shiftRight_eq_div_pow, h]

/-- The fields of the `STATUS` word (10_state.md R39). -/
theorem statusWord_fields (s : State) :
    (statusWord s).getLsbD 0 = s.ctl.pending.isSome ∧ (statusWord s).getLsbD 1 = s.ctl.done ∧
      (statusWord s).getLsbD 2 = s.ctl.err ∧ (statusWord s).getLsbD 3 = s.ctl.overrun ∧
      (statusWord s).extractLsb' 4 4 = 0#4 ∧ (statusWord s).extractLsb' 8 8 = s.ctl.errCode.code ∧
      (statusWord s).extractLsb' 16 8 = s.ctl.errOp ∧ (statusWord s).extractLsb' 24 8 = 0#8 := by
  have hword := statusWord_toNat s
  rw [← errCode_code_toNat] at hword
  have hop := s.ctl.errOp.isLt
  have hcode := s.ctl.errCode.code.isLt
  have hbusy := Bool.toNat_le s.ctl.pending.isSome
  have hdone := Bool.toNat_le s.ctl.done
  have herr := Bool.toNat_le s.ctl.err
  have hoverrun := Bool.toNat_le s.ctl.overrun
  have hzero4 : (0#4).toNat = 0 := rfl
  have hzero8 : (0#8).toNat = 0 := rfl
  exact ⟨getLsbD_of_toNat (by omega), getLsbD_of_toNat (by omega), getLsbD_of_toNat (by omega), getLsbD_of_toNat (by omega),
    extractLsb'_of_toNat (by omega), extractLsb'_of_toNat (by omega), extractLsb'_of_toNat (by omega),
    extractLsb'_of_toNat (by omega)⟩

/-- The interrupt expression (60_exceptions.md R327). -/
theorem irq_iff (s : State) : irq s = true ↔ (s.ctl.done = true ∧ s.ctl.doneIe = true) ∨
    ((s.ctl.err = true ∨ s.ctl.overrun = true) ∧ s.ctl.errIe = true) := by
  simp only [irq, Bool.or_eq_true, Bool.and_eq_true]

/-- Settles O58: the fields of the word are its parts, and the write of 0xE clears all that `irq` looks at. -/
theorem statusFieldsAndInterrupt : Obligations.StatusFieldsAndInterrupt := by
  intro s
  refine ⟨statusWord_fields s, irq_iff s, _, ?_, ?_, rfl⟩
  · rw [regWrite_reg regAt_status, hostWriteReg_taken rfl]
    simp [writeReg, writeStatus]
  · simp [irq]

end Sys2Proof.Machine
end

section
/-! What a command and a step can do to the buffer memory, said once, and its canonical form (20_memory.md R101, log 2). -/

open Sys2Proof Sys2Proof.Claims

namespace Sys2Proof.Machine

/-! ## What passed checks say -/

theorem firstFailure_append_eq_none {l m : List (Bool × ErrCode)} :
    firstFailure (l ++ m) = none ↔ firstFailure l = none ∧ firstFailure m = none := by
  simp only [firstFailure_eq_none, List.forall_mem_append]

theorem firstFailure_cons_eq_none {c : Bool × ErrCode} {l : List (Bool × ErrCode)} :
    firstFailure (c :: l) = none ↔ c.1 = false ∧ firstFailure l = none := by
  simp only [firstFailure_eq_none, List.forall_mem_cons]

theorem dimChecks_passed {p : Params} {dims : List (BitVec 16)} (h : firstFailure (dimChecks p dims) = none) :
    ∀ d ∈ dims, dimLegal p d := by
  intro d hd
  simpa using firstFailure_eq_none.1 h _ (List.mem_map_of_mem hd)

theorem regionChecks_passed {p : Params} {reads writes : List Region}
    (h : firstFailure (regionChecks p reads writes) = none) : ∀ g ∈ reads ++ writes, Region.inRange p g := by
  intro g hg
  simpa using firstFailure_eq_none.1 h _ (List.mem_append_left _ (List.mem_map_of_mem hg))

/-- The checks of a matrix command passed (45_matrix.md R250): legal dimensions, regions in range. -/
theorem matrixChecks_passed {p : Params} {dims : List (BitVec 16)} {reads writes : List Region}
    (h : firstFailure (dimChecks p dims ++ regionChecks p reads writes) = none) :
    (∀ d ∈ dims, dimLegal p d) ∧ ∀ g ∈ reads ++ writes, Region.inRange p g := by
  obtain ⟨hdims, hregions⟩ := firstFailure_append_eq_none.1 h
  exact ⟨dimChecks_passed hdims, regionChecks_passed hregions⟩

/-- The checks of a matrix command with one check of its own between the two lists passed. -/
theorem matrixChecks_passed_mid {p : Params} {dims : List (BitVec 16)} {mid : Bool × ErrCode} {reads writes : List Region}
    (h : firstFailure (dimChecks p dims ++ mid :: regionChecks p reads writes) = none) :
    (∀ d ∈ dims, dimLegal p d) ∧ mid.1 = false ∧ ∀ g ∈ reads ++ writes, Region.inRange p g := by
  obtain ⟨hdims, hrest⟩ := firstFailure_append_eq_none.1 h
  obtain ⟨hmid, hregions⟩ := firstFailure_cons_eq_none.1 hrest
  exact ⟨dimChecks_passed hdims, hmid, regionChecks_passed hregions⟩

theorem indexCheck_passed {x : MatrixUnit} (h : (indexCheck x).1 = false) :
    x.row.toNat < x.r.toNat ∧ x.col.toNat < x.c.toNat := by
  simpa [indexCheck] using h

/-! ## What a command can do to the memory -/

/-- The memory a command leaves: only the four session commands and the five matrix commands that have a destination change it,
each with what its passed checks say. -/
inductive MemoryEffect (s : State) : Instr → Memory → Prop
  | unchanged {i : Instr} : MemoryEffect s i s.mem
  | ceEncode (begun : s.ce.session ≠ .idle) (room : s.ce.out.pos + encodeEmits s ≤ 8 * s.ce.lat.outLimit.toNat) :
      MemoryEffect s .ceEncode (encBytes s.ctl.srcLen.toNat s.ctl.srcAddr.toNat s).mem
  | ceFlush (begun : s.ce.session ≠ .idle) (room : s.ce.out.pos + flushEmits s ≤ 8 * s.ce.lat.outLimit.toNat) :
      MemoryEffect s .ceFlush (encTail s.ce.lat.k.toNat s).mem
  | vdDecode (begun : s.vd.session ≠ .idle) (room : s.vd.out.pos + decodeEmits s ≤ 8 * s.vd.lat.outLimit.toNat) :
      MemoryEffect s .vdDecode (decBytes s.ctl.srcLen.toNat s.ctl.srcAddr.toNat s).mem
  | vdFlush (begun : s.vd.session ≠ .idle) (room : s.vd.out.pos + decFlushEmits s ≤ 8 * s.vd.lat.outLimit.toNat)
      (bits : List Bool) (count : bits.length = decFlushEmits s) : MemoryEffect s .vdFlush (emitAll bits s).mem
  | store {i : Instr} (r c : BitVec 16) (table : writeTable s i = [regDst s r c])
      (inRange : Region.inRange s.params (regDst s r c)) (f : Nat → Byte) :
      MemoryEffect s i (storeMatrix s r.toNat c.toNat f).mem
  | mxSetbit (inRange : Region.inRange s.params (mxRegionA s.mx)) (columns : s.mx.c.toNat % 8 = 0)
      (index : s.mx.row.toNat < s.mx.r.toNat ∧ s.mx.col.toNat < s.mx.c.toNat) (v : Byte) :
      MemoryEffect s .mxSetbit (Memory.write s.mem (mxBitAddr s.mx) v)

theorem runCommand_memory {i : Instr} {l : List (Bool × ErrCode)} {e s t : State} (h : runCommand i l e s = .next t)
    (effect : firstFailure l = none → MemoryEffect s i e.mem) : MemoryEffect s i t.mem := by
  rcases runCommand_cases i l e s with ⟨c, -, hr⟩ | ⟨hn, hr⟩
  · rw [hr] at h
    cases h
    rw [recordError_mem]
    exact .unchanged
  · rw [hr] at h
    cases h
    exact effect hn

theorem walkBack_length (w : List StepRecord) (d n x t : Nat) (later : List Bool) :
    (walkBack w d n x t later).length = n + later.length := by
  induction n generalizing x t later with
  | zero => simp [walkBack]
  | succ n ih => rw [walkBack, ih, List.length_cons]; omega

/-- Everything a command can do to the memory. -/
theorem exec_memory {i : Instr} {s t : State} (h : exec i s = .next t) : MemoryEffect s i t.mem := by
  cases i with
  | ceEncode =>
    refine runCommand_memory h fun hn => ?_
    simp only [firstFailure_cons_eq_none, decide_eq_false_iff_not] at hn
    obtain ⟨begun, -, -, -, room, -⟩ := hn
    exact .ceEncode begun (Nat.le_of_not_lt room)
  | ceFlush =>
    refine runCommand_memory h fun hn => ?_
    simp only [firstFailure_cons_eq_none, decide_eq_false_iff_not] at hn
    obtain ⟨begun, -, room, -⟩ := hn
    exact .ceFlush begun (Nat.le_of_not_lt room)
  | vdDecode =>
    refine runCommand_memory h fun hn => ?_
    simp only [firstFailure_cons_eq_none, decide_eq_false_iff_not] at hn
    obtain ⟨begun, -, -, -, room, -⟩ := hn
    exact .vdDecode begun (Nat.le_of_not_lt room)
  | vdFlush =>
    refine runCommand_memory h fun hn => ?_
    simp only [firstFailure_cons_eq_none, decide_eq_false_iff_not] at hn
    obtain ⟨begun, -, room, -⟩ := hn
    exact .vdFlush begun (Nat.le_of_not_lt room) _ (walkBack_length ..)
  | mxZero =>
    exact runCommand_memory h fun hn => .store _ _ rfl ((matrixChecks_passed hn).2 _ (by simp [matRegion, regDst])) _
  | mxCopy =>
    exact runCommand_memory h fun hn => .store _ _ rfl ((matrixChecks_passed hn).2 _ (by simp [matRegion, regDst])) _
  | mxMulmat =>
    exact runCommand_memory h fun hn => .store _ _ rfl ((matrixChecks_passed hn).2 _ (by simp [matRegion, regDst])) _
  | mxTranspose =>
    exact runCommand_memory h fun hn => .store _ _ rfl ((matrixChecks_passed hn).2 _ (by simp [matRegion, regDst])) _
  | mxSetbit =>
    refine runCommand_memory h fun hn => ?_
    obtain ⟨hdims, hindex, hregions⟩ := matrixChecks_passed_mid hn
    exact .mxSetbit (hregions _ (by simp)) (hdims s.mx.c (by simp)).1 (indexCheck_passed hindex) _
  | ceReset | ceCalcsize k | vdReset | vdCalcsize k | mxGetbit | mxEqual | mxIszero | mxMulvec | bcEncode | bcDecode
    | crcPreset k | crcUpdate | mgInit | mgNext => exact runCommand_memory h fun _ => .unchanged
  | nop | softReset | crcInit | crcFinal | buParity | buPopcount | buHamdist | buRev8 | buRev32 =>
    cases h
    exact .unchanged

theorem MemoryEffect.wf {i : Instr} {s : State} {m : Memory} (h : MemoryEffect s i m) (hs : Memory.wf s.mem) :
    Memory.wf m := by
  cases h with
  | unchanged => exact hs
  | ceEncode => exact encBytes_wf hs _ _
  | ceFlush => exact encTail_wf hs _
  | vdDecode => exact decBytes_wf hs _ _
  | vdFlush => exact emitAll_wf hs _
  | store => exact Memory.store_wf hs _ _ _
  | mxSetbit => exact Memory.write_wf hs _ _

/-! ## What a step can do to the memory -/

/-- The memory a step leaves: untouched, as a command leaves it, or with a byte the host wrote inside the address space. -/
inductive StepMemory (s : State) : Memory → Prop
  | unchanged : StepMemory s s.mem
  | command (l : List Turn) (i : Instr) {m : Memory} (effect : MemoryEffect (setTurns s l) i m) : StepMemory s m
  | hostWrite (a : Nat) (v : Byte) (inSpace : a < 2 ^ s.params.addrW) : StepMemory s (Memory.write s.mem a v)

theorem hostWriteReg_mem (s : State) (r : Option Reg) (v : Word) : (hostWriteReg s r v).mem = s.mem := by
  cases r with
  | none => rfl
  | some r =>
    rw [hostWriteReg]
    split
    · rfl
    · exact writeReg_mem s r v

theorem hostReadReg_mem (s : State) (r : Option Reg) : (hostReadReg s r).mem = s.mem := by
  cases r with
  | none => rfl
  | some r =>
    rw [hostReadReg]
    split
    · rfl
    · rfl

theorem coreStep_memory {s t : State} {l : List Turn} (h : coreStep (setTurns s l) = .next t) : StepMemory s t.mem := by
  cases hp : (setTurns s l).ctl.pending with
  | none =>
    rw [coreStep_idle hp] at h
    cases h
    exact .unchanged
  | some w =>
    cases hw : decode w with
    | error e =>
      rw [coreStep_pending hp, execute_error hw] at h
      cases h
      rw [completeCommand_mem, recordError_mem]
      exact .unchanged
    | ok i =>
      rw [coreStep_pending hp, execute_ok hw] at h
      cases hu : exec i (setTurns s l) with
      | next u =>
        rw [hu] at h
        cases h
        rw [completeCommand_mem]
        exact .command l i (exec_memory hu)
      | fault f => rw [hu] at h; cases h
      | refused x => rw [hu] at h; cases h

theorem hostAccess_memory {s t : State} {a : HostAccess} (h : hostAccess a s = .next t) : StepMemory s t.mem := by
  cases a with
  | regRead x bytes =>
    rw [hostAccess] at h
    split at h
    · cases h
    · cases h
      rw [hostReadReg_mem]
      exact .unchanged
  | regWrite x bytes v =>
    rw [hostAccess] at h
    split at h
    · cases h
    · cases h
      rw [hostWriteReg_mem]
      exact .unchanged
  | memRead x =>
    rw [hostAccess] at h
    split_ifs at h
    cases h
    exact .unchanged
  | memWrite x v =>
    rw [hostAccess] at h
    split_ifs at h with hspace _ _
    cases h
    exact .hostWrite x v (by simpa [inMemory] using hspace)
  | powerReset =>
    cases h
    exact .unchanged

/-- The turn list matters neither to the memory nor to its address space. -/
theorem StepMemory.of_setTurns {s : State} {l : List Turn} {m : Memory} (h : StepMemory (setTurns s l) m) :
    StepMemory s m := by
  cases h with
  | unchanged => exact .unchanged
  | command l' i effect => exact .command l' i effect
  | hostWrite a v inSpace => exact .hostWrite a v inSpace

/-- Everything a step can do to the memory. -/
theorem step_memory {s t : State} (h : step s = .next t) : StepMemory s t.mem := by
  match hl : s.host.turns with
  | [] => exact coreStep_memory (l := s.host.turns) (step_core hl ▸ h)
  | .core :: l => exact coreStep_memory (step_core_turn hl ▸ h)
  | .host a :: l => exact (hostAccess_memory (step_host_turn hl ▸ h)).of_setTurns

theorem StepMemory.wf {s : State} {m : Memory} (h : StepMemory s m) (hs : Memory.wf s.mem) : Memory.wf m := by
  cases h with
  | unchanged => exact hs
  | command l i effect => exact effect.wf hs
  | hostWrite a v inSpace => exact Memory.write_wf hs a v

/-- Settles O51: a command, its completion and a write of the host leave a canonical memory. -/
theorem stepKeepsMemoryCanonical : Obligations.StepKeepsMemoryCanonical :=
  fun _ _ hs h => (step_memory h).wf hs

end Sys2Proof.Machine
end

section
/-! Where the session commands put their output bits, counted (43_conv_encoder.md R183 to R187, 44_viterbi.md R216 to R225). -/

open Sys2Proof Sys2Proof.Claims

namespace Sys2Proof.Machine

/-! ## Emitted bits -/

/-- `e` bits emitted from the cursor `c` on, into the output buffer at `base`, as far as the buffer's limit leaves room for
them: the cursor has moved by `e` bits, and no byte changed but the output bytes of the next `e` bits; none for `e = 0`. -/
def Emitted (base limit : Word) (c : Cursor) (e : Nat) (m m' : Memory) (c' : Cursor) : Prop :=
  c.pos + e ≤ 8 * limit.toNat →
    c'.pos = c.pos + e ∧ ∀ a, Memory.read m' a ≠ Memory.read m a → 0 < e ∧ Region.has (outBytes base c e) a

theorem Emitted.none (base limit : Word) (c : Cursor) (m : Memory) : Emitted base limit c 0 m m c :=
  fun _ => ⟨rfl, fun _ h => absurd rfl h⟩

/-- One bit more: it changes at most the byte at the cursor. -/
theorem Emitted.bit {base limit : Word} {c c' : Cursor} {e : Nat} {m m' m'' : Memory} (h : Emitted base limit c e m m' c')
    (frame : ∀ a, a ≠ base.toNat + c'.byte.toNat → Memory.read m'' a = Memory.read m' a) :
    Emitted base limit c (e + 1) m m'' c'.advance := by
  intro room
  obtain ⟨hpos, hin⟩ := h (by omega)
  have hlimit := limit.isLt
  obtain ⟨hbyte, -⟩ := c.pos_split
  obtain ⟨hbyte', -⟩ := c'.pos_split
  have hcount : outPos c = c.pos := rfl
  refine ⟨by rw [Cursor.advance_pos (by omega)]; omega, fun a ha => ⟨Nat.succ_pos e, ?_⟩⟩
  by_cases hcur : a = base.toNat + c'.byte.toNat
  · simp only [Region.has, outBytes]
    omega
  · obtain ⟨-, hhas⟩ := hin a (frame a hcur ▸ ha)
    simp only [Region.has, outBytes] at hhas ⊢
    omega

/-! ## The encoder: one output position at a time -/

theorem kept_eq_countBits (c : EncConfig) (p k : Nat) :
    kept c p k = countBits k (fun q => c.pmask.getLsbD ((p + q) % c.plen.toNat)) := (countBits_eq_card ..).symm

/-- `EmitCount` is the number of positions kept (43_conv_encoder.md R189). -/
theorem emitCount_eq_kept {c : EncConfig} (h : 0 < c.plen.toNat) (p k : Nat) : emitCount c p k = kept c p k := by
  rw [emitCount_eq_count h, kept_eq_countBits]

theorem kept_succ (c : EncConfig) (p k : Nat) :
    kept c p (k + 1) = kept c p k + (c.pmask.getLsbD ((p + k) % c.plen.toNat)).toNat := by
  rw [kept_eq_countBits, kept_eq_countBits, countBits_succ]

/-- `t` is `s` after `k` output positions of a session with a legal pattern, whatever the input bits were: the puncture cursor
has moved by `k`, and the bits kept are emitted. -/
structure EncoderRun (s : State) (k : Nat) (t : State) : Prop where
  pattern : 1 ≤ s.ce.lat.plen.toNat ∧ s.ce.lat.plen.toNat ≤ 32
  moves   : EncMoves s t
  pcur    : t.ce.pcur.toNat = (s.ce.pcur.toNat + k) % s.ce.lat.plen.toNat
  emitted : Emitted s.ce.lat.outBase s.ce.lat.outLimit s.ce.out (kept s.ce.lat s.ce.pcur.toNat k) s.mem t.mem t.ce.out

theorem emitE_frame (v : Bool) (s : State) {a : Nat} (h : a ≠ s.ce.lat.outBase.toNat + s.ce.out.byte.toNat) :
    Memory.read (emitE v s).mem a = Memory.read s.mem a := by
  change Memory.read (Memory.orBit _ _ _ _) a = _
  rw [Memory.read_orBit, if_neg h]
  split
  · exact Memory.read_write_ne _ _ h
  · rfl

theorem nextPcur_pcur {s : State} (h : 1 ≤ s.ce.lat.plen.toNat ∧ s.ce.lat.plen.toNat ≤ 32) :
    (nextPcur s).ce.pcur.toNat = (s.ce.pcur.toNat + 1) % s.ce.lat.plen.toNat := by
  have := Nat.mod_lt (s.ce.pcur.toNat + 1) h.1
  exact Nat.mod_eq_of_lt (by omega)

theorem encOutput_pcur (j : Nat) (s : State) : (encOutput j s).ce.pcur = (nextPcur s).ce.pcur := by
  unfold encOutput
  split
  · rfl
  · rfl

namespace EncoderRun

variable {s t : State} {k : Nat}

theorem start (hplen : 1 ≤ s.ce.lat.plen.toNat ∧ s.ce.lat.plen.toNat ≤ 32)
    (hpcur : s.ce.pcur.toNat < s.ce.lat.plen.toNat) : EncoderRun s 0 s :=
  ⟨hplen, EncMoves.refl s, (Nat.mod_eq_of_lt hpcur).symm, Emitted.none _ _ _ _⟩

theorem output (h : EncoderRun s k t) (j : Nat) : EncoderRun s (k + 1) (encOutput j t) where
  pattern := h.pattern
  moves := h.moves.trans (encOutput_moves j t)
  pcur := by
    rw [encOutput_pcur, nextPcur_pcur (h.moves.lat ▸ h.pattern), h.moves.lat, h.pcur, Nat.mod_add_mod, Nat.add_assoc]
  emitted := by
    have hbit := h.pcur ▸ kept_succ s.ce.lat s.ce.pcur.toNat k
    rw [hbit, encOutput, h.moves.lat]
    cases hkeep : s.ce.lat.pmask.getLsbD t.ce.pcur.toNat with
    | true =>
      refine h.emitted.bit fun a ha => ?_
      rw [← h.moves.lat] at ha
      exact emitE_frame _ (nextPcur t) ha
    | false => exact h.emitted

theorem shift (h : EncoderRun s k t) (b : Word) : EncoderRun s k { t with ce := { t.ce with sr := b } } :=
  { h with moves := h.moves.trans ⟨_, _, _, _, rfl⟩ }

theorem outputs (h : EncoderRun s k t) (n : Nat) : EncoderRun s (k + n) (encOutputs n t) := by
  induction n with
  | zero => exact h
  | succ n ih => exact ih.output n

theorem cycle (h : EncoderRun s k t) (b : Bool) : EncoderRun s (k + s.ce.lat.n.toNat) (encCycle b t) := by
  rw [← h.moves.lat]
  exact (h.shift _).outputs _

theorem tail (h : EncoderRun s k t) (j : Nat) : EncoderRun s (k + j * s.ce.lat.n.toNat) (encTail j t) := by
  induction j generalizing k t with
  | zero => rwa [Nat.zero_mul]
  | succ j ih =>
    rw [show k + (j + 1) * s.ce.lat.n.toNat = k + s.ce.lat.n.toNat + j * s.ce.lat.n.toNat by ring]
    exact ih (h.cycle false)

theorem cycles (h : EncoderRun s k t) (b : Byte) (l : List Nat) :
    EncoderRun s (k + l.length * s.ce.lat.n.toNat) (l.foldl (fun t p => encCycle (b.getLsbD p) t) t) := by
  induction l generalizing k t with
  | nil => simpa using h
  | cons p l ih =>
    rw [List.length_cons, show k + (l.length + 1) * s.ce.lat.n.toNat =
      k + s.ce.lat.n.toNat + l.length * s.ce.lat.n.toNat by ring]
    exact ih (h.cycle _)

theorem bytes (h : EncoderRun s k t) (j a : Nat) : EncoderRun s (k + 8 * j * s.ce.lat.n.toNat) (encBytes j a t) := by
  induction j generalizing k a t with
  | zero => rwa [Nat.mul_zero, Nat.zero_mul]
  | succ j ih =>
    rw [show k + 8 * (j + 1) * s.ce.lat.n.toNat = k + 8 * s.ce.lat.n.toNat + 8 * j * s.ce.lat.n.toNat by ring]
    exact ih (h.cycles _ [7, 6, 5, 4, 3, 2, 1, 0]) _

end EncoderRun

/-! ## The decoder: one received bit at a time -/

/-- `t` is `s` after `q` trellis steps, whatever the words were: the step count has grown up to `d - 1` for a window of `d` slots,
and the steps beyond that have emitted a bit each (44_viterbi.md R219, R220). -/
structure TrellisRun (s : State) (q : Nat) (t : State) : Prop where
  moves   : DecMoves s t
  stepcnt : t.vd.stepcnt.toNat = min (s.vd.stepcnt.toNat + q) (s.vd.lat.depth.toNat - 1)
  emitted : Emitted s.vd.lat.outBase s.vd.lat.outLimit s.vd.out
              (q - (s.vd.lat.depth.toNat - 1 - s.vd.stepcnt.toNat)) s.mem t.mem t.vd.out

/-- `t` is `s` after `b` received bits of a session with `n` outputs per step, whatever the bits were: the trellis steps they
complete have run, the other bits are pending (44_viterbi.md R215). -/
structure DecoderRun (s : State) (b : Nat) (t : State) : Prop where
  rate    : 1 ≤ s.vd.lat.n.toNat
  trellis : TrellisRun s ((s.vd.rxCnt.toNat + b) / s.vd.lat.n.toNat) t
  rxCnt   : t.vd.rxCnt.toNat = (s.vd.rxCnt.toNat + b) % s.vd.lat.n.toNat

theorem emitV_frame (v : Bool) (s : State) {a : Nat} (h : a ≠ s.vd.lat.outBase.toNat + s.vd.out.byte.toNat) :
    Memory.read (emitV v s).mem a = Memory.read s.mem a := by
  change Memory.read (Memory.orBit _ _ _ _) a = _
  rw [Memory.read_orBit, if_neg h]

/-- A trellis step with a full window emits one bit and keeps the step count (44_viterbi.md R219, R220). -/
theorem trellisStep_full {s : State} (h : s.vd.lat.depth.toNat - 1 ≤ s.vd.stepcnt.toNat) (rb : Byte) :
    (trellisStep rb s).vd.stepcnt = s.vd.stepcnt ∧ (trellisStep rb s).vd.out = s.vd.out.advance ∧
      ∀ a, a ≠ s.vd.lat.outBase.toNat + s.vd.out.byte.toNat →
        Memory.read (trellisStep rb s).mem a = Memory.read s.mem a := by
  have he : emitStep (acsStep rb s) = emitV _ (acsStep rb s) := if_pos h
  rw [trellisStep, he]
  exact ⟨if_neg (Nat.not_lt.2 h), rfl, fun a ha => emitV_frame _ (acsStep rb s) ha⟩

/-- A trellis step before the window is full emits nothing and counts up (44_viterbi.md R219, R220). -/
theorem trellisStep_filling {s : State} (h : s.vd.stepcnt.toNat < s.vd.lat.depth.toNat - 1) (rb : Byte) :
    (trellisStep rb s).vd.stepcnt.toNat = s.vd.stepcnt.toNat + 1 ∧ (trellisStep rb s).vd.out = s.vd.out ∧
      (trellisStep rb s).mem = s.mem := by
  have he : emitStep (acsStep rb s) = acsStep rb s := if_neg (Nat.not_le.2 h)
  have hcount : (trellisStep rb s).vd.stepcnt = s.vd.stepcnt + 1 := by
    rw [trellisStep, he]
    exact if_pos h
  have hdepth := s.vd.lat.depth.isLt
  refine ⟨?_, by rw [trellisStep, he]; rfl, by rw [trellisStep, he]; rfl⟩
  rw [hcount, BitVec.toNat_add]
  exact Nat.mod_eq_of_lt (by simp; omega)

namespace TrellisRun

variable {s t : State} {q : Nat}

theorem start (h : s.vd.stepcnt.toNat ≤ s.vd.lat.depth.toNat - 1) : TrellisRun s 0 s where
  moves := DecMoves.refl s
  stepcnt := by omega
  emitted := by
    rw [Nat.zero_sub]
    exact Emitted.none _ _ _ _

/-- The pending received bits do not matter. -/
theorem pending (h : TrellisRun s q t) (c : BitVec 4) (w : Byte) :
    TrellisRun s q { t with vd := { t.vd with rxCnt := c, rxBits := w } } :=
  ⟨h.moves.trans ⟨_, _, _, _, _, _, _, _, _, rfl⟩, h.stepcnt, h.emitted⟩

theorem step (h : TrellisRun s q t) (rb : Byte) : TrellisRun s (q + 1) (trellisStep rb t) := by
  have hmoves := h.moves.trans (trellisStep_moves rb t)
  have hcount := h.stepcnt
  have hlat := h.moves.lat
  by_cases hfull : s.vd.lat.depth.toNat - 1 ≤ t.vd.stepcnt.toNat
  · obtain ⟨hstep, hout, hframe⟩ := trellisStep_full (hlat ▸ hfull) rb
    refine ⟨hmoves, by rw [hstep]; omega, ?_⟩
    rw [hout, show q + 1 - (s.vd.lat.depth.toNat - 1 - s.vd.stepcnt.toNat) =
      q - (s.vd.lat.depth.toNat - 1 - s.vd.stepcnt.toNat) + 1 by omega]
    exact h.emitted.bit fun a ha => hframe a (hlat ▸ ha)
  · obtain ⟨hstep, hout, hmem⟩ := trellisStep_filling (hlat ▸ Nat.lt_of_not_le hfull) rb
    refine ⟨hmoves, by rw [hstep]; omega, ?_⟩
    rw [hout, hmem, show q + 1 - (s.vd.lat.depth.toNat - 1 - s.vd.stepcnt.toNat) =
      q - (s.vd.lat.depth.toNat - 1 - s.vd.stepcnt.toNat) by omega]
    exact h.emitted

end TrellisRun

/-- The state with one more received bit pending (44_viterbi.md R215). -/
def shifted (b : Bool) (s : State) : State := { s with vd := shiftRx s.vd b }

theorem shifted_rxCnt {s : State} (h : s.vd.rxCnt.toNat < s.vd.lat.n.toNat) (b : Bool) :
    (shifted b s).vd.rxCnt.toNat = s.vd.rxCnt.toNat + 1 := by
  have hn := s.vd.lat.n.isLt
  change (s.vd.rxCnt + 1).toNat = _
  rw [BitVec.toNat_add]
  exact Nat.mod_eq_of_lt (by simp; omega)

/-- The bit that completes a word runs a trellis step. -/
theorem decBit_last {b : Bool} {s : State} (h : (shifted b s).vd.rxCnt.toNat = s.vd.lat.n.toNat) :
    ∃ rb, decBit b s =
      { trellisStep rb (shifted b s) with vd := clearRx (trellisStep rb (shifted b s)).vd } := ⟨_, if_pos h⟩

theorem decBit_more {b : Bool} {s : State} (h : (shifted b s).vd.rxCnt.toNat ≠ s.vd.lat.n.toNat) :
    decBit b s = shifted b s := if_neg h

/-- One more on the way to the next multiple of `n`. -/
theorem succ_div_mod_of_lt {x n : Nat} (h : x % n + 1 < n) : (x + 1) / n = x / n ∧ (x + 1) % n = x % n + 1 := by
  refine (Nat.div_mod_unique (by omega)).2 ⟨?_, h⟩
  have := Nat.mod_add_div x n
  omega

/-- One more reaches the next multiple of `n`. -/
theorem succ_div_mod_of_eq {x n : Nat} (h : x % n + 1 = n) : (x + 1) / n = x / n + 1 ∧ (x + 1) % n = 0 := by
  refine (Nat.div_mod_unique (by omega)).2 ⟨?_, by omega⟩
  have := Nat.mod_add_div x n
  rw [Nat.mul_add]
  omega

namespace DecoderRun

variable {s t : State} {k : Nat}

theorem start (hrx : s.vd.rxCnt.toNat < s.vd.lat.n.toNat) (hstep : s.vd.stepcnt.toNat ≤ s.vd.lat.depth.toNat - 1) :
    DecoderRun s 0 s where
  rate := Nat.one_le_of_lt hrx
  trellis := by
    rw [Nat.add_zero, Nat.div_eq_of_lt hrx]
    exact .start hstep
  rxCnt := (Nat.mod_eq_of_lt hrx).symm

theorem bit (h : DecoderRun s k t) (b : Bool) : DecoderRun s (k + 1) (decBit b t) := by
  have hmod := Nat.mod_lt (s.vd.rxCnt.toNat + k) h.rate
  have hlat := h.trellis.moves.lat
  have hrx := shifted_rxCnt (by rw [h.rxCnt, hlat]; exact hmod) b
  rw [h.rxCnt] at hrx
  have hshift : TrellisRun s _ (shifted b t) := h.trellis.pending _ _
  rcases Nat.lt_or_eq_of_le (Nat.succ_le_of_lt hmod) with hmore | hlast
  · obtain ⟨hq, hr⟩ := succ_div_mod_of_lt hmore
    rw [decBit_more (by rw [hrx, hlat]; exact Nat.ne_of_lt hmore)]
    exact ⟨h.rate, hq ▸ hshift, hrx.trans hr.symm⟩
  · obtain ⟨hq, hr⟩ := succ_div_mod_of_eq hlast
    obtain ⟨rb, hbit⟩ := decBit_last (by rw [hrx, hlat]; exact hlast)
    rw [hbit]
    exact ⟨h.rate, hq ▸ (hshift.step rb).pending _ _, hr.symm⟩

theorem bits (h : DecoderRun s k t) (b : Byte) (l : List Nat) :
    DecoderRun s (k + l.length) (l.foldl (fun t p => decBit (b.getLsbD p) t) t) := by
  induction l generalizing k t with
  | nil => exact h
  | cons p l ih =>
    rw [List.length_cons, show k + (l.length + 1) = k + 1 + l.length by omega]
    exact ih (h.bit _)

theorem bytes (h : DecoderRun s k t) (j a : Nat) : DecoderRun s (k + 8 * j) (decBytes j a t) := by
  induction j generalizing k a t with
  | zero => exact h
  | succ j ih =>
    rw [show k + 8 * (j + 1) = k + 8 + 8 * j by omega]
    exact ih (h.bits _ [7, 6, 5, 4, 3, 2, 1, 0]) _

end DecoderRun

/-- The flush emits its bits in order (44_viterbi.md R225). -/
theorem emitAll_emitted (l : List Bool) {s t : State} {k : Nat} (hlat : t.vd.lat = s.vd.lat)
    (h : Emitted s.vd.lat.outBase s.vd.lat.outLimit s.vd.out k s.mem t.mem t.vd.out) :
    Emitted s.vd.lat.outBase s.vd.lat.outLimit s.vd.out (k + l.length) s.mem (emitAll l t).mem (emitAll l t).vd.out := by
  induction l generalizing k t with
  | nil => exact h
  | cons v l ih =>
    rw [List.length_cons, show k + (l.length + 1) = k + 1 + l.length by omega]
    exact ih hlat (h.bit fun a ha => emitV_frame v t (hlat ▸ ha))

end Sys2Proof.Machine
end

section
/-! What a command changes in the buffer memory lies in the written regions of its footprint, inside the address space
(20_memory.md R106, R118). -/

open Sys2Proof Sys2Proof.Claims

namespace Sys2Proof.Machine

/-- Every byte that `m'` holds differently from `m` lies in one of the regions, below the address `top`. -/
def ChangesIn (l : List Region) (top : Nat) (m m' : Memory) : Prop :=
  ∀ a, Memory.read m' a ≠ Memory.read m a → Touches l a ∧ a < top

theorem ChangesIn.unchanged (l : List Region) (top : Nat) (m : Memory) : ChangesIn l top m m := fun _ h => absurd rfl h

theorem ChangesIn.store {g : Region} {top : Nat} (h : g.base + g.len ≤ top) (m : Memory) (f : Nat → Byte) :
    ChangesIn [g] top m (Memory.store m g.base g.len f) := by
  intro a ha
  rw [Memory.read_store] at ha
  split at ha
  · next hin => exact ⟨⟨g, List.mem_singleton.2 rfl, hin⟩, Nat.lt_of_lt_of_le hin.2 h⟩
  · exact absurd rfl ha

theorem ChangesIn.write {a top : Nat} (h : a < top) (m : Memory) (v : Byte) :
    ChangesIn [⟨a, 1⟩] top m (Memory.write m a v) := by
  intro b hb
  rw [Memory.read_write] at hb
  split at hb
  · next he =>
    rw [he]
    exact ⟨⟨_, List.mem_singleton.2 rfl, Nat.le_refl a, Nat.lt_succ_self a⟩, h⟩
  · exact absurd rfl hb

/-- The bits of a session that has begun go to its output bytes, inside its output buffer. -/
theorem ChangesIn.emitted {p : Params} {x : Session} {base limit : Word} {c c' : Cursor} {e : Nat} {m m' : Memory}
    (begun : x ≠ .idle) (sound : OutputSound p base limit c) (room : c.pos + e ≤ 8 * limit.toNat)
    (h : Emitted base limit c e m m' c') : ChangesIn (outTable x base c e) (2 ^ p.addrW) m m' := by
  intro a ha
  obtain ⟨hpos, hhas⟩ := (h room).2 a ha
  refine ⟨⟨outBytes base c e, ?_, hhas⟩, ?_⟩
  · rw [outTable, if_neg (not_or.2 ⟨begun, Nat.pos_iff_ne_zero.1 hpos⟩)]
    exact List.mem_singleton.2 rfl
  · have hregion := sound.region
    have hcount : outPos c = c.pos := rfl
    simp only [Region.has, outBytes] at hhas
    omega

/-- A byte of a matrix lies in the region of the matrix (00_scope.md R18). -/
theorem matByteAddr_has (base : Word) {r c i j : Nat} (hc : c % 8 = 0) (hi : i < r) (hj : j < c) :
    Region.has (matRegion base r c) (matByteAddr base c i j) := by
  obtain ⟨w, rfl⟩ : ∃ w, c = 8 * w := ⟨c / 8, by omega⟩
  have hsize : r * (8 * w) / 8 = r * w := by rw [Nat.mul_left_comm, Nat.mul_div_cancel_left _ (by decide)]
  have hrow : (i + 1) * w ≤ r * w := Nat.mul_le_mul_right w hi
  rw [Nat.add_mul] at hrow
  simp only [Region.has, matRegion, matByteAddr, hsize, Nat.mul_div_cancel_left w (show 0 < 8 by decide)]
  omega

theorem EncoderSound.pattern {s : State} (h : EncoderSound s) (begun : s.ce.session ≠ .idle) :
    1 ≤ s.ce.lat.plen.toNat ∧ s.ce.lat.plen.toNat ≤ 32 := (h.legal begun).2.2

theorem MemoryEffect.changesIn {i : Instr} {s : State} {m : Memory} (h : MemoryEffect s i m) (hs : Sound s) :
    ChangesIn (writeTable s i) (2 ^ s.params.addrW) s.mem m := by
  cases h with
  | unchanged => exact ChangesIn.unchanged _ _ _
  | ceEncode begun room =>
    have hp := hs.encoder.pattern begun
    have hrun := (EncoderRun.start hp (hs.encoder.pcur begun)).bytes s.ctl.srcLen.toNat s.ctl.srcAddr.toNat
    rw [Nat.zero_add] at hrun
    rw [encodeEmits, emitCount_eq_kept hp.1] at room
    exact ChangesIn.emitted begun (hs.encoder.output begun) room hrun.emitted
  | ceFlush begun room =>
    have hp := hs.encoder.pattern begun
    have hrun := (EncoderRun.start hp (hs.encoder.pcur begun)).tail s.ce.lat.k.toNat
    rw [Nat.zero_add] at hrun
    rw [flushEmits, emitCount_eq_kept hp.1] at room
    exact ChangesIn.emitted begun (hs.encoder.output begun) room hrun.emitted
  | vdDecode begun room =>
    have hrun := (DecoderRun.start (hs.decoder.rxCnt begun) (hs.decoder.stepcnt begun)).bytes
      s.ctl.srcLen.toNat s.ctl.srcAddr.toNat
    rw [Nat.zero_add] at hrun
    exact ChangesIn.emitted begun (hs.decoder.output begun) room hrun.trellis.emitted
  | vdFlush begun room bits count =>
    have hrun := emitAll_emitted bits rfl (Emitted.none s.vd.lat.outBase s.vd.lat.outLimit s.vd.out s.mem)
    rw [count, Nat.zero_add] at hrun
    exact ChangesIn.emitted begun (hs.decoder.output begun) room hrun
  | store r c table inRange f =>
    rw [table]
    exact ChangesIn.store inRange s.mem f
  | mxSetbit inRange columns index v =>
    have hhas := matByteAddr_has s.mx.a columns index.1 index.2
    exact ChangesIn.write (Nat.lt_of_lt_of_le hhas.2 inRange) s.mem v

/-- Settles O48: a byte that reads differently lies in a written region. -/
theorem footprintCoversWrites : Obligations.FootprintCoversWrites := by
  intro i s t hs h a ha
  by_contra hne
  exact ha ((exec_memory h).changesIn hs a hne).1

theorem Sound.setTurns {s : State} (h : Sound s) (l : List Turn) : Sound (setTurns s l) where
  params := h.params
  memory := h.memory
  space := h.space
  control := { h.control with }
  addresses := { h.addresses with }
  encoder := { h.encoder with }
  decoder := { h.decoder with }
  maskGen := { h.maskGen with }

/-- A canonical memory lists no address above the address space, where it reads as a memory that lists none. -/
theorem ChangesIn.inSpace {l : List Region} {top : Nat} {m m' : Memory} (h : ChangesIn l top m m') (hwf : Memory.wf m')
    (hm : ∀ c ∈ m, c.1 < top) : ∀ c ∈ m', c.1 < top := by
  intro c hc
  by_contra htop
  have hlisted : Memory.read m' c.1 ≠ Memory.unlisted := by
    rw [Memory.read_of_mem hwf.1 hc]
    exact hwf.2 c hc
  have hfree : Memory.read m c.1 = Memory.unlisted :=
    Memory.read_of_notMem fun d hd he => htop (he ▸ hm d hd)
  exact htop (h c.1 (hfree ▸ hlisted)).2

theorem StepMemory.inSpace {s : State} {m : Memory} (h : StepMemory s m) (hs : Sound s) :
    ∀ c ∈ m, c.1 < 2 ^ s.params.addrW := by
  have hwf := h.wf hs.memory
  cases h with
  | unchanged => exact hs.space
  | command l i effect => exact (effect.changesIn (hs.setTurns l)).inSpace hwf hs.space
  | hostWrite a v inSpace => exact (ChangesIn.write inSpace s.mem v).inSpace hwf hs.space

/-- Settles O53: a command changes no byte above the address space, and the host writes none. -/
theorem stepStaysInAddressSpace : Obligations.StepStaysInAddressSpace := by
  intro s t hs h
  have hparams : t.params = s.params := (stepKeepsRegistersSound s t hs h).1
  rw [MemoryInSpace, hparams]
  exact (step_memory h).inSpace hs

end Sys2Proof.Machine
end

section
/-! What a command does depends on no byte outside its footprint (20_memory.md R118): two memories that agree on a set of
addresses stay in agreement there, whatever the command writes. -/

open Sys2Proof Sys2Proof.Claims

namespace Sys2Proof.Machine

/-! ## Memories that agree on a set of addresses -/

/-- The memories read alike at every address in `P`. -/
def AgreeOn (P : Nat → Prop) (m m' : Memory) : Prop := ∀ a, P a → Memory.read m' a = Memory.read m a

/-- One byte written to both, which differs at most outside the set. -/
theorem AgreeOn.write {P : Nat → Prop} {m m' : Memory} (h : AgreeOn P m m') {a : Nat} {v v' : Byte} (hv : P a → v' = v) :
    AgreeOn P (Memory.write m a v) (Memory.write m' a v') := by
  intro b hb
  rw [Memory.read_write, Memory.read_write]
  split
  · next he => exact hv (he ▸ hb)
  · exact h b hb

theorem AgreeOn.orBit {P : Nat → Prop} {m m' : Memory} (h : AgreeOn P m m') (a i : Nat) (v : Bool) :
    AgreeOn P (Memory.orBit m a i v) (Memory.orBit m' a i v) :=
  h.write fun ha => by rw [h a ha]

theorem AgreeOn.store {P : Nat → Prop} {m m' : Memory} (h : AgreeOn P m m') (base : Nat) {n : Nat} {f f' : Nat → Byte}
    (hf : ∀ i < n, f' i = f i) : AgreeOn P (Memory.store m base n f) (Memory.store m' base n f') := by
  induction n with
  | zero => exact h
  | succ n ih => exact (ih fun i hi => hf i (by omega)).write fun _ => hf n (by omega)

/-- The states agree in everything but the memory, and there on the addresses in `P`. -/
def SameOn (P : Nat → Prop) (s u : State) : Prop := ∃ m, u = { s with mem := m } ∧ AgreeOn P s.mem m

section
variable {P : Nat → Prop} {s u : State}

/-! ## The sessions -/

theorem emitE_sameOn (h : SameOn P s u) (v : Bool) : SameOn P (emitE v s) (emitE v u) := by
  obtain ⟨m, rfl, h⟩ := h
  refine ⟨_, rfl, AgreeOn.orBit ?_ _ _ _⟩
  dsimp only
  split
  · exact h.write fun _ => rfl
  · exact h

theorem nextPcur_sameOn (h : SameOn P s u) : SameOn P (nextPcur s) (nextPcur u) := by
  obtain ⟨m, rfl, h⟩ := h
  exact ⟨m, rfl, h⟩

theorem encOutput_sameOn (h : SameOn P s u) (j : Nat) : SameOn P (encOutput j s) (encOutput j u) := by
  have hnext := nextPcur_sameOn h
  obtain ⟨m, rfl, -⟩ := h
  unfold encOutput
  dsimp only
  split
  · exact emitE_sameOn hnext _
  · exact hnext

theorem encOutputs_sameOn (h : SameOn P s u) (n : Nat) : SameOn P (encOutputs n s) (encOutputs n u) := by
  induction n with
  | zero => exact h
  | succ n ih => exact encOutput_sameOn ih n

theorem encCycle_sameOn (h : SameOn P s u) (b : Bool) : SameOn P (encCycle b s) (encCycle b u) := by
  obtain ⟨m, rfl, h⟩ := h
  exact encOutputs_sameOn (s := { s with ce := { s.ce with sr := encShift s.ce b } }) ⟨m, rfl, h⟩ _

theorem encTail_sameOn (h : SameOn P s u) (n : Nat) : SameOn P (encTail n s) (encTail n u) := by
  induction n generalizing s u with
  | zero => exact h
  | succ n ih => exact ih (encCycle_sameOn h false)

theorem encByte_sameOn (h : SameOn P s u) (b : Byte) : SameOn P (encByte b s) (encByte b u) := by
  unfold encByte
  generalize [7, 6, 5, 4, 3, 2, 1, 0] = l
  induction l generalizing s u with
  | nil => exact h
  | cons p l ih => exact ih (encCycle_sameOn h _)

theorem SameOn.read (h : SameOn P s u) {a : Nat} (ha : P a) : Memory.read u.mem a = Memory.read s.mem a := by
  obtain ⟨m, rfl, h⟩ := h
  exact h a ha

theorem encBytes_sameOn {n a : Nat} (h : SameOn P s u) (hsrc : ∀ i < n, P (a + i)) :
    SameOn P (encBytes n a s) (encBytes n a u) := by
  induction n generalizing a s u with
  | zero => exact h
  | succ n ih =>
    rw [encBytes, encBytes, h.read (a := a) (hsrc 0 (by omega))]
    exact ih (encByte_sameOn h _) fun i hi => by
      rw [Nat.add_assoc]
      exact hsrc (1 + i) (by omega)

theorem emitV_sameOn (h : SameOn P s u) (v : Bool) : SameOn P (emitV v s) (emitV v u) := by
  obtain ⟨m, rfl, h⟩ := h
  exact ⟨_, rfl, h.orBit _ _ _⟩

theorem emitAll_sameOn (h : SameOn P s u) (l : List Bool) : SameOn P (emitAll l s) (emitAll l u) := by
  unfold emitAll
  induction l generalizing s u with
  | nil => exact h
  | cons v l ih => exact ih (emitV_sameOn h v)

theorem emitStep_sameOn (h : SameOn P s u) : SameOn P (emitStep s) (emitStep u) := by
  obtain ⟨m, rfl, h⟩ := h
  unfold emitStep
  dsimp only
  split
  · exact emitV_sameOn ⟨m, rfl, h⟩ _
  · exact ⟨m, rfl, h⟩

theorem trellisStep_sameOn (h : SameOn P s u) (rb : Byte) : SameOn P (trellisStep rb s) (trellisStep rb u) := by
  obtain ⟨m, rfl, h⟩ := h
  obtain ⟨m', he, h'⟩ := emitStep_sameOn (s := acsStep rb s) ⟨m, rfl, h⟩
  exact ⟨m', congrArg advanceStep he, h'⟩

theorem decBit_sameOn (h : SameOn P s u) (b : Bool) : SameOn P (decBit b s) (decBit b u) := by
  obtain ⟨m, rfl, h⟩ := h
  have hs : SameOn P (shifted b s) (shifted b { s with mem := m }) := ⟨m, rfl, h⟩
  unfold decBit
  dsimp only
  split
  · obtain ⟨m', he, h'⟩ := trellisStep_sameOn hs (shiftRx s.vd b).rxBits
    exact ⟨m', congrArg (fun u => { u with vd := clearRx u.vd }) he, h'⟩
  · exact hs

theorem decByte_sameOn (h : SameOn P s u) (b : Byte) : SameOn P (decByte b s) (decByte b u) := by
  unfold decByte
  generalize [7, 6, 5, 4, 3, 2, 1, 0] = l
  induction l generalizing s u with
  | nil => exact h
  | cons p l ih => exact ih (decBit_sameOn h _)

theorem decBytes_sameOn {n a : Nat} (h : SameOn P s u) (hsrc : ∀ i < n, P (a + i)) :
    SameOn P (decBytes n a s) (decBytes n a u) := by
  induction n generalizing a s u with
  | zero => exact h
  | succ n ih =>
    rw [decBytes, decBytes, h.read (a := a) (hsrc 0 (by omega))]
    exact ih (decByte_sameOn h _) fun i hi => by
      rw [Nat.add_assoc]
      exact hsrc (1 + i) (by omega)

end

/-! ## Operands read from memory -/

section
variable {m m' : Memory}

theorem crcBytes_congr (c : CrcUnit) {n a : Nat} (h : ∀ i < n, Memory.read m' (a + i) = Memory.read m (a + i)) (acc : Word) :
    crcBytes c m' n a acc = crcBytes c m n a acc := by
  induction n generalizing a acc with
  | zero => rfl
  | succ n ih =>
    rw [crcBytes, crcBytes, show Memory.read m' a = Memory.read m a from h 0 (by omega)]
    exact ih (fun i hi => by rw [Nat.add_assoc]; exact h (1 + i) (by omega)) _

theorem allBelow_congr {n : Nat} {p q : Nat → Bool} (h : ∀ i < n, p i = q i) : allBelow n p = allBelow n q := by
  induction n with
  | zero => rfl
  | succ n ih => rw [allBelow, allBelow, ih fun i hi => h i (by omega), h n (by omega)]

/-- The bytes of a region that reads alike. -/
theorem AgreeOn.byte {g : Region} (h : AgreeOn (Region.has g) m m') {k : Nat} (hk : k < g.len) :
    Memory.read m' (g.base + k) = Memory.read m (g.base + k) :=
  h _ ⟨Nat.le_add_right _ _, Nat.add_lt_add_left hk _⟩

/-- A matrix whose region reads alike has the same bits. -/
theorem matBit_congr {base : Word} {r c : Nat} (hc : c % 8 = 0) (h : AgreeOn (Region.has (matRegion base r c)) m m')
    {i j : Nat} (hi : i < r) (hj : j < c) : matBit m' base c i j = matBit m base c i j := by
  rw [matBit, matBit, h _ (matByteAddr_has base hc hi hj)]

theorem matVec_congr {base : Word} {r c : Nat} (hc : c % 8 = 0) (h : AgreeOn (Region.has (matRegion base r c)) m m')
    (v : DWord) : matVec m' base r c v = matVec m base r c v :=
  packBits_congr fun i hi => congrArg (fun row => parity (row &&& v))
    (packBits_congr fun j hj => matBit_congr hc h (by omega) (by omega))

/-- The bytes of a matrix depend on its own bits alone. -/
theorem matByte_congr {r c : Nat} (hc : c % 8 = 0) {f f' : Nat → Nat → Bool} (h : ∀ i < r, ∀ j < c, f' i j = f i j)
    {t : Nat} (ht : t < r * c / 8) : matByte c f' t = matByte c f t := by
  obtain ⟨w, rfl⟩ : ∃ w, c = 8 * w := ⟨c / 8, by omega⟩
  rw [Nat.mul_left_comm, Nat.mul_div_cancel_left _ (by decide)] at ht
  have hw : 0 < w := Nat.pos_of_ne_zero fun h0 => by simp [h0] at ht
  unfold matByte
  rw [Nat.mul_div_cancel_left w (by decide)]
  have hrow : t / w < r := (Nat.div_lt_iff_lt_mul hw).2 ht
  have hcol := Nat.mod_lt t hw
  exact packBits_congr fun p hp => h _ hrow _ (by omega)

/-- The check of a block-code configuration passed (46_block_code.md R280): whole bytes per matrix row. -/
theorem blockCheck_passed {p : Params} {b : BlockUnit} (h : (!decide (blockLegal p b)) = false) :
    b.cwW.toNat % 8 = 0 ∧ b.srcW.toNat % 8 = 0 := by
  obtain ⟨hcw, hsrc, -⟩ := of_decide_eq_true (Bool.not_eq_false' _ ▸ h)
  omega

/-- The block decoder reads H and D alone (46_block_code.md R284). -/
theorem decodeBlock_congr {b : BlockUnit} (hc : b.cwW.toNat % 8 = 0) (hH : AgreeOn (Region.has (bcRegionH b)) m m')
    (hD : AgreeOn (Region.has (bcRegionD b)) m m') (cw : DWord) :
    decodeBlock m' b cw (syndrome m' b cw) = decodeBlock m b cw (syndrome m b cw) := by
  have hsyn : syndrome m' b = syndrome m b := funext fun v => matVec_congr hc hH v
  have hprod : decodeProduct m' b = decodeProduct m b := funext fun v => matVec_congr hc hD v
  simp only [decodeBlock, findMask, hsyn, hprod]

end

/-! ## Every command -/

theorem recordError_sameOn {P : Nat → Prop} {s u : State} (h : SameOn P s u) (c : ErrCode) (o : Byte) :
    SameOn P (recordError s c o) (recordError u c o) := by
  obtain ⟨m, rfl, h⟩ := h
  unfold recordError
  dsimp only
  split
  · exact ⟨m, rfl, h⟩
  · exact ⟨m, rfl, h⟩

/-- Commands whose checks read no memory: the answers agree when the effects do. -/
theorem runCommand_sameOn {P : Nat → Prop} {i : Instr} {l : List (Bool × ErrCode)} {e e' s t u : State}
    (h : runCommand i l e s = .next t) (hs : SameOn P s u) (he : firstFailure l = none → SameOn P e e') :
    ∃ v, runCommand i l e' u = .next v ∧ SameOn P t v := by
  rcases runCommand_cases i l e s with ⟨c, hc, hr⟩ | ⟨hn, hr⟩
  · rw [hr] at h
    cases h
    exact ⟨_, runCommand_of_some hc, recordError_sameOn hs _ _⟩
  · rw [hr] at h
    cases h
    exact ⟨e', runCommand_of_none hn, he hn⟩

theorem storeMatrix_sameOn {P : Nat → Prop} {s : State} {m : Memory} (h : AgreeOn P s.mem m) {r c : Nat} {f f' : Nat → Byte}
    (hf : ∀ t < r * c / 8, f' t = f t) : SameOn P (storeMatrix s r c f) (storeMatrix { s with mem := m } r c f') :=
  ⟨_, rfl, h.store _ hf⟩

theorem setMxRes_sameOn {P : Nat → Prop} {s : State} {m : Memory} (h : AgreeOn P s.mem m) {v v' : DWord} (hv : v' = v) :
    SameOn P (setMxRes s v) (setMxRes { s with mem := m } v') :=
  ⟨m, by rw [hv]; rfl, h⟩

/-- The memories agree on each region of a command's footprint that it reads. -/
theorem AgreeOn.region {s : State} {i : Instr} {m : Memory} (h : AgreeOn (Touches (readTable s i ++ writeTable s i)) s.mem m)
    {g : Region} (hg : g ∈ readTable s i) : AgreeOn (Region.has g) s.mem m :=
  fun a ha => h a ⟨g, List.mem_append_left _ hg, ha⟩

theorem touches_source {s : State} {i : Instr} (h : source s ∈ readTable s i) :
    ∀ k < s.ctl.srcLen.toNat, Touches (readTable s i ++ writeTable s i) (s.ctl.srcAddr.toNat + k) :=
  fun _ hk => ⟨source s, List.mem_append_left _ h, Nat.le_add_right _ _, Nat.add_lt_add_left hk _⟩

/-- Every command on two memories that agree on its footprint. -/
theorem exec_sameOn {i : Instr} {s t : State} {m : Memory} (h : exec i s = .next t)
    (hm : AgreeOn (Touches (readTable s i ++ writeTable s i)) s.mem m) :
    ∃ u, exec i { s with mem := m } = .next u ∧ SameOn (Touches (readTable s i ++ writeTable s i)) t u := by
  have hs : SameOn _ s { s with mem := m } := ⟨m, rfl, hm⟩
  cases i with
  | ceEncode =>
    refine runCommand_sameOn h hs fun _ => ?_
    obtain ⟨m', he, h'⟩ := encBytes_sameOn hs (touches_source (i := .ceEncode) (by simp [readTable]))
    exact ⟨m', by rw [he], h'⟩
  | ceFlush =>
    refine runCommand_sameOn h hs fun _ => ?_
    obtain ⟨m', he, h'⟩ := encTail_sameOn hs s.ce.lat.k.toNat
    exact ⟨m', by rw [he], h'⟩
  | vdDecode =>
    exact runCommand_sameOn h hs fun _ => decBytes_sameOn hs (touches_source (i := .vdDecode) (by simp [readTable]))
  | vdFlush =>
    refine runCommand_sameOn h hs fun _ => ?_
    obtain ⟨m', he, h'⟩ := emitAll_sameOn hs (walkBack s.vd.window s.vd.lat.depth.toNat (decFlushEmits s)
      (slot s.vd.window s.vd.wpos.toNat).lo s.vd.wpos.toNat [])
    exact ⟨m', congrArg (fun u => { u with vd := { clearRx u.vd with session := .spent } }) he, h'⟩
  | mxZero => exact runCommand_sameOn h hs fun _ => storeMatrix_sameOn hm fun _ _ => rfl
  | mxCopy =>
    have hA := hm.region (g := regA s) (by simp [readTable])
    exact runCommand_sameOn h hs fun _ =>
      storeMatrix_sameOn hm fun k hk => hA.byte hk
  | mxSetbit =>
    have hbyte := (hm.region (g := bitByte s) (by simp [readTable])).byte Nat.one_pos
    exact runCommand_sameOn h hs fun _ => ⟨_, rfl, hm.write fun _ => congrArg (setBit · _ _) hbyte⟩
  | mxGetbit =>
    have hbyte := (hm.region (g := bitByte s) (by simp [readTable])).byte Nat.one_pos
    exact runCommand_sameOn h hs fun _ => setMxRes_sameOn hm
      (congrArg (fun b : Byte => boolDWord (b.getLsbD (7 - s.mx.col.toNat % 8))) hbyte)
  | mxEqual =>
    have hA := hm.region (g := regA s) (by simp [readTable])
    have hB := hm.region (g := regB s s.mx.r s.mx.c) (by simp [readTable])
    exact runCommand_sameOn h hs fun _ => setMxRes_sameOn hm (congrArg boolDWord
      (allBelow_congr fun k hk => congrArg₂ (· == ·) (hA.byte hk) (hB.byte hk)))
  | mxIszero =>
    have hA := hm.region (g := regA s) (by simp [readTable])
    exact runCommand_sameOn h hs fun _ => setMxRes_sameOn hm (congrArg boolDWord
      (allBelow_congr fun k hk => congrArg (· == 0x00#8) (hA.byte hk)))
  | mxMulvec =>
    have hA := hm.region (g := regA s) (by simp [readTable])
    refine runCommand_sameOn h hs fun hn => setMxRes_sameOn hm (matVec_congr ?_ hA _)
    exact ((matrixChecks_passed_mid hn).1 s.mx.c (by simp)).1
  | mxMulmat =>
    have hA := hm.region (g := regA s) (by simp [readTable])
    have hB := hm.region (g := regB s s.mx.c s.mx.x) (by simp [readTable])
    refine runCommand_sameOn h hs fun hn => storeMatrix_sameOn hm fun k hk => ?_
    have hdims := (matrixChecks_passed hn).1
    have hc := (hdims s.mx.c (by simp)).1
    have hx := (hdims s.mx.x (by simp)).1
    refine matByte_congr hx (fun i hi j hj => ?_) hk
    exact congrArg (· % 2 == 1) (countBits_congr fun l hl => congrArg₂ _ (matBit_congr hc hA hi hl) (matBit_congr hx hB hl hj))
  | mxTranspose =>
    have hA := hm.region (g := regA s) (by simp [readTable])
    refine runCommand_sameOn h hs fun hn => storeMatrix_sameOn hm fun k hk => ?_
    have hdims := (matrixChecks_passed hn).1
    exact matByte_congr (hdims s.mx.r (by simp)).1
      (fun i hi j hj => matBit_congr (hdims s.mx.c (by simp)).1 hA hj hi) hk
  | bcEncode =>
    have hG := hm.region (g := bcRegionG s.bc) (by simp [readTable, bcRegionG, matRegion])
    refine runCommand_sameOn h hs fun hn => ?_
    have hdims := blockCheck_passed (firstFailure_cons_eq_none.1 hn).1
    have hout := matVec_congr hdims.2 hG (lowBits s.bc.srcW.toNat s.bc.input)
    exact ⟨m, congrArg (fun v => { s with mem := m, bc := { s.bc with out := v } }) hout, hm⟩
  | bcDecode =>
    have hH := hm.region (g := bcRegionH s.bc) (by simp [readTable, bcRegionH, matRegion])
    have hD := hm.region (g := bcRegionD s.bc) (by simp [readTable, bcRegionD, matRegion])
    refine runCommand_sameOn h hs fun hn => ?_
    have hdims := blockCheck_passed (firstFailure_cons_eq_none.1 hn).1
    have hunit := decodeBlock_congr hdims.1 hH hD (lowBits s.bc.cwW.toNat s.bc.input)
    exact ⟨m, congrArg (fun b => { s with mem := m, bc := b }) hunit, hm⟩
  | crcUpdate =>
    have hsrc := hm.region (g := source s) (by simp [readTable])
    refine runCommand_sameOn h hs fun _ => ?_
    have hacc := crcBytes_congr s.crc (fun k hk => hsrc.byte hk) (crcMask s.crc s.crc.acc)
    exact ⟨m, congrArg (fun v => { s with mem := m, crc := { s.crc with acc := v } }) hacc, hm⟩
  | ceReset | ceCalcsize _ | vdReset | vdCalcsize _ | crcPreset _ | mgInit | mgNext =>
    exact runCommand_sameOn h hs fun _ => ⟨m, rfl, hm⟩
  | nop | softReset | crcInit | crcFinal | buParity | buPopcount | buHamdist | buRev8 | buRev32 =>
    cases h
    exact ⟨_, rfl, m, rfl, hm⟩

/-- Settles O49: `exec_sameOn` for the memory `m`, which agrees on the footprint. -/
theorem footprintCoversReads : Obligations.FootprintCoversReads := by
  intro i s t m _ hm h
  obtain ⟨u, hu, m', rfl, hagree⟩ := exec_sameOn h hm
  exact ⟨_, hu, rfl, hagree⟩

end Sys2Proof.Machine
end

section
/-! The command words: which word decodes to which command, and what a core step does with a word that is no command
(30_encoding.md R130 to R137). -/

open Sys2Proof Sys2Proof.Claims

namespace Sys2Proof.Machine

/-! ## The two fields of a word (30_encoding.md R130) -/

/-- The two fields are the whole word. -/
theorem argOf_append_opOf (w : Word) : argOf w ++ opOf w = w :=
  (BitVec.extractLsb'_append_extractLsb'_eq_extractLsb' (by decide)).trans BitVec.extractLsb'_eq_self

theorem encode_eq_iff {i : Instr} {w : Word} : encode i = w ↔ i.opcode = opOf w ∧ i.arg = argOf w := by
  constructor
  · rintro rfl
    obtain ⟨hop, harg⟩ := fields_encode i
    exact ⟨hop.symm, harg.symm⟩
  · rintro ⟨hop, harg⟩
    rw [encode, hop, harg, argOf_append_opOf]

/-! ## The opcode map (30_encoding.md R133) -/

/-- The command stands in the row of the opcode `op`, with the argument `a` in the CMDA format and 0 in the CMD format
(30_encoding.md R130, R132). -/
def InRow (op : Byte) (a : BitVec 24) (i : Instr) : Prop :=
  i.opcode = op ∧ i.arg = if i.takesArg then a else 0#24

/-- One row of the map: a command that the row or the rest of the map answers stands in its row. -/
theorem inRow_ite {op c : Byte} {a : BitVec 24} {j : Instr} {rest : Option Instr} (hop : j.opcode = c)
    (harg : j.arg = if j.takesArg then a else 0#24) (hrest : ∀ i ∈ rest, InRow op a i) :
    ∀ i ∈ if op = c then some j else rest, InRow op a i := by
  split
  · next hc =>
    rintro i ⟨⟩
    exact ⟨hop.trans hc.symm, harg⟩
  · exact hrest

theorem instrOfOpcode_inRow (op : Byte) (a : BitVec 24) : ∀ i ∈ instrOfOpcode op a, InRow op a i := by
  unfold instrOfOpcode
  iterate 32 refine inRow_ite rfl rfl ?_
  nofun

/-- The map holds every command, in its row. -/
theorem instrOfOpcode_eq_some_iff {op : Byte} {a : BitVec 24} {i : Instr} :
    instrOfOpcode op a = some i ↔ InRow op a i := by
  refine ⟨instrOfOpcode_inRow op a i, ?_⟩
  rintro ⟨rfl, harg⟩
  cases i with
  | ceCalcsize b | vdCalcsize b | crcPreset b =>
    obtain rfl : b = a := harg
    rfl
  | _ => rfl

theorem arg_of_cmdFormat {i : Instr} (h : i.takesArg = false) : i.arg = 0#24 := by
  cases i with
  | ceCalcsize b | vdCalcsize b | crcPreset b => cases h
  | _ => rfl

/-- In the row of `op` the whole argument is the command's, once a CMD-format word is checked to have none
(30_encoding.md R135). -/
theorem inRow_and_format_iff {op : Byte} {a : BitVec 24} {i : Instr} :
    InRow op a i ∧ ¬ (i.takesArg = false ∧ a ≠ 0#24) ↔ i.opcode = op ∧ i.arg = a := by
  unfold InRow
  cases h : i.takesArg with
  | true => simp
  | false =>
    rw [arg_of_cmdFormat h, eq_comm (a := 0#24) (b := a)]
    simp

/-! ## The decoder (30_encoding.md R137) -/

/-- The decoder answers the command of the map, if it passes the checks of the format and of the preset. -/
theorem decode_eq_ok_iff_row {w : Word} {i : Instr} : decode w = .ok i ↔
    (InRow (opOf w) (argOf w) i ∧ ¬ (i.takesArg = false ∧ argOf w ≠ 0#24)) ∧ i.wellFormed = true := by
  rw [← instrOfOpcode_eq_some_iff, decode]
  constructor
  · intro h
    split at h
    · cases h
    · next hrow =>
      split_ifs at h with hformat hpreset
      cases h
      exact ⟨⟨hrow, hformat⟩, Bool.of_not_eq_false hpreset⟩
  · rintro ⟨⟨hrow, hformat⟩, hwf⟩
    rw [hrow]
    dsimp only
    rw [if_neg hformat, if_neg (by simp [hwf])]

theorem decode_eq_ok_iff {w : Word} {i : Instr} : decode w = .ok i ↔ i.wellFormed = true ∧ encode i = w := by
  rw [decode_eq_ok_iff_row, inRow_and_format_iff, encode_eq_iff, and_comm]

/-- Settles O1: the decoder inverts the opcode map, and the two fields are the whole word. -/
theorem decodeIffEncodedWord : Obligations.DecodeIffEncodedWord := fun _ _ => decode_eq_ok_iff

/-! ## Illegal words (30_encoding.md R134, R135) -/

theorem not_reserved_opcode (i : Instr) : ¬ reserved i.opcode.toNat := by
  unfold reserved
  cases i <;> simp [Instr.opcode]

theorem arg_of_not_takesArgument {i : Instr} (h : ¬ takesArgument i.opcode.toNat) : i.arg = 0#24 := by
  cases i with
  | ceCalcsize b | vdCalcsize b | crcPreset b => exact absurd (by simp [takesArgument, Instr.opcode]) h
  | _ => rfl

/-- The opcode of `CRC_PRESET` is that of no other command. -/
theorem preset_arg_le {i : Instr} (hop : i.opcode.toNat = 0x50) (hwf : i.wellFormed = true) : i.arg.toNat ≤ 5 := by
  cases i with
  | crcPreset b => exact of_decide_eq_true hwf
  | _ => simp [Instr.opcode] at hop

/-- The illegal words of the statement decode to no command. -/
theorem decode_illegal {w : Word} (h : reserved (opOf w).toNat ∨ (¬ takesArgument (opOf w).toNat ∧ argOf w ≠ 0#24) ∨
    ((opOf w).toNat = 0x50 ∧ 5 < (argOf w).toNat)) : ∃ e, decode w = .error e := by
  cases hw : decode w with
  | error e => exact ⟨e, rfl⟩
  | ok i =>
    exfalso
    obtain ⟨hwf, hword⟩ := decode_eq_ok_iff.1 hw
    obtain ⟨hop, harg⟩ := encode_eq_iff.1 hword
    rw [← hop, ← harg] at h
    rcases h with hreserved | ⟨hformat, hzero⟩ | ⟨hpreset, hrange⟩
    · exact not_reserved_opcode i hreserved
    · exact hzero (arg_of_not_takesArgument hformat)
    · exact Nat.not_lt.2 (preset_arg_le hpreset hwf) hrange

theorem coreStep_error {s : State} {w : Word} {e : DecodeReject} (hw : s.ctl.pending = some w) (he : decode w = .error e) :
    coreStep s = .next (completeCommand (recordError s .badCmd (opOf w))) := by
  rw [coreStep_pending hw, execute_error he]
  rfl

/-- Settles O3: an illegal word decodes to no command, so the core step records the error and completes. -/
theorem illegalWordOnlyRecordsBadCmd : Obligations.IllegalWordOnlyRecordsBadCmd := by
  intro s w hw hillegal
  obtain ⟨e, he⟩ := decode_illegal hillegal
  refine ⟨fun ht => ⟨_, rfl, ?_⟩, fun l ht => ⟨_, rfl, ?_⟩⟩
  · rw [step_core ht, coreStep_error hw he]
    rfl
  · rw [step_core_turn ht, coreStep_error (s := setTurns s l) hw he]
    rfl

end Sys2Proof.Machine
end

section
/-! The control commands (40_control.md R150, R151), the words of the CMD format (30_encoding.md R130, R135), and the
sessions that answer `NOT_RESET`. -/

open Sys2Proof Sys2Proof.Claims

namespace Sys2Proof.Machine

/-! ## The words of a CMD-format command -/

/-- `CRC_PRESET`, the one command with illegal arguments, is not of the CMD format. -/
theorem wellFormed_of_cmdFormat {i : Instr} (h : i.takesArg = false) : i.wellFormed = true := by
  cases i with
  | ceCalcsize b | vdCalcsize b | crcPreset b => cases h
  | _ => rfl

theorem inRow_of_cmdFormat {i : Instr} (h : i.takesArg = false) (a : BitVec 24) : InRow i.opcode a i :=
  ⟨rfl, by rw [h, arg_of_cmdFormat h]; rfl⟩

/-- The format check of the decoder (30_encoding.md R135). -/
theorem decode_nonzeroArg {w : Word} {i : Instr} (hrow : InRow (opOf w) (argOf w) i) (hformat : i.takesArg = false)
    (harg : argOf w ≠ 0#24) : decode w = .error .nonzeroArg := by
  rw [decode, instrOfOpcode_eq_some_iff.2 hrow]
  exact if_pos ⟨hformat, harg⟩

/-- Every command without an argument has the CMD format, at its own opcode. -/
theorem cmdFormat {i : Instr} (h : i.takesArg = false) : CmdFormat i.opcode i := by
  refine fun w hop => ⟨fun hzero => ?_, fun harg s => ?_⟩
  · exact decode_eq_ok_iff.2 ⟨wellFormed_of_cmdFormat h,
      encode_eq_iff.2 ⟨hop.symm, (arg_of_cmdFormat h).trans hzero.symm⟩⟩
  · have hrow : InRow (opOf w) (argOf w) i := hop.symm ▸ inRow_of_cmdFormat h _
    rw [execute_error (decode_nonzeroArg hrow h harg), hop]

/-! ## The control commands -/

theorem exec_nop (s : State) : exec .nop s = .next s := runCommand_nil .nop s s

theorem exec_softReset (s : State) : exec .softReset s = .next (softResetState s) :=
  runCommand_nil .softReset (softResetState s) s

/-- Settles O10: the word 0 is `NOP`, whose core step is its completion alone. -/
theorem nopChangesNothing : Obligations.NopChangesNothing := by
  refine ⟨cmdFormat (i := .nop) rfl, exec_nop, fun s hturns hpending => ?_⟩
  have hword : decode 0#32 = .ok .nop := decode_eq_ok_iff.2 ⟨rfl, rfl⟩
  rw [step_core hturns, coreStep_exec hpending hword (exec_nop s)]
  rfl

/-! ## `NOT_RESET` (43_conv_encoder.md R186, R187; 44_viterbi.md R224, R225; 42_mask_generator.md R173) -/

/-- The first check of the list is the first to fail. -/
theorem runCommand_of_head {i : Instr} {b : Bool} {c : ErrCode} {l : List (Bool × ErrCode)} {e s : State} (h : b = true) :
    runCommand i ((b, c) :: l) e s = .next (recordError s c i.opcode) :=
  runCommand_of_some (by rw [firstFailure_cons, if_pos h])

theorem exec_ceEncode_idle {s : State} (h : s.ce.session = .idle) :
    exec .ceEncode s = .next (recordError s .notReset 0x11#8) := runCommand_of_head (decide_eq_true h)

theorem exec_ceFlush_idle {s : State} (h : s.ce.session = .idle) :
    exec .ceFlush s = .next (recordError s .notReset 0x12#8) := runCommand_of_head (decide_eq_true h)

theorem exec_vdDecode_idle {s : State} (h : s.vd.session = .idle) :
    exec .vdDecode s = .next (recordError s .notReset 0x21#8) := runCommand_of_head (decide_eq_true h)

theorem exec_vdFlush_idle {s : State} (h : s.vd.session = .idle) :
    exec .vdFlush s = .next (recordError s .notReset 0x22#8) := runCommand_of_head (decide_eq_true h)

theorem exec_mgNext_invalid {s : State} (h : s.mg.valid = false) :
    exec .mgNext s = .next (recordError s .notReset 0x71#8) := runCommand_of_head (by rw [h]; rfl)

/-- Settles O11: both sessions are idle and the generator is not valid in the state `SOFT_RESET` leaves. -/
theorem softResetClearsResultState : Obligations.SoftResetClearsResultState := by
  refine ⟨cmdFormat (i := .softReset) rfl, fun s => ⟨softResetState s, exec_softReset s, rfl, ?_⟩⟩
  have hce : (softResetState s).ce.session = .idle := rfl
  have hvd : (softResetState s).vd.session = .idle := rfl
  have hmg : (softResetState s).mg.valid = false := rfl
  exact ⟨exec_ceEncode_idle hce, exec_ceFlush_idle hce, exec_vdDecode_idle hvd, exec_vdFlush_idle hvd,
    exec_mgNext_invalid hmg⟩

end Sys2Proof.Machine
end

section
/-! The bit utilities (41_bit_utilities.md R160 to R164). -/

open Sys2Proof Sys2Proof.Claims

namespace Sys2Proof.Machine

/-! ## The five commands: no check, and only `BU_RES` written -/

/-- A bit utility has no check to fail (60_exceptions.md R321). -/
theorem runBitUtil_eq (i : Instr) (v : DWord) (s : State) :
    runBitUtil i v s = .next { s with bu := { s.bu with res := v } } := runCommand_nil i _ s

theorem exec_buParity (s : State) :
    exec .buParity s = .next { s with bu := { s.bu with res := boolDWord (parity s.bu.a) } } :=
  runBitUtil_eq .buParity _ s

theorem exec_buPopcount (s : State) :
    exec .buPopcount s = .next { s with bu := { s.bu with res := BitVec.ofNat 64 (popcount s.bu.a) } } :=
  runBitUtil_eq .buPopcount _ s

theorem exec_buHamdist (s : State) :
    exec .buHamdist s = .next { s with bu := { s.bu with res := BitVec.ofNat 64 (hamming s.bu.a s.bu.b) } } :=
  runBitUtil_eq .buHamdist _ s

theorem exec_buRev8 (s : State) :
    exec .buRev8 s = .next { s with bu := { s.bu with res := revBits 8 s.bu.a } } :=
  runBitUtil_eq .buRev8 _ s

theorem exec_buRev32 (s : State) :
    exec .buRev32 s = .next { s with bu := { s.bu with res := revBits 32 s.bu.a } } :=
  runBitUtil_eq .buRev32 _ s

/-! ## Counting 1 bits (00_scope.md R17) -/

theorem popcount_eq_card {w : Nat} (v : BitVec w) :
    popcount v = ((Finset.range w).filter (fun i => v.getLsbD i = true)).card := countBits_eq_card ..

theorem popcount_le {w : Nat} (v : BitVec w) : popcount v ≤ w := countBits_le ..

theorem hamming_eq_card {w : Nat} (a b : BitVec w) :
    hamming a b = ((Finset.range w).filter (fun i => a.getLsbD i ≠ b.getLsbD i)).card := by
  simp only [hamming, popcount_eq_card, BitVec.getLsbD_xor, bne_iff_ne]

/-- A count of at most 64 ones fits the 64-bit result. -/
theorem popcount_toNat (v : DWord) : (BitVec.ofNat 64 (popcount v)).toNat = popcount v :=
  Nat.mod_eq_of_lt (Nat.lt_of_le_of_lt (popcount_le v) (by decide))

theorem boolDWord_parity_toNat {w : Nat} (v : BitVec w) : (boolDWord (parity v)).toNat = popcount v % 2 := by
  rw [boolDWord_toNat, parity]
  rcases Nat.mod_two_eq_zero_or_one (popcount v) with h | h <;> rw [h] <;> rfl

/-- Settles O12: a count of 64 bits never wraps, and the Hamming distance is the count of the xor. -/
theorem bitUtilitiesCountOnes : Obligations.BitUtilitiesCountOnes := by
  refine ⟨cmdFormat (i := .buParity) rfl, cmdFormat (i := .buPopcount) rfl, cmdFormat (i := .buHamdist) rfl, fun s => ?_⟩
  refine ⟨⟨_, exec_buParity s, ?_⟩, ⟨_, exec_buPopcount s, ?_⟩, ⟨_, exec_buHamdist s, ?_⟩⟩
  · rw [boolDWord_parity_toNat, popcount_eq_card]
  · rw [popcount_toNat, popcount_eq_card]
  · exact (popcount_toNat (s.bu.a ^^^ s.bu.b)).trans (hamming_eq_card s.bu.a s.bu.b)

/-! ## Reversal of the low bits (00_scope.md R17) -/

section
variable {w t : Nat} (ht : t ≤ w) (v : BitVec w)
include ht

theorem revBits_getLsbD_of_lt {j : Nat} (hj : j < t) : (revBits t v).getLsbD j = v.getLsbD (t - 1 - j) := by
  rw [revBits_getLsbD, decide_eq_true (Nat.lt_of_lt_of_le hj ht), decide_eq_true hj, Bool.true_and, Bool.true_and]

/-- Reversing twice keeps the low `t` bits and clears the others. -/
theorem revBits_revBits_toNat : (revBits t (revBits t v)).toNat = v.toNat % 2 ^ t := by
  apply Nat.eq_of_testBit_eq
  intro j
  rw [Nat.testBit_mod_two_pow, BitVec.testBit_toNat, BitVec.testBit_toNat]
  by_cases hj : j < t
  · rw [revBits_getLsbD_of_lt ht _ hj, revBits_getLsbD_of_lt ht _ (by omega), Nat.sub_sub_self (by omega),
      decide_eq_true hj, Bool.true_and]
  · rw [revBits_getLsbD, decide_eq_false hj, Bool.and_false, Bool.false_and, Bool.false_and]

end

theorem revBits_toNat_lt {w : Nat} (t : Nat) (v : BitVec w) : (revBits t v).toNat < 2 ^ t := by
  apply Nat.lt_pow_two_of_testBit
  intro j hj
  rw [BitVec.testBit_toNat, revBits_getLsbD, decide_eq_false (Nat.not_lt.2 hj), Bool.and_false, Bool.false_and]

/-- Settles O13: the reversed low bits, reversed again, are the low bits of the operand. -/
theorem bitUtilitiesReverse : Obligations.BitUtilitiesReverse := by
  refine ⟨cmdFormat (i := .buRev8) rfl, cmdFormat (i := .buRev32) rfl, fun s => ⟨?_, ?_⟩⟩
  · have ht : 8 ≤ 64 := by decide
    exact ⟨_, exec_buRev8 s, fun i hi => revBits_getLsbD_of_lt ht s.bu.a hi, revBits_toNat_lt 8 s.bu.a,
      _, exec_buRev8 _, revBits_revBits_toNat ht s.bu.a⟩
  · have ht : 32 ≤ 64 := by decide
    exact ⟨_, exec_buRev32 s, fun i hi => revBits_getLsbD_of_lt ht s.bu.a hi, revBits_toNat_lt 32 s.bu.a,
      _, exec_buRev32 _, revBits_revBits_toNat ht s.bu.a⟩

end Sys2Proof.Machine
end

section
/-! The error-mask generator (42_mask_generator.md R170 to R174). Its masks are those `masksOfWeight` lists: the masks still to
come at a positions array are split by the rightmost position that a later array raises, as `Advance` finds it. -/

open Sys2Proof Sys2Proof.Claims

namespace Sys2Proof.Machine

/-! ## `MG_INIT` (42_mask_generator.md R172) -/

theorem exec_mgInit_illegal {s : State} (h : s.mg.l.toNat < 1 ∨ 64 < s.mg.l.toNat ∨ s.params.maskKMax < s.mg.k.toNat ∨
    s.mg.l.toNat < s.mg.k.toNat) : exec .mgInit s = .next (recordError s .badConfig 0x70#8) := by
  refine runCommand_of_some ?_
  by_cases hl : s.mg.l.toNat < 1 ∨ 64 < s.mg.l.toNat
  · rw [firstFailure_cons, if_pos (decide_eq_true hl)]
  · have hk : s.params.maskKMax < s.mg.k.toNat ∨ s.mg.l.toNat < s.mg.k.toNat := by tauto
    rw [firstFailure_cons, if_neg (by simpa using hl), firstFailure_cons, if_pos (decide_eq_true hk)]

theorem exec_mgInit_legal {s : State} (length : 1 ≤ s.mg.l.toNat ∧ s.mg.l.toNat ≤ 64)
    (weight : s.mg.k.toNat ≤ s.params.maskKMax ∧ s.mg.k.toNat ≤ s.mg.l.toNat) :
    exec .mgInit s = .next { s with mg := initMask s.mg } := by
  refine runCommand_of_none (firstFailure_eq_none.2 ?_)
  simp only [List.forall_mem_cons, decide_eq_false_iff_not]
  exact ⟨by omega, by omega, nofun⟩

theorem mgInit_legal_of_passes {s : State} (h : passes s .mgInit = true) :
    (1 ≤ s.mg.l.toNat ∧ s.mg.l.toNat ≤ 64) ∧ s.mg.k.toNat ≤ s.params.maskKMax ∧ s.mg.k.toNat ≤ s.mg.l.toNat := by
  simp only [passes, errorOf, checksOf, Option.isNone_map, Option.isNone_iff_eq_none, List.find?_eq_none,
    List.mem_singleton, forall_eq, Bool.or_eq_true, decide_eq_true_eq] at h
  omega

theorem initMask_getD (g : MaskUnit) (i : Nat) :
    (initMask g).x.getD i 0 = if i < g.k.toNat then i else g.x.getD i 0 := by
  by_cases hi : i < g.k.toNat
  · simp [initMask, List.getD_eq_getElem?_getD, List.getElem?_append, hi]
  · have hx : g.k.toNat + (i - g.k.toNat) = i := by omega
    simp [initMask, List.getD_eq_getElem?_getD, List.getElem?_append, hi, hx]

/-- Settles O14: one of the two checks fails, or the command leaves `initMask`. -/
theorem mgInitStartsEnumeration : Obligations.MgInitStartsEnumeration := by
  refine ⟨cmdFormat (i := .mgInit) rfl, fun s => ⟨exec_mgInit_illegal, fun hl hl64 hk hkl => ?_⟩⟩
  refine ⟨(initMask s.mg).x, exec_mgInit_legal ⟨hl, hl64⟩ ⟨hk, hkl⟩, fun i hi => ?_, fun i hi => ?_⟩
  · rw [initMask_getD, if_pos hi]
  · rw [initMask_getD, if_neg (by omega)]

/-! ## `MG_NEXT` (42_mask_generator.md R173) -/

theorem exec_mgNext_valid {s : State} (h : s.mg.valid = true) :
    exec .mgNext s = .next { s with mg := nextMask s.mg } :=
  runCommand_of_none (by rw [firstFailure_cons, h]; rfl)

theorem nextMask_of_done {g : MaskUnit} (h : g.done = true) : nextMask g = { g with mask := 0 } := by
  rw [nextMask, if_pos h]

theorem nextMask_of_last {g : MaskUnit} (h : g.done = false)
    (hadv : advanceAt g.latL.toNat g.latK.toNat g.x g.latK.toNat = none) :
    nextMask g = { g with mask := maskOf g.latL.toNat g.x g.latK.toNat, done := true } := by
  rw [nextMask, h, advance, hadv]
  rfl

theorem nextMask_of_bump {g : MaskUnit} {i : Nat} (h : g.done = false)
    (hadv : advanceAt g.latL.toNat g.latK.toNat g.x g.latK.toNat = some i) :
    nextMask g = { g with
      mask := maskOf g.latL.toNat g.x g.latK.toNat, x := bumpAt g.latK.toNat i g.x, done := false } := by
  rw [nextMask, h, advance, hadv]
  rfl

/-- The mask returned is that of the positions before the step. -/
theorem nextMask_mask {g : MaskUnit} (h : g.done = false) :
    (nextMask g).mask = maskOf g.latL.toNat g.x g.latK.toNat := by
  rw [nextMask, h]
  rfl

/-- A step of `MG_NEXT` writes only the mask, the positions and `DONE`. -/
theorem nextMask_frame (g : MaskUnit) :
    nextMask g = { g with mask := (nextMask g).mask, x := (nextMask g).x, done := (nextMask g).done } := by
  unfold nextMask
  split <;> rfl

theorem advanceAt_none {l k n : Nat} {x : List Nat} (h : advanceAt l k x n = none) :
    ∀ j < n, x.getD j 0 = l - (k - j) := by
  induction n with
  | zero => exact nofun
  | succ n ih =>
    rw [advanceAt] at h
    split at h
    · next hx =>
      intro j hj
      rcases Nat.lt_succ_iff_lt_or_eq.1 hj with hj | rfl
      · exact ih h j hj
      · exact hx
    · cases h

/-- The scan passes over the positions at their maximum to the right of the one it finds. -/
theorem advanceAt_some_right {l k n i : Nat} {x : List Nat} (h : advanceAt l k x n = some i) :
    ∀ j, i < j → j < n → x.getD j 0 = l - (k - j) := by
  induction n with
  | zero => cases h
  | succ n ih =>
    rw [advanceAt] at h
    split at h
    · next hx =>
      intro j hij hj
      rcases Nat.lt_succ_iff_lt_or_eq.1 hj with hj | rfl
      · exact ih h j hij hj
      · exact hx
    · cases h
      intro j hij hj
      omega

theorem one_shiftLeft_getLsbD (n i : Nat) : (1#64 <<< n).getLsbD i = (decide (n < 64) && decide (n = i)) :=
  BitVec.getLsbD_twoPow n i

/-- The bits of a mask are its positions, counted from the most significant bit (R170). -/
theorem maskOf_getLsbD {l i : Nat} (x : List Nat) (hi : i < 64) (k : Nat) :
    (maskOf l x k).getLsbD i = true ↔ ∃ j < k, l - x.getD j 0 - 1 = i := by
  induction k with
  | zero => simp [maskOf]
  | succ k ih =>
    have hbit : (1#64 <<< (l - x.getD k 0 - 1)).getLsbD i = true ↔ l - x.getD k 0 - 1 = i := by
      rw [one_shiftLeft_getLsbD, Bool.and_eq_true, decide_eq_true_eq, decide_eq_true_eq]
      omega
    rw [maskOf, BitVec.getLsbD_or, Bool.or_eq_true, ih, hbit, Nat.exists_lt_succ_right]

/-- Settles O15: `Advance` finds no position to raise, or raises the one its scan stops at. -/
theorem mgNextReturnsMaskAndAdvances : Obligations.MgNextReturnsMaskAndAdvances := by
  refine ⟨cmdFormat (i := .mgNext) rfl, fun s => exec_mgNext_invalid, fun s hv hd => ?_, fun s hs hv hd => ?_⟩
  · rw [exec_mgNext_valid hv, nextMask_of_done hd]
  · refine ⟨_, exec_mgNext_valid hv, congrArg (fun g => { s with mg := g }) (nextMask_frame s.mg), fun i hi => ?_, ?_⟩
    · rw [nextMask_mask hd, maskOf_getLsbD _ hi]
      refine exists_congr fun j => and_congr_right fun hj => ?_
      have hbelow := hs.below hv j hj
      omega
    · cases hadv : advanceAt s.mg.latL.toNat s.mg.latK.toNat s.mg.x s.mg.latK.toNat with
      | none =>
        rw [nextMask_of_last hd hadv]
        exact .inl ⟨advanceAt_none hadv, rfl, rfl⟩
      | some i =>
        obtain ⟨hi, hx⟩ := advanceAt_some hadv
        rw [nextMask_of_bump hd hadv]
        refine .inr ⟨i, hi, hx, advanceAt_some_right hadv, rfl, ?_, fun j hij hj => ?_, fun j hj => ?_⟩
        · rw [bumpAt_getD, if_pos ⟨Nat.le_refl i, hi⟩, Nat.sub_self, Nat.add_zero]
        · rw [bumpAt_getD, bumpAt_getD, if_pos ⟨by omega, hj⟩, if_pos ⟨by omega, by omega⟩]
          omega
        · rw [bumpAt_getD, if_neg (by omega)]

/-! ## The masks of a weight (42_mask_generator.md R174) -/

theorem masksOfWeight_zero (l : Nat) : masksOfWeight l 0 = [0#64] := by cases l <;> rfl

theorem masksOfWeight_length (l k : Nat) : (masksOfWeight l k).length = Nat.choose l k := by
  induction l generalizing k with
  | zero => cases k <;> rfl
  | succ l ih =>
    cases k with
    | zero => rfl
    | succ k => rw [masksOfWeight, List.length_append, List.length_map, ih, ih, Nat.choose_succ_succ]

theorem masksOfWeight_of_lt {l k : Nat} (h : l < k) : masksOfWeight l k = [] :=
  List.eq_nil_of_length_eq_zero ((masksOfWeight_length l k).trans (Nat.choose_eq_zero_of_lt h))

/-- A new top bit is added to the value of a mask below it. -/
theorem topBit_or_toNat {l : Nat} (hl : l < 64) {m : DWord} (hm : m.toNat < 2 ^ l) :
    (1#64 <<< l ||| m).toNat = 2 ^ l + m.toNat := by
  have htop : (1#64 <<< l).toNat = 2 ^ l := BitVec.toNat_twoPow_of_lt hl
  simpa [BitVec.toNat_or, htop] using (Nat.two_pow_add_eq_or_of_lt hm 1).symm

theorem popcount_topBit_or {l : Nat} (hl : l < 64) {m : DWord} (hm : m.toNat < 2 ^ l) :
    popcount (1#64 <<< l ||| m) = popcount m + 1 := by
  have hnew : m.getLsbD l = false := Nat.testBit_lt_two_pow hm
  have hbits : (Finset.range 64).filter (fun i => (1#64 <<< l ||| m).getLsbD i = true) =
      insert l ((Finset.range 64).filter (fun i => m.getLsbD i = true)) := by
    ext i
    simp only [Finset.mem_filter, Finset.mem_range, Finset.mem_insert, BitVec.getLsbD_or, one_shiftLeft_getLsbD, hl,
      decide_true, Bool.true_and, Bool.or_eq_true, decide_eq_true_eq]
    constructor
    · rintro ⟨hi, rfl | hbit⟩
      · exact .inl rfl
      · exact .inr ⟨hi, hbit⟩
    · rintro (rfl | ⟨hi, hbit⟩)
      · exact ⟨hl, .inl rfl⟩
      · exact ⟨hi, .inr hbit⟩
  rw [popcount_eq_card, popcount_eq_card, hbits, Finset.card_insert_of_notMem (by simp [hnew])]

/-- Every mask of the list has `l` bits and weight `k`. -/
theorem mem_masksOfWeight {l k : Nat} (hl : l ≤ 64) {m : DWord} (h : m ∈ masksOfWeight l k) :
    m.toNat < 2 ^ l ∧ popcount m = k := by
  induction l generalizing k m with
  | zero =>
    cases k with
    | zero =>
      cases List.mem_singleton.1 h
      decide
    | succ k => cases h
  | succ l ih =>
    have hl' : l ≤ 64 := by omega
    have hpow : 2 ^ (l + 1) = 2 ^ l + 2 ^ l := by omega
    cases k with
    | zero =>
      cases List.mem_singleton.1 h
      exact ⟨Nat.two_pow_pos _, by decide⟩
    | succ k =>
      rw [masksOfWeight, List.mem_append, List.mem_map] at h
      rcases h with ⟨m, hm, rfl⟩ | hm
      · obtain ⟨hlt, hweight⟩ := ih hl' hm
        rw [topBit_or_toNat hl hlt, popcount_topBit_or hl hlt, hweight]
        exact ⟨by omega, rfl⟩
      · obtain ⟨hlt, hweight⟩ := ih hl' hm
        exact ⟨by omega, hweight⟩

/-- The masks with the top bit come before those without it. -/
theorem masksOfWeight_decreasing {l : Nat} (hl : l ≤ 64) (k : Nat) :
    (masksOfWeight l k).Pairwise (fun a b => b.toNat < a.toNat) := by
  induction l generalizing k with
  | zero => cases k <;> simp [masksOfWeight]
  | succ l ih =>
    have hl' : l ≤ 64 := by omega
    cases k with
    | zero => simp [masksOfWeight]
    | succ k =>
      have hvalue : ∀ m ∈ masksOfWeight l k, (1#64 <<< l ||| m).toNat = 2 ^ l + m.toNat := fun m hm =>
        topBit_or_toNat hl (mem_masksOfWeight hl' hm).1
      rw [masksOfWeight, List.pairwise_append, List.pairwise_map]
      refine ⟨(ih hl' k).imp_of_mem fun {a b} ha hb hab => ?_, ih hl' (k + 1), fun a ha b hb => ?_⟩
      · rw [hvalue a ha, hvalue b hb]
        omega
      · obtain ⟨m, hm, rfl⟩ := List.mem_map.1 ha
        have hlt := (mem_masksOfWeight hl' hb).1
        rw [hvalue m hm]
        omega

/-! ## The masks still to come -/

/-- The masks of the arrays that agree with `x` left of some index `j` below `n` and have a greater position at `j`, the
rightmost `j` first: the bits of the positions left of `j`, and `k − j` bits below the bit of `x[j]`. -/
def laterMasks (l k : Nat) (x : List Nat) : Nat → List DWord
  | 0 => []
  | j + 1 => (masksOfWeight (l - x.getD j 0 - 1) (k - j)).map (fun m => maskOf l x j ||| m) ++ laterMasks l k x j

/-- The masks that the generator has still to return before its zeros. -/
def remainingMasks (g : MaskUnit) : List DWord :=
  if g.done then []
  else maskOf g.latL.toNat g.x g.latK.toNat :: laterMasks g.latL.toNat g.latK.toNat g.x g.latK.toNat

theorem maskOf_congr {l n : Nat} {x y : List Nat} (h : ∀ j < n, x.getD j 0 = y.getD j 0) : maskOf l x n = maskOf l y n := by
  induction n with
  | zero => rfl
  | succ n ih => rw [maskOf, maskOf, ih fun j hj => h j (by omega), h n (by omega)]

theorem laterMasks_congr {l k n : Nat} {x y : List Nat} (h : ∀ j < n, x.getD j 0 = y.getD j 0) :
    laterMasks l k x n = laterMasks l k y n := by
  induction n with
  | zero => rfl
  | succ n ih =>
    have hbelow : ∀ j < n, x.getD j 0 = y.getD j 0 := fun j hj => h j (by omega)
    rw [laterMasks, laterMasks, ih hbelow, maskOf_congr hbelow, h n (by omega)]

/-- No later array has a greater position where `x` is at its maximum. -/
theorem laterMasks_of_max {l k i n : Nat} {x : List Nat} (hin : i ≤ n) (hn : n ≤ k)
    (hmax : ∀ j, i ≤ j → j < n → x.getD j 0 = l - (k - j)) : laterMasks l k x n = laterMasks l k x i := by
  induction n, hin using Nat.le_induction with
  | base => rfl
  | succ n hin ih =>
    have hnone : masksOfWeight (l - x.getD n 0 - 1) (k - n) = [] := by
      apply masksOfWeight_of_lt
      rw [hmax n hin (Nat.lt_succ_self n)]
      omega
    rw [laterMasks, hnone, ih (by omega) fun j hij hj => hmax j hij (by omega)]
    rfl

/-- Consecutive positions from index `i` on are the first of all choices of `k − i` positions from `p` on. -/
theorem masks_of_consecutive {l k i p : Nat} {x : List Nat} (hi : i ≤ k) (room : p + (k - i) ≤ l)
    (hx : ∀ j, i ≤ j → j < k → x.getD j 0 = p + (j - i)) :
    maskOf l x k :: laterMasks l k x k =
      (masksOfWeight (l - p) (k - i)).map (fun m => maskOf l x i ||| m) ++ laterMasks l k x i := by
  induction hi using Nat.decreasingInduction generalizing p with
  | self => simp [masksOfWeight_zero]
  | of_succ i hi ih =>
    have hp : x.getD i 0 = p := by rw [hx i (Nat.le_refl i) hi, Nat.sub_self, Nat.add_zero]
    have hl : l - p = (l - p - 1) + 1 := by omega
    have hk : k - i = (k - (i + 1)) + 1 := by omega
    have hnext := ih (p := p + 1) (by omega) fun j hij hj => by rw [hx j (by omega) hj]; omega
    rw [hnext, laterMasks, maskOf, hp, ← Nat.sub_sub, hl, hk, masksOfWeight, ← hk]
    simp [Function.comp_def, BitVec.or_assoc]

/-- `Advance` moves to the first of the masks still to come. -/
theorem laterMasks_of_bump {l k i : Nat} {x : List Nat} (hadv : advanceAt l k x k = some i)
    (room : x.getD i 0 + (k - i) ≤ l) :
    laterMasks l k x k = maskOf l (bumpAt k i x) k :: laterMasks l k (bumpAt k i x) k := by
  obtain ⟨hi, hx⟩ := advanceAt_some hadv
  have hleft : ∀ j < i, x.getD j 0 = (bumpAt k i x).getD j 0 := fun j hj => by
    rw [bumpAt_getD, if_neg (by omega)]
  have hright : ∀ j, i ≤ j → j < k → (bumpAt k i x).getD j 0 = x.getD i 0 + 1 + (j - i) := fun j hij hj => by
    rw [bumpAt_getD, if_pos ⟨hij, hj⟩]
  rw [masks_of_consecutive hi.le (by omega) hright, laterMasks_of_max hi (Nat.le_refl k) (advanceAt_some_right hadv),
    laterMasks, maskOf_congr hleft, laterMasks_congr hleft, Nat.sub_sub]

theorem remainingMasks_of_done {g : MaskUnit} (h : g.done = true) : remainingMasks g = [] := by
  rw [remainingMasks, if_pos h]

theorem remainingMasks_of_running {g : MaskUnit} (h : g.done = false) : remainingMasks g =
    maskOf g.latL.toNat g.x g.latK.toNat :: laterMasks g.latL.toNat g.latK.toNat g.x g.latK.toNat := by
  rw [remainingMasks, h]
  rfl

/-- A running generator returns the first of its remaining masks and goes on to the others. -/
theorem remainingMasks_nextMask {s : State} (hs : MaskGenSound s) (hv : s.mg.valid = true) (hd : s.mg.done = false) :
    remainingMasks s.mg = (nextMask s.mg).mask :: remainingMasks (nextMask s.mg) := by
  rw [remainingMasks_of_running hd, nextMask_mask hd]
  congr 1
  cases hadv : advanceAt s.mg.latL.toNat s.mg.latK.toNat s.mg.x s.mg.latK.toNat with
  | none =>
    rw [nextMask_of_last hd hadv, remainingMasks_of_done rfl,
      laterMasks_of_max (Nat.zero_le _) (Nat.le_refl _) fun j _ => advanceAt_none hadv j]
    rfl
  | some i =>
    have room := position_room (hs.rising hv) (hs.below hv) (advanceAt_some hadv).1
    rw [nextMask_of_bump hd hadv, remainingMasks_of_running rfl, laterMasks_of_bump hadv room]

/-- `MG_INIT` starts before all the masks of its length and weight. -/
theorem remainingMasks_initMask {g : MaskUnit} (hk : 1 ≤ g.k.toNat) (hkl : g.k.toNat ≤ g.l.toNat) :
    remainingMasks (initMask g) = masksOfWeight g.l.toNat g.k.toNat := by
  have hrun : (initMask g).done = false := by
    refine decide_eq_false fun h0 => ?_
    rw [h0] at hk
    exact absurd hk (by decide)
  have hfirst : ∀ j, 0 ≤ j → j < g.k.toNat → (initMask g).x.getD j 0 = 0 + (j - 0) := fun j _ hj => by
    rw [initMask_getD, if_pos hj, Nat.zero_add, Nat.sub_zero]
  have hall := masks_of_consecutive (l := g.l.toNat) (Nat.zero_le _) (by omega) hfirst
  rw [remainingMasks_of_running hrun]
  refine hall.trans ?_
  simp [maskOf, laterMasks]

/-! ## What successive `MG_NEXT` commands return -/

theorem masksReturned_succ {s : State} (hv : s.mg.valid = true) (n : Nat) :
    masksReturned (n + 1) s = (nextMask s.mg).mask :: masksReturned n { s with mg := nextMask s.mg } := by
  rw [masksReturned, exec_mgNext_valid hv]

theorem nextMask_valid (g : MaskUnit) : (nextMask g).valid = g.valid := by rw [nextMask_frame]

/-- The remaining masks in their order, then 0 for ever. -/
theorem masksReturned_eq {s : State} (hs : MaskGenSound s) (hv : s.mg.valid = true) (n : Nat) :
    masksReturned n s = (remainingMasks s.mg ++ List.replicate n 0#64).take n := by
  induction n generalizing s with
  | zero => rfl
  | succ n ih =>
    have hnext := ih (nextMask_sound hs hv) ((nextMask_valid s.mg).trans hv)
    rw [masksReturned_succ hv, hnext]
    cases hd : s.mg.done with
    | true =>
      have hd' : (nextMask s.mg).done = true := by rw [nextMask_of_done hd]; exact hd
      rw [remainingMasks_of_done hd, remainingMasks_of_done hd', nextMask_of_done hd]
      rfl
    | false =>
      have hfill : n ≤ (remainingMasks (nextMask s.mg) ++ List.replicate n 0#64).length := by simp
      rw [remainingMasks_nextMask hs hv hd, List.cons_append, List.take_succ_cons, List.replicate_succ',
        ← List.append_assoc, List.take_append_of_le_length hfill]

/-- After `MG_INIT` the generator returns the masks of its length and weight, then 0 for ever. -/
theorem masksReturned_after_mgInit {s t : State} (hp : passes s .mgInit = true) (hk : 1 ≤ s.mg.k.toNat)
    (h : exec .mgInit s = .next t) (n : Nat) :
    masksReturned n t = (masksOfWeight s.mg.l.toNat s.mg.k.toNat ++ List.replicate n 0#64).take n := by
  obtain ⟨length, weight⟩ := mgInit_legal_of_passes hp
  cases (exec_mgInit_legal length weight).symm.trans h
  rw [masksReturned_eq (initMask_sound length weight) rfl]
  exact congrArg (fun l => (l ++ List.replicate n 0#64).take n) (remainingMasks_initMask hk weight.2)

/-- The first C(L, k) masks returned are those of weight k, in the order of the block-code search (46_block_code.md R282). -/
theorem masksReturned_choose_after_mgInit {s t : State} (hp : passes s .mgInit = true) (hk : 1 ≤ s.mg.k.toNat)
    (h : exec .mgInit s = .next t) :
    masksReturned (Nat.choose s.mg.l.toNat s.mg.k.toNat) t = masksOfWeight s.mg.l.toNat s.mg.k.toNat := by
  rw [masksReturned_after_mgInit hp hk h, List.take_left' (masksOfWeight_length _ _)]

/-- Settles O16: the generator returns the list `masksOfWeight`, which is decreasing and holds C(L, k) masks of weight k. -/
theorem maskEnumerationIsComplete : Obligations.MaskEnumerationIsComplete := by
  intro s t hp hk h
  have hl := (mgInit_legal_of_passes hp).1.2
  rw [masksReturned_choose_after_mgInit hp hk h]
  refine ⟨masksOfWeight_length _ _, masksOfWeight_decreasing hl _, fun m hm => ?_, fun n m hn hm => ?_⟩
  · rw [← popcount_eq_card]
    exact mem_masksOfWeight hl hm
  · have hpast : (masksOfWeight s.mg.l.toNat s.mg.k.toNat).length ≤ n := (masksOfWeight_length _ _).trans_le hn
    rw [masksReturned_after_mgInit hp hk h, List.getElem?_take_of_lt (Nat.lt_succ_self n),
      List.getElem?_append_right hpast] at hm
    exact List.eq_of_mem_replicate (List.mem_of_getElem? hm)

end Sys2Proof.Machine
end

section
/-! The commands of the encoder and their checks (43_conv_encoder.md R180, R185 to R188). -/

open Sys2Proof Sys2Proof.Claims

namespace Sys2Proof.Machine

/-! ## Checks as the statements spell them -/

theorem passes_iff_firstFailure {s : State} {i : Instr} :
    passes s i = true ↔ firstFailure (checksOf s i) = none := by
  simp only [passes, errorOf, Option.isNone_map, Option.isNone_iff_eq_none, List.find?_eq_none, Bool.not_eq_true,
    firstFailure_eq_none]

theorem not_inRange (s : State) (base len : Nat) :
    (!decide (Region.inRange s.params ⟨base, len⟩)) = beyond s base len := by
  rw [beyond, ← decide_not]
  exact decide_eq_decide.2 Nat.not_le

/-! ## The legal configuration (43_conv_encoder.md R180) -/

theorem encLegal_iff_encOk {p : Params} {c : EncConfig} : encLegal p c ↔ encOk p c := by
  unfold encLegal encOk Config.plenMax
  tauto

theorem decide_encLegal (p : Params) (c : EncConfig) : decide (encLegal p c) = decide (encOk p c) :=
  decide_eq_decide.2 encLegal_iff_encOk

theorem rate_pos_of_encOk {p : Params} {c : EncConfig} (h : encOk p c) : 0 < c.n.toNat := by
  obtain ⟨-, -, hn, -⟩ := h
  omega

theorem plen_pos_of_encOk {p : Params} {c : EncConfig} (h : encOk p c) : 1 ≤ c.plen.toNat := by
  obtain ⟨-, -, -, -, hplen, -⟩ := h
  exact hplen

/-! ## `CE_RESET` (43_conv_encoder.md R185) -/

/-- The state `CE_RESET` leaves. -/
def resetEncoder (s : State) : State :=
  { s with ce := { s.ce with
      lat := { s.ce.cfg with poly := latchPolys s.params s.ce.cfg.poly s.ce.lat.poly }
      sr := 0, out := Cursor.start, pcur := 0, inBytes := 0, session := .active } }

theorem exec_ceReset (s : State) : exec .ceReset s = runCommand .ceReset (checksOf s .ceReset) (resetEncoder s) s := by
  rw [checksOf, ← decide_encLegal, ← not_inRange]
  rfl

theorem ceResetChecks_iff {s : State} : firstFailure (checksOf s .ceReset) = none ↔
    encOk s.params s.ce.cfg ∧ s.ce.cfg.outBase.toNat + s.ce.cfg.outLimit.toNat ≤ 2 ^ s.params.addrW := by
  simp only [checksOf, beyond, firstFailure_cons_eq_none, firstFailure_nil, Bool.not_eq_false', decide_eq_true_eq,
    decide_eq_false_iff_not, Nat.not_lt, and_true]

theorem latchPolys_getD (p : Params) (live old : List Word) {j : Nat} (hj : j < 8) :
    (latchPolys p live old).getD j 0 = if j < p.nMax then live.getD j 0 else old.getD j 0 := by
  simp [latchPolys, List.getD_eq_getElem?_getD, hj]

/-- Settles O18: one of the two checks fails, or the command leaves `resetEncoder`. -/
theorem ceResetBeginsSession : Obligations.CeResetBeginsSession := by
  refine ⟨cmdFormat (i := .ceReset) rfl, fun s => ?_⟩
  rw [exec_ceReset]
  refine ⟨fun h => runCommand_of_head ?_, fun h top => runCommand_of_some ?_, fun h top =>
    ⟨latchPolys s.params s.ce.cfg.poly s.ce.lat.poly, runCommand_of_none (ceResetChecks_iff.2 ⟨h, top⟩),
      fun _ => latchPolys_getD _ _ _⟩⟩
  · rw [decide_eq_false h]
    rfl
  · rw [checksOf, decide_eq_true h, beyond, decide_eq_true top]
    rfl

/-! ## `CE_CALCSIZE` (43_conv_encoder.md R188) -/

theorem exec_ceCalcsize_illegal {s : State} (a : BitVec 24) (h : ¬ encOk s.params s.ce.cfg) :
    exec (.ceCalcsize a) s = .next (recordError s .badConfig 0x13#8) :=
  runCommand_of_head (by rw [decide_encLegal, decide_eq_false h]; rfl)

theorem exec_ceCalcsize_legal {s : State} (a : BitVec 24) (h : encOk s.params s.ce.cfg) :
    exec (.ceCalcsize a) s =
      .next { s with ce := { s.ce with size := BitVec.ofNat 32 (encSize s.ce.cfg a.toNat) } } :=
  runCommand_of_none (by rw [decide_encLegal, decide_eq_true h]; rfl)

/-- A pattern emits at most every position, so the size is at most that of a 24-bit byte count, unpunctured, in the widest
configuration the registers hold. -/
theorem encSize_lt {c : EncConfig} (h : 1 ≤ c.plen.toNat) (a : BitVec 24) : encSize c a.toNat < 2 ^ 28 := by
  have hbits : (8 * a.toNat + c.k.toNat) * c.n.toNat ≤ (8 * (2 ^ 24 - 1) + 63) * 15 :=
    Nat.mul_le_mul (by have := a.isLt; have := c.k.isLt; omega) (by have := c.n.isLt; omega)
  have hones : patternOnes c ≤ c.plen.toNat := countBits_le ..
  have hkept : ceilDiv ((8 * a.toNat + c.k.toNat) * c.n.toNat * patternOnes c) c.plen.toNat ≤
      (8 * a.toNat + c.k.toNat) * c.n.toNat := by
    rw [ceilDiv_le_iff h, Nat.mul_comm c.plen.toNat]
    exact Nat.mul_le_mul_left _ hones
  have hsize : encSize c a.toNat ≤ 2 ^ 28 - 1 := by
    rw [encSize, ceilDiv_le_iff (by decide)]
    omega
  omega

/-- Settles O22: the count of the pattern's ones is the cardinality of the formula, and the size fits the register. -/
theorem ceCalcsizeIsTheFormula : Obligations.CeCalcsizeIsTheFormula := by
  refine ⟨fun w hop => decode_eq_ok_iff.2 ⟨rfl, encode_eq_iff.2 ⟨hop.symm, rfl⟩⟩, fun s a =>
    ⟨exec_ceCalcsize_illegal a, fun h => ?_⟩⟩
  have hplen := plen_pos_of_encOk h
  have hlt : encSize s.ce.cfg a.toNat < 2 ^ 28 := encSize_lt hplen a
  have hv : (BitVec.ofNat 32 (encSize s.ce.cfg a.toNat)).toNat = encSize s.ce.cfg a.toNat :=
    Nat.mod_eq_of_lt (Nat.lt_trans hlt (by decide))
  refine ⟨_, exec_ceCalcsize_legal a h, hv.trans_lt hlt, _, rfl, ?_⟩
  rw [hv, encSize, patternOnes, countBits_eq_card, ceilDiv, ceilDiv, Nat.add_sub_assoc hplen]
  rfl

end Sys2Proof.Machine
end

section
/-! What a run of encoder cycles writes (43_conv_encoder.md R181 to R184, R191): the shift register and the output stream after
any number of cycles, as functions of the input bits. -/

open Sys2Proof Sys2Proof.Claims

namespace Sys2Proof.Machine

/-! ## Runs of cycles -/

/-- `m` cycles that shift in the bits `f 0, f 1, …`. -/
def encRun (f : Nat → Bool) : Nat → State → State
  | 0, s => s
  | m + 1, s => encCycle (f m) (encRun f m s)

theorem encRun_add (f : Nat → Bool) (m n : Nat) (s : State) :
    encRun f (m + n) s = encRun (fun j => f (m + j)) n (encRun f m s) := by
  induction n with
  | zero => rfl
  | succ n ih => rw [← Nat.add_assoc, encRun, ih, encRun]

theorem encRun_congr {f g : Nat → Bool} {m : Nat} (h : ∀ j < m, f j = g j) (s : State) : encRun f m s = encRun g m s := by
  induction m with
  | zero => rfl
  | succ m ih => rw [encRun, encRun, ih fun j hj => h j (by omega), h m (by omega)]

theorem encTail_eq_encRun (n : Nat) (s : State) : encTail n s = encRun (fun _ => false) n s := by
  induction n generalizing s with
  | zero => rfl
  | succ n ih => rw [encTail, ih, Nat.add_comm n 1, encRun_add]; rfl

theorem encByte_eq_encRun (b : Byte) (s : State) : encByte b s = encRun (fun j => b.getLsbD (7 - j)) 8 s := by
  simp [encByte, encRun]

theorem streamBit_succ (m : Memory) (a j : Nat) : streamBit m a (8 + j) = streamBit m (a + 1) j := by
  unfold streamBit
  rw [show a + (8 + j) / 8 = a + 1 + j / 8 by omega, show (8 + j) % 8 = j % 8 by omega]

theorem streamBit_of_lt (m : Memory) (a : Nat) {j : Nat} (h : j < 8) : streamBit m a j = (Memory.read m a).getLsbD (7 - j) := by
  unfold streamBit
  rw [Nat.div_eq_of_lt h, Nat.mod_eq_of_lt h, Nat.add_zero]

/-- A bit placed at position `n` of a word. -/
theorem singleBit_getLsbD {w n : Nat} (hn : n < w) (v : Bool) (i : Nat) :
    (if v then 1#w <<< n else 0#w).getLsbD i = (v && decide (i = n)) := by
  cases v with
  | false => rw [if_neg Bool.false_ne_true, BitVec.getLsbD_zero, Bool.false_and]
  | true =>
    rw [if_pos rfl, ← BitVec.twoPow_eq, BitVec.getLsbD_twoPow, decide_eq_true hn, Bool.true_and, Bool.true_and]
    exact decide_eq_decide.2 eq_comm

/-! ## The shift register (43_conv_encoder.md R181, R184) -/

/-- The register after `c` cycles: its low K bits as the statements count them, nothing above. -/
def RegisterAfter (s : State) (f : Nat → Bool) (c : Nat) (sr : Word) : Prop :=
  ∀ i, sr.getLsbD i = (decide (i < s.ce.lat.k.toNat) && srBit s f c i)

theorem RegisterAfter.start {s : State} (f : Nat → Bool) (h : s.ce.sr.toNat < 2 ^ s.ce.lat.k.toNat) :
    RegisterAfter s f 0 s.ce.sr := by
  intro i
  by_cases hi : i < s.ce.lat.k.toNat
  · simp [srBit, hi]
  · rw [decide_eq_false hi, Bool.false_and, ← BitVec.testBit_toNat]
    exact Nat.testBit_lt_two_pow (Nat.lt_of_lt_of_le h (Nat.pow_le_pow_right (by decide) (Nat.le_of_not_lt hi)))

/-- One cycle more moves every bit one place down. -/
theorem srBit_succ (s : State) (f : Nat → Bool) (c i : Nat) : srBit s f (c + 1) i = srBit s f c (1 + i) := by
  rw [srBit, srBit, show i + (c + 1) = 1 + i + c by omega]

/-- The input bit of a cycle stands above the K bits before the cycle shifts it in. -/
theorem srBit_top (s : State) (f : Nat → Bool) (c : Nat) : srBit s f c s.ce.lat.k.toNat = f c := by
  rw [srBit, if_pos (Nat.le_add_right _ _), Nat.add_sub_cancel_left]

/-- One cycle shifts the next input bit in at bit K−1. -/
theorem RegisterAfter.shift {s t : State} {f : Nat → Bool} {c : Nat} (h : RegisterAfter s f c t.ce.sr)
    (hlat : t.ce.lat = s.ce.lat) (hk : 1 ≤ s.ce.lat.k.toNat ∧ s.ce.lat.k.toNat ≤ 32) :
    RegisterAfter s f (c + 1) (encShift t.ce (f c)) := by
  intro i
  rw [encShift, hlat, BitVec.getLsbD_or, BitVec.getLsbD_ushiftRight, singleBit_getLsbD (by omega), h (1 + i), srBit_succ]
  rcases Nat.lt_trichotomy (1 + i) s.ce.lat.k.toNat with hi | hi | hi
  · rw [decide_eq_true hi, decide_eq_true (show i < s.ce.lat.k.toNat by omega),
      decide_eq_false (show i ≠ s.ce.lat.k.toNat - 1 by omega), Bool.and_false, Bool.or_false]
  · rw [hi, srBit_top, decide_eq_false (Nat.lt_irrefl _), decide_eq_true (show i < s.ce.lat.k.toNat by omega),
      decide_eq_true (show i = s.ce.lat.k.toNat - 1 by omega), Bool.false_and, Bool.false_or, Bool.and_true, Bool.true_and]
  · rw [decide_eq_false (Nat.lt_asymm hi), decide_eq_false (show ¬ i < s.ce.lat.k.toNat by omega),
      decide_eq_false (show i ≠ s.ce.lat.k.toNat - 1 by omega), Bool.and_false, Bool.or_false, Bool.false_and]

theorem RegisterAfter.toNat_lt {s : State} {f : Nat → Bool} {c : Nat} {sr : Word} (h : RegisterAfter s f c sr) :
    sr.toNat < 2 ^ s.ce.lat.k.toNat := by
  apply Nat.lt_pow_two_of_testBit
  intro i hi
  rw [BitVec.testBit_toNat, h i, decide_eq_false (Nat.not_lt.2 hi), Bool.false_and]

theorem RegisterAfter.of_lt {s : State} {f : Nat → Bool} {c : Nat} {sr : Word} (h : RegisterAfter s f c sr) {i : Nat}
    (hi : i < s.ce.lat.k.toNat) : sr.getLsbD i = srBit s f c i := by
  rw [h i, decide_eq_true hi, Bool.true_and]

/-- The parity of the tapped register is the GF(2) sum over its K bits (43_conv_encoder.md R181: polynomial bits at K and above
never meet a 1). -/
theorem RegisterAfter.parity {s : State} {f : Nat → Bool} {c : Nat} {sr : Word} (h : RegisterAfter s f c sr)
    (hk : s.ce.lat.k.toNat ≤ 32) (v : Word) :
    parity (sr &&& v) = oddCount s.ce.lat.k.toNat (fun i => srBit s f c i && v.getLsbD i) := by
  obtain ⟨d, hd⟩ := Nat.exists_eq_add_of_le hk
  have hbits : ∀ i, (sr &&& v).getLsbD i = (decide (i < s.ce.lat.k.toNat) && (srBit s f c i && v.getLsbD i)) := fun i => by
    rw [BitVec.getLsbD_and, h i, Bool.and_assoc]
  have hhigh : countBits d (fun i => (sr &&& v).getLsbD (s.ce.lat.k.toNat + i)) = 0 := by
    rw [countBits_eq_card, Finset.card_eq_zero, Finset.filter_eq_empty_iff]
    intro i _
    rw [hbits, decide_eq_false (by omega), Bool.false_and]
    exact Bool.false_ne_true
  have hlow : popcount (sr &&& v) = countBits s.ce.lat.k.toNat (fun i => srBit s f c i && v.getLsbD i) := by
    rw [popcount, show countBits 32 = countBits (s.ce.lat.k.toNat + d) by rw [← hd], countBits_add, hhigh, Nat.add_zero]
    exact countBits_congr fun i hi => by rw [hbits, decide_eq_true hi, Bool.true_and]
  rw [Machine.parity, hlow, oddCount, ← countBits_eq_card]
  exact Bool.beq_eq_decide_eq _ _

/-! ## The positions kept (43_conv_encoder.md R189) -/

theorem kept_mono (c : EncConfig) (p : Nat) {k l : Nat} (h : k ≤ l) : kept c p k ≤ kept c p l :=
  Finset.card_le_card (Finset.filter_subset_filter _ (Finset.range_mono h))

/-- The positions kept, counted in two parts: the second starts where the first left the puncture cursor. -/
theorem kept_add (c : EncConfig) (p k l : Nat) : kept c p (k + l) = kept c p k + kept c ((p + k) % c.plen.toNat) l := by
  simp only [kept_eq_countBits, countBits_add, Nat.mod_add_mod, Nat.add_assoc]

/-- With no pattern length both counts take the pattern's bits one by one (`x % 0 = x`), so no legality is needed. -/
theorem emitCount_eq_kept_any (c : EncConfig) (p k : Nat) : emitCount c p k = kept c p k := by
  rcases Nat.eq_zero_or_pos c.plen.toNat with h | h
  · simp [emitCount, kept_eq_countBits, h]
  · exact emitCount_eq_kept h p k

/-! ## The output stream (43_conv_encoder.md R183) -/

/-- The bits emitted at the first `k` output positions, in order: the code bits of the positions the pattern keeps. -/
def codeBits (s : State) (f : Nat → Bool) : Nat → List Bool
  | 0 => []
  | k + 1 => codeBits s f k ++
      if s.ce.lat.pmask.getLsbD ((s.ce.pcur.toNat + k) % s.ce.lat.plen.toNat) then [codeBit s f k] else []

theorem codeBits_length (s : State) (f : Nat → Bool) (k : Nat) :
    (codeBits s f k).length = kept s.ce.lat s.ce.pcur.toNat k := by
  induction k with
  | zero => rfl
  | succ k ih =>
    rw [codeBits, List.length_append, ih, kept_succ]
    cases s.ce.lat.pmask.getLsbD ((s.ce.pcur.toNat + k) % s.ce.lat.plen.toNat) <;> rfl

/-- A kept position stands in the list at the number of positions kept before it. -/
theorem codeBits_getElem? {s : State} (f : Nat → Bool) {q k : Nat} (hq : q < k)
    (keep : s.ce.lat.pmask.getLsbD ((s.ce.pcur.toNat + q) % s.ce.lat.plen.toNat) = true) :
    (codeBits s f k)[kept s.ce.lat s.ce.pcur.toNat q]? = some (codeBit s f q) := by
  induction k with
  | zero => cases hq
  | succ k ih =>
    rw [codeBits]
    rcases Nat.lt_succ_iff_lt_or_eq.1 hq with hlt | rfl
    · rw [List.getElem?_append_left, ih hlt]
      exact (List.getElem?_eq_some_iff.1 (ih hlt)).1
    · rw [if_pos keep, ← codeBits_length s f, List.getElem?_concat_length]

/-- Bit `p` of the encoder's output stream after the bits `l` are emitted from the state `s` on: the earlier bits stay, the
emitted ones and the rest of the last byte begun are OR-merged with what was there, and nothing changes after that byte. -/
def written (s : State) (l : List Bool) (p : Nat) : Bool :=
  if outPos s.ce.out ≤ p ∧ p < 8 * ((outPos s.ce.out + l.length + 7) / 8) then
    l.getD (p - outPos s.ce.out) false || merged s p
  else streamBit s.mem s.ce.lat.outBase.toNat p

/-- The byte and the bit index of a cursor, from the number of bits emitted. -/
theorem outPos_split (c : Cursor) : c.byte.toNat = outPos c / 8 ∧ c.bit.toNat = 7 - outPos c % 8 := c.pos_split

/-- The cursor stands at the start of a byte exactly at its bit 7. -/
theorem bit_eq_seven_iff (c : Cursor) : c.bit = 7 ↔ outPos c % 8 = 0 := by
  obtain ⟨-, hbit⟩ := outPos_split c
  rw [← BitVec.toNat_inj, hbit, show (7 : BitVec 3).toNat = 7 from rfl]
  omega

theorem merged_eq (s : State) (p : Nat) : merged s p =
    (decide (outPos s.ce.out % 8 ≠ 0 ∧ p / 8 = outPos s.ce.out / 8) && streamBit s.mem s.ce.lat.outBase.toNat p) := by
  obtain ⟨hbyte, -⟩ := outPos_split s.ce.out
  simp only [merged, hbyte, ne_eq, bit_eq_seven_iff]

theorem written_nil (s : State) (p : Nat) : written s [] p = streamBit s.mem s.ce.lat.outBase.toNat p := by
  unfold written
  split
  · next h =>
    rw [List.length_nil] at h
    have hin : outPos s.ce.out % 8 ≠ 0 ∧ p / 8 = outPos s.ce.out / 8 := by omega
    rw [merged_eq, decide_eq_true hin, Bool.true_and, List.getD_nil, Bool.false_or]
  · rfl

theorem getD_concat (l : List Bool) (v : Bool) (j : Nat) :
    (l ++ [v]).getD j false = (l.getD j false || (v && decide (j = l.length))) := by
  rcases Nat.lt_trichotomy j l.length with h | rfl | h
  · rw [List.getD_append _ _ _ _ h, decide_eq_false (by omega), Bool.and_false, Bool.or_false]
  · simp
  · rw [List.getD_eq_default _ _ (by rw [List.length_append, List.length_singleton]; omega),
      List.getD_eq_default _ _ (by omega), decide_eq_false (by omega), Bool.and_false, Bool.or_false]

/-- The stream `g` after the bit `v` is emitted at the position `c` (43_conv_encoder.md R183): the byte there is cleared if the bit
begins it, and the bit is OR-merged. -/
def emittedAt (c : Nat) (v : Bool) (g : Nat → Bool) (p : Nat) : Bool :=
  if p / 8 = c / 8 then (decide (c % 8 ≠ 0) && g p) || (v && decide (p = c)) else g p

/-- One bit more in the list is one bit more emitted. -/
theorem written_concat (s : State) (l : List Bool) (v : Bool) (p : Nat) :
    written s (l ++ [v]) p = emittedAt (outPos s.ce.out + l.length) v (written s l) p := by
  unfold emittedAt written
  rw [List.length_append, List.length_singleton, merged_eq]
  generalize outPos s.ce.out = c
  by_cases hbyte : p / 8 = (c + l.length) / 8
  · rw [if_pos hbyte]
    by_cases hp : c ≤ p
    · have hlast : p - c = l.length ↔ p = c + l.length := by omega
      rw [if_pos ⟨hp, by omega⟩, getD_concat]
      simp only [hlast]
      by_cases hfresh : (c + l.length) % 8 = 0
      · have hold : ¬ (c % 8 ≠ 0 ∧ p / 8 = c / 8) := by omega
        rw [List.getD_eq_default _ _ (show l.length ≤ p - c by omega), decide_eq_false hold, decide_eq_false (not_not.2 hfresh)]
        simp
      · rw [if_pos ⟨hp, by omega⟩, decide_eq_true hfresh, Bool.true_and, Bool.or_right_comm]
    · have hfresh : (c + l.length) % 8 ≠ 0 := by omega
      rw [if_neg fun h => hp h.1, if_neg fun h => hp h.1, decide_eq_true hfresh, decide_eq_false (by omega)]
      simp
  · have hsame : (c ≤ p ∧ p < 8 * ((c + (l.length + 1) + 7) / 8)) ↔ (c ≤ p ∧ p < 8 * ((c + l.length + 7) / 8)) := by
      omega
    rw [if_neg hbyte]
    simp only [hsame]
    split
    · next hin =>
      have hlast : p - c ≠ l.length := by omega
      rw [getD_concat, decide_eq_false hlast, Bool.and_false, Bool.or_false]
    · rfl

/-- `EmitE` emits its bit at the cursor. -/
theorem emitE_streamBit (v : Bool) (t : State) (p : Nat) :
    streamBit (emitE v t).mem t.ce.lat.outBase.toNat p =
      emittedAt (outPos t.ce.out) v (streamBit t.mem t.ce.lat.outBase.toNat) p := by
  unfold emittedAt
  obtain ⟨hbyte, hbit⟩ := outPos_split t.ce.out
  by_cases hp : p / 8 = outPos t.ce.out / 8
  · have haddr : t.ce.lat.outBase.toNat + p / 8 = t.ce.lat.outBase.toNat + t.ce.out.byte.toNat := by omega
    have hcursor : 7 - p % 8 = t.ce.out.bit.toNat ↔ p = outPos t.ce.out := by omega
    have hold : (Memory.read (if t.ce.out.bit = 7 then Memory.write t.mem (t.ce.lat.outBase.toNat + t.ce.out.byte.toNat) 0x00#8
        else t.mem) (t.ce.lat.outBase.toNat + t.ce.out.byte.toNat)).getLsbD (7 - p % 8) =
        (decide (outPos t.ce.out % 8 ≠ 0) && streamBit t.mem t.ce.lat.outBase.toNat p) := by
      by_cases hfresh : t.ce.out.bit = 7
      · rw [if_pos hfresh, Memory.read_write_same, decide_eq_false (not_not.2 ((bit_eq_seven_iff _).1 hfresh)), Bool.false_and]
        exact BitVec.getLsbD_zero
      · rw [if_neg hfresh, decide_eq_true (mt (bit_eq_seven_iff _).2 hfresh), Bool.true_and, streamBit, haddr]
    rw [if_pos hp, ← hold, streamBit, haddr]
    change (Memory.read (Memory.orBit _ _ _ _) _).getLsbD _ = _
    rw [Memory.read_orBit, if_pos rfl, BitVec.getLsbD_or, singleBit_getLsbD t.ce.out.bit.isLt, decide_eq_decide.2 hcursor]
  · rw [if_neg hp, streamBit, emitE_frame v t (by omega)]
    rfl

end Sys2Proof.Machine
end

section
/-! `CE_ENCODE` and `CE_FLUSH` (43_conv_encoder.md R186, R187): the trace of their cycles, output position by output position. -/

open Sys2Proof Sys2Proof.Claims

namespace Sys2Proof.Machine

/-- Cycles neither begin nor end a session. -/
theorem EncMoves.session {s t : State} (h : EncMoves s t) : t.ce.session = s.ce.session := by
  obtain ⟨m, sr, o, p, rfl⟩ := h
  rfl

/-! ## The trace of a run -/

/-- What the cycles of a session rely on: the bounds of its configuration and of its cursors (43_conv_encoder.md R180, R181;
10_state.md R54). -/
structure EncoderReady (s : State) : Prop where
  register : 1 ≤ s.ce.lat.k.toNat ∧ s.ce.lat.k.toNat ≤ 32
  rate     : 0 < s.ce.lat.n.toNat
  pattern  : 1 ≤ s.ce.lat.plen.toNat ∧ s.ce.lat.plen.toNat ≤ 32
  pcur     : s.ce.pcur.toNat < s.ce.lat.plen.toNat
  sr       : s.ce.sr.toNat < 2 ^ s.ce.lat.k.toNat

theorem EncoderSound.ready {s : State} (h : EncoderSound s) (hp : s.params.Legal) (begun : s.ce.session ≠ .idle) :
    EncoderReady s := by
  obtain ⟨-, ⟨-, hkmax⟩, -⟩ := hp
  obtain ⟨⟨hk, hkp⟩, ⟨hn, -⟩, hplen⟩ := h.legal begun
  exact ⟨⟨by omega, by omega⟩, by omega, hplen, h.pcur begun, h.sr begun⟩

/-- The bits kept of `k` output positions fit between the output cursor and the limit (43_conv_encoder.md R186, R187). -/
abbrev FitsOutput (s : State) (k : Nat) : Prop :=
  outPos s.ce.out + kept s.ce.lat s.ce.pcur.toNat k ≤ 8 * s.ce.lat.outLimit.toNat

theorem FitsOutput.mono {s : State} {k l : Nat} (h : FitsOutput s l) (hkl : k ≤ l) : FitsOutput s k :=
  Nat.le_trans (Nat.add_le_add_left (kept_mono _ _ hkl) _) h

theorem encOutputs_sr (n : Nat) (t : State) : (encOutputs n t).ce.sr = t.ce.sr := by
  induction n with
  | zero => rfl
  | succ n ih =>
    rw [encOutputs, ← ih, encOutput]
    split <;> rfl

/-- `t` is `s` after `k` output positions of cycles that shift in the bits `f 0, f 1, …`: besides the cursors, the stream is known
bit by bit, as far as the output buffer leaves room, and the memory is the same as long as no position is kept. -/
structure EncoderTrace (s : State) (f : Nat → Bool) (k : Nat) (t : State) : Prop extends EncoderRun s k t where
  stream : FitsOutput s k → ∀ p, streamBit t.mem s.ce.lat.outBase.toNat p = written s (codeBits s f k) p
  silent : kept s.ce.lat s.ce.pcur.toNat k = 0 → t.mem = s.mem

namespace EncoderTrace

variable {s t : State} {f : Nat → Bool} {c k : Nat}

theorem start (h : EncoderReady s) (f : Nat → Bool) : EncoderTrace s f 0 s where
  toEncoderRun := EncoderRun.start h.pattern h.pcur
  stream _ p := (written_nil s p).symm
  silent _ := rfl

theorem shift (h : EncoderTrace s f k t) (sr : Word) : EncoderTrace s f k { t with ce := { t.ce with sr := sr } } :=
  { h with toEncoderRun := h.toEncoderRun.shift sr }

/-- The cursor stands after the bits emitted. -/
theorem outPos_eq (h : EncoderTrace s f k t) (room : FitsOutput s k) :
    outPos t.ce.out = outPos s.ce.out + kept s.ce.lat s.ce.pcur.toNat k := (h.emitted room).1

/-- The output of polynomial `j` is the code bit of its position, kept or not. -/
theorem output (h : EncoderTrace s f k t) {j : Nat} (hbit : parity (t.ce.sr &&& t.ce.lat.poly.getD j 0) = codeBit s f k) :
    EncoderTrace s f (k + 1) (encOutput j t) := by
  refine { h.toEncoderRun.output j with stream := fun room p => ?_, silent := fun hnone => ?_ }
  · have hroom := room.mono (Nat.le_succ k)
    have hpos := h.outPos_eq hroom
    have hstream := funext (h.stream hroom)
    rw [codeBits, ← h.pcur, encOutput, h.moves.lat]
    cases s.ce.lat.pmask.getLsbD t.ce.pcur.toNat with
    | false =>
      rw [if_neg Bool.false_ne_true, if_neg Bool.false_ne_true, List.append_nil]
      exact h.stream hroom p
    | true =>
      have hlat : (nextPcur t).ce.lat = s.ce.lat := h.moves.lat
      have hemit := emitE_streamBit (codeBit s f k) (nextPcur t) p
      rw [hlat] at hemit
      rw [h.moves.lat] at hbit
      rw [if_pos rfl, if_pos rfl, written_concat, hbit, hemit, codeBits_length, ← hpos, ← hstream]
      rfl
  · rw [kept_succ] at hnone
    have hdrop : s.ce.lat.pmask.getLsbD ((s.ce.pcur.toNat + k) % s.ce.lat.plen.toNat) = false :=
      Bool.toNat_eq_zero.1 (by omega)
    rw [encOutput, h.moves.lat, h.pcur, hdrop]
    exact h.silent (by omega)

theorem outputs (hs : EncoderReady s) (h : EncoderTrace s f (c * s.ce.lat.n.toNat) t)
    (hsr : RegisterAfter s f (c + 1) t.ce.sr) {j : Nat} (hj : j ≤ s.ce.lat.n.toNat) :
    EncoderTrace s f (c * s.ce.lat.n.toNat + j) (encOutputs j t) := by
  induction j with
  | zero => exact h
  | succ j ih =>
    have hpos := ih (by omega)
    refine hpos.output ?_
    have hcycle : (c * s.ce.lat.n.toNat + j) / s.ce.lat.n.toNat = c := by
      rw [Nat.mul_comm, Nat.mul_add_div hs.rate, Nat.div_eq_of_lt (by omega), Nat.add_zero]
    have hpoly : (c * s.ce.lat.n.toNat + j) % s.ce.lat.n.toNat = j := by
      rw [Nat.mul_comm, Nat.mul_add_mod, Nat.mod_eq_of_lt (by omega)]
    rw [hpos.moves.lat, encOutputs_sr, hsr.parity hs.register.2, codeBit, hcycle, hpoly]

theorem cycle (hs : EncoderReady s) (h : EncoderTrace s f (c * s.ce.lat.n.toNat) t) (hsr : RegisterAfter s f c t.ce.sr) :
    EncoderTrace s f ((c + 1) * s.ce.lat.n.toNat) (encCycle (f c) t) ∧
      RegisterAfter s f (c + 1) (encCycle (f c) t).ce.sr := by
  have hshift := hsr.shift h.moves.lat hs.register
  rw [encCycle, encOutputs_sr, Nat.succ_mul, h.moves.lat]
  exact ⟨(h.shift _).outputs hs hshift (Nat.le_refl _), hshift⟩

/-- The trace of whole cycles from the state `s` on. -/
theorem run (hs : EncoderReady s) (f : Nat → Bool) (m : Nat) :
    EncoderTrace s f (m * s.ce.lat.n.toNat) (encRun f m s) ∧ RegisterAfter s f m (encRun f m s).ce.sr := by
  induction m with
  | zero =>
    rw [Nat.zero_mul]
    exact ⟨start hs f, RegisterAfter.start f hs.sr⟩
  | succ m ih => exact ih.1.cycle hs ih.2

/-- What the statements say of the output stream: the kept positions, the earlier bits, the rest of the last byte. -/
theorem stream_bits (h : EncoderTrace s f k t) (room : FitsOutput s k) :
    (∀ q < k, s.ce.lat.pmask.getLsbD ((s.ce.pcur.toNat + q) % s.ce.lat.plen.toNat) = true →
      streamBit t.mem s.ce.lat.outBase.toNat (outPos s.ce.out + kept s.ce.lat s.ce.pcur.toNat q) =
        (codeBit s f q || merged s (outPos s.ce.out + kept s.ce.lat s.ce.pcur.toNat q))) ∧
    (∀ p < outPos s.ce.out, streamBit t.mem s.ce.lat.outBase.toNat p = streamBit s.mem s.ce.lat.outBase.toNat p) ∧
    (∀ p, outPos t.ce.out ≤ p → p < 8 * ((outPos t.ce.out + 7) / 8) →
      streamBit t.mem s.ce.lat.outBase.toNat p = merged s p) := by
  refine ⟨fun q hq keep => ?_, fun p hp => ?_, fun p hp hlast => ?_⟩
  · have hget := codeBits_getElem? f hq keep
    have hlt := (List.getElem?_eq_some_iff.1 hget).1
    rw [h.stream room, written, if_pos ⟨by omega, by omega⟩, Nat.add_sub_cancel_left, List.getD_eq_getElem?_getD, hget,
      Option.getD_some]
  · rw [h.stream room, written, if_neg fun hin => Nat.not_le.2 hp hin.1]
  · rw [h.outPos_eq room] at hp hlast
    rw [h.stream room, written, codeBits_length, if_pos ⟨by omega, hlast⟩,
      List.getD_eq_default _ _ (by rw [codeBits_length]; omega), Bool.false_or]

/-- No byte outside the output bytes of the bits emitted changes. -/
theorem sameOutside (h : EncoderTrace s f k t) (room : FitsOutput s k) :
    SameOutside (outBytes s.ce.lat.outBase s.ce.out (kept s.ce.lat s.ce.pcur.toNat k)) s.mem t.mem := by
  intro a ha
  by_contra hne
  exact ha ((h.emitted room).2 a hne).2

end EncoderTrace

/-! ## The input bytes -/

theorem outBytes_mono {base : Word} {c : Cursor} {e e' a : Nat} (h : e ≤ e') (ha : Region.has (outBytes base c e) a) :
    Region.has (outBytes base c e') a := by
  simp only [Region.has, outBytes] at ha ⊢
  omega

theorem EncoderRun.byte {s t : State} {k : Nat} (h : EncoderRun s k t) (b : Byte) :
    EncoderRun s (k + 8 * s.ce.lat.n.toNat) (encByte b t) := h.cycles b [7, 6, 5, 4, 3, 2, 1, 0]

/-- The bytes the cycles read hold the bits they held before the command, as long as no output byte lies among them
(43_conv_encoder.md R186: the check of `OVERLAP`). -/
theorem encBytes_eq_encRun {s t : State} {k n a : Nat} (h : EncoderRun s k t)
    (room : FitsOutput s (k + 8 * n * s.ce.lat.n.toNat))
    (apart : ∀ i < n, 0 < kept s.ce.lat s.ce.pcur.toNat (k + 8 * n * s.ce.lat.n.toNat) →
      ¬ Region.has (outBytes s.ce.lat.outBase s.ce.out (kept s.ce.lat s.ce.pcur.toNat (k + 8 * n * s.ce.lat.n.toNat))) (a + i)) :
    encBytes n a t = encRun (streamBit s.mem a) (8 * n) t := by
  induction n generalizing k a t with
  | zero => rfl
  | succ n ih =>
    have hread : Memory.read t.mem a = Memory.read s.mem a := by
      by_contra hne
      have hmono := kept_mono s.ce.lat s.ce.pcur.toNat (Nat.le_add_right k (8 * (n + 1) * s.ce.lat.n.toNat))
      obtain ⟨hpos, hhas⟩ := (h.emitted (room.mono (Nat.le_add_right _ _))).2 a hne
      exact apart 0 (Nat.succ_pos n) (Nat.lt_of_lt_of_le hpos hmono) (outBytes_mono hmono hhas)
    have hk : k + 8 * (n + 1) * s.ce.lat.n.toNat = k + 8 * s.ce.lat.n.toNat + 8 * n * s.ce.lat.n.toNat := by ring
    rw [hk] at room apart
    have hrest := ih (a := a + 1) (h.byte (Memory.read s.mem a)) room fun i hi => by
      rw [Nat.add_assoc a 1 i, Nat.add_comm 1 i]
      exact apart (i + 1) (by omega)
    have hbyte : encByte (Memory.read s.mem a) t = encRun (streamBit s.mem a) 8 t :=
      (encByte_eq_encRun _ t).trans (encRun_congr (fun j hj => (streamBit_of_lt s.mem a hj).symm) t)
    have hnext : (fun j => streamBit s.mem a (8 + j)) = streamBit s.mem (a + 1) := funext (streamBit_succ s.mem a)
    calc encBytes (n + 1) a t
      _ = encBytes n (a + 1) (encByte (Memory.read s.mem a) t) := by rw [encBytes, hread]
      _ = encRun (streamBit s.mem (a + 1)) (8 * n) (encRun (streamBit s.mem a) 8 t) := by rw [hrest, hbyte]
      _ = encRun (streamBit s.mem a) (8 * (n + 1)) t := by rw [← hnext, ← encRun_add, Nat.mul_succ, Nat.add_comm 8]

end Sys2Proof.Machine
end

section
/-! `CE_ENCODE` and `CE_FLUSH` complete (43_conv_encoder.md R186, R187, R189): their checks, and what passed checks give. -/

open Sys2Proof Sys2Proof.Claims

namespace Sys2Proof.Machine

/-! ## The checks of `CE_ENCODE` (43_conv_encoder.md R186) -/

/-- The checks of `CE_ENCODE` hold. -/
structure EncodeChecked (s : State) : Prop where
  active : s.ce.session = .active
  range  : s.ctl.srcAddr.toNat + s.ctl.srcLen.toNat ≤ 2 ^ s.params.addrW
  apart  : 0 < encodeBits s → ¬ Region.overlaps (source s) (outBytes s.ce.lat.outBase s.ce.out (encodeBits s))
  room   : outPos s.ce.out + encodeBits s ≤ 8 * s.ce.lat.outLimit.toNat

theorem session_active_iff {x : Session} : x = .active ↔ x ≠ .idle ∧ x ≠ .spent := by cases x <;> simp

theorem EncodeChecked.begun {s : State} (h : EncodeChecked s) : s.ce.session ≠ .idle := (session_active_iff.1 h.active).1

theorem ceEncodeChecks_iff {s : State} : firstFailure (checksOf s .ceEncode) = none ↔ EncodeChecked s := by
  simp only [firstFailure_eq_none, checksOf, sessionChecks, beyond, meets, List.cons_append, List.nil_append,
    List.forall_mem_cons, List.not_mem_nil, false_imp_iff, implies_true, and_true, decide_eq_false_iff_not, Nat.not_lt,
    Bool.and_eq_false_imp, decide_eq_true_eq]
  constructor
  · rintro ⟨idle, spent, range, apart, room⟩
    exact ⟨session_active_iff.2 ⟨idle, spent⟩, range, apart, room⟩
  · rintro ⟨active, range, apart, room⟩
    obtain ⟨idle, spent⟩ := session_active_iff.1 active
    exact ⟨idle, spent, range, apart, room⟩

theorem passes_ceEncode_iff {s : State} : passes s .ceEncode = true ↔ EncodeChecked s :=
  passes_iff_firstFailure.trans ceEncodeChecks_iff

theorem encodeEmits_eq (s : State) : encodeEmits s = encodeBits s := emitCount_eq_kept_any ..

theorem flushEmits_eq (s : State) : flushEmits s = tailBits s := emitCount_eq_kept_any ..

/-- The state after the cycles of the input bytes of `CE_ENCODE`. -/
def encInput (s : State) : State := encBytes s.ctl.srcLen.toNat s.ctl.srcAddr.toNat s

/-- The state `CE_ENCODE` leaves. -/
def encodedState (s : State) : State :=
  { encInput s with ce := { (encInput s).ce with inBytes := (encInput s).ce.inBytes + s.ctl.srcLen } }

theorem exec_ceEncode (s : State) :
    exec .ceEncode s = runCommand .ceEncode (checksOf s .ceEncode) (encodedState s) s := by
  rw [checksOf, ← not_inRange, meets, ← Bool.decide_and, ← encodeEmits_eq]
  rfl

theorem exec_ceEncode_checked {s : State} (h : EncodeChecked s) : exec .ceEncode s = .next (encodedState s) :=
  (exec_ceEncode s).trans (runCommand_of_none (ceEncodeChecks_iff.2 h))

theorem encodedState_eq (s : State) : encodedState s = { s with mem := (encodedState s).mem, ce := { s.ce with
    sr := (encodedState s).ce.sr, out := (encodedState s).ce.out, pcur := (encodedState s).ce.pcur,
    inBytes := s.ce.inBytes + s.ctl.srcLen } } := by
  obtain ⟨m, sr, o, p, h⟩ := encBytes_moves s.ctl.srcLen.toNat s.ctl.srcAddr.toNat s
  rw [encodedState, encInput, h]

/-- A `CE_ENCODE` that passes its checks runs the cycles of its input bits. -/
theorem encInput_eq_encRun {s : State} (hs : EncoderReady s) (h : EncodeChecked s) :
    encInput s = encRun (inputBit s) (8 * s.ctl.srcLen.toNat) s := by
  have hpos : encodePositions s = 0 + 8 * s.ctl.srcLen.toNat * s.ce.lat.n.toNat := (Nat.zero_add _).symm
  have hroom := h.room
  have hapart := h.apart
  rw [encodeBits, hpos] at hroom hapart
  refine encBytes_eq_encRun (EncoderRun.start hs.pattern hs.pcur) hroom fun i hi hemits hhas => hapart hemits ?_
  simp only [Region.has, Region.overlaps, source] at hhas ⊢
  omega

theorem encInput_trace {s : State} (hs : EncoderReady s) (h : EncodeChecked s) :
    EncoderTrace s (inputBit s) (encodePositions s) (encInput s) ∧
      RegisterAfter s (inputBit s) (8 * s.ctl.srcLen.toNat) (encInput s).ce.sr := by
  rw [encInput_eq_encRun hs h]
  exact EncoderTrace.run hs (inputBit s) (8 * s.ctl.srcLen.toNat)

/-- Settles O19: the trace of the input's cycles counts the bits emitted and frames the memory. -/
theorem ceEncodeCompletes : Obligations.CeEncodeCompletes := by
  intro s hp hs hpass
  have hchecked := passes_ceEncode_iff.1 hpass
  have hready := hs.ready hp hchecked.begun
  obtain ⟨htrace, -⟩ := encInput_trace hready hchecked
  exact ⟨encodedState s, exec_ceEncode_checked hchecked, encodedState_eq s, htrace.outPos_eq hchecked.room, htrace.pcur,
    htrace.sameOutside hchecked.room, htrace.silent⟩

/-- Settles O20: the stream of the trace, read at the kept positions, before the cursor and after it. -/
theorem ceEncodeWritesTapParities : Obligations.CeEncodeWritesTapParities := by
  intro s t hp hs hpass he
  have hchecked := passes_ceEncode_iff.1 hpass
  have hready := hs.ready hp hchecked.begun
  obtain ⟨htrace, hregister⟩ := encInput_trace hready hchecked
  rw [exec_ceEncode_checked hchecked] at he
  cases he
  obtain ⟨hkept, hearlier, hlast⟩ := htrace.stream_bits hchecked.room
  exact ⟨hkept, hearlier, fun i hi => hregister.of_lt hi, hlast⟩

/-! ## `CE_FLUSH` (43_conv_encoder.md R187) -/

/-- The checks of `CE_FLUSH` hold. -/
structure FlushChecked (s : State) : Prop where
  active : s.ce.session = .active
  room   : outPos s.ce.out + tailBits s ≤ 8 * s.ce.lat.outLimit.toNat

theorem FlushChecked.begun {s : State} (h : FlushChecked s) : s.ce.session ≠ .idle := (session_active_iff.1 h.active).1

theorem ceFlushChecks_iff {s : State} : firstFailure (checksOf s .ceFlush) = none ↔ FlushChecked s := by
  simp only [firstFailure_eq_none, checksOf, sessionChecks, List.cons_append, List.nil_append, List.forall_mem_cons,
    List.not_mem_nil, false_imp_iff, implies_true, and_true, decide_eq_false_iff_not, Nat.not_lt]
  constructor
  · rintro ⟨idle, spent, room⟩
    exact ⟨session_active_iff.2 ⟨idle, spent⟩, room⟩
  · rintro ⟨active, room⟩
    obtain ⟨idle, spent⟩ := session_active_iff.1 active
    exact ⟨idle, spent, room⟩

theorem passes_ceFlush_iff {s : State} : passes s .ceFlush = true ↔ FlushChecked s :=
  passes_iff_firstFailure.trans ceFlushChecks_iff

/-- The state `CE_FLUSH` leaves. -/
def flushedState (s : State) : State :=
  { encTail s.ce.lat.k.toNat s with ce := { (encTail s.ce.lat.k.toNat s).ce with session := .spent } }

theorem exec_ceFlush (s : State) : exec .ceFlush s = runCommand .ceFlush (checksOf s .ceFlush) (flushedState s) s := by
  rw [checksOf, ← flushEmits_eq]
  rfl

theorem exec_ceFlush_checked {s : State} (h : FlushChecked s) : exec .ceFlush s = .next (flushedState s) :=
  (exec_ceFlush s).trans (runCommand_of_none (ceFlushChecks_iff.2 h))

theorem exec_ceFlush_spent {s : State} (h : s.ce.session = .spent) :
    exec .ceFlush s = .next (recordError s .spent 0x12#8) := by
  rw [exec_ceFlush, checksOf, h]
  rfl

theorem exec_ceFlush_overflow {s : State} (active : s.ce.session = .active)
    (h : 8 * s.ce.lat.outLimit.toNat < outPos s.ce.out + tailBits s) :
    exec .ceFlush s = .next (recordError s .outOverflow 0x12#8) := by
  rw [exec_ceFlush, checksOf, active, decide_eq_true h]
  rfl

theorem encTail_trace {s : State} (hs : EncoderReady s) :
    EncoderTrace s (fun _ => false) (tailPositions s) (encTail s.ce.lat.k.toNat s) ∧
      RegisterAfter s (fun _ => false) s.ce.lat.k.toNat (encTail s.ce.lat.k.toNat s).ce.sr := by
  rw [encTail_eq_encRun]
  exact EncoderTrace.run hs _ _

/-- K zeros have shifted every bit out (43_conv_encoder.md R187). -/
theorem RegisterAfter.eq_zero {s : State} {sr : Word} (h : RegisterAfter s (fun _ => false) s.ce.lat.k.toNat sr) : sr = 0 := by
  apply BitVec.eq_of_getLsbD_eq
  intro i _
  rw [h i, srBit, if_pos (Nat.le_add_left _ _), Bool.and_false, BitVec.ofNat_eq_ofNat, BitVec.getLsbD_zero]

theorem flushedState_eq {s : State} (hs : EncoderReady s) : flushedState s = { s with
    mem := (flushedState s).mem
    ce := { s.ce with sr := 0, out := (flushedState s).ce.out, pcur := (flushedState s).ce.pcur, session := .spent } } := by
  have hsr := (encTail_trace hs).2.eq_zero
  obtain ⟨m, sr, o, p, h⟩ := encTail_moves s.ce.lat.k.toNat s
  rw [h] at hsr
  rw [flushedState, h, show sr = 0 from hsr]

/-- Settles O21: the three checks fail in their order, or the trace of the tail's cycles tells the stream. -/
theorem ceFlushWritesTail : Obligations.CeFlushWritesTail := by
  refine ⟨cmdFormat (i := .ceFlush) rfl, fun s => ⟨exec_ceFlush_idle, exec_ceFlush_spent, exec_ceFlush_overflow,
    fun hp hs active room => ?_⟩⟩
  have hready := hs.ready hp (session_active_iff.1 active).1
  obtain ⟨htrace, -⟩ := encTail_trace hready
  obtain ⟨hkept, hearlier, hlast⟩ := htrace.stream_bits room
  exact ⟨flushedState s, exec_ceFlush_checked ⟨active, room⟩, flushedState_eq hready, htrace.outPos_eq room, htrace.pcur,
    htrace.sameOutside room, hkept, hearlier, hlast⟩

end Sys2Proof.Machine
end

section
/-! Every step keeps the encoder sound (43_conv_encoder.md R180, R181, R185 to R187; 10_state.md R53, R54). -/

open Sys2Proof Sys2Proof.Claims

namespace Sys2Proof.Machine

/-! ## What leaves a session alone -/

/-- Of the encoder at most the live configuration and `CE_SIZE` differ, which no session command reads. -/
def EncoderKept (s t : State) : Prop :=
  t.params = s.params ∧ t.ce = { s.ce with cfg := t.ce.cfg, size := t.ce.size }

theorem EncoderKept.of_same {s t : State} (params : t.params = s.params) (ce : t.ce = s.ce) : EncoderKept s t :=
  ⟨params, by rw [ce]⟩

theorem EncoderSound.kept {s t : State} (h : EncoderSound s) (hkept : EncoderKept s t) : EncoderSound t := by
  obtain ⟨hp, hce⟩ := hkept
  generalize t.ce.cfg = cfg, t.ce.size = size at hce
  exact ⟨by rw [hp, hce]; exact h.legal, by rw [hp, hce]; exact h.output, by rw [hce]; exact h.pcur, by rw [hce]; exact h.sr⟩

theorem recordError_encoderKept (s : State) (c : ErrCode) (o : Byte) : EncoderKept s (recordError s c o) :=
  .of_same (recordError_params ..) (recordError_ce ..)

theorem writeReg_encoderKept (s : State) (r : Reg) (v : Word) : EncoderKept s (writeReg s r v) := by
  cases r <;> exact ⟨rfl, rfl⟩

theorem hostWriteReg_encoderKept (s : State) (r : Option Reg) (v : Word) : EncoderKept s (hostWriteReg s r v) := by
  cases r with
  | none => exact ⟨rfl, rfl⟩
  | some r =>
    rw [hostWriteReg]
    split
    · exact ⟨rfl, rfl⟩
    · exact writeReg_encoderKept s r v

theorem hostReadReg_encoderKept (s : State) (r : Option Reg) : EncoderKept s (hostReadReg s r) := by
  cases r with
  | none => exact ⟨rfl, rfl⟩
  | some r =>
    rw [hostReadReg]
    split
    · exact ⟨rfl, rfl⟩
    · exact ⟨rfl, rfl⟩

/-! ## The commands of the encoder -/

theorem EncoderSound.of_idle {s : State} (h : s.ce.session = .idle) : EncoderSound s :=
  ⟨fun begun => absurd h begun, fun begun => absurd h begun, fun begun => absurd h begun, fun begun => absurd h begun⟩

/-- A legal configuration is sound in the state `CE_RESET` leaves: the cursors and the register start at 0. -/
theorem resetEncoder_sound {s : State} (h : encOk s.params s.ce.cfg)
    (top : s.ce.cfg.outBase.toNat + s.ce.cfg.outLimit.toNat ≤ 2 ^ s.params.addrW) : EncoderSound (resetEncoder s) where
  legal _ := encLegal_iff_encOk.2 h
  output _ := ⟨top, Nat.zero_le _⟩
  pcur _ := plen_pos_of_encOk h
  sr _ := Nat.two_pow_pos _

/-- Cycles that fit into the output buffer keep a begun session sound. -/
theorem EncoderTrace.sound {s t : State} {f : Nat → Bool} {k c : Nat} (htrace : EncoderTrace s f k t)
    (hsr : RegisterAfter s f c t.ce.sr) (h : EncoderSound s) (begun : s.ce.session ≠ .idle)
    (room : FitsOutput s k) (b : Word) (x : Session) :
    EncoderSound { t with ce := { t.ce with inBytes := b, session := x } } := by
  have hpos : t.ce.out.pos ≤ 8 * s.ce.lat.outLimit.toNat := (htrace.outPos_eq room).trans_le room
  have hpcur : t.ce.pcur.toNat < s.ce.lat.plen.toNat := htrace.pcur ▸ Nat.mod_lt _ htrace.pattern.1
  have hreg := hsr.toNat_lt
  obtain ⟨m, sr, o, p, rfl⟩ := htrace.moves
  exact ⟨fun _ => h.legal begun, fun _ => ⟨(h.output begun).region, hpos⟩, fun _ => hpcur, fun _ => hreg⟩

theorem encodedState_sound {s : State} (hp : s.params.Legal) (h : EncoderSound s) (hc : EncodeChecked s) :
    EncoderSound (encodedState s) := by
  have begun := hc.begun
  obtain ⟨htrace, hsr⟩ := encInput_trace (h.ready hp begun) hc
  exact htrace.sound hsr h begun hc.room _ _

theorem flushedState_sound {s : State} (hp : s.params.Legal) (h : EncoderSound s) (hc : FlushChecked s) :
    EncoderSound (flushedState s) := by
  have begun := hc.begun
  obtain ⟨htrace, hsr⟩ := encTail_trace (h.ready hp begun)
  exact htrace.sound hsr h begun hc.room _ _

/-- The answer of a command whose effect is a sound encoder. -/
theorem runCommand_encoderSound {i : Instr} {l : List (Bool × ErrCode)} {e s t : State} (h : runCommand i l e s = .next t)
    (hs : EncoderSound s) (effect : firstFailure l = none → EncoderSound e) : EncoderSound t := by
  rcases runCommand_cases i l e s with ⟨c, -, hr⟩ | ⟨hn, hr⟩
  · rw [hr] at h
    cases h
    exact hs.kept (recordError_encoderKept ..)
  · rw [hr] at h
    cases h
    exact effect hn

theorem exec_encoderSound {i : Instr} {s t : State} (hp : s.params.Legal) (hs : EncoderSound s) (h : exec i s = .next t) :
    EncoderSound t := by
  cases i with
  | ceReset =>
    refine runCommand_encoderSound (exec_ceReset s ▸ h) hs fun hn => ?_
    obtain ⟨legal, top⟩ := ceResetChecks_iff.1 hn
    exact resetEncoder_sound legal top
  | ceEncode =>
    exact runCommand_encoderSound (exec_ceEncode s ▸ h) hs fun hn => encodedState_sound hp hs (ceEncodeChecks_iff.1 hn)
  | ceFlush =>
    exact runCommand_encoderSound (exec_ceFlush s ▸ h) hs fun hn => flushedState_sound hp hs (ceFlushChecks_iff.1 hn)
  | ceCalcsize a => exact runCommand_encoderSound h hs fun _ => hs.kept ⟨rfl, rfl⟩
  | softReset =>
    cases h
    exact .of_idle rfl
  | _ =>
    obtain ⟨hparams, -, -, hce, -⟩ := commandsChangeOnlyTheirUnit _ s t h
    exact hs.kept (.of_same hparams (hce (by simp [Instr.opcode]) nofun))

/-! ## A step -/

theorem coreStep_encoderSound {s t : State} (hp : s.params.Legal) (hs : EncoderSound s) (h : coreStep s = .next t) :
    EncoderSound t := by
  cases hw : s.ctl.pending with
  | none =>
    rw [coreStep_idle hw] at h
    cases h
    exact hs
  | some w =>
    cases hi : decode w with
    | error e =>
      rw [coreStep_error hw hi] at h
      cases h
      exact (hs.kept (recordError_encoderKept ..)).kept ⟨rfl, rfl⟩
    | ok i =>
      cases hu : exec i s with
      | next u =>
        rw [coreStep_exec hw hi hu] at h
        cases h
        exact (exec_encoderSound hp hs hu).kept ⟨rfl, rfl⟩
      | fault f => rw [coreStep_pending hw, execute_ok hi, hu] at h; cases h
      | refused x => rw [coreStep_pending hw, execute_ok hi, hu] at h; cases h

theorem hostAccess_encoderSound {a : HostAccess} {s t : State} (hs : EncoderSound s) (h : hostAccess a s = .next t) :
    EncoderSound t := by
  cases a with
  | regRead x bytes =>
    rw [hostAccess] at h
    split at h
    · cases h
    · cases h
      exact hs.kept (hostReadReg_encoderKept ..)
  | regWrite x bytes v =>
    rw [hostAccess] at h
    split at h
    · cases h
    · cases h
      exact hs.kept (hostWriteReg_encoderKept ..)
  | memRead x =>
    rw [hostAccess] at h
    split_ifs at h
    cases h
    exact hs.kept ⟨rfl, rfl⟩
  | memWrite x v =>
    rw [hostAccess] at h
    split_ifs at h
    cases h
    exact hs.kept ⟨rfl, rfl⟩
  | powerReset =>
    cases h
    exact .of_idle rfl

/-- Settles O54: the agent that moves keeps the encoder sound, and the list of turns does not matter. -/
theorem stepKeepsEncoderSound : Obligations.StepKeepsEncoderSound := by
  intro s t hs h
  match hl : s.host.turns with
  | [] => exact coreStep_encoderSound hs.params hs.encoder (step_core hl ▸ h)
  | .core :: l => exact coreStep_encoderSound (s := setTurns s l) hs.params (hs.setTurns l).encoder (step_core_turn hl ▸ h)
  | .host a :: l => exact hostAccess_encoderSound (hs.setTurns l).encoder (step_host_turn hl ▸ h)

end Sys2Proof.Machine
end

section
/-! The streaming identity (43_conv_encoder.md R190): two `CE_ENCODE` commands on the parts of an input. -/

open Sys2Proof Sys2Proof.Claims

namespace Sys2Proof.Machine

/-! ## What the cycles do not read -/

/-- The state with another control unit and another count of input bytes, which no encoder cycle reads or writes. -/
def relabel (c : Control) (b : Word) (s : State) : State := { s with ctl := c, ce := { s.ce with inBytes := b } }

theorem encOutput_relabel (j : Nat) (c : Control) (b : Word) (s : State) :
    encOutput j (relabel c b s) = relabel c b (encOutput j s) := by
  unfold encOutput
  change (if s.ce.lat.pmask.getLsbD s.ce.pcur.toNat then _ else _) = _
  split
  · rfl
  · rfl

theorem encOutputs_relabel (n : Nat) (c : Control) (b : Word) (s : State) :
    encOutputs n (relabel c b s) = relabel c b (encOutputs n s) := by
  induction n with
  | zero => rfl
  | succ n ih => rw [encOutputs, ih, encOutput_relabel, encOutputs]

theorem encCycle_relabel (v : Bool) (c : Control) (b : Word) (s : State) :
    encCycle v (relabel c b s) = relabel c b (encCycle v s) :=
  encOutputs_relabel s.ce.lat.n.toNat c b { s with ce := { s.ce with sr := encShift s.ce v } }

theorem encRun_relabel (f : Nat → Bool) (m : Nat) (c : Control) (b : Word) (s : State) :
    encRun f m (relabel c b s) = relabel c b (encRun f m s) := by
  induction m with
  | zero => rfl
  | succ m ih => rw [encRun, ih, encCycle_relabel, encRun]

theorem encBytes_relabel (n a : Nat) (c : Control) (b : Word) (s : State) :
    encBytes n a (relabel c b s) = relabel c b (encBytes n a s) := by
  induction n generalizing a s with
  | zero => rfl
  | succ n ih =>
    rw [encBytes, encBytes, encByte_eq_encRun, encRun_relabel, ih, encByte_eq_encRun]
    rfl

theorem encBytes_add (m n a : Nat) (s : State) : encBytes (m + n) a s = encBytes n (a + m) (encBytes m a s) := by
  induction m generalizing a s with
  | zero => rw [Nat.zero_add]; rfl
  | succ m ih => rw [Nat.add_right_comm, encBytes, ih, encBytes, Nat.add_assoc, Nat.add_comm 1 m]

/-- `CE_ENCODE` with other operands: its own control unit, its own count added. -/
theorem encodedState_relabel (c : Control) (b : Word) (s : State) :
    encodedState (relabel c b s) = relabel c (b + c.srcLen) (encBytes c.srcLen.toNat c.srcAddr.toNat s) := by
  have h : encInput (relabel c b s) = relabel c b (encBytes c.srcLen.toNat c.srcAddr.toNat s) := encBytes_relabel ..
  rw [encodedState, h]
  rfl

/-! ## The checks of the parts -/

/-- Regions inside two regions that do not overlap do not overlap (20_memory.md R108). -/
theorem not_overlaps_of_inside {g g' h h' : Region} (apart : ¬ Region.overlaps g h)
    (hg : g.base ≤ g'.base ∧ g'.base + g'.len ≤ g.base + g.len)
    (hh : h.base ≤ h'.base ∧ h'.base + h'.len ≤ h.base + h.len) : ¬ Region.overlaps g' h' := by
  simp only [Region.overlaps] at apart ⊢
  omega

/-- The checks of `CE_ENCODE` on the whole of an input hold on a part of it, whose output bits are among those of the whole. -/
theorem EncodeChecked.part {s w : State} (h : EncodeChecked s) (hparams : w.params = s.params) (hlat : w.ce.lat = s.ce.lat)
    (active : w.ce.session = .active)
    (input : s.ctl.srcAddr.toNat ≤ w.ctl.srcAddr.toNat ∧
      w.ctl.srcAddr.toNat + w.ctl.srcLen.toNat ≤ s.ctl.srcAddr.toNat + s.ctl.srcLen.toNat)
    (output : outPos s.ce.out ≤ outPos w.ce.out ∧ outPos w.ce.out + encodeBits w ≤ outPos s.ce.out + encodeBits s) :
    EncodeChecked w := by
  have hrange := h.range
  have hroom := h.room
  refine ⟨active, by rw [hparams]; omega, fun hemits => not_overlaps_of_inside (h.apart (by omega)) input ?_,
    by rw [hlat]; omega⟩
  obtain ⟨hbyte, -⟩ := outPos_split s.ce.out
  obtain ⟨hbyte', -⟩ := outPos_split w.ce.out
  simp only [outBytes, hlat]
  omega

/-! ## The two commands -/

/-- The control unit with another input region. -/
def withSource (c : Control) (a n : Word) : Control := { c with srcAddr := a, srcLen := n }

/-- The state the first command leaves, with the operands of the second. -/
def betweenParts (s : State) (n : Word) : State :=
  relabel (withSource s.ctl (s.ctl.srcAddr + n) (s.ctl.srcLen - n)) (s.ce.inBytes + n)
    (encBytes n.toNat s.ctl.srcAddr.toNat s)

section
variable {s : State} {n : Word} (h : EncodeChecked s) (hn : n.toNat ≤ s.ctl.srcLen.toNat)
include h hn

theorem firstPart_checked : EncodeChecked (relabel (withSource s.ctl s.ctl.srcAddr n) s.ce.inBytes s) := by
  have hpositions : encodePositions (relabel (withSource s.ctl s.ctl.srcAddr n) s.ce.inBytes s) ≤ encodePositions s :=
    Nat.mul_le_mul_right _ (Nat.mul_le_mul_left 8 hn)
  exact h.part rfl rfl h.active ⟨Nat.le_refl _, Nat.add_le_add_left hn _⟩
    ⟨Nat.le_refl _, Nat.add_le_add_left (kept_mono _ _ hpositions) _⟩

/-- The bits of the second part follow those of the first, and both together are those of the whole. -/
theorem secondPart_checked (hs : EncoderReady s) (haddr : s.ctl.srcAddr.toNat + n.toNat < 2 ^ 32) :
    EncodeChecked (betweenParts s n) := by
  have hrun := (EncoderRun.start hs.pattern hs.pcur).bytes n.toNat s.ctl.srcAddr.toNat
  rw [Nat.zero_add] at hrun
  have hlat : (betweenParts s n).ce.lat = s.ce.lat := hrun.moves.lat
  have hrest : (s.ctl.srcLen - n).toNat = s.ctl.srcLen.toNat - n.toNat := BitVec.toNat_sub_of_le hn
  have hnext : (s.ctl.srcAddr + n).toNat = s.ctl.srcAddr.toNat + n.toNat := BitVec.toNat_add_of_lt haddr
  have hpositions : encodePositions s = 8 * n.toNat * s.ce.lat.n.toNat + 8 * (s.ctl.srcLen - n).toNat * s.ce.lat.n.toNat := by
    rw [← Nat.add_mul, ← Nat.mul_add, hrest, Nat.add_sub_cancel' hn, encodePositions]
  have hbits : encodeBits s = kept s.ce.lat s.ce.pcur.toNat (8 * n.toNat * s.ce.lat.n.toNat) +
      encodeBits (betweenParts s n) := by
    rw [encodeBits, encodeBits, hlat, hpositions, kept_add, encodePositions, hlat]
    exact congrArg (fun p => _ + kept s.ce.lat p _) hrun.pcur.symm
  have hroom := h.room
  have hpos : outPos (betweenParts s n).ce.out =
      outPos s.ce.out + kept s.ce.lat s.ce.pcur.toNat (8 * n.toNat * s.ce.lat.n.toNat) :=
    (hrun.emitted (FitsOutput.mono hroom (hpositions ▸ Nat.le_add_right _ _))).1
  have hactive : (betweenParts s n).ce.session = .active := hrun.moves.session.trans h.active
  have hparams : (betweenParts s n).params = s.params := hrun.moves.params
  refine h.part hparams hlat hactive ⟨?_, ?_⟩ (by omega)
  · exact hnext ▸ Nat.le_add_right _ _
  · change (s.ctl.srcAddr + n).toNat + (s.ctl.srcLen - n).toNat ≤ _
    omega

end

/-- The cycles of the two parts are the cycles of the whole. -/
theorem encodedState_betweenParts {s : State} {n : Word} (hn : n.toNat ≤ s.ctl.srcLen.toNat)
    (haddr : s.ctl.srcAddr.toNat + n.toNat < 2 ^ 32) :
    { encodedState (betweenParts s n) with ctl := s.ctl } = encodedState s := by
  have hrest : (s.ctl.srcLen - n).toNat = s.ctl.srcLen.toNat - n.toNat := BitVec.toNat_sub_of_le hn
  have hnext : (s.ctl.srcAddr + n).toNat = s.ctl.srcAddr.toNat + n.toNat := BitVec.toNat_add_of_lt haddr
  have hcount : s.ce.inBytes + n + (s.ctl.srcLen - n) = s.ce.inBytes + s.ctl.srcLen := by
    rw [BitVec.add_assoc, BitVec.add_comm n, BitVec.sub_add_cancel]
  have hwhole : encodedState s = relabel s.ctl (s.ce.inBytes + s.ctl.srcLen)
      (encBytes s.ctl.srcLen.toNat s.ctl.srcAddr.toNat s) := encodedState_relabel s.ctl s.ce.inBytes s
  have hparts := encBytes_add n.toNat (s.ctl.srcLen.toNat - n.toNat) s.ctl.srcAddr.toNat s
  rw [Nat.add_sub_cancel' hn] at hparts
  rw [hwhole, hparts, ← hcount, betweenParts, encodedState_relabel]
  simp only [withSource, hrest, hnext]
  rfl

/-- Settles O23: the second command starts where the cycles of the first ended, and its operands are the rest of the input. -/
theorem encodeStreamingIdentity : Obligations.EncodeStreamingIdentity := by
  intro s t n hp hs hpass hn haddr he
  have hchecked := passes_ceEncode_iff.1 hpass
  have hready := hs.ready hp hchecked.begun
  rw [exec_ceEncode_checked hchecked] at he
  cases he
  have hword : (BitVec.ofNat 32 n).toNat = n := Nat.mod_eq_of_lt (by omega)
  have hn' : (BitVec.ofNat 32 n).toNat ≤ s.ctl.srcLen.toNat := by rwa [hword]
  have haddr' : s.ctl.srcAddr.toNat + (BitVec.ofNat 32 n).toNat < 2 ^ 32 := by rwa [hword]
  have hfirst := exec_ceEncode_checked (firstPart_checked hchecked hn')
  rw [encodedState_relabel] at hfirst
  exact ⟨_, _, hfirst, exec_ceEncode_checked (secondPart_checked hchecked hn' hready haddr'),
    (encodedState_betweenParts hn' haddr').symm⟩

end Sys2Proof.Machine
end

section
/-! Whole encoder sessions (43_conv_encoder.md R190, R192; 70_reset_and_hazards.md R358, R359): from `CE_RESET` to `CE_FLUSH`, over any
commands of the input and anything between them, the output stream is the code bits of the positions kept. -/

open Sys2Proof Sys2Proof.Claims

namespace Sys2Proof.Machine

/-! ## Runs one after the other -/

section
variable {s x : State} {f : Nat → Bool} {m : Nat} (hlat : x.ce.lat = s.ce.lat) (hsr : RegisterAfter s f m x.ce.sr)
include hlat hsr

theorem srBit_add (c i : Nat) : srBit x (fun j => f (m + j)) c i = srBit s f (m + c) i := by
  unfold srBit
  rw [hlat]
  by_cases hnew : s.ce.lat.k.toNat ≤ i + c
  · rw [if_pos hnew, if_pos (by omega)]
    exact congrArg f (by omega)
  · rw [if_neg hnew, hsr.of_lt (by omega), srBit, show i + c + m = i + (m + c) by omega]

/-- The code bits of a later run, counted from the start of the first. -/
theorem codeBit_add (hn : 0 < s.ce.lat.n.toNat) (q : Nat) :
    codeBit x (fun j => f (m + j)) q = codeBit s f (m * s.ce.lat.n.toNat + q) := by
  have hcycle : (m * s.ce.lat.n.toNat + q) / s.ce.lat.n.toNat = m + q / s.ce.lat.n.toNat := by
    rw [Nat.mul_comm, Nat.mul_add_div hn]
  have hpoly : (m * s.ce.lat.n.toNat + q) % s.ce.lat.n.toNat = q % s.ce.lat.n.toNat := by
    rw [Nat.mul_comm, Nat.mul_add_mod]
  unfold codeBit
  simp only [srBit_add hlat hsr]
  rw [hlat, hcycle, hpoly, Nat.add_assoc]

theorem codeBits_add (hn : 0 < s.ce.lat.n.toNat)
    (hpcur : x.ce.pcur.toNat = (s.ce.pcur.toNat + m * s.ce.lat.n.toNat) % s.ce.lat.plen.toNat) (k : Nat) :
    codeBits s f (m * s.ce.lat.n.toNat + k) = codeBits s f (m * s.ce.lat.n.toNat) ++ codeBits x (fun j => f (m + j)) k := by
  induction k with
  | zero => exact (List.append_nil _).symm
  | succ k ih =>
    rw [← Nat.add_assoc, codeBits, ih, codeBits, codeBit_add hlat hsr hn, hlat, hpcur, Nat.mod_add_mod, List.append_assoc,
      Nat.add_assoc]

theorem registerAfter_add {c : Nat} {sr : Word} (h : RegisterAfter x (fun j => f (m + j)) c sr) :
    RegisterAfter s f (m + c) sr := by
  intro i
  rw [h i, srBit_add hlat hsr, hlat]

end

/-! ## A session -/

/-- `t` is a state of the session begun in `s`, after `m` cycles of the input bits `f 0, f 1, …`: the encoder is where those cycles
leave it, and the output bytes begun hold the bits emitted and zeros after them. -/
structure SessionRun (s : State) (f : Nat → Bool) (m : Nat) (t : State) : Prop where
  sound    : EncoderSound t
  begun    : t.ce.session ≠ .idle
  params   : t.params = s.params
  lat      : t.ce.lat = s.ce.lat
  pcur     : t.ce.pcur.toNat = (s.ce.pcur.toNat + m * s.ce.lat.n.toNat) % s.ce.lat.plen.toNat
  register : RegisterAfter s f m t.ce.sr
  cursor   : outPos t.ce.out = kept s.ce.lat s.ce.pcur.toNat (m * s.ce.lat.n.toNat)
  stream   : ∀ p < 8 * ((outPos t.ce.out + 7) / 8),
    streamBit t.mem s.ce.lat.outBase.toNat p = (codeBits s f (m * s.ce.lat.n.toNat)).getD p false

namespace SessionRun

variable {s t x y : State} {f : Nat → Bool} {m : Nat}

theorem start (h : EncoderSound s) (begun : s.ce.session ≠ .idle) (hout : outPos s.ce.out = 0) (f : Nat → Bool) :
    SessionRun s f 0 s where
  sound := h
  begun := begun
  params := rfl
  lat := rfl
  pcur := by rw [Nat.zero_mul, Nat.add_zero, Nat.mod_eq_of_lt (h.pcur begun)]
  register := RegisterAfter.start f (h.sr begun)
  cursor := by rw [Nat.zero_mul, hout]; rfl
  stream p hp := absurd hp (by rw [hout]; omega)

/-- The host and the other units leave the session where it is (70_reset_and_hazards.md R358, R359). -/
theorem between (h : SessionRun s f m t) (hkept : SessionKept t x) : SessionRun s f m x := by
  obtain ⟨hparams, hce, hmem⟩ := hkept
  have hsound := h.sound.kept ⟨hparams, hce⟩
  obtain ⟨-, hroom⟩ := h.sound.output h.begun
  have hcursor : outPos t.ce.out = t.ce.out.pos := rfl
  have hstream : ∀ p < 8 * ((outPos t.ce.out + 7) / 8), streamBit x.mem s.ce.lat.outBase.toNat p =
      streamBit t.mem s.ce.lat.outBase.toNat p := by
    intro p hp
    rw [← h.lat, streamBit, streamBit, hmem _ (Nat.le_add_right _ _) (by omega)]
  generalize x.ce.cfg = cfg, x.ce.size = size at hce
  refine ⟨hsound, ?_, hparams.trans h.params, ?_, ?_, ?_, ?_, fun p hp => ?_⟩
  · rw [hce]; exact h.begun
  · rw [hce]; exact h.lat
  · rw [hce]; exact h.pcur
  · rw [hce]; exact h.register
  · rw [hce]; exact h.cursor
  · rw [hce] at hp
    rw [hstream p hp, h.stream p hp]

/-- Bits emitted into the stream of the session follow those it holds; the byte they begin in holds zeros there. -/
theorem written_eq (h : SessionRun s f m x) (l : List Bool) {p : Nat}
    (hp : p < 8 * ((outPos x.ce.out + l.length + 7) / 8)) :
    written x l p = (codeBits s f (m * s.ce.lat.n.toNat) ++ l).getD p false := by
  have hlength : (codeBits s f (m * s.ce.lat.n.toNat)).length = outPos x.ce.out := (codeBits_length ..).trans h.cursor.symm
  unfold written
  by_cases hle : outPos x.ce.out ≤ p
  · have hmerged : merged x p = false := by
      rw [merged_eq, Bool.and_eq_false_iff, decide_eq_false_iff_not, or_iff_not_imp_left, not_not]
      intro hin
      rw [h.lat, h.stream p (by omega), List.getD_eq_default _ _ (by omega)]
    rw [if_pos ⟨hle, hp⟩, hmerged, Bool.or_false, List.getD_append_right _ _ _ _ (by omega), hlength]
  · rw [if_neg fun hin => hle hin.1, h.lat, h.stream p (by omega), List.getD_append _ _ _ _ (by omega)]

/-- More cycles of the session, as far as its output buffer leaves room. -/
theorem run (h : SessionRun s f m x) (hp : s.params.Legal) {c : Nat} (room : FitsOutput x (c * x.ce.lat.n.toNat))
    (hy : y = encRun (fun j => f (m + j)) c x) (b : Word) {z : Session} (hz : z ≠ .idle) :
    SessionRun s f (m + c) { y with ce := { y.ce with inBytes := b, session := z } } := by
  subst hy
  have hready := h.sound.ready (h.params ▸ hp) h.begun
  obtain ⟨htrace, hsr⟩ := EncoderTrace.run hready (fun j => f (m + j)) c
  have hbits := codeBits_add h.lat h.register (h.lat ▸ hready.rate) h.pcur (c * s.ce.lat.n.toNat)
  have hpos := htrace.outPos_eq room
  have hpcur := htrace.pcur
  have hstream := htrace.stream room
  refine ⟨htrace.sound hsr h.sound h.begun room b z, hz, htrace.moves.params.trans h.params, htrace.moves.lat.trans h.lat,
    ?_, registerAfter_add h.lat h.register hsr, ?_, fun p hp => ?_⟩
  · rw [hpcur, h.lat, h.pcur, Nat.mod_add_mod, Nat.add_mul, Nat.add_assoc]
  · rw [hpos, h.cursor, h.lat, h.pcur, Nat.add_mul, kept_add]
  · rw [Nat.add_mul, hbits, ← h.written_eq _ (by rw [codeBits_length, ← h.lat, ← hpos]; exact hp), ← h.lat]
    exact hstream p

/-- The commands of the input, each with anything before it that leaves the session alone. -/
theorem encodes (h : SessionRun s f m t) (hp : s.params.Legal) {xs : List State} {bits : List Bool}
    (he : Encodes t xs bits x) (hf : ∀ j < bits.length, bits.getD j false = f (m + j)) :
    SessionRun s f (m + bits.length) x := by
  induction xs generalizing t bits m with
  | nil =>
    obtain ⟨rfl, rfl⟩ := he
    exact h
  | cons w xs ih =>
    obtain ⟨hkept, hpass, y, rest, hexec, rfl, hrest⟩ := he
    have hw := h.between hkept
    have hchecked := passes_ceEncode_iff.1 hpass
    have hready := hw.sound.ready (hw.params ▸ hp) hw.begun
    rw [exec_ceEncode_checked hchecked] at hexec
    cases hexec
    have hlength : ((List.range (8 * w.ctl.srcLen.toNat)).map (inputBit w)).length = 8 * w.ctl.srcLen.toNat := by simp
    have hinput : encInput w = encRun (fun j => f (m + j)) (8 * w.ctl.srcLen.toNat) w := by
      refine (encInput_eq_encRun hready hchecked).trans (encRun_congr (fun j hj => ?_) w)
      rw [← hf j (by rw [List.length_append]; omega), List.getD_append _ _ _ _ (by omega)]
      simp [List.getD_eq_getElem?_getD, hj]
    have hbegun : (encInput w).ce.session ≠ .idle := by
      rw [encInput, (encBytes_moves ..).session]
      exact hw.begun
    have hnext : SessionRun s f (m + 8 * w.ctl.srcLen.toNat) (encodedState w) := hw.run hp hchecked.room hinput _ hbegun
    rw [List.length_append, hlength, ← Nat.add_assoc]
    refine ih hnext hrest fun j hj => ?_
    rw [Nat.add_assoc, ← hf _ (by rw [List.length_append]; omega), List.getD_append_right _ _ _ _ (by omega), hlength,
      Nat.add_sub_cancel_left]

/-- `CE_FLUSH` shifts in K zeros: the input bits after the last. -/
theorem flush (h : SessionRun s f m x) (hp : s.params.Legal) (hchecked : FlushChecked x)
    (hf : ∀ j, f (m + j) = false) : SessionRun s f (m + s.ce.lat.k.toNat) (flushedState x) := by
  have htail : encTail x.ce.lat.k.toNat x = encRun (fun j => f (m + j)) x.ce.lat.k.toNat x := by
    rw [encTail_eq_encRun]
    exact encRun_congr (fun j _ => (hf j).symm) x
  rw [← h.lat]
  exact h.run hp hchecked.room htail _ nofun

/-- A kept position of the session holds its code bit. -/
theorem stream_kept (h : SessionRun s f m t) {q : Nat} (hq : q < m * s.ce.lat.n.toNat)
    (keep : s.ce.lat.pmask.getLsbD ((s.ce.pcur.toNat + q) % s.ce.lat.plen.toNat) = true) :
    streamBit t.mem s.ce.lat.outBase.toNat (kept s.ce.lat s.ce.pcur.toNat q) = codeBit s f q := by
  have hget := codeBits_getElem? f hq keep
  have hlt := (List.getElem?_eq_some_iff.1 hget).1
  rw [codeBits_length, ← h.cursor] at hlt
  rw [h.stream _ (by omega), List.getD_eq_getElem?_getD, hget, Option.getD_some]

end SessionRun

/-- A whole session is a run of its input bits and K zeros from the state `CE_RESET` leaves. -/
theorem encodeSession_run {r u : State} {bits : List Bool} (h : EncodeSession r bits u) (hp : r.params.Legal) :
    encOk r.params r.ce.cfg ∧
      SessionRun (resetEncoder r) (fun j => bits.getD j false) (bits.length + r.ce.cfg.k.toNat) u := by
  obtain ⟨s, xs, t, x, hreset, hs, hencodes, hkept, hflush, hu⟩ := h
  have hresetPasses := passes_iff_firstFailure.1 hreset
  obtain ⟨hlegal, top⟩ := ceResetChecks_iff.1 hresetPasses
  have hchecked := passes_ceFlush_iff.1 hflush
  rw [exec_ceReset, runCommand_of_none hresetPasses] at hs
  rw [exec_ceFlush_checked hchecked] at hu
  cases hs
  cases hu
  have hstart := SessionRun.start (resetEncoder_sound hlegal top) nofun rfl (fun j => bits.getD j false)
  have hinput := (hstart.encodes hp hencodes fun j _ => by rw [Nat.zero_add]).between hkept
  rw [Nat.zero_add] at hinput
  exact ⟨hlegal, hinput.flush hp hchecked fun j => List.getD_eq_default _ _ (Nat.le_add_right _ _)⟩

/-- The code bits depend on K, n, the register and the polynomials in use alone, not on the pattern (43_conv_encoder.md R192). -/
theorem codeBit_congr {s s' : State} (f : Nat → Bool) (hk : s'.ce.lat.k = s.ce.lat.k) (hn : s'.ce.lat.n = s.ce.lat.n)
    (hsr : s'.ce.sr = s.ce.sr) {q : Nat}
    (hpoly : s'.ce.lat.poly.getD (q % s.ce.lat.n.toNat) 0 = s.ce.lat.poly.getD (q % s.ce.lat.n.toNat) 0) :
    codeBit s' f q = codeBit s f q := by
  simp only [codeBit, srBit, hk, hn, hsr, hpoly]

/-- The pattern of one kept entry keeps every position. -/
theorem kept_unpunctured {c : EncConfig} (hplen : c.plen = 1) (hpmask : c.pmask.getLsbD 0 = true) (p k : Nat) :
    kept c p k = k := by
  simp [kept, hplen, hpmask, Nat.mod_one]

/-- The polynomials a legal configuration uses are latched (43_conv_encoder.md R185). -/
theorem resetEncoder_poly {r : State} (hp : r.params.Legal) (hlegal : encOk r.params r.ce.cfg) {j : Nat}
    (hj : j < r.ce.cfg.n.toNat) : (resetEncoder r).ce.lat.poly.getD j 0 = r.ce.cfg.poly.getD j 0 := by
  obtain ⟨-, -, -, hn, -, -⟩ := hlegal
  obtain ⟨-, -, ⟨-, hmax⟩, -⟩ := hp
  exact (latchPolys_getD _ _ _ (by omega)).trans (if_pos (by omega))

/-- Settles O24: both sessions are runs of the same input bits, whose code bits agree. -/
theorem punctureConsistency : Obligations.PunctureConsistency := by
  intro r r' u u' bits hp hp' hsession hsession' hk hn hpoly hplen hpmask
  obtain ⟨hlegal, hrun⟩ := encodeSession_run hsession hp
  obtain ⟨hlegal', hrun'⟩ := encodeSession_run hsession' hp'
  have hfull : ∀ k, kept (resetEncoder r').ce.lat 0 k = k :=
    kept_unpunctured (c := (resetEncoder r').ce.lat) hplen hpmask 0
  refine ⟨_, rfl, fun q hq keep => ?_, hrun.cursor, ?_⟩
  · have hj : q % r.ce.cfg.n.toNat < r.ce.cfg.n.toNat := Nat.mod_lt _ (rate_pos_of_encOk hlegal)
    have hpolys : (resetEncoder r').ce.lat.poly.getD (q % r.ce.cfg.n.toNat) 0 =
        (resetEncoder r).ce.lat.poly.getD (q % r.ce.cfg.n.toNat) 0 := by
      rw [resetEncoder_poly hp hlegal hj, resetEncoder_poly hp' hlegal' (hn ▸ hj), hpoly _ hj]
    have hbit := codeBit_congr (s := resetEncoder r) (s' := resetEncoder r') (fun j => bits.getD j false) hk hn rfl hpolys
    have hkept := hrun.stream_kept hq (by rwa [← Nat.zero_add q] at keep)
    have hall := hrun'.stream_kept (q := q) (by rw [hk]; exact hn ▸ hq) (by
      change r'.ce.cfg.pmask.getLsbD ((0 + q) % r'.ce.cfg.plen.toNat) = true
      rw [hplen, show (1 : BitVec 6).toNat = 1 from rfl, Nat.mod_one]
      exact hpmask)
    rw [show (resetEncoder r').ce.pcur.toNat = 0 from rfl, hfull] at hall
    exact hkept.trans (hbit.symm.trans hall.symm)
  · refine hrun'.cursor.trans ((hfull _).trans ?_)
    rw [hk]
    exact congrArg (fun w : BitVec 4 => (bits.length + r.ce.cfg.k.toNat) * w.toNat) hn

end Sys2Proof.Machine
end

section
/-! `VD_RESET` and `VD_CALCSIZE` and their checks (44_viterbi.md R210, R213, R214, R223, R226, R229). -/

open Sys2Proof Sys2Proof.Claims

namespace Sys2Proof.Machine

/-! ## The legal configuration (44_viterbi.md R210) -/

theorem decRateLegal_iff_decRateOk {p : Params} {c : DecConfig} : decRateLegal p c ↔ decRateOk p c := and_assoc

theorem decLegal_iff_decOk {p : Params} {c : DecConfig} : decLegal p c ↔ decOk p c :=
  and_congr_left' decRateLegal_iff_decRateOk

theorem decide_decRateLegal (p : Params) (c : DecConfig) : decide (decRateLegal p c) = decide (decRateOk p c) :=
  decide_eq_decide.2 decRateLegal_iff_decRateOk

theorem decide_decLegal (p : Params) (c : DecConfig) : decide (decLegal p c) = decide (decOk p c) :=
  decide_eq_decide.2 decLegal_iff_decOk

/-! ## `VD_RESET` (44_viterbi.md R223) -/

/-- The state `VD_RESET` leaves. -/
def resetDecoder (s : State) : State :=
  { s with vd := { s.vd with
      lat := { s.vd.cfg with poly := latchPolys s.params s.vd.cfg.poly s.vd.lat.poly }
      window := initWindow (decStates s.vd.cfg) (metricMax s.params) s.vd.cfg.depth.toNat s.vd.window
      wpos := 0, stepcnt := 0, out := Cursor.start, rxCnt := 0, rxBits := 0, bestState := 0, bestMetric := 0,
      session := .active } }

theorem exec_vdReset (s : State) : exec .vdReset s = runCommand .vdReset (checksOf s .vdReset) (resetDecoder s) s := by
  rw [checksOf, ← decide_decLegal, ← not_inRange]
  rfl

theorem vdResetChecks_iff {s : State} : firstFailure (checksOf s .vdReset) = none ↔
    decOk s.params s.vd.cfg ∧ s.vd.cfg.outBase.toNat + s.vd.cfg.outLimit.toNat ≤ 2 ^ s.params.addrW := by
  simp only [checksOf, beyond, firstFailure_cons_eq_none, firstFailure_nil, Bool.not_eq_false', decide_eq_true_eq,
    decide_eq_false_iff_not, Nat.not_lt, and_true]

theorem passes_vdReset_iff {s : State} : passes s .vdReset = true ↔
    decOk s.params s.vd.cfg ∧ s.vd.cfg.outBase.toNat + s.vd.cfg.outLimit.toNat ≤ 2 ^ s.params.addrW :=
  passes_iff_firstFailure.trans vdResetChecks_iff

theorem exec_vdReset_checked {s : State} (h : passes s .vdReset = true) : exec .vdReset s = .next (resetDecoder s) :=
  (exec_vdReset s).trans (runCommand_of_none (passes_iff_firstFailure.1 h))

/-- Every slot in use is fresh but slot 0, whose zero state is at metric 0 (44_viterbi.md R214). -/
theorem slot_initWindow {ns max d t : Nat} (w : List StepRecord) (h : t < d) :
    slot (initWindow ns max d w) t = if t = 0 then
      { freshRecord ns max (slot w 0) with m := setAt 0 (freshRecord ns max (slot w 0)).m 0 0, lom := 0 }
    else freshRecord ns max (slot w t) := by
  have hfresh : ∀ u < d, slot ((List.range d).map (fun t => freshRecord ns max (slot w t)) ++ w.drop d) u =
      freshRecord ns max (slot w u) := by
    intro u hu
    simp [slot, List.getD_eq_getElem?_getD, List.getElem?_append, hu]
  have hset := setAt_getD StepRecord.blank ((List.range d).map (fun t => freshRecord ns max (slot w t)) ++ w.drop d) 0 t
  unfold initWindow
  rw [slot, hset, ← slot, hfresh t h, hfresh 0 (by omega)]
  rfl

/-- The records of the slots in use, entry by entry. -/
theorem initWindow_record {ns max d t : Nat} (w : List StepRecord) (h : t < d) :
    (slot (initWindow ns max d w) t).lo = 0 ∧ (slot (initWindow ns max d w) t).lom = (if t = 0 then 0 else max) ∧
      ∀ x < ns, (slot (initWindow ns max d w) t).prev.getD x 0 = 0 ∧
        (slot (initWindow ns max d w) t).bit.getD x false = false ∧
        (slot (initWindow ns max d w) t).m.getD x 0 = if t = 0 ∧ x = 0 then 0 else max := by
  rw [slot_initWindow w h]
  by_cases ht : t = 0
  · simp only [ht, if_true, true_and]
    refine ⟨rfl, fun x hx => ⟨freshRecord_prev hx _, freshRecord_bit hx _, ?_⟩⟩
    rw [setAt_getD, freshRecord_metric hx]
  · simp only [ht, false_and, if_false]
    exact ⟨rfl, rfl, fun x hx => ⟨freshRecord_prev hx _, freshRecord_bit hx _, freshRecord_metric hx _⟩⟩

/-- Settles O25: one of the two checks fails, or the command leaves `resetDecoder`, whose window is `initWindow`. -/
theorem vdResetInitialisesTrellis : Obligations.VdResetInitialisesTrellis := by
  refine ⟨cmdFormat (i := .vdReset) rfl, fun s => ?_⟩
  rw [exec_vdReset]
  refine ⟨fun h => runCommand_of_head ?_, fun h top => runCommand_of_some ?_, fun h top =>
    ⟨_, _, runCommand_of_none (vdResetChecks_iff.2 ⟨h, top⟩), fun _ => latchPolys_getD _ _ _, fun t ht =>
      initWindow_record s.vd.window ht⟩⟩
  · rw [decide_eq_false (by tauto)]
    rfl
  · rw [checksOf, decide_eq_true h, beyond, decide_eq_true top]
    rfl

/-! ## `VD_CALCSIZE` (44_viterbi.md R226, R229) -/

theorem exec_vdCalcsize_illegal {s : State} (a : BitVec 24) (h : ¬ decRateOk s.params s.vd.cfg) :
    exec (.vdCalcsize a) s = .next (recordError s .badConfig 0x23#8) :=
  runCommand_of_head (by rw [decide_decRateLegal, decide_eq_false h]; rfl)

theorem exec_vdCalcsize_legal {s : State} (a : BitVec 24) (h : decRateOk s.params s.vd.cfg) :
    exec (.vdCalcsize a) s =
      .next { s with vd := { s.vd with size := BitVec.ofNat 32 (decSize s.vd.cfg a.toNat) } } :=
  runCommand_of_none (by rw [decide_decRateLegal, decide_eq_true h]; rfl)

/-- The size fits the register. -/
theorem decSize_toNat (c : DecConfig) (a : BitVec 24) :
    (BitVec.ofNat 32 (decSize c a.toNat)).toNat = decSize c a.toNat := by
  have htail : c.k.toNat * c.n.toNat ≤ 63 * 15 :=
    Nat.mul_le_mul (by have := c.k.isLt; omega) (by have := c.n.isLt; omega)
  have hdata := Nat.div_le_self (a.toNat - ceilDiv (c.k.toNat * c.n.toNat) 8) c.n.toNat
  refine Nat.mod_eq_of_lt ?_
  have := a.isLt
  unfold decSize ceilDiv at *
  omega

/-- Settles O32: the check of the rate, and the formula's `⌈K·n/8⌉` written out. -/
theorem vdCalcsizeIsTheFormula : Obligations.VdCalcsizeIsTheFormula := by
  refine ⟨fun w hop => decode_eq_ok_iff.2 ⟨rfl, encode_eq_iff.2 ⟨hop.symm, rfl⟩⟩, fun s a => ⟨fun h => ?_,
    fun hk hkmax hn hnmax => ⟨_, _, rfl, exec_vdCalcsize_legal a ⟨hk, hkmax, hn, hnmax⟩, decSize_toNat _ _⟩⟩⟩
  refine exec_vdCalcsize_illegal a fun hlegal => ?_
  unfold decRateOk at hlegal
  omega

/-- The reservation holds the bits of `a` bytes, `n` of them to a decoded bit, whatever the tail of at least one byte is: with
`q = (a − ct) div n`, `a < n (q + 1) + ct` and `n + ct ≤ n ct + 1`. -/
theorem steps_le_reservation {a n ct : Nat} (hn : 1 ≤ n) (hct : 1 ≤ ct) : 8 * a / n ≤ 8 * ((a - ct) / n + ct) := by
  have hdata : a - ct < n * ((a - ct) / n + 1) := Nat.lt_mul_div_succ _ hn
  have htail : n + ct ≤ n * ct + 1 := by nlinarith
  rw [Nat.mul_add] at hdata
  refine Nat.le_of_lt_succ ((Nat.div_lt_iff_lt_mul hn).2 ?_)
  rw [show (8 * ((a - ct) / n + ct)).succ * n = 8 * (n * ((a - ct) / n)) + 8 * (n * ct) + n by rw [Nat.succ_eq_add_one]; ring]
  omega

/-- Settles O33: the reservation in bits is at least the trellis steps. -/
theorem decoderReservationIsAdequate : Obligations.DecoderReservationIsAdequate := by
  intro s t a hpass h
  have hlegal : decRateOk s.params s.vd.cfg := by
    simpa [checksOf] using firstFailure_eq_none.1 (passes_iff_firstFailure.1 hpass)
  obtain ⟨hk, -, hn, -⟩ := id hlegal
  rw [exec_vdCalcsize_legal a hlegal] at h
  cases h
  have hkn := Nat.mul_le_mul hk hn
  have hbits := steps_le_reservation (a := a.toNat) (n := s.vd.cfg.n.toNat)
    (ct := ceilDiv (s.vd.cfg.k.toNat * s.vd.cfg.n.toNat) 8) (by omega) (by unfold ceilDiv; omega)
  change _ ≤ (BitVec.ofNat 32 (decSize s.vd.cfg a.toNat)).toNat
  rw [decSize_toNat, decSize]
  omega

end Sys2Proof.Machine
end

section
/-! One step of the trellis: the branches (44_viterbi.md R211, R212), and what add-compare-select leaves in each state (R216 to
R218). -/

open Sys2Proof Sys2Proof.Claims

namespace Sys2Proof.Machine

/-! ## The branches (44_viterbi.md R211, R212) -/

/-- The parity of a word of `k` bits masked by another is a GF(2) sum over those bits. -/
theorem parity_and_of_lt {w k : Nat} {v : BitVec w} (hk : k ≤ w) (hv : v.toNat < 2 ^ k) (u : BitVec w) :
    parity (v &&& u) = oddCount k (fun i => v.toNat.testBit i && u.getLsbD i) := by
  have hbits : (Finset.range w).filter (fun i => (v &&& u).getLsbD i = true) =
      (Finset.range k).filter (fun i => (v.toNat.testBit i && u.getLsbD i) = true) := by
    ext i
    rw [Finset.mem_filter, Finset.mem_filter, Finset.mem_range, Finset.mem_range, BitVec.getLsbD_and, BitVec.testBit_toNat]
    refine and_congr_left fun hi => ⟨fun _ => ?_, fun hlt => Nat.lt_of_lt_of_le hlt hk⟩
    by_contra hge
    have hhigh := Nat.testBit_lt_two_pow (Nat.lt_of_lt_of_le hv (Nat.pow_le_pow_right (by decide) (Nat.le_of_not_lt hge)))
    rw [← BitVec.testBit_toNat, hhigh, Bool.false_and] at hi
    exact Bool.false_ne_true hi
  rw [parity, popcount_eq_card, hbits, oddCount]
  exact Bool.beq_eq_decide_eq _ _

section
variable {c : DecConfig} (hk : 1 ≤ c.k.toNat ∧ c.k.toNat ≤ 32) {y : Nat} (hy : y < decStates c)
include hk hy

theorem branchSr_toNat (b : Bool) : (branchSr c y b).toNat = y + b.toNat * 2 ^ (c.k.toNat - 1) := by
  have htop : 2 ^ (c.k.toNat - 1) < 2 ^ 32 := Nat.pow_lt_pow_right (by decide) (by omega)
  have hword : y % 2 ^ 32 = y := Nat.mod_eq_of_lt (Nat.lt_trans hy htop)
  cases b with
  | false =>
    rw [branchSr, if_neg Bool.false_ne_true, BitVec.or_zero, BitVec.toNat_ofNat, hword, Bool.toNat_false, Nat.zero_mul]
    rfl
  | true =>
    have hor := Nat.two_pow_add_eq_or_of_lt (show y < 2 ^ (c.k.toNat - 1) from hy) 1
    rw [Nat.mul_one] at hor
    rw [branchSr, if_pos rfl, ← BitVec.twoPow_eq, BitVec.toNat_or, BitVec.toNat_ofNat, hword, BitVec.toNat_twoPow,
      Nat.mod_eq_of_lt htop, Nat.or_comm, Bool.toNat_true]
    omega

theorem branchSr_lt (b : Bool) : (branchSr c y b).toNat < 2 ^ c.k.toNat := by
  have hpow : 2 ^ c.k.toNat = 2 * 2 ^ (c.k.toNat - 1) := by rw [← Nat.pow_succ', Nat.succ_eq_add_one, Nat.sub_add_cancel hk.1]
  have hstate : y < 2 ^ (c.k.toNat - 1) := hy
  rw [branchSr_toNat hk hy]
  cases b with
  | false => rw [Bool.toNat_false]; omega
  | true => rw [Bool.toNat_true]; omega

theorem branchTo_eq (b : Bool) : branchTo c y b = (y + b.toNat * 2 ^ (c.k.toNat - 1)) / 2 := by
  rw [branchTo, BitVec.toNat_ushiftRight, Nat.shiftRight_one, branchSr_toNat hk hy]

/-- Every output bit of a branch is the GF(2) sum of the taps of its polynomial (44_viterbi.md R212). -/
theorem branchOut_getLsbD (hn : c.n.toNat ≤ 8) (b : Bool) (i : Nat) :
    (branchOut c y b).getLsbD i = branchBit c y b i := by
  have hpar := parity_and_of_lt hk.2 (branchSr_lt hk hy b)
  rw [branchOut, packBits_getLsbD, branchBit, hpar, branchSr_toNat hk hy]
  by_cases hi : i < c.n.toNat
  · rw [decide_eq_true hi, decide_eq_true (Nat.lt_of_lt_of_le hi hn), Bool.true_and]
  · rw [decide_eq_false hi, Bool.and_false, Bool.false_and]

theorem hamming_branchOut (hn : c.n.toNat ≤ 8) (b : Bool) (r : Byte) :
    hamming (branchOut c y b) r = branchDistance c y b r := by
  simp only [hamming_eq_card, branchOut_getLsbD hk hy hn, branchDistance]

theorem candidate_eq (hn : c.n.toNat ≤ 8) (max : Nat) (cur : StepRecord) (r : Byte) (b : Bool) :
    candidate c max cur r y b = min (cur.m.getD y 0 + branchDistance c y b r) max := by
  rw [candidate, hamming_branchOut hk hy hn]

end

theorem candidate_le (c : DecConfig) (max : Nat) (cur : StepRecord) (r : Byte) (y : Nat) (b : Bool) :
    candidate c max cur r y b ≤ max := Nat.min_le_right _ _

/-! ## The two predecessors of a state (44_viterbi.md R217) -/

/-- The lower-numbered predecessor of the state `x`; the other is the next state. -/
def pred (c : DecConfig) (x : Nat) : Nat := 2 * x % decStates c

/-- The input bit that leads to the state `x`. -/
def inBit (c : DecConfig) (x : Nat) : Bool := x.testBit (c.k.toNat - 2)

section
variable {c : DecConfig} (hk : 2 ≤ c.k.toNat) {x : Nat} (hx : x < decStates c)
include hk

/-- There are an even number of states. -/
theorem decStates_eq : decStates c = 2 * 2 ^ (c.k.toNat - 2) := by
  rw [decStates, ← Nat.pow_succ', Nat.succ_eq_add_one, show c.k.toNat - 2 + 1 = c.k.toNat - 1 by omega]

theorem pred_lt (x : Nat) : pred c x + 1 < decStates c := by
  have hstates := decStates_eq hk
  have hpos := Nat.two_pow_pos (c.k.toNat - 2)
  have heven : pred c x = 2 * (x % 2 ^ (c.k.toNat - 2)) := by rw [pred, hstates, Nat.mul_mod_mul_left]
  have hlt := Nat.mod_lt x hpos
  omega

include hx

theorem inBit_eq : inBit c x = decide (2 ^ (c.k.toNat - 2) ≤ x) := by
  have hstates := decStates_eq hk
  by_cases h : 2 ^ (c.k.toNat - 2) ≤ x
  · rw [decide_eq_true h, inBit, Nat.testBit_eq_decide_div_mod_eq, Nat.div_eq_of_lt_le (k := 1) (by omega) (by omega)]
    rfl
  · rw [decide_eq_false h]
    exact Nat.testBit_lt_two_pow (Nat.lt_of_not_le h)

/-- A branch leads to `x` exactly from one of its two predecessors, on its input bit. -/
theorem next_eq_iff {y : Nat} (hy : y < decStates c) (b : Bool) :
    (y + b.toNat * 2 ^ (c.k.toNat - 1)) / 2 = x ↔ (y = pred c x ∨ y = pred c x + 1) ∧ b = inBit c x := by
  have hstates := decStates_eq hk
  have htop : 2 ^ (c.k.toNat - 1) = decStates c := rfl
  rw [inBit_eq hk hx, pred, htop]
  by_cases h : 2 ^ (c.k.toNat - 2) ≤ x
  · have hpred : 2 * x % decStates c = 2 * x - decStates c := by
      rw [Nat.mod_eq_sub_mod (by omega), Nat.mod_eq_of_lt (by omega)]
    rw [decide_eq_true h, hpred]
    cases b with
    | false => simp only [Bool.toNat_false, Bool.false_eq_true, and_false, iff_false]; omega
    | true => simp only [Bool.toNat_true, and_true]; omega
  · rw [decide_eq_false h, Nat.mod_eq_of_lt (by omega)]
    cases b with
    | false => simp only [Bool.toNat_false, and_true]; omega
    | true => simp only [Bool.toNat_true, Bool.true_eq_false, and_false, iff_false]; omega

theorem branchTo_eq_iff (hk32 : c.k.toNat ≤ 32) {y : Nat} (hy : y < decStates c) (b : Bool) :
    branchTo c y b = x ↔ (y = pred c x ∨ y = pred c x + 1) ∧ b = inBit c x := by
  rw [branchTo_eq ⟨by omega, hk32⟩ hy, next_eq_iff hk hx hy]

end

/-! ## Add-compare-select (44_viterbi.md R216) -/

/-- What a step record says of one state: its metric, its back-pointer, its presumed input bit. -/
structure StateEntry where
  m    : Nat
  prev : Nat
  bit  : Bool

def entry (r : StepRecord) (x : Nat) : StateEntry := ⟨r.m.getD x 0, r.prev.getD x 0, r.bit.getD x false⟩

/-- The predecessor `p` offers its candidate with the input bit `b`, unless its metric is MAX; a candidate that is not greater
is taken (44_viterbi.md R216). -/
def offered (c : DecConfig) (max : Nat) (cur : StepRecord) (rb : Byte) (b : Bool) (p : Nat) (e : StateEntry) : StateEntry :=
  if cur.m.getD p 0 ≠ max ∧ candidate c max cur rb p b ≤ e.m then ⟨candidate c max cur rb p b, p, b⟩ else e

theorem acsBranch_entry (c : DecConfig) (max : Nat) (cur : StepRecord) (rb : Byte) (y : Nat) (b : Bool) (nx : StepRecord)
    (x : Nat) : entry (acsBranch c max cur rb y b nx) x =
      if branchTo c y b = x ∧ candidate c max cur rb y b ≤ (entry nx x).m then ⟨candidate c max cur rb y b, y, b⟩
      else entry nx x := by
  unfold acsBranch
  by_cases hto : branchTo c y b = x
  · subst hto
    by_cases hle : candidate c max cur rb y b ≤ nx.m.getD (branchTo c y b) 0
    · rw [if_pos hle, if_pos ⟨rfl, hle⟩]
      simp only [entry, setAt_getD_same]
    · rw [if_neg hle, if_neg fun h => hle h.2]
  · simp only [hto, false_and, if_false]
    split
    · simp only [entry, setAt_getD_ne _ _ _ (Ne.symm hto)]
    · rfl

section
variable {c : DecConfig} (hk : 2 ≤ c.k.toNat ∧ c.k.toNat ≤ 32) {x : Nat} (hx : x < decStates c) (max : Nat)
  (cur : StepRecord) (rb : Byte) (nx : StepRecord)
include hk hx

/-- A state offers its candidate to `x` when it is one of the two predecessors. -/
theorem acsState_entry {y : Nat} (hy : y < decStates c) : entry (acsState c max cur rb y nx) x =
    if y = pred c x ∨ y = pred c x + 1 then offered c max cur rb (inBit c x) y (entry nx x) else entry nx x := by
  have hto := branchTo_eq_iff hk.1 hx hk.2 hy
  unfold acsState offered
  by_cases hmax : cur.m.getD y 0 = max
  · simp only [hmax, if_true, ne_eq, not_true_eq_false, false_and, if_false, ite_self]
  · simp only [hmax, if_false, ne_eq, not_false_eq_true, true_and, acsBranch_entry, hto]
    cases hin : inBit c x with
    | false => simp [ite_and]
    | true => simp [ite_and]

/-- The states below `n`: first the lower predecessor offers, then the higher. -/
theorem acsStates_entry {n : Nat} (hn : n ≤ decStates c) : entry (acsStates c max cur rb n nx) x =
    (if pred c x + 1 < n then offered c max cur rb (inBit c x) (pred c x + 1) else id)
      ((if pred c x < n then offered c max cur rb (inBit c x) (pred c x) else id) (entry nx x)) := by
  induction n with
  | zero => rfl
  | succ n ih =>
    rw [acsStates, acsState_entry hk hx max cur rb _ (Nat.lt_of_succ_le hn), ih (Nat.le_of_succ_le hn)]
    rcases Nat.lt_trichotomy n (pred c x) with h | h | h
    · simp [show ¬ pred c x < n by omega, show ¬ pred c x + 1 < n by omega, show ¬ pred c x < n + 1 by omega,
        show ¬ n = pred c x by omega, show ¬ n = pred c x + 1 by omega]
    · simp [h]
    · by_cases h1 : n = pred c x + 1
      · simp [h1]
      · simp [h1, h, show pred c x + 1 < n by omega, show pred c x < n + 1 by omega, show ¬ n = pred c x by omega]

/-- After all states both predecessors have made their offer, the higher-numbered last (44_viterbi.md R217). -/
theorem acsRecord_entry : entry (acsRecord c max cur rb nx) x =
    offered c max cur rb (inBit c x) (pred c x + 1) (offered c max cur rb (inBit c x) (pred c x) (entry nx x)) := by
  have hlast := pred_lt hk.1 x
  have h := acsStates_entry hk hx max cur rb nx (Nat.le_refl _)
  rwa [if_pos hlast, if_pos (Nat.lt_of_succ_lt hlast)] at h

end

end Sys2Proof.Machine
end

section
/-! The trellis through a step: the record of the new slot, the ring, and what every step keeps, whatever the output buffer leaves
room for (44_viterbi.md R216 to R221, R227). -/

open Sys2Proof Sys2Proof.Claims

namespace Sys2Proof.Machine

/-! ## The new record -/

theorem offered_m {c : DecConfig} {max : Nat} {e : StateEntry} (he : e.m ≤ max) (cur : StepRecord) (rb : Byte) (b : Bool)
    (p : Nat) : (offered c max cur rb b p e).m = min (candidate c max cur rb p b) e.m := by
  unfold offered
  by_cases hmax : cur.m.getD p 0 = max
  · have hcand : candidate c max cur rb p b = max := by
      rw [candidate, hmax]
      exact Nat.min_eq_right (Nat.le_add_right _ _)
    rw [if_neg fun h => h.1 hmax, hcand, Nat.min_eq_right he]
  · split
    · next h => exact (Nat.min_eq_left h.2).symm
    · next h => exact (Nat.min_eq_right (Nat.le_of_not_le fun hle => h ⟨hmax, hle⟩)).symm

theorem offered_prev (c : DecConfig) (max : Nat) (cur : StepRecord) (rb : Byte) (b : Bool) (p : Nat) (e : StateEntry) :
    (offered c max cur rb b p e).prev = p ∨ offered c max cur rb b p e = e := by
  unfold offered
  split
  · exact .inl rfl
  · exact .inr rfl

/-- The lowest state is the first of its metric (44_viterbi.md R218). -/
theorem lowest_first (m : List Nat) (n : Nat) : ∀ x < (lowest m n).1, (lowest m n).2 < m.getD x 0 := by
  induction n with
  | zero => exact fun x hx => absurd hx (Nat.not_lt_zero x)
  | succ n ih =>
    intro x hx
    rw [lowest] at hx ⊢
    split at hx
    · next h =>
      rw [if_pos h]
      exact Nat.lt_of_lt_of_le h (lowest_le m n x (Nat.le_of_lt_succ hx))
    · next h =>
      rw [if_neg h]
      exact ih x hx

section
variable {c : DecConfig} (hk : 2 ≤ c.k.toNat ∧ c.k.toNat ≤ 32) {max : Nat} (cur : StepRecord) (rb : Byte) {nx : StepRecord}
  (hfresh : ∀ x < decStates c, nx.m.getD x 0 = max)
include hk hfresh

/-- The metric of a state is the least of its predecessors' candidates. -/
theorem acsRecord_metric {x : Nat} (hx : x < decStates c) : (acsRecord c max cur rb nx).m.getD x 0 =
    min (candidate c max cur rb (pred c x) (inBit c x)) (candidate c max cur rb (pred c x + 1) (inBit c x)) := by
  have hentry : (entry nx x).m = max := hfresh x hx
  have hfirst := offered_m (c := c) (Nat.le_of_eq hentry) cur rb (inBit c x) (pred c x)
  rw [hentry, Nat.min_eq_left (candidate_le ..)] at hfirst
  have hsecond := offered_m (c := c) (hfirst.trans_le (candidate_le ..)) cur rb (inBit c x) (pred c x + 1)
  rw [← acsRecord_entry hk hx max cur rb nx, hfirst, Nat.min_comm] at hsecond
  exact hsecond

theorem acsRecord_sound (hprev : ∀ x < decStates c, nx.prev.getD x 0 < decStates c) :
    RecordSound (decStates c) max (acsRecord c max cur rb nx) := by
  have hmetric : ∀ x < decStates c, (acsRecord c max cur rb nx).m.getD x 0 ≤ max := fun x hx => by
    rw [acsRecord_metric hk cur rb hfresh hx]
    exact Nat.le_trans (Nat.min_le_left _ _) (candidate_le ..)
  have hstates : 0 < decStates c := Nat.two_pow_pos _
  obtain ⟨hlo, hlom⟩ := lowest_attained (acsStates c max cur rb (decStates c) nx).m (decStates c - 1)
  refine ⟨hmetric, fun x hx => ?_, ?_, hlom.trans_le (hmetric _ ?_)⟩
  · have hlast := pred_lt hk.1 x
    change (entry (acsRecord c max cur rb nx) x).prev < _
    rw [acsRecord_entry hk hx]
    rcases offered_prev c max cur rb (inBit c x) (pred c x + 1) (offered c max cur rb (inBit c x) (pred c x) (entry nx x))
      with h | h
    · exact h.trans_lt hlast
    · rw [h]
      rcases offered_prev c max cur rb (inBit c x) (pred c x) (entry nx x) with h | h
      · rw [h]
        omega
      · rw [h]
        exact hprev x hx
  · exact Nat.lt_of_le_of_lt hlo (by omega)
  · omega

end

theorem freshRecord_sound {ns : Nat} (h : 0 < ns) (max : Nat) (old : StepRecord) :
    RecordSound ns max (freshRecord ns max old) where
  metric _ hx := Nat.le_of_eq (freshRecord_metric hx old)
  prev _ hx := (freshRecord_prev hx old).trans_lt h
  lo := h
  lom := Nat.le_refl _

/-! ## The ring -/

/-- The record a step writes. -/
def newRecord (rb : Byte) (s : State) : StepRecord :=
  acsRecord s.vd.lat (metricMax s.params) (slot s.vd.window s.vd.wpos.toNat) rb (slot s.vd.window (nextSlot s.vd))

/-- The slot a step refreshes (44_viterbi.md R221). -/
def freshSlot (d : Decoder) : Nat := (nextSlot d + 1) % d.lat.depth.toNat

/-- The window after the record is written, and after the next slot is refreshed. -/
def acsWindow (rb : Byte) (s : State) : List StepRecord :=
  setAt StepRecord.blank s.vd.window (nextSlot s.vd) (newRecord rb s)
def steppedWindow (rb : Byte) (s : State) : List StepRecord :=
  fresh (decStates s.vd.lat) (metricMax s.params) (acsWindow rb s) (freshSlot s.vd)

theorem emitStep_eq (s : State) :
    emitStep s = { s with mem := (emitStep s).mem, vd := { s.vd with out := (emitStep s).vd.out } } := by
  unfold emitStep
  split
  · rfl
  · rfl

/-- Everything a step does, but for its emission. -/
theorem trellisStep_eq (rb : Byte) (s : State) : trellisStep rb s = { s with
    mem := (trellisStep rb s).mem
    vd := { s.vd with
      out := (trellisStep rb s).vd.out
      stepcnt := if s.vd.stepcnt.toNat < s.vd.lat.depth.toNat - 1 then s.vd.stepcnt + 1 else s.vd.stepcnt
      wpos := BitVec.ofNat 16 (nextSlot s.vd)
      window := steppedWindow rb s
      bestState := BitVec.ofNat 16 (slot (acsWindow rb s) (nextSlot s.vd)).lo
      bestMetric := BitVec.ofNat 32 (slot (acsWindow rb s) (nextSlot s.vd)).lom } } := by
  rw [trellisStep, emitStep_eq]
  rfl

theorem nextSlot_lt {d : Decoder} (h : 0 < d.lat.depth.toNat) : nextSlot d < d.lat.depth.toNat := Nat.mod_lt _ h

theorem slot_acsWindow (rb : Byte) (s : State) (t : Nat) :
    slot (acsWindow rb s) t = if t = nextSlot s.vd then newRecord rb s else slot s.vd.window t := setAt_getD _ _ _ _ _

section
variable (rb : Byte) {s : State} (hd : 2 ≤ s.vd.lat.depth.toNat)
include hd

theorem freshSlot_ne_nextSlot : freshSlot s.vd ≠ nextSlot s.vd := by
  have hlt := nextSlot_lt (d := s.vd) (by omega)
  unfold freshSlot
  rcases Nat.lt_or_eq_of_le (Nat.succ_le_of_lt hlt) with h | h
  · rw [Nat.mod_eq_of_lt h]
    omega
  · rw [← Nat.succ_eq_add_one, h, Nat.mod_self]
    omega

theorem slot_steppedWindow (t : Nat) : slot (steppedWindow rb s) t =
    if t = freshSlot s.vd then freshRecord (decStates s.vd.lat) (metricMax s.params) (slot s.vd.window (freshSlot s.vd))
    else if t = nextSlot s.vd then newRecord rb s else slot s.vd.window t := by
  rw [steppedWindow, slot_fresh, slot_acsWindow, slot_acsWindow, if_neg (freshSlot_ne_nextSlot hd)]

theorem slot_steppedWindow_new : slot (steppedWindow rb s) (nextSlot s.vd) = newRecord rb s := by
  rw [slot_steppedWindow rb hd, if_neg (freshSlot_ne_nextSlot hd).symm, if_pos rfl]

theorem slot_steppedWindow_fresh : slot (steppedWindow rb s) (freshSlot s.vd) =
    freshRecord (decStates s.vd.lat) (metricMax s.params) (slot s.vd.window (freshSlot s.vd)) := by
  rw [slot_steppedWindow rb hd, if_pos rfl]

end

theorem window_trellisStep (rb : Byte) (s : State) : (trellisStep rb s).vd.window = steppedWindow rb s := by
  rw [trellisStep_eq]

/-! ## What every step keeps -/

/-- What a trellis step relies on: a legal configuration, sound records in the slots in use, and a fresh slot to write next. -/
structure TrellisReady (s : State) : Prop where
  params    : s.params.Legal
  legal     : decLegal s.params s.vd.lat
  wpos      : s.vd.wpos.toNat < s.vd.lat.depth.toNat
  records   : ∀ t < s.vd.lat.depth.toNat, RecordSound (decStates s.vd.lat) (metricMax s.params) (slot s.vd.window t)
  nextFresh : ∀ x < decStates s.vd.lat, (slot s.vd.window (nextSlot s.vd)).m.getD x 0 = metricMax s.params

theorem DecoderSound.ready {s : State} (h : DecoderSound s) (hp : s.params.Legal) (begun : s.vd.session ≠ .idle) :
    TrellisReady s :=
  ⟨hp, h.legal begun, h.wpos begun, h.records begun, h.nextFresh begun⟩

namespace TrellisReady

variable {s : State} (h : TrellisReady s)
include h

theorem register : 2 ≤ s.vd.lat.k.toNat ∧ s.vd.lat.k.toNat ≤ 16 := by
  obtain ⟨-, -, -, ⟨-, hmax⟩, -⟩ := h.params
  obtain ⟨⟨⟨hk, hkmax⟩, -⟩, -⟩ := h.legal
  exact ⟨hk, Nat.le_trans hkmax hmax⟩

theorem register32 : 2 ≤ s.vd.lat.k.toNat ∧ s.vd.lat.k.toNat ≤ 32 :=
  ⟨h.register.1, Nat.le_trans h.register.2 (by decide)⟩

theorem rate : 2 ≤ s.vd.lat.n.toNat ∧ s.vd.lat.n.toNat ≤ 8 := by
  obtain ⟨-, -, ⟨-, hmax⟩, -⟩ := h.params
  obtain ⟨⟨-, ⟨hn, hnmax⟩⟩, -⟩ := h.legal
  exact ⟨hn, Nat.le_trans hnmax hmax⟩

theorem depth : 2 ≤ s.vd.lat.depth.toNat := h.legal.2.1

theorem newRecord_sound (rb : Byte) : RecordSound (decStates s.vd.lat) (metricMax s.params) (newRecord rb s) :=
  acsRecord_sound h.register32 _ rb h.nextFresh (h.records _ (nextSlot_lt (by have := h.depth; omega))).prev

/-- The best state and its metric fit their registers (10_state.md R68). -/
theorem best_toNat (rb : Byte) : (trellisStep rb s).vd.bestState.toNat = (newRecord rb s).lo ∧
    (trellisStep rb s).vd.bestMetric.toNat = (newRecord rb s).lom := by
  have hsound := h.newRecord_sound rb
  have hstates : decStates s.vd.lat ≤ 2 ^ 16 := Nat.pow_le_pow_right (by decide) (by have := h.register; omega)
  obtain ⟨-, -, -, -, -, ⟨-, hw⟩, -⟩ := h.params
  have hmax : metricMax s.params < 2 ^ 32 :=
    Nat.lt_of_lt_of_le (Nat.sub_lt (Nat.two_pow_pos _) Nat.one_pos) (Nat.pow_le_pow_right (by decide) hw)
  rw [trellisStep_eq]
  simp only [slot_acsWindow, if_true, BitVec.toNat_ofNat]
  exact ⟨Nat.mod_eq_of_lt (Nat.lt_of_lt_of_le hsound.lo hstates), Nat.mod_eq_of_lt (Nat.lt_of_le_of_lt hsound.lom hmax)⟩

theorem wpos_trellisStep (rb : Byte) : (trellisStep rb s).vd.wpos.toNat = nextSlot s.vd := by
  rw [trellisStep_eq]
  have hlt := nextSlot_lt (d := s.vd) (by have := h.depth; omega)
  exact Nat.mod_eq_of_lt (Nat.lt_trans hlt s.vd.lat.depth.isLt)

/-- The newest slot after a step is the one it wrote. -/
theorem slot_newest (rb : Byte) : slot (trellisStep rb s).vd.window (trellisStep rb s).vd.wpos.toNat = newRecord rb s := by
  rw [window_trellisStep, h.wpos_trellisStep, slot_steppedWindow_new rb h.depth]

theorem nextSlot_trellisStep (rb : Byte) : nextSlot (trellisStep rb s).vd = freshSlot s.vd := by
  rw [nextSlot, h.wpos_trellisStep, (trellisStep_moves rb s).lat, freshSlot]

theorem step (rb : Byte) : TrellisReady (trellisStep rb s) := by
  have hd := h.depth
  have hstates : 0 < decStates s.vd.lat := Nat.two_pow_pos _
  have hnext := nextSlot_lt (d := s.vd) (by omega)
  have hmoves := trellisStep_moves rb s
  refine ⟨by rw [hmoves.params]; exact h.params, by rw [hmoves.params, hmoves.lat]; exact h.legal,
    by rw [h.wpos_trellisStep, hmoves.lat]; exact hnext, ?_, ?_⟩
  · rw [hmoves.params, hmoves.lat, window_trellisStep]
    intro t ht
    rw [slot_steppedWindow rb hd]
    split
    · exact freshRecord_sound hstates _ _
    · split
      · exact h.newRecord_sound rb
      · exact h.records t ht
  · rw [hmoves.params, hmoves.lat, window_trellisStep, h.nextSlot_trellisStep, slot_steppedWindow_fresh rb hd]
    exact fun x hx => freshRecord_metric hx _

end TrellisReady

end Sys2Proof.Machine
end

section
/-! The decoder's output: the bit a trellis step traces back, and where an emitted bit goes (44_viterbi.md R219, R222). -/

open Sys2Proof Sys2Proof.Claims

namespace Sys2Proof.Machine

/-! ## One emitted bit (44_viterbi.md R222) -/

/-- One bit further, up to the last position a cursor holds. -/
theorem Cursor.advance_pos_of_lt {c : Cursor} (h : c.pos + 1 < 2 ^ 35) : c.advance.pos = c.pos + 1 := by
  by_cases hbit : c.bit = 0
  · have hpos : c.pos = 8 * c.byte.toNat + 7 := by rw [Cursor.pos, hbit]; rfl
    exact Cursor.advance_pos (by omega)
  · have hone : 1 ≤ c.bit.toNat := Nat.one_le_iff_ne_zero.2 fun h0 => hbit (BitVec.eq_of_toNat_eq h0)
    have hlt := c.bit.isLt
    have hdown : (c.bit - 1).toNat = c.bit.toNat - 1 := BitVec.toNat_sub_of_le hone
    rw [Cursor.advance, if_neg hbit, Cursor.pos, Cursor.pos]
    simp only [hdown]
    omega

/-- `EmitV` ORs its bit into the byte at the cursor, and into no other bit of the memory. -/
theorem emitV_getLsbD (v : Bool) (s : State) (a b : Nat) :
    (Memory.read (emitV v s).mem a).getLsbD b = ((Memory.read s.mem a).getLsbD b ||
      (v && decide (a = s.vd.lat.outBase.toNat + outPos s.vd.out / 8 ∧ b = 7 - outPos s.vd.out % 8))) := by
  obtain ⟨hbyte, hbit⟩ := outPos_split s.vd.out
  rw [← hbyte, ← hbit]
  by_cases ha : a = s.vd.lat.outBase.toNat + s.vd.out.byte.toNat
  · simp only [ha, true_and]
    change (Memory.read (Memory.orBit _ _ _ _) _).getLsbD b = _
    rw [Memory.read_orBit, if_pos rfl, BitVec.getLsbD_or, singleBit_getLsbD s.vd.out.bit.isLt]
  · rw [emitV_frame v s ha, decide_eq_false fun h => ha h.1, Bool.and_false, Bool.or_false]

theorem emitV_streamBit (v : Bool) (s : State) (p : Nat) : streamBit (emitV v s).mem s.vd.lat.outBase.toNat p =
    (streamBit s.mem s.vd.lat.outBase.toNat p || (v && decide (p = outPos s.vd.out))) := by
  have hpos : (s.vd.lat.outBase.toNat + p / 8 = s.vd.lat.outBase.toNat + outPos s.vd.out / 8 ∧
      7 - p % 8 = 7 - outPos s.vd.out % 8) ↔ p = outPos s.vd.out := by omega
  rw [streamBit, emitV_getLsbD, decide_eq_decide.2 hpos, streamBit]

/-! ## The walk back (44_viterbi.md R219) -/

/-- One slot back and then `n` more are `n + 1` slots back. -/
theorem ring_back {d t : Nat} (h : t < d) (n : Nat) :
    ((t + d - 1) % d + n * (d - 1)) % d = (t + (n + 1) * (d - 1)) % d := by
  rw [Nat.mod_add_mod, Nat.succ_mul]
  congr 1
  omega

/-- The first back-pointer taken first. -/
theorem backState_head (w : List StepRecord) {d t : Nat} (h : t < d) (x n : Nat) :
    backState w d t x (n + 1) = backState w d ((t + d - 1) % d) ((slot w t).prev.getD x 0) n := by
  induction n with
  | zero => simp only [backState, Nat.zero_mul, Nat.add_zero, Nat.mod_eq_of_lt h]
  | succ n ih => rw [backState, ih, backState, ring_back h]

theorem followBack_eq (w : List StepRecord) {d t : Nat} (h : t < d) (x n : Nat) :
    followBack w d n (x, t) = (backState w d t x n, (t + n * (d - 1)) % d) := by
  induction n generalizing t x with
  | zero => simp only [followBack, backState, Nat.zero_mul, Nat.add_zero, Nat.mod_eq_of_lt h]
  | succ n ih => rw [followBack, ih (Nat.mod_lt _ (by omega)), backState_head w h, ring_back h]

theorem backState_congr {w w' : List StepRecord} {d t n : Nat}
    (h : ∀ i < n, slot w' ((t + i * (d - 1)) % d) = slot w ((t + i * (d - 1)) % d)) (x : Nat) :
    backState w' d t x n = backState w d t x n := by
  induction n with
  | zero => rfl
  | succ n ih => rw [backState, backState, ih fun i hi => h i (by omega), h n (by omega)]

/-- The first `d - 1` slots back do not reach the slot after the newest. -/
theorem back_ne_next {d i : Nat} (t : Nat) (hi : i + 1 < d) : (t + i * (d - 1)) % d ≠ (t + 1) % d := by
  intro h
  have hmod : t + 0 ≡ t + (i + 1) [MOD d] := by
    calc t + 0
      _ ≡ t + d * i [MOD d] := (Nat.add_mul_mod_self_left t d i).symm
      _ = t + i * (d - 1) + i := by
        obtain ⟨e, rfl⟩ : ∃ e, d = e + 1 := ⟨d - 1, by omega⟩
        rw [Nat.add_sub_cancel]
        ring
      _ ≡ t + 1 + i [MOD d] := Nat.ModEq.add_right i h
      _ = t + (i + 1) := by ring
  have hdvd := (Nat.modEq_zero_iff_dvd).1 (Nat.ModEq.add_left_cancel' t hmod).symm
  exact absurd (Nat.eq_zero_of_dvd_of_lt hdvd hi) (Nat.succ_ne_zero i)

/-- `d - 1` slots back are one slot on. -/
theorem back_last {d : Nat} (t : Nat) (hd : 2 ≤ d) : (t + (d - 1) * (d - 1)) % d = (t + 1) % d := by
  obtain ⟨e, rfl⟩ : ∃ e, d = e + 2 := ⟨d - 2, by omega⟩
  rw [show t + (e + 2 - 1) * (e + 2 - 1) = t + 1 + (e + 2) * e by rw [Nat.add_succ_sub_one]; ring, Nat.add_mul_mod_self_left]

/-- The bit a step traces back: in the oldest slot, that of the state `D − 1` back-pointers from the new best state. -/
def tracedBit (rb : Byte) (s : State) : Bool :=
  (slot s.vd.window (freshSlot s.vd)).bit.getD
    (backState (steppedWindow rb s) s.vd.lat.depth.toNat (nextSlot s.vd) (newRecord rb s).lo (s.vd.lat.depth.toNat - 1)) false

theorem traceback_acsWindow (rb : Byte) {s : State} (hd : 2 ≤ s.vd.lat.depth.toNat) :
    traceback (acsWindow rb s) s.vd.lat.depth.toNat (nextSlot s.vd) = tracedBit rb s := by
  have hnext := nextSlot_lt (d := s.vd) (by omega)
  have hback : ∀ x, backState (steppedWindow rb s) s.vd.lat.depth.toNat (nextSlot s.vd) x (s.vd.lat.depth.toNat - 1) =
      backState (acsWindow rb s) s.vd.lat.depth.toNat (nextSlot s.vd) x (s.vd.lat.depth.toNat - 1) :=
    backState_congr fun i hi => by
      have hne : _ ≠ freshSlot s.vd := back_ne_next (nextSlot s.vd) (show i + 1 < _ by omega)
      rw [steppedWindow, slot_fresh, if_neg hne]
  have hoff : slot (acsWindow rb s) (freshSlot s.vd) = slot s.vd.window (freshSlot s.vd) := by
    rw [slot_acsWindow, if_neg (freshSlot_ne_nextSlot hd)]
  simp only [traceback, followBack_eq _ hnext, back_last _ hd]
  rw [← freshSlot, hoff, slot_acsWindow, if_pos rfl, tracedBit, hback]

/-- With a full window a step emits the bit it traces back. -/
theorem trellisStep_emits {s : State} (hd : 2 ≤ s.vd.lat.depth.toNat)
    (hfull : s.vd.lat.depth.toNat - 1 ≤ s.vd.stepcnt.toNat) (rb : Byte) :
    (trellisStep rb s).mem = (emitV (tracedBit rb s) s).mem := by
  have he : emitStep (acsStep rb s) =
      emitV (traceback (acsWindow rb s) s.vd.lat.depth.toNat (nextSlot s.vd)) (acsStep rb s) := if_pos hfull
  rw [trellisStep, he, traceback_acsWindow rb hd]
  rfl

end Sys2Proof.Machine
end

section
/-! The survivors of a trellis step (44_viterbi.md R216, R217): which of the two predecessors' offers each state keeps. -/

open Sys2Proof Sys2Proof.Claims

namespace Sys2Proof.Machine

section
variable {c : DecConfig} {max : Nat} {cur : StepRecord} {p : Nat} {e : StateEntry}

theorem offered_of_infinite (h : cur.m.getD p 0 = max) (rb : Byte) (b : Bool) : offered c max cur rb b p e = e :=
  if_neg fun hne => hne.1 h

theorem offered_of_le {rb : Byte} {b : Bool} (h : cur.m.getD p 0 ≠ max) (hle : candidate c max cur rb p b ≤ e.m) :
    offered c max cur rb b p e = ⟨candidate c max cur rb p b, p, b⟩ := if_pos ⟨h, hle⟩

theorem offered_of_lt {rb : Byte} {b : Bool} (hlt : e.m < candidate c max cur rb p b) : offered c max cur rb b p e = e :=
  if_neg fun hne => Nat.not_le.2 hlt hne.2

end

theorem entry_eq_iff {r : StepRecord} {x m p : Nat} {b : Bool} :
    entry r x = ⟨m, p, b⟩ ↔ r.m.getD x 0 = m ∧ r.prev.getD x 0 = p ∧ r.bit.getD x false = b := by
  rw [entry, StateEntry.mk.injEq]

/-- The metric of state `x` in the newest slot. -/
def oldMetric (s : State) (x : Nat) : Nat := (slot s.vd.window s.vd.wpos.toNat).m.getD x 0

/-- The candidate of the predecessor `p` of the state `x` (44_viterbi.md R216). -/
def offer (rb : Byte) (s : State) (x p : Nat) : Nat :=
  min (oldMetric s p + branchDistance s.vd.lat p (inBit s.vd.lat x) rb) (metricMax s.params)

section
variable {s : State} (h : TrellisReady s) (rb : Byte)
include h

theorem candidate_eq_offer (x : Nat) {p : Nat} (hp : p < decStates s.vd.lat) :
    candidate s.vd.lat (metricMax s.params) (slot s.vd.window s.vd.wpos.toNat) rb p (inBit s.vd.lat x) = offer rb s x p :=
  candidate_eq (by have := h.register; omega) hp h.rate.2 _ _ _ _

variable {x : Nat} (hx : x < decStates s.vd.lat)
include hx

theorem newRecord_entry : entry (newRecord rb s) x =
    offered s.vd.lat (metricMax s.params) (slot s.vd.window s.vd.wpos.toNat) rb (inBit s.vd.lat x) (pred s.vd.lat x + 1)
      (offered s.vd.lat (metricMax s.params) (slot s.vd.window s.vd.wpos.toNat) rb (inBit s.vd.lat x) (pred s.vd.lat x)
        (entry (slot s.vd.window (nextSlot s.vd)) x)) := acsRecord_entry h.register32 hx _ _ _ _

/-- The least of the two offers, whichever of the two predecessors counts: the offer of one at MAX is MAX. -/
theorem newRecord_metric :
    (newRecord rb s).m.getD x 0 = min (offer rb s x (pred s.vd.lat x)) (offer rb s x (pred s.vd.lat x + 1)) := by
  have hlast := pred_lt h.register.1 x
  rw [← candidate_eq_offer h rb x (Nat.lt_of_succ_lt hlast), ← candidate_eq_offer h rb x hlast]
  exact acsRecord_metric h.register32 _ rb h.nextFresh hx

/-- Neither predecessor counts: the slot written keeps what it held. -/
theorem newRecord_entry_none (h0 : oldMetric s (pred s.vd.lat x) = metricMax s.params)
    (h1 : oldMetric s (pred s.vd.lat x + 1) = metricMax s.params) :
    entry (newRecord rb s) x = entry (slot s.vd.window (nextSlot s.vd)) x := by
  rw [newRecord_entry h rb hx, offered_of_infinite h1, offered_of_infinite h0]

/-- An offer is taken by a state still at MAX. -/
theorem offered_to_fresh {p : Nat} (hp : p < decStates s.vd.lat) (hne : oldMetric s p ≠ metricMax s.params) :
    offered s.vd.lat (metricMax s.params) (slot s.vd.window s.vd.wpos.toNat) rb (inBit s.vd.lat x) p
      (entry (slot s.vd.window (nextSlot s.vd)) x) = ⟨offer rb s x p, p, inBit s.vd.lat x⟩ := by
  have hmax : (entry (slot s.vd.window (nextSlot s.vd)) x).m = metricMax s.params := h.nextFresh x hx
  rw [offered_of_le hne (hmax ▸ candidate_le ..), candidate_eq_offer h rb x hp]

theorem newRecord_entry_low (h0 : oldMetric s (pred s.vd.lat x) ≠ metricMax s.params)
    (h1 : oldMetric s (pred s.vd.lat x + 1) = metricMax s.params) :
    entry (newRecord rb s) x = ⟨offer rb s x (pred s.vd.lat x), pred s.vd.lat x, inBit s.vd.lat x⟩ := by
  rw [newRecord_entry h rb hx, offered_of_infinite h1, offered_to_fresh h rb hx (Nat.lt_of_succ_lt (pred_lt h.register.1 x)) h0]

theorem newRecord_entry_high (h0 : oldMetric s (pred s.vd.lat x) = metricMax s.params)
    (h1 : oldMetric s (pred s.vd.lat x + 1) ≠ metricMax s.params) :
    entry (newRecord rb s) x = ⟨offer rb s x (pred s.vd.lat x + 1), pred s.vd.lat x + 1, inBit s.vd.lat x⟩ := by
  rw [newRecord_entry h rb hx, offered_of_infinite h0, offered_to_fresh h rb hx (pred_lt h.register.1 x) h1]

/-- Both count: the higher-numbered offers last, and its offer is taken when it is not greater (44_viterbi.md R217). -/
theorem newRecord_entry_both (h0 : oldMetric s (pred s.vd.lat x) ≠ metricMax s.params)
    (h1 : oldMetric s (pred s.vd.lat x + 1) ≠ metricMax s.params) : entry (newRecord rb s) x =
    ⟨min (offer rb s x (pred s.vd.lat x)) (offer rb s x (pred s.vd.lat x + 1)),
      if offer rb s x (pred s.vd.lat x + 1) ≤ offer rb s x (pred s.vd.lat x) then pred s.vd.lat x + 1 else pred s.vd.lat x,
      inBit s.vd.lat x⟩ := by
  have hlast := pred_lt h.register.1 x
  have hcand := candidate_eq_offer h rb x hlast
  rw [newRecord_entry h rb hx, offered_to_fresh h rb hx (Nat.lt_of_succ_lt hlast) h0]
  by_cases hle : offer rb s x (pred s.vd.lat x + 1) ≤ offer rb s x (pred s.vd.lat x)
  · rw [offered_of_le h1 (hcand.trans_le hle), hcand, if_pos hle, Nat.min_eq_right hle]
  · have hlt := Nat.lt_of_not_le hle
    rw [offered_of_lt (hlt.trans_eq hcand.symm), if_neg hle, Nat.min_eq_left (Nat.le_of_lt hlt)]

end

/-- A step changes the memory, the window and its cursors. -/
theorem trellisStep_frame (rb : Byte) (s : State) : trellisStep rb s = { s with
    mem := (trellisStep rb s).mem
    vd := { s.vd with
      wpos := (trellisStep rb s).vd.wpos, stepcnt := (trellisStep rb s).vd.stepcnt, out := (trellisStep rb s).vd.out,
      bestState := (trellisStep rb s).vd.bestState, bestMetric := (trellisStep rb s).vd.bestMetric,
      window := (trellisStep rb s).vd.window } } := by
  rw [trellisStep, emitStep_eq]
  rfl

/-- A sound output cursor is not the last one. -/
theorem DecoderSound.cursor_lt {s : State} (h : DecoderSound s) (begun : s.vd.session ≠ .idle) :
    s.vd.out.pos + 1 < 2 ^ 35 := by
  have hcursor := (h.output begun).cursor
  have hlimit := s.vd.lat.outLimit.isLt
  omega

/-- With a full window one bit goes to the cursor: the presumed bit, in the oldest slot, of the state the walk leads to. -/
theorem trellisStep_emission {s : State} (hs : DecoderSound s) (hr : TrellisReady s) (begun : s.vd.session ≠ .idle)
    (hfull : s.vd.lat.depth.toNat - 1 ≤ s.vd.stepcnt.toNat) (rb : Byte) :
    (trellisStep rb s).vd.stepcnt = s.vd.stepcnt ∧ outPos (trellisStep rb s).vd.out = outPos s.vd.out + 1 ∧
      streamBit (trellisStep rb s).mem s.vd.lat.outBase.toNat (outPos s.vd.out) =
        (streamBit s.mem s.vd.lat.outBase.toNat (outPos s.vd.out) ||
          (slot s.vd.window ((s.vd.wpos.toNat + 2) % s.vd.lat.depth.toNat)).bit.getD
            (backState (trellisStep rb s).vd.window s.vd.lat.depth.toNat (trellisStep rb s).vd.wpos.toNat (newRecord rb s).lo
              (s.vd.lat.depth.toNat - 1)) false) ∧
      ∀ a b, ¬ (a = s.vd.lat.outBase.toNat + outPos s.vd.out / 8 ∧ b = 7 - outPos s.vd.out % 8) →
        (Memory.read (trellisStep rb s).mem a).getLsbD b = (Memory.read s.mem a).getLsbD b := by
  obtain ⟨hcount, hout, -⟩ := trellisStep_full hfull rb
  have hmem := trellisStep_emits hr.depth hfull rb
  have hslot : freshSlot s.vd = (s.vd.wpos.toNat + 2) % s.vd.lat.depth.toNat := Nat.mod_add_mod _ _ _
  refine ⟨hcount, by rw [hout]; exact Cursor.advance_pos_of_lt (hs.cursor_lt begun), ?_, fun a b hab => ?_⟩
  · rw [hmem, emitV_streamBit, decide_eq_true rfl, Bool.and_true, tracedBit, hslot, window_trellisStep, hr.wpos_trellisStep]
  · rw [hmem, emitV_getLsbD, decide_eq_false hab, Bool.and_false, Bool.or_false]

/-- Settles O29: the offers to the state, the first lowest of the new record, the ring's slots, and the emitted bit. -/
theorem trellisStepSelectsSurvivors : Obligations.TrellisStepSelectsSurvivors := by
  rintro s _ rb x hp hs hactive rfl hx
  have begun := (session_active_iff.1 hactive).1
  have hr := hs.ready hp begun
  have hd := hr.depth
  have hwpos := hr.wpos_trellisStep rb
  have hnext : slot (trellisStep rb s).vd.window (((trellisStep rb s).vd.wpos.toNat + 1) % s.vd.lat.depth.toNat) =
      freshRecord (decStates s.vd.lat) (metricMax s.params) (slot s.vd.window (freshSlot s.vd)) := by
    rw [window_trellisStep, hwpos]
    exact slot_steppedWindow_fresh rb hd
  obtain ⟨hbestState, hbestMetric⟩ := hr.best_toNat rb
  refine ⟨_, _, _, _, _, _, newRecord rb s, rfl, rfl, rfl, rfl, (hr.slot_newest rb).symm, rfl, rfl,
    fun h0 h1 => ?_, fun h0 h1 => entry_eq_iff.1 (newRecord_entry_low hr rb hx h0 h1),
    fun h0 h1 => entry_eq_iff.1 (newRecord_entry_high hr rb hx h0 h1),
    fun h0 h1 => entry_eq_iff.1 (newRecord_entry_both hr rb hx h0 h1),
    (hr.newRecord_sound rb).lo, (lowest_attained _ _).2, lowest_le _ _ x (Nat.le_sub_one_of_lt hx), lowest_first _ _ x, hwpos,
    ⟨_, hnext.symm, freshRecord_metric hx _, freshRecord_prev hx _, freshRecord_bit hx _, rfl, rfl⟩,
    fun r _ hne hfresh => ?_, trellisStep_frame rb s, hbestState, hbestMetric, fun hfill => ?_,
    fun hfull => trellisStep_emission hs hr begun hfull rb,
    fun y hy b i => branchOut_getLsbD (by have := hr.register; omega) hy hr.rate.2 b i⟩
  · obtain ⟨hm, hprev, hbit⟩ := entry_eq_iff.1 (newRecord_entry_none hr rb hx h0 h1)
    exact ⟨hm.trans (hr.nextFresh x hx), hprev, hbit⟩
  · rw [hwpos] at hne hfresh
    rw [window_trellisStep, slot_steppedWindow rb hd, if_neg hne]
    exact if_neg hfresh
  · obtain ⟨hcount, hout, hmem⟩ := trellisStep_filling hfill rb
    exact ⟨hmem, hout, hcount⟩

end Sys2Proof.Machine
end

section
/-! The metrics from `VD_RESET` on are least path distances (44_viterbi.md R211, R214, R216, R227). -/

open Sys2Proof Sys2Proof.Claims

namespace Sys2Proof.Machine

/-! ## Where a session starts -/

theorem resetDecoder_sound {s : State} (h : decOk s.params s.vd.cfg)
    (top : s.vd.cfg.outBase.toNat + s.vd.cfg.outLimit.toNat ≤ 2 ^ s.params.addrW) : DecoderSound (resetDecoder s) := by
  obtain ⟨⟨-, -, hn, -⟩, hd, -⟩ := id h
  have hzero := initWindow_record (ns := decStates s.vd.cfg) (max := metricMax s.params) s.vd.window
    (show 0 < s.vd.cfg.depth.toNat by omega)
  have hstates : 0 < decStates s.vd.cfg := Nat.two_pow_pos _
  have hmetric : ∀ {t x : Nat}, (if t = 0 ∧ x = 0 then 0 else metricMax s.params) ≤ metricMax s.params := by
    intro t x
    split
    · exact Nat.zero_le _
    · exact Nat.le_refl _
  refine ⟨fun _ => decLegal_iff_decOk.2 h, fun _ => ⟨top, Nat.zero_le _⟩, fun _ => ?_, fun _ => Nat.zero_le _, fun _ => ?_,
    fun _ => Nat.one_pos, fun _ t ht => ?_, fun _ x hx => ?_, fun _ => hzero.1.symm, fun _ => hzero.2.1.symm⟩
  · exact Nat.lt_of_lt_of_le Nat.two_pos hd
  · exact Nat.lt_of_lt_of_le Nat.two_pos hn
  · obtain ⟨hlo, hlom, hstate⟩ := initWindow_record (ns := decStates s.vd.cfg) (max := metricMax s.params) s.vd.window ht
    refine ⟨fun x hx => (hstate x hx).2.2.trans_le hmetric, fun x hx => (hstate x hx).1.trans_lt hstates,
      hlo.trans_lt hstates, hlom.trans_le ?_⟩
    split
    · exact Nat.zero_le _
    · exact Nat.le_refl _
  · have hnext : nextSlot (resetDecoder s).vd = 1 := Nat.mod_eq_of_lt hd
    obtain ⟨-, -, hstate⟩ := initWindow_record (ns := decStates s.vd.cfg) (max := metricMax s.params) s.vd.window
      (show 1 < s.vd.cfg.depth.toNat from hd)
    rw [hnext]
    exact (hstate x hx).2.2

theorem resetDecoder_metric {s : State} (h : decOk s.params s.vd.cfg) {x : Nat} (hx : x < decStates s.vd.cfg) :
    oldMetric (resetDecoder s) x = if x = 0 then 0 else metricMax s.params := by
  obtain ⟨-, hd, -⟩ := h
  obtain ⟨-, -, hstate⟩ := initWindow_record (ns := decStates s.vd.cfg) (max := metricMax s.params) s.vd.window
    (show 0 < s.vd.cfg.depth.toNat by omega)
  have hmetric := (hstate x hx).2.2
  simp only [true_and] at hmetric
  exact hmetric

/-! ## Paths through the trellis -/

theorem pathEnd_concat (k x : Nat) (l : List Bool) (b : Bool) :
    pathEnd k x (l ++ [b]) = (pathEnd k x l + b.toNat * 2 ^ (k - 1)) / 2 := by
  induction l generalizing x with
  | nil => rfl
  | cons a l ih => exact ih _

theorem pathEnd_lt {k x : Nat} (hx : x < 2 ^ (k - 1)) (l : List Bool) : pathEnd k x l < 2 ^ (k - 1) := by
  induction l generalizing x with
  | nil => exact hx
  | cons b l ih =>
    refine ih ?_
    have hb := Nat.mul_le_mul_right (2 ^ (k - 1)) (Bool.toNat_le b)
    omega

theorem pathDistance_concat (c : DecConfig) (x : Nat) {l : List Bool} {rs : List Byte} (h : l.length = rs.length) (b : Bool)
    (r : Byte) : pathDistance c x (l ++ [b]) (rs ++ [r]) =
      pathDistance c x l rs + branchDistance c (pathEnd c.k.toNat x l) b r := by
  induction l generalizing x rs with
  | nil =>
    obtain rfl := List.length_eq_zero_iff.1 h.symm
    exact Nat.add_comm _ _
  | cons a l ih =>
    obtain ⟨q, rs, rfl⟩ := List.exists_cons_of_length_eq_add_one h.symm
    simp only [List.cons_append, pathDistance, pathEnd, ih _ (Nat.succ.inj h), Nat.add_assoc]

/-- `m` is the least Hamming distance of a path from state 0 to `x` along the received words, saturated at `max`. -/
structure LeastDistance (c : DecConfig) (max : Nat) (rbs : List Byte) (x m : Nat) : Prop where
  saturated : m ≤ max
  least     : ∀ l : List Bool, l.length = rbs.length → pathEnd c.k.toNat 0 l = x → m ≤ pathDistance c 0 l rbs
  attained  : m = max ∨ ∃ l : List Bool, l.length = rbs.length ∧ pathEnd c.k.toNat 0 l = x ∧ pathDistance c 0 l rbs = m

namespace LeastDistance

variable {c : DecConfig} {max : Nat} {rbs : List Byte} {x : Nat}

theorem start (x : Nat) : LeastDistance c max [] x (if x = 0 then 0 else max) := by
  by_cases h : x = 0
  · rw [if_pos h, h]
    exact ⟨Nat.zero_le _, fun _ _ _ => Nat.zero_le _, .inr ⟨[], rfl, rfl, rfl⟩⟩
  · rw [if_neg h]
    refine ⟨Nat.le_refl _, fun l hl hend => absurd ?_ h, .inl rfl⟩
    rw [← hend, List.length_eq_zero_iff.1 hl]
    rfl

/-- A path to a predecessor of `x`, one branch longer, is a path to `x`. -/
theorem extend (hk : 2 ≤ c.k.toNat) (hx : x < decStates c) {p m : Nat} (hp : p = pred c x ∨ p = pred c x + 1)
    (h : LeastDistance c max rbs p m) (rb : Byte) (hlt : m + branchDistance c p (inBit c x) rb < max) :
    ∃ l : List Bool, l.length = (rbs ++ [rb]).length ∧ pathEnd c.k.toNat 0 l = x ∧
      pathDistance c 0 l (rbs ++ [rb]) = m + branchDistance c p (inBit c x) rb := by
  have hlast := pred_lt hk x
  obtain ⟨l, hlen, hend, hdist⟩ := h.attained.resolve_left (by omega)
  refine ⟨l ++ [inBit c x], by rw [List.length_append, List.length_append, hlen]; rfl, ?_, ?_⟩
  · rw [pathEnd_concat, hend]
    exact (next_eq_iff hk hx (by omega) _).2 ⟨hp, rfl⟩
  · rw [pathDistance_concat c 0 hlen, hend, hdist]

/-- The lesser of the two candidates is least: a path to `x` comes through one of the two predecessors. -/
theorem step (hk : 2 ≤ c.k.toNat) (hx : x < decStates c) {m0 m1 : Nat} (h0 : LeastDistance c max rbs (pred c x) m0)
    (h1 : LeastDistance c max rbs (pred c x + 1) m1) (rb : Byte) :
    LeastDistance c max (rbs ++ [rb]) x (min (min (m0 + branchDistance c (pred c x) (inBit c x) rb) max)
      (min (m1 + branchDistance c (pred c x + 1) (inBit c x) rb) max)) := by
  have hext0 := h0.extend hk hx (.inl rfl) rb
  have hext1 := h1.extend hk hx (.inr rfl) rb
  refine ⟨Nat.le_trans (Nat.min_le_left _ _) (Nat.min_le_right _ _), fun l hlen hend => ?_, ?_⟩
  · obtain rfl | ⟨l, b, rfl⟩ := List.eq_nil_or_concat l
    · rw [List.length_append] at hlen
      exact absurd hlen.symm (Nat.succ_ne_zero _)
    · rw [List.concat_eq_append, List.length_append, List.length_append] at hlen
      have hlen' : l.length = rbs.length := Nat.succ.inj hlen
      have hstart : 0 < 2 ^ (c.k.toNat - 1) := Nat.two_pow_pos _
      rw [List.concat_eq_append, pathEnd_concat, next_eq_iff hk hx (pathEnd_lt hstart l)] at hend
      obtain ⟨hpred, rfl⟩ := hend
      rw [List.concat_eq_append, pathDistance_concat c 0 hlen']
      rcases hpred with hp | hp
      · have hle := h0.least l hlen' hp
        rw [hp]
        omega
      · have hle := h1.least l hlen' hp
        rw [hp]
        omega
  · generalize branchDistance c (pred c x) (inBit c x) rb = d0 at *
    generalize branchDistance c (pred c x + 1) (inBit c x) rb = d1 at *
    by_cases hmax : min (min (m0 + d0) max) (min (m1 + d1) max) = max
    · exact .inl hmax
    · right
      by_cases hle : m0 + d0 ≤ m1 + d1
      · rw [show min (min (m0 + d0) max) (min (m1 + d1) max) = m0 + d0 by omega]
        exact hext0 (by omega)
      · rw [show min (min (m0 + d0) max) (min (m1 + d1) max) = m1 + d1 by omega]
        exact hext1 (by omega)

end LeastDistance

/-! ## A run of trellis steps -/

/-- The state after a trellis step on each of the received words. -/
def trellisSteps (rbs : List Byte) (s : State) : State := rbs.foldl (fun u rb => trellisStep rb u) s

theorem trellisSteps_concat (rbs : List Byte) (rb : Byte) (s : State) :
    trellisSteps (rbs ++ [rb]) s = trellisStep rb (trellisSteps rbs s) := by
  rw [trellisSteps, List.foldl_append]
  rfl

theorem trellisSteps_moves (rbs : List Byte) (s : State) : DecMoves s (trellisSteps rbs s) := by
  induction rbs using List.reverseRecOn with
  | nil => exact DecMoves.refl s
  | append_singleton rbs rb ih =>
    rw [trellisSteps_concat]
    exact ih.trans (trellisStep_moves rb _)

theorem TrellisReady.steps {s : State} (h : TrellisReady s) (rbs : List Byte) : TrellisReady (trellisSteps rbs s) := by
  induction rbs using List.reverseRecOn with
  | nil => exact h
  | append_singleton rbs rb ih =>
    rw [trellisSteps_concat]
    exact ih.step rb

/-- From the metrics of `VD_RESET` on, the metrics are least distances. -/
theorem trellisSteps_metric {r : State} (h : TrellisReady r)
    (hstart : ∀ x < decStates r.vd.lat, oldMetric r x = if x = 0 then 0 else metricMax r.params) (rbs : List Byte) :
    ∀ x < decStates r.vd.lat,
      LeastDistance r.vd.lat (metricMax r.params) rbs x (oldMetric (trellisSteps rbs r) x) := by
  induction rbs using List.reverseRecOn with
  | nil =>
    intro x hx
    rw [trellisSteps, List.foldl_nil, hstart x hx]
    exact LeastDistance.start x
  | append_singleton rbs rb ih =>
    intro x hx
    have hready := h.steps rbs
    have hmoves := trellisSteps_moves rbs r
    have hlast := pred_lt h.register.1 x
    have hmetric := newRecord_metric hready rb (x := x) (by rw [hmoves.lat]; exact hx)
    rw [trellisSteps_concat, oldMetric, hready.slot_newest, hmetric, offer, offer, hmoves.lat, hmoves.params]
    exact (ih _ (Nat.lt_of_succ_lt hlast)).step h.register.1 hx (ih _ hlast) rb

/-- Settles O30: the reset decoder is ready, its metrics are those of the empty path, and every step takes the least. -/
theorem viterbiMetricIsLeastPathDistance : Obligations.ViterbiMetricIsLeastPathDistance := by
  intro s r rbs x hp hpass he hx
  obtain ⟨hlegal, htop⟩ := passes_vdReset_iff.1 hpass
  rw [exec_vdReset_checked hpass] at he
  cases he
  have hready := (resetDecoder_sound hlegal htop).ready hp nofun
  obtain ⟨hmax, hleast, hattained⟩ :=
    trellisSteps_metric hready (fun y hy => resetDecoder_metric hlegal hy) rbs x hx
  exact ⟨trellisSteps rbs (resetDecoder s), _, rfl, rfl, hmax, hleast, hattained⟩

end Sys2Proof.Machine
end

section
/-! Runs of received bits (44_viterbi.md R215, R219 to R222, R224): the words they make up, the trellis steps on
them, and what those leave of the output stream. -/

open Sys2Proof Sys2Proof.Claims

namespace Sys2Proof.Machine

/-! ## Received words (44_viterbi.md R215) -/

/-- The number whose binary digits are `g 0, …, g (c − 1)`, the first one highest. -/
def bitSum (g : Nat → Bool) (c : Nat) : Nat := ((List.range c).map (fun i => (g i).toNat * 2 ^ (c - 1 - i))).sum

theorem bitSum_succ (g : Nat → Bool) (c : Nat) : bitSum g (c + 1) = 2 * bitSum g c + (g c).toNat := by
  have hdouble : (List.range c).map (fun i => (g i).toNat * 2 ^ (c + 1 - 1 - i)) =
      (List.range c).map (fun i => 2 * ((g i).toNat * 2 ^ (c - 1 - i))) := by
    refine List.map_congr_left fun i hi => ?_
    have hlt := List.mem_range.1 hi
    rw [show c + 1 - 1 - i = c - 1 - i + 1 by omega, Nat.pow_succ]
    ring
  rw [bitSum, List.range_succ, List.map_append, List.sum_append, hdouble, List.sum_map_mul_left, bitSum]
  simp

theorem bitSum_lt (g : Nat → Bool) (c : Nat) : bitSum g c < 2 ^ c := by
  induction c with
  | zero => exact Nat.one_pos
  | succ c ih =>
    have := Bool.toNat_le (g c)
    rw [bitSum_succ, Nat.pow_succ]
    omega

theorem bitSum_congr {g g' : Nat → Bool} {c : Nat} (h : ∀ i < c, g i = g' i) : bitSum g c = bitSum g' c := by
  induction c with
  | zero => rfl
  | succ c ih => rw [bitSum_succ, bitSum_succ, ih fun i hi => h i (by omega), h c (by omega)]

/-- The low `c` bits of a number, the highest first. -/
theorem bitSum_testBit (v c : Nat) : bitSum (fun i => v.testBit (c - 1 - i)) c = v % 2 ^ c := by
  induction c generalizing v with
  | zero => rw [Nat.pow_zero, Nat.mod_one]; rfl
  | succ c ih =>
    have hhigh : bitSum (fun i => v.testBit (c + 1 - 1 - i)) c = bitSum (fun i => (v / 2).testBit (c - 1 - i)) c := by
      refine bitSum_congr fun i hi => ?_
      rw [show c + 1 - 1 - i = c - 1 - i + 1 by omega, Nat.testBit_succ]
    have hlow : (v.testBit (c + 1 - 1 - c)).toNat = v % 2 := by
      rw [Nat.add_sub_cancel, Nat.sub_self, Nat.testBit_zero]
      rcases Nat.mod_two_eq_zero_or_one v with h | h <;> simp [h]
    rw [bitSum_succ, hhigh, ih, hlow, Nat.pow_succ', Nat.mod_mul, Nat.add_comm]

theorem rxPacked_eq (s : State) (j c : Nat) : rxPacked s j c = BitVec.ofNat 8 (bitSum (fun i => rxBit s (j + i)) c) := rfl

/-- A bit shifted into a byte from the right. -/
theorem shiftIn_eq (v : Byte) (b : Bool) :
    v <<< 1 ||| (if b then 1#8 else 0#8) = BitVec.ofNat 8 (2 * v.toNat + b.toNat) := by
  have hor : v.toNat <<< 1 ||| b.toNat = 2 * v.toNat + b.toNat := by
    have := Nat.two_pow_add_eq_or_of_lt (i := 1) (b := b.toNat) (by have := Bool.toNat_le b; omega) v.toNat
    rw [Nat.shiftLeft_eq, Nat.mul_comm, ← this, Nat.pow_one]
  have hbit : (if b then 1#8 else 0#8).toNat = b.toNat % 2 ^ 8 := by cases b <;> rfl
  apply BitVec.eq_of_toNat_eq
  rw [BitVec.toNat_or, BitVec.toNat_shiftLeft, hbit, BitVec.toNat_ofNat, ← hor, Nat.or_mod_two_pow]

/-- The word with its next bit shifted in. -/
theorem rxPacked_succ (s : State) (j c : Nat) :
    rxPacked s j c <<< 1 ||| (if rxBit s (j + c) then 1#8 else 0#8) = rxPacked s j (c + 1) := by
  rw [shiftIn_eq, rxPacked_eq, rxPacked_eq, bitSum_succ]
  apply BitVec.eq_of_toNat_eq
  simp only [BitVec.toNat_ofNat]
  omega

/-- The bits pending are the first ones of the next word. -/
theorem rxPacked_pending {s : State} (h : s.vd.rxBits.toNat < 2 ^ s.vd.rxCnt.toNat) :
    rxPacked s 0 s.vd.rxCnt.toNat = s.vd.rxBits := by
  have hbits : bitSum (fun i => rxBit s (0 + i)) s.vd.rxCnt.toNat =
      bitSum (fun i => s.vd.rxBits.toNat.testBit (s.vd.rxCnt.toNat - 1 - i)) s.vd.rxCnt.toNat := by
    refine bitSum_congr fun i hi => ?_
    rw [Nat.zero_add, rxBit, if_pos hi, BitVec.testBit_toNat]
  rw [rxPacked_eq, hbits, bitSum_testBit, Nat.mod_eq_of_lt h, BitVec.ofNat_toNat, BitVec.setWidth_eq]

theorem rxPacked_toNat_lt (s : State) (j c : Nat) : (rxPacked s j c).toNat < 2 ^ c :=
  Nat.lt_of_le_of_lt (Nat.mod_le _ _) (bitSum_lt _ c)

/-! ## Runs of received bits -/

/-- `m` received bits `f 0, f 1, …`. -/
def decRun (f : Nat → Bool) : Nat → State → State
  | 0, s => s
  | m + 1, s => decBit (f m) (decRun f m s)

theorem decRun_add (f : Nat → Bool) (m n : Nat) (s : State) :
    decRun f (m + n) s = decRun (fun j => f (m + j)) n (decRun f m s) := by
  induction n with
  | zero => rfl
  | succ n ih => rw [← Nat.add_assoc, decRun, ih, decRun]

theorem decRun_congr {f g : Nat → Bool} {m : Nat} (h : ∀ j < m, f j = g j) (s : State) : decRun f m s = decRun g m s := by
  induction m with
  | zero => rfl
  | succ m ih => rw [decRun, decRun, ih fun j hj => h j (by omega), h m (by omega)]

theorem decByte_eq_decRun (b : Byte) (s : State) : decByte b s = decRun (fun j => b.getLsbD (7 - j)) 8 s := by
  simp [decByte, decRun]

/-! ## What the trellis steps do not read -/

/-- The state with another control unit and other received bits pending. -/
def relabelDec (c : Control) (rc : BitVec 4) (w : Byte) (s : State) : State :=
  { s with ctl := c, vd := { s.vd with rxCnt := rc, rxBits := w } }

theorem trellisStep_relabelDec (rb : Byte) (c : Control) (rc : BitVec 4) (w : Byte) (s : State) :
    trellisStep rb (relabelDec c rc w s) = relabelDec c rc w (trellisStep rb s) := by
  have hemit : ∀ u : State, emitStep (relabelDec c rc w u) = relabelDec c rc w (emitStep u) := by
    intro u
    unfold emitStep
    change (if u.vd.lat.depth.toNat - 1 ≤ u.vd.stepcnt.toNat then _ else _) = _
    split
    · rfl
    · rfl
  change advanceStep (emitStep (relabelDec c rc w (acsStep rb s))) = _
  rw [hemit]
  rfl

/-! ## The words of a run -/

/-- The first `q` words received. -/
def words (s : State) (q : Nat) : List Byte :=
  (List.range q).map (fun i => rxPacked s (i * s.vd.lat.n.toNat) s.vd.lat.n.toNat)

theorem words_length (s : State) (q : Nat) : (words s q).length = q := by rw [words, List.length_map, List.length_range]

/-- The state after the trellis steps on them. -/
def wordSteps (s : State) (q : Nat) : State := trellisSteps (words s q) s

theorem wordSteps_succ (s : State) (q : Nat) :
    wordSteps s (q + 1) = trellisStep (rxPacked s (q * s.vd.lat.n.toNat) s.vd.lat.n.toNat) (wordSteps s q) := by
  rw [wordSteps, words, List.range_succ, List.map_append, List.map_singleton, trellisSteps_concat, wordSteps, words]

theorem wordSteps_eq_foldl (s : State) (q : Nat) : wordSteps s q =
    (List.range q).foldl (fun x i => trellisStep (rxPacked s (i * s.vd.lat.n.toNat) s.vd.lat.n.toNat) x) s :=
  List.foldl_map

/-- The state after `b` received bits in all: the steps on the words they complete, the others pending. -/
def bitsReceived (s : State) (b : Nat) : State :=
  relabelDec s.ctl (BitVec.ofNat 4 (b % s.vd.lat.n.toNat))
    (rxPacked s (b / s.vd.lat.n.toNat * s.vd.lat.n.toNat) (b % s.vd.lat.n.toNat)) (wordSteps s (b / s.vd.lat.n.toNat))

theorem bitsReceived_start {s : State} (hcnt : s.vd.rxCnt.toNat < s.vd.lat.n.toNat)
    (hbits : s.vd.rxBits.toNat < 2 ^ s.vd.rxCnt.toNat) : bitsReceived s s.vd.rxCnt.toNat = s := by
  rw [bitsReceived, Nat.div_eq_of_lt hcnt, Nat.mod_eq_of_lt hcnt, Nat.zero_mul, rxPacked_pending hbits, BitVec.ofNat_toNat,
    BitVec.setWidth_eq]
  rfl

/-- The bit that completes a word runs the trellis step on it. -/
theorem decBit_word {b : Bool} {s : State} (h : (shifted b s).vd.rxCnt.toNat = s.vd.lat.n.toNat) :
    decBit b s = { trellisStep (shifted b s).vd.rxBits (shifted b s) with
      vd := clearRx (trellisStep (shifted b s).vd.rxBits (shifted b s)).vd } := if_pos h

/-- The next received bit waits, or completes the next word. -/
theorem decBit_bitsReceived {s : State} (hn : 0 < s.vd.lat.n.toNat) (b : Nat) :
    decBit (rxBit s b) (bitsReceived s b) = bitsReceived s (b + 1) := by
  have hmod := Nat.mod_lt b hn
  have hbound := s.vd.lat.n.isLt
  have hlat : (bitsReceived s b).vd.lat = s.vd.lat := (trellisSteps_moves _ s).lat
  have hcnt : (bitsReceived s b).vd.rxCnt.toNat = b % s.vd.lat.n.toNat := Nat.mod_eq_of_lt (by omega)
  have hnext : (shifted (rxBit s b) (bitsReceived s b)).vd.rxCnt.toNat = b % s.vd.lat.n.toNat + 1 := by
    rw [shifted_rxCnt (by rw [hlat, hcnt]; exact hmod), hcnt]
  have hword := rxPacked_succ s (b / s.vd.lat.n.toNat * s.vd.lat.n.toNat) (b % s.vd.lat.n.toNat)
  rw [Nat.div_add_mod'] at hword
  have hshift : shifted (rxBit s b) (bitsReceived s b) = relabelDec s.ctl (BitVec.ofNat 4 (b % s.vd.lat.n.toNat + 1))
      (rxPacked s (b / s.vd.lat.n.toNat * s.vd.lat.n.toNat) (b % s.vd.lat.n.toNat + 1)) (wordSteps s (b / s.vd.lat.n.toNat)) := by
    rw [← hword, BitVec.ofNat_add]
    rfl
  rcases Nat.lt_or_eq_of_le (Nat.succ_le_of_lt hmod) with hmore | hlast
  · obtain ⟨hq, hr⟩ := succ_div_mod_of_lt hmore
    rw [decBit_more (by rw [hnext, hlat]; exact Nat.ne_of_lt hmore), hshift, bitsReceived, hq, hr]
  · obtain ⟨hq, hr⟩ := succ_div_mod_of_eq hlast
    rw [decBit_word (by rw [hnext, hlat]; exact hlast), hshift, trellisStep_relabelDec, bitsReceived, hq, hr, wordSteps_succ]
    change relabelDec _ _ _ (trellisStep (rxPacked s _ (b % s.vd.lat.n.toNat + 1)) _) = _
    rw [show b % s.vd.lat.n.toNat + 1 = s.vd.lat.n.toNat from hlast]
    rfl

/-- The received bits of a command make up whole words, on each of which a trellis step runs, and the bits left over. -/
theorem decRun_eq {s : State} (hcnt : s.vd.rxCnt.toNat < s.vd.lat.n.toNat)
    (hbits : s.vd.rxBits.toNat < 2 ^ s.vd.rxCnt.toNat) (m : Nat) :
    decRun (fun j => rxBit s (s.vd.rxCnt.toNat + j)) m s = bitsReceived s (s.vd.rxCnt.toNat + m) := by
  induction m with
  | zero => exact (bitsReceived_start hcnt hbits).symm
  | succ m ih => rw [decRun, ih, decBit_bitsReceived (Nat.zero_lt_of_lt hcnt), Nat.add_assoc]

/-! ## What the trellis steps leave of the output -/

/-- The bits `q` steps emit: those beyond the steps that fill the window (44_viterbi.md R220). -/
def stepBits (s : State) (q : Nat) : Nat := q - (s.vd.lat.depth.toNat - 1 - s.vd.stepcnt.toNat)

theorem trellisSteps_run {s : State} (h : s.vd.stepcnt.toNat ≤ s.vd.lat.depth.toNat - 1) (rbs : List Byte) :
    TrellisRun s rbs.length (trellisSteps rbs s) := by
  induction rbs using List.reverseRecOn with
  | nil => exact TrellisRun.start h
  | append_singleton rbs rb ih =>
    rw [trellisSteps_concat, List.length_append]
    exact ih.step rb

/-- As long as no bit is emitted the memory stays. -/
theorem trellisSteps_silent {s : State} (h : s.vd.stepcnt.toNat ≤ s.vd.lat.depth.toNat - 1) (rbs : List Byte)
    (hnone : stepBits s rbs.length = 0) : (trellisSteps rbs s).mem = s.mem := by
  induction rbs using List.reverseRecOn with
  | nil => rfl
  | append_singleton rbs rb ih =>
    rw [List.length_append, List.length_singleton, stepBits] at hnone
    have hrun := trellisSteps_run h rbs
    have hcount := hrun.stepcnt
    have hfill : (trellisSteps rbs s).vd.stepcnt.toNat < (trellisSteps rbs s).vd.lat.depth.toNat - 1 := by
      rw [hrun.moves.lat]
      omega
    rw [trellisSteps_concat, (trellisStep_filling hfill rb).2.2, ih (by unfold stepBits; omega)]

/-- Of the output stream only the bits emitted change. -/
theorem trellisSteps_stream {s : State} (h : TrellisReady s) (hcnt : s.vd.stepcnt.toNat ≤ s.vd.lat.depth.toNat - 1)
    (rbs : List Byte) (room : outPos s.vd.out + stepBits s rbs.length ≤ 8 * s.vd.lat.outLimit.toNat) {p : Nat}
    (hp : p < outPos s.vd.out ∨ outPos s.vd.out + stepBits s rbs.length ≤ p) :
    streamBit (trellisSteps rbs s).mem s.vd.lat.outBase.toNat p = streamBit s.mem s.vd.lat.outBase.toNat p := by
  induction rbs using List.reverseRecOn with
  | nil => rfl
  | append_singleton rbs rb ih =>
    rw [List.length_append, List.length_singleton, stepBits] at room hp
    have hrun := trellisSteps_run hcnt rbs
    have hcount := hrun.stepcnt
    have hlat := hrun.moves.lat
    have hsame := ih (by unfold stepBits; omega) (by unfold stepBits; omega)
    have hout : outPos (trellisSteps rbs s).vd.out = outPos s.vd.out + stepBits s rbs.length :=
      (hrun.emitted (by change outPos s.vd.out + _ ≤ _; omega)).1
    rw [trellisSteps_concat]
    by_cases hfull : s.vd.lat.depth.toNat - 1 ≤ (trellisSteps rbs s).vd.stepcnt.toNat
    · have hemit := emitV_streamBit (tracedBit rb (trellisSteps rbs s)) (trellisSteps rbs s) p
      rw [hlat] at hemit
      unfold stepBits at hout
      rw [trellisStep_emits (h.steps rbs).depth (by rw [hlat]; exact hfull), hemit, decide_eq_false (by omega), Bool.and_false,
        Bool.or_false, hsame]
    · rw [(trellisStep_filling (by rw [hlat]; exact Nat.lt_of_not_le hfull) rb).2.2, hsame]

theorem trellisSteps_wpos {s : State} (h : TrellisReady s) (rbs : List Byte) :
    (trellisSteps rbs s).vd.wpos.toNat = (s.vd.wpos.toNat + rbs.length) % s.vd.lat.depth.toNat := by
  induction rbs using List.reverseRecOn with
  | nil => exact (Nat.mod_eq_of_lt h.wpos).symm
  | append_singleton rbs rb ih =>
    rw [trellisSteps_concat, (h.steps rbs).wpos_trellisStep, nextSlot, ih, (trellisSteps_moves rbs s).lat, Nat.mod_add_mod,
      List.length_append, List.length_singleton, Nat.add_assoc]

end Sys2Proof.Machine
end

section
/-! `VD_DECODE` (44_viterbi.md R224): its checks, the bytes it reads, and what passed checks give; and that the
decoder never clears a bit (R222, 70_reset_and_hazards.md R354). -/

open Sys2Proof Sys2Proof.Claims

namespace Sys2Proof.Machine

/-! ## The checks of `VD_DECODE` -/

/-- The checks of `VD_DECODE` hold. -/
structure DecodeChecked (s : State) : Prop where
  active : s.vd.session = .active
  range  : s.ctl.srcAddr.toNat + s.ctl.srcLen.toNat ≤ 2 ^ s.params.addrW
  apart  : 0 < decodeBits s → ¬ Region.overlaps (source s) (outBytes s.vd.lat.outBase s.vd.out (decodeBits s))
  room   : outPos s.vd.out + decodeBits s ≤ 8 * s.vd.lat.outLimit.toNat

theorem DecodeChecked.begun {s : State} (h : DecodeChecked s) : s.vd.session ≠ .idle := (session_active_iff.1 h.active).1

theorem vdDecodeChecks_iff {s : State} : firstFailure (checksOf s .vdDecode) = none ↔ DecodeChecked s := by
  simp only [firstFailure_eq_none, checksOf, sessionChecks, beyond, meets, List.cons_append, List.nil_append,
    List.forall_mem_cons, List.not_mem_nil, false_imp_iff, implies_true, and_true, decide_eq_false_iff_not, Nat.not_lt,
    Bool.and_eq_false_imp, decide_eq_true_eq]
  constructor
  · rintro ⟨idle, spent, range, apart, room⟩
    exact ⟨session_active_iff.2 ⟨idle, spent⟩, range, apart, room⟩
  · rintro ⟨active, range, apart, room⟩
    obtain ⟨idle, spent⟩ := session_active_iff.1 active
    exact ⟨idle, spent, range, apart, room⟩

theorem passes_vdDecode_iff {s : State} : passes s .vdDecode = true ↔ DecodeChecked s :=
  passes_iff_firstFailure.trans vdDecodeChecks_iff

/-- The state `VD_DECODE` leaves. -/
def decodedState (s : State) : State := decBytes s.ctl.srcLen.toNat s.ctl.srcAddr.toNat s

theorem exec_vdDecode (s : State) :
    exec .vdDecode s = runCommand .vdDecode (checksOf s .vdDecode) (decodedState s) s := by
  rw [checksOf, ← not_inRange, meets, ← Bool.decide_and]
  rfl

theorem exec_vdDecode_checked {s : State} (h : DecodeChecked s) : exec .vdDecode s = .next (decodedState s) :=
  (exec_vdDecode s).trans (runCommand_of_none (vdDecodeChecks_iff.2 h))

/-! ## The bytes it reads -/

theorem DecoderRun.byte {s t : State} {k : Nat} (h : DecoderRun s k t) (b : Byte) : DecoderRun s (k + 8) (decByte b t) :=
  h.bits b [7, 6, 5, 4, 3, 2, 1, 0]

/-- The bits `b` received bits make the decoder emit. -/
def receivedBits (s : State) (b : Nat) : Nat := stepBits s ((s.vd.rxCnt.toNat + b) / s.vd.lat.n.toNat)

theorem receivedBits_mono (s : State) {b c : Nat} (h : b ≤ c) : receivedBits s b ≤ receivedBits s c :=
  Nat.sub_le_sub_right (Nat.div_le_div_right (Nat.add_le_add_left h _)) _

/-- The bytes read hold the bits they held before the command, as long as no output byte lies among them (44_viterbi.md R224: the
check of `OVERLAP`). -/
theorem decBytes_eq_decRun {s t : State} {k n a : Nat} (h : DecoderRun s k t)
    (room : outPos s.vd.out + receivedBits s (k + 8 * n) ≤ 8 * s.vd.lat.outLimit.toNat)
    (apart : ∀ i < n, 0 < receivedBits s (k + 8 * n) →
      ¬ Region.has (outBytes s.vd.lat.outBase s.vd.out (receivedBits s (k + 8 * n))) (a + i)) :
    decBytes n a t = decRun (streamBit s.mem a) (8 * n) t := by
  induction n generalizing k a t with
  | zero => rfl
  | succ n ih =>
    have hread : Memory.read t.mem a = Memory.read s.mem a := by
      by_contra hne
      have hmono := receivedBits_mono s (Nat.le_add_right k (8 * (n + 1)))
      obtain ⟨hpos, hhas⟩ := (h.trellis.emitted (Nat.le_trans (Nat.add_le_add_left hmono _) room)).2 a hne
      exact apart 0 (Nat.succ_pos n) (Nat.lt_of_lt_of_le hpos hmono) (outBytes_mono hmono hhas)
    rw [show k + 8 * (n + 1) = k + 8 + 8 * n by ring] at room apart
    have hrest := ih (a := a + 1) (h.byte (Memory.read s.mem a)) room fun i hi => by
      rw [Nat.add_assoc a 1 i, Nat.add_comm 1 i]
      exact apart (i + 1) (by omega)
    have hbyte : decByte (Memory.read s.mem a) t = decRun (streamBit s.mem a) 8 t :=
      (decByte_eq_decRun _ t).trans (decRun_congr (fun j hj => (streamBit_of_lt s.mem a hj).symm) t)
    have hnext : (fun j => streamBit s.mem a (8 + j)) = streamBit s.mem (a + 1) := funext (streamBit_succ s.mem a)
    calc decBytes (n + 1) a t
      _ = decBytes n (a + 1) (decByte (Memory.read s.mem a) t) := by rw [decBytes, hread]
      _ = decRun (streamBit s.mem (a + 1)) (8 * n) (decRun (streamBit s.mem a) 8 t) := by rw [hrest, hbyte]
      _ = decRun (streamBit s.mem a) (8 * (n + 1)) t := by rw [← hnext, ← decRun_add, Nat.mul_succ, Nat.add_comm 8]

section
variable {s : State} (hs : DecoderSound s) (hc : DecodeChecked s)
include hs hc

theorem decodedState_run : DecoderRun s (8 * s.ctl.srcLen.toNat) (decodedState s) := by
  have h := (DecoderRun.start (hs.rxCnt hc.begun) (hs.stepcnt hc.begun)).bytes s.ctl.srcLen.toNat s.ctl.srcAddr.toNat
  rwa [Nat.zero_add] at h

/-- A `VD_DECODE` that passes its checks runs the trellis steps on the words its bits make up. -/
theorem decodedState_eq : decodedState s = bitsReceived s (s.vd.rxCnt.toNat + 8 * s.ctl.srcLen.toNat) := by
  have hroom := hc.room
  have hapart := hc.apart
  have hbits : decodeBits s = receivedBits s (0 + 8 * s.ctl.srcLen.toNat) := by rw [Nat.zero_add]; rfl
  rw [hbits] at hroom hapart
  have hsource : (fun j => rxBit s (s.vd.rxCnt.toNat + j)) = streamBit s.mem s.ctl.srcAddr.toNat := funext fun j => by
    rw [rxBit, if_neg (by omega), Nat.add_sub_cancel_left]
  rw [← decRun_eq (hs.rxCnt hc.begun) (hs.rxBits hc.begun), hsource]
  refine decBytes_eq_decRun (DecoderRun.start (hs.rxCnt hc.begun) (hs.stepcnt hc.begun)) hroom fun i hi hemits hhas =>
    hapart hemits ?_
  simp only [Region.has, Region.overlaps, source] at hhas ⊢
  omega

end

/-- Settles O26: the trellis steps on the words received tell everything but the bits left over. -/
theorem vdDecodeCompletes : Obligations.VdDecodeCompletes := by
  intro s hp hs hpass
  have hc := passes_vdDecode_iff.1 hpass
  have hready := hs.ready hp hc.begun
  have hcnt := hs.stepcnt hc.begun
  have hrun := decodedState_run hs hc
  have heq := decodedState_eq hs hc
  obtain ⟨hout, hframe⟩ := hrun.trellis.emitted hc.room
  have hctl : (wordSteps s (steps s)).ctl = s.ctl := (trellisSteps_moves _ s).ctl
  have hwords := words_length s (steps s)
  refine ⟨decodedState s, exec_vdDecode_checked hc, ?_, hout, hrun.trellis.stepcnt, ?_, ⟨_, rfl, ?_⟩, hrun.rxCnt, ?_,
    fun p hpast => ?_, fun a ha => ?_, fun hnone => ?_⟩
  · obtain ⟨_, _, _, _, _, _, _, _, _, hmoves⟩ := hrun.trellis.moves
    rw [hmoves]
  · rw [heq]
    have hwpos := trellisSteps_wpos hready (words s (steps s))
    rwa [hwords] at hwpos
  · rw [← wordSteps_eq_foldl, heq]
    change relabelDec s.ctl _ _ _ = relabelDec (wordSteps s (steps s)).ctl _ _ _
    rw [hctl]
    rfl
  · rw [hrun.rxCnt, heq]
    rfl
  · rw [heq]
    refine trellisSteps_stream hready hcnt (words s (steps s)) ?_ ?_
    · rw [hwords]
      exact hc.room
    · rw [hwords]
      exact hpast
  · by_contra hne
    exact ha (hframe a hne).2
  · rw [heq]
    refine trellisSteps_silent hcnt (words s (steps s)) ?_
    rw [hwords]
    exact hnone

/-! ## No bit is cleared (44_viterbi.md R222, 70_reset_and_hazards.md R354) -/

/-- Every bit of `m` that is 1 is 1 in `m'`. -/
def OnesKept (m m' : Memory) : Prop := ∀ a b, (Memory.read m a).getLsbD b = true → (Memory.read m' a).getLsbD b = true

theorem OnesKept.refl (m : Memory) : OnesKept m m := fun _ _ h => h

theorem OnesKept.trans {m m' m'' : Memory} (h : OnesKept m m') (k : OnesKept m' m'') : OnesKept m m'' :=
  fun a b hbit => k a b (h a b hbit)

theorem emitV_onesKept (v : Bool) (s : State) : OnesKept s.mem (emitV v s).mem := by
  intro a b h
  rw [emitV_getLsbD, h, Bool.true_or]

theorem trellisStep_onesKept (rb : Byte) (s : State) : OnesKept s.mem (trellisStep rb s).mem := by
  change OnesKept s.mem (emitStep (acsStep rb s)).mem
  unfold emitStep
  split
  · exact emitV_onesKept _ (acsStep rb s)
  · exact OnesKept.refl _

theorem decBit_onesKept (b : Bool) (s : State) : OnesKept s.mem (decBit b s).mem := by
  by_cases h : (shifted b s).vd.rxCnt.toNat = s.vd.lat.n.toNat
  · rw [decBit_word h]
    exact trellisStep_onesKept _ (shifted b s)
  · rw [decBit_more h]
    exact OnesKept.refl _

theorem decRun_onesKept (f : Nat → Bool) (m : Nat) (s : State) : OnesKept s.mem (decRun f m s).mem := by
  induction m with
  | zero => exact OnesKept.refl _
  | succ m ih => exact ih.trans (decBit_onesKept _ _)

theorem decBytes_onesKept (n a : Nat) (s : State) : OnesKept s.mem (decBytes n a s).mem := by
  induction n generalizing a s with
  | zero => exact OnesKept.refl _
  | succ n ih =>
    rw [decBytes, decByte_eq_decRun]
    exact (decRun_onesKept _ 8 s).trans (ih _ _)

theorem emitAll_onesKept (l : List Bool) (s : State) : OnesKept s.mem (emitAll l s).mem := by
  induction l generalizing s with
  | nil => exact OnesKept.refl _
  | cons v l ih => exact (emitV_onesKept v s).trans (ih _)

/-- A command whose effect clears no bit clears none when a check fails, either. -/
theorem runCommand_onesKept {i : Instr} {l : List (Bool × ErrCode)} {e s t : State} (h : runCommand i l e s = .next t)
    (effect : OnesKept s.mem e.mem) : OnesKept s.mem t.mem := by
  rcases runCommand_cases i l e s with ⟨c, -, hr⟩ | ⟨-, hr⟩
  · rw [hr] at h
    cases h
    rw [recordError_mem]
    exact OnesKept.refl _
  · rw [hr] at h
    cases h
    exact effect

/-- Settles O28: every emission ORs, in any state. -/
theorem decoderNeverClearsABit : Obligations.DecoderNeverClearsABit := by
  rintro i s t (rfl | rfl) h
  · exact runCommand_onesKept h (decBytes_onesKept _ _ s)
  · exact runCommand_onesKept h (emitAll_onesKept _ s)

end Sys2Proof.Machine
end

section
/-! `VD_FLUSH` (44_viterbi.md R225): its checks, the bits of its walk, and what it ORs into the output. -/

open Sys2Proof Sys2Proof.Claims

namespace Sys2Proof.Machine

/-! ## The walk (44_viterbi.md R225) -/

/-- The presumed bit of the state `j` back-pointers from state `x` of slot `t`. -/
def walkBit (w : List StepRecord) (d t x j : Nat) : Bool :=
  (slot w ((t + j * (d - 1)) % d)).bit.getD (backState w d t x j) false

theorem walkBit_zero (w : List StepRecord) {d t : Nat} (h : t < d) (x : Nat) :
    walkBit w d t x 0 = (slot w t).bit.getD x false := by
  rw [walkBit, Nat.zero_mul, Nat.add_zero, Nat.mod_eq_of_lt h, backState]

theorem walkBit_succ (w : List StepRecord) {d t : Nat} (h : t < d) (x j : Nat) :
    walkBit w d t x (j + 1) = walkBit w d ((t + d - 1) % d) ((slot w t).prev.getD x 0) j := by
  rw [walkBit, walkBit, backState_head w h, ring_back h]

/-- The walk collects the bits furthest back first. -/
theorem walkBack_eq (w : List StepRecord) {d t : Nat} (h : t < d) (n x : Nat) (later : List Bool) :
    walkBack w d n x t later = (List.range n).map (fun i => walkBit w d t x (n - 1 - i)) ++ later := by
  induction n generalizing t x later with
  | zero => rfl
  | succ n ih =>
    have hback : (List.range n).map (fun i => walkBit w d ((t + d - 1) % d) ((slot w t).prev.getD x 0) (n - 1 - i)) =
        (List.range n).map (fun i => walkBit w d t x (n + 1 - 1 - i)) := by
      refine List.map_congr_left fun i hi => ?_
      have hlt := List.mem_range.1 hi
      rw [show n + 1 - 1 - i = n - 1 - i + 1 by omega, walkBit_succ w h]
    rw [walkBack, ih (Nat.mod_lt _ (by omega)), hback, List.range_succ, List.map_append, List.map_singleton,
      Nat.add_sub_cancel, Nat.sub_self, walkBit_zero w h, List.append_assoc, List.singleton_append]

/-! ## Bits emitted in order -/

theorem emitAll_eq (l : List Bool) (s : State) :
    emitAll l s = { s with mem := (emitAll l s).mem, vd := { s.vd with out := (emitAll l s).vd.out } } := by
  induction l generalizing s with
  | nil => rfl
  | cons v l ih =>
    rw [emitAll, List.foldl_cons, ← emitAll, ih]
    rfl

/-- The bits of the list are ORed into the output stream from the cursor on. -/
theorem emitAll_streamBit (l : List Bool) {s : State} (room : outPos s.vd.out + l.length < 2 ^ 35) (p : Nat) :
    streamBit (emitAll l s).mem s.vd.lat.outBase.toNat p = (streamBit s.mem s.vd.lat.outBase.toNat p ||
      (decide (outPos s.vd.out ≤ p) && l.getD (p - outPos s.vd.out) false)) := by
  induction l generalizing s with
  | nil => rw [List.getD_nil, Bool.and_false, Bool.or_false]; rfl
  | cons v l ih =>
    rw [List.length_cons] at room
    have hpos : outPos (emitV v s).vd.out = outPos s.vd.out + 1 :=
      Cursor.advance_pos_of_lt (by change outPos s.vd.out + 1 < _; omega)
    have hrest := ih (s := emitV v s) (by rw [hpos]; omega)
    rw [hpos] at hrest
    refine hrest.trans ?_
    change (streamBit (emitV v s).mem s.vd.lat.outBase.toNat p || _) = _
    rw [emitV_streamBit, Bool.or_assoc]
    congr 1
    rcases Nat.lt_trichotomy p (outPos s.vd.out) with h | h | h
    · rw [decide_eq_false (by omega), decide_eq_false (by omega), decide_eq_false (by omega)]
      simp
    · rw [decide_eq_true h, decide_eq_false (by omega), decide_eq_true (by omega), h, Nat.sub_self]
      simp
    · rw [decide_eq_false (by omega), decide_eq_true (by omega), decide_eq_true (by omega),
        show p - outPos s.vd.out = p - (outPos s.vd.out + 1) + 1 by omega, List.getD_cons_succ, Bool.and_false, Bool.false_or]

/-! ## The checks of `VD_FLUSH` -/

/-- The checks of `VD_FLUSH` hold. -/
structure VdFlushChecked (s : State) : Prop where
  active : s.vd.session = .active
  room   : outPos s.vd.out + walkBits s ≤ 8 * s.vd.lat.outLimit.toNat

theorem VdFlushChecked.begun {s : State} (h : VdFlushChecked s) : s.vd.session ≠ .idle := (session_active_iff.1 h.active).1

theorem vdFlushChecks_iff {s : State} : firstFailure (checksOf s .vdFlush) = none ↔ VdFlushChecked s := by
  simp only [firstFailure_eq_none, checksOf, sessionChecks, List.cons_append, List.nil_append, List.forall_mem_cons,
    List.not_mem_nil, false_imp_iff, implies_true, and_true, decide_eq_false_iff_not, Nat.not_lt]
  constructor
  · rintro ⟨idle, spent, room⟩
    exact ⟨session_active_iff.2 ⟨idle, spent⟩, room⟩
  · rintro ⟨active, room⟩
    obtain ⟨idle, spent⟩ := session_active_iff.1 active
    exact ⟨idle, spent, room⟩

/-- The bits of the walk from the best state of the newest slot, in forward order. -/
def flushBits (s : State) : List Bool :=
  walkBack s.vd.window s.vd.lat.depth.toNat (walkBits s) (slot s.vd.window s.vd.wpos.toNat).lo s.vd.wpos.toNat []

theorem flushBits_length (s : State) : (flushBits s).length = walkBits s := walkBack_length ..

/-- The state `VD_FLUSH` leaves. -/
def vdFlushedState (s : State) : State :=
  { emitAll (flushBits s) s with vd := { clearRx (emitAll (flushBits s) s).vd with session := .spent } }

theorem exec_vdFlush (s : State) : exec .vdFlush s = runCommand .vdFlush (checksOf s .vdFlush) (vdFlushedState s) s := rfl

theorem exec_vdFlush_checked {s : State} (h : VdFlushChecked s) : exec .vdFlush s = .next (vdFlushedState s) :=
  (exec_vdFlush s).trans (runCommand_of_none (vdFlushChecks_iff.2 h))

theorem exec_vdFlush_spent {s : State} (h : s.vd.session = .spent) :
    exec .vdFlush s = .next (recordError s .spent 0x22#8) := by
  rw [exec_vdFlush, checksOf, h]
  rfl

theorem exec_vdFlush_overflow {s : State} (active : s.vd.session = .active)
    (h : 8 * s.vd.lat.outLimit.toNat < outPos s.vd.out + walkBits s) :
    exec .vdFlush s = .next (recordError s .outOverflow 0x22#8) := by
  rw [exec_vdFlush, checksOf, active, decide_eq_true h]
  rfl

theorem vdFlushedState_eq (s : State) : vdFlushedState s = { s with
    mem := (vdFlushedState s).mem
    vd := { s.vd with out := (vdFlushedState s).vd.out, rxCnt := 0, rxBits := 0, session := .spent } } := by
  rw [vdFlushedState, emitAll_eq]
  rfl

/-- The cursor has moved by the bits of the walk, and no byte but their output bytes has changed. -/
theorem vdFlushedState_emitted (s : State) : Emitted s.vd.lat.outBase s.vd.lat.outLimit s.vd.out (walkBits s) s.mem
    (vdFlushedState s).mem (vdFlushedState s).vd.out := by
  have h := emitAll_emitted (flushBits s) (s := s) rfl (Emitted.none _ _ _ _)
  rwa [flushBits_length, Nat.zero_add] at h

theorem vdFlushedState_streamBit {s : State} (hc : VdFlushChecked s) (p : Nat) :
    streamBit (vdFlushedState s).mem s.vd.lat.outBase.toNat p = (streamBit s.mem s.vd.lat.outBase.toNat p ||
      (decide (outPos s.vd.out ≤ p) && (flushBits s).getD (p - outPos s.vd.out) false)) := by
  have hroom := hc.room
  have hlimit := s.vd.lat.outLimit.isLt
  exact emitAll_streamBit (flushBits s) (by rw [flushBits_length]; omega) p

/-- Settles O27: the three checks fail in their order, or the bits of the walk are ORed into the stream. -/
theorem vdFlushWritesWalk : Obligations.VdFlushWritesWalk := by
  refine ⟨cmdFormat (i := .vdFlush) rfl, fun s => ⟨exec_vdFlush_idle, exec_vdFlush_spent, exec_vdFlush_overflow,
    fun hp hs active room => ?_⟩⟩
  have hc : VdFlushChecked s := ⟨active, room⟩
  have hstream := vdFlushedState_streamBit hc
  obtain ⟨hout, hframe⟩ := vdFlushedState_emitted s room
  refine ⟨vdFlushedState s, exec_vdFlush_checked hc, vdFlushedState_eq s, hout, fun a ha => ?_,
    fun i hi => ⟨_, _, _, rfl, rfl, rfl, ?_⟩, fun p hpast => ?_⟩
  · by_contra hne
    exact ha (hframe a hne).2
  · have hbit : (flushBits s).getD i false = walkBit s.vd.window s.vd.lat.depth.toNat s.vd.wpos.toNat
        (slot s.vd.window s.vd.wpos.toNat).lo (walkBits s - 1 - i) := by
      rw [flushBits, walkBack_eq _ (hs.wpos hc.begun), List.append_nil, List.getD_eq_getElem?_getD, List.getElem?_map,
        List.getElem?_range hi]
      rfl
    rw [hstream, decide_eq_true (Nat.le_add_right _ _), Bool.true_and, Nat.add_sub_cancel_left, hbit, walkBit]
  · rw [hstream]
    rcases hpast with h | h
    · rw [decide_eq_false (Nat.not_le.2 h), Bool.false_and, Bool.or_false]
    · rw [List.getD_eq_default _ _ (by rw [flushBits_length]; omega), Bool.and_false, Bool.or_false]

end Sys2Proof.Machine
end

section
/-! The streaming identity (44_viterbi.md R215, R224): two `VD_DECODE` commands on the parts of an input. -/

open Sys2Proof Sys2Proof.Claims

namespace Sys2Proof.Machine

/-! ## What the decoder does not read -/

/-- The state with another control unit, which no received bit reads or writes. -/
def withControl (c : Control) (s : State) : State := { s with ctl := c }

theorem decBit_withControl (b : Bool) (c : Control) (s : State) :
    decBit b (withControl c s) = withControl c (decBit b s) := by
  by_cases h : (shifted b s).vd.rxCnt.toNat = s.vd.lat.n.toNat
  · have hshift : shifted b (withControl c s) =
        relabelDec c (shifted b s).vd.rxCnt (shifted b s).vd.rxBits (shifted b s) := rfl
    rw [decBit_word h, decBit_word (s := withControl c s) h, hshift, trellisStep_relabelDec]
    rfl
  · rw [decBit_more h, decBit_more (s := withControl c s) h]
    rfl

theorem decRun_withControl (f : Nat → Bool) (m : Nat) (c : Control) (s : State) :
    decRun f m (withControl c s) = withControl c (decRun f m s) := by
  induction m with
  | zero => rfl
  | succ m ih => rw [decRun, ih, decBit_withControl, decRun]

theorem decBytes_withControl (n a : Nat) (c : Control) (s : State) :
    decBytes n a (withControl c s) = withControl c (decBytes n a s) := by
  induction n generalizing a s with
  | zero => rfl
  | succ n ih =>
    rw [decBytes, decBytes, decByte_eq_decRun, decRun_withControl, ih, decByte_eq_decRun]
    rfl

theorem decBytes_add (m n a : Nat) (s : State) : decBytes (m + n) a s = decBytes n (a + m) (decBytes m a s) := by
  induction m generalizing a s with
  | zero => rw [Nat.zero_add]; rfl
  | succ m ih => rw [Nat.add_right_comm, decBytes, ih, decBytes, Nat.add_assoc, Nat.add_comm 1 m]

theorem decodedState_withControl (c : Control) (s : State) :
    decodedState (withControl c s) = withControl c (decBytes c.srcLen.toNat c.srcAddr.toNat s) := decBytes_withControl ..

/-! ## The checks of the parts -/

/-- The checks of `VD_DECODE` on the whole of an input hold on a part of it, whose output bits are among those of the whole. -/
theorem DecodeChecked.part {s w : State} (h : DecodeChecked s) (hparams : w.params = s.params) (hlat : w.vd.lat = s.vd.lat)
    (active : w.vd.session = .active)
    (input : s.ctl.srcAddr.toNat ≤ w.ctl.srcAddr.toNat ∧
      w.ctl.srcAddr.toNat + w.ctl.srcLen.toNat ≤ s.ctl.srcAddr.toNat + s.ctl.srcLen.toNat)
    (output : outPos s.vd.out ≤ outPos w.vd.out ∧ outPos w.vd.out + decodeBits w ≤ outPos s.vd.out + decodeBits s) :
    DecodeChecked w := by
  have hrange := h.range
  have hroom := h.room
  refine ⟨active, by rw [hparams]; omega, fun hemits => not_overlaps_of_inside (h.apart (by omega)) input ?_,
    by rw [hlat]; omega⟩
  obtain ⟨hbyte, -⟩ := outPos_split s.vd.out
  obtain ⟨hbyte', -⟩ := outPos_split w.vd.out
  simp only [outBytes, hlat]
  omega

/-- Received bits of two parts one after the other complete the words of the whole. -/
theorem words_add (r a b : Nat) {n : Nat} (hn : 0 < n) : (r + (a + b)) / n = (r + a) / n + ((r + a) % n + b) / n := by
  conv_lhs => rw [← Nat.add_assoc, ← Nat.div_add_mod (r + a) n, Nat.add_assoc, Nat.mul_add_div hn]

/-- The state the first command leaves, with the operands of the second. -/
def betweenDecodes (s : State) (n : Word) : State :=
  withControl (withSource s.ctl (s.ctl.srcAddr + n) (s.ctl.srcLen - n)) (decBytes n.toNat s.ctl.srcAddr.toNat s)

section
variable {s : State} {n : Word} (h : DecodeChecked s) (hn : n.toNat ≤ s.ctl.srcLen.toNat)
include h hn

theorem firstDecode_checked : DecodeChecked (withControl (withSource s.ctl s.ctl.srcAddr n) s) :=
  h.part rfl rfl h.active ⟨Nat.le_refl _, Nat.add_le_add_left hn _⟩
    ⟨Nat.le_refl _, Nat.add_le_add_left (receivedBits_mono s (Nat.mul_le_mul_left 8 hn)) _⟩

/-- The bits of the second part follow those of the first, and both together are those of the whole. -/
theorem secondDecode_checked (hs : DecoderSound s) (haddr : s.ctl.srcAddr.toNat + n.toNat < 2 ^ 32) :
    DecodeChecked (betweenDecodes s n) := by
  have hrun := (DecoderRun.start (hs.rxCnt h.begun) (hs.stepcnt h.begun)).bytes n.toNat s.ctl.srcAddr.toNat
  rw [Nat.zero_add] at hrun
  have hlat : (betweenDecodes s n).vd.lat = s.vd.lat := hrun.trellis.moves.lat
  have hparams : (betweenDecodes s n).params = s.params := hrun.trellis.moves.params
  have hactive : (betweenDecodes s n).vd.session = .active := by
    obtain ⟨_, _, _, _, _, _, _, _, _, hmoves⟩ := hrun.trellis.moves
    rw [betweenDecodes, hmoves]
    exact h.active
  have hcnt : (betweenDecodes s n).vd.rxCnt.toNat = (s.vd.rxCnt.toNat + 8 * n.toNat) % s.vd.lat.n.toNat := hrun.rxCnt
  have hstep : (betweenDecodes s n).vd.stepcnt.toNat =
      min (s.vd.stepcnt.toNat + (s.vd.rxCnt.toNat + 8 * n.toNat) / s.vd.lat.n.toNat) (s.vd.lat.depth.toNat - 1) :=
    hrun.trellis.stepcnt
  have hrest : (s.ctl.srcLen - n).toNat = s.ctl.srcLen.toNat - n.toNat := BitVec.toNat_sub_of_le hn
  have hnext : (s.ctl.srcAddr + n).toNat = s.ctl.srcAddr.toNat + n.toNat := BitVec.toNat_add_of_lt haddr
  have hsteps : steps s = (s.vd.rxCnt.toNat + 8 * n.toNat) / s.vd.lat.n.toNat + steps (betweenDecodes s n) := by
    have hlen : 8 * s.ctl.srcLen.toNat = 8 * n.toNat + 8 * (s.ctl.srcLen - n).toNat := by omega
    rw [steps, hlen, words_add _ _ _ hrun.rate, steps, hcnt, hlat]
    rfl
  have hbits : decodeBits s = receivedBits s (8 * n.toNat) + decodeBits (betweenDecodes s n) := by
    have hle := hs.stepcnt h.begun
    rw [decodeBits, decodeBits, receivedBits, stepBits, hlat, hstep, hsteps]
    omega
  have hroom := h.room
  have hpos : outPos (betweenDecodes s n).vd.out = outPos s.vd.out + receivedBits s (8 * n.toNat) :=
    (hrun.trellis.emitted (by change outPos s.vd.out + receivedBits s (8 * n.toNat) ≤ _; omega)).1
  refine h.part hparams hlat hactive ⟨?_, ?_⟩ (by omega)
  · exact hnext ▸ Nat.le_add_right _ _
  · change (s.ctl.srcAddr + n).toNat + (s.ctl.srcLen - n).toNat ≤ _
    omega

end

/-- The received bits of the two parts are those of the whole. -/
theorem decodedState_betweenDecodes {s : State} {n : Word} (hn : n.toNat ≤ s.ctl.srcLen.toNat)
    (haddr : s.ctl.srcAddr.toNat + n.toNat < 2 ^ 32) :
    withControl s.ctl (decodedState (betweenDecodes s n)) = decodedState s := by
  have hrest : (s.ctl.srcLen - n).toNat = s.ctl.srcLen.toNat - n.toNat := BitVec.toNat_sub_of_le hn
  have hnext : (s.ctl.srcAddr + n).toNat = s.ctl.srcAddr.toNat + n.toNat := BitVec.toNat_add_of_lt haddr
  have hwhole : decodedState s = withControl s.ctl (decBytes s.ctl.srcLen.toNat s.ctl.srcAddr.toNat s) :=
    decodedState_withControl s.ctl s
  have hparts := decBytes_add n.toNat (s.ctl.srcLen.toNat - n.toNat) s.ctl.srcAddr.toNat s
  rw [Nat.add_sub_cancel' hn] at hparts
  rw [hwhole, hparts, betweenDecodes, decodedState_withControl]
  simp only [withSource, hrest, hnext]
  rfl

/-- Settles O31: the second command starts where the received bits of the first ended, on the rest of the input. -/
theorem decodeStreamingIdentity : Obligations.DecodeStreamingIdentity := by
  intro s t n hp hs hpass hn haddr he
  have hc := passes_vdDecode_iff.1 hpass
  rw [exec_vdDecode_checked hc] at he
  cases he
  have hword : (BitVec.ofNat 32 n).toNat = n := Nat.mod_eq_of_lt (by omega)
  have hn' : (BitVec.ofNat 32 n).toNat ≤ s.ctl.srcLen.toNat := by rwa [hword]
  have haddr' : s.ctl.srcAddr.toNat + (BitVec.ofNat 32 n).toNat < 2 ^ 32 := by rwa [hword]
  have hfirst := exec_vdDecode_checked (firstDecode_checked hc hn')
  rw [decodedState_withControl] at hfirst
  exact ⟨_, _, hfirst, exec_vdDecode_checked (secondDecode_checked hc hn' hs haddr'),
    (decodedState_betweenDecodes hn' haddr').symm⟩

end Sys2Proof.Machine
end

section
/-! Every step keeps the decoder sound (44_viterbi.md R210, R216 to R221, R227; 10_state.md R64 to R71). -/

open Sys2Proof Sys2Proof.Claims

namespace Sys2Proof.Machine

/-! ## What leaves a session alone -/

/-- Of the decoder at most the live configuration and `VD_SIZE` differ, which no session command reads. -/
def DecoderKept (s t : State) : Prop :=
  t.params = s.params ∧ t.vd = { s.vd with cfg := t.vd.cfg, size := t.vd.size }

theorem DecoderKept.of_same {s t : State} (params : t.params = s.params) (vd : t.vd = s.vd) : DecoderKept s t :=
  ⟨params, by rw [vd]⟩

theorem DecoderSound.kept {s t : State} (h : DecoderSound s) (hkept : DecoderKept s t) : DecoderSound t := by
  obtain ⟨hp, hvd⟩ := hkept
  generalize t.vd.cfg = cfg, t.vd.size = size at hvd
  refine ⟨?_, ?_, ?_, ?_, ?_, ?_, ?_, ?_, ?_, ?_⟩
  · rw [hp, hvd]; exact h.legal
  · rw [hp, hvd]; exact h.output
  · rw [hvd]; exact h.wpos
  · rw [hvd]; exact h.stepcnt
  · rw [hvd]; exact h.rxCnt
  · rw [hvd]; exact h.rxBits
  · rw [hp, hvd]; exact h.records
  · rw [hp, hvd]; exact h.nextFresh
  · rw [hvd]; exact h.bestState
  · rw [hvd]; exact h.bestMetric

theorem DecoderSound.of_idle {s : State} (h : s.vd.session = .idle) : DecoderSound s := by
  constructor <;> exact fun begun => absurd h begun

theorem recordError_decoderKept (s : State) (c : ErrCode) (o : Byte) : DecoderKept s (recordError s c o) :=
  .of_same (recordError_params ..) (recordError_vd ..)

theorem writeReg_decoderKept (s : State) (r : Reg) (v : Word) : DecoderKept s (writeReg s r v) := by
  cases r <;> exact ⟨rfl, rfl⟩

theorem hostWriteReg_decoderKept (s : State) (r : Option Reg) (v : Word) : DecoderKept s (hostWriteReg s r v) := by
  cases r with
  | none => exact ⟨rfl, rfl⟩
  | some r =>
    rw [hostWriteReg]
    split
    · exact ⟨rfl, rfl⟩
    · exact writeReg_decoderKept s r v

theorem hostReadReg_decoderKept (s : State) (r : Option Reg) : DecoderKept s (hostReadReg s r) := by
  cases r with
  | none => exact ⟨rfl, rfl⟩
  | some r =>
    rw [hostReadReg]
    split
    · exact ⟨rfl, rfl⟩
    · exact ⟨rfl, rfl⟩

/-! ## The commands of the decoder -/

/-- The best-state registers are copies of the newest slot's fields after every step (10_state.md R68). -/
theorem trellisSteps_best {s : State} (h : DecoderSound s) (hready : TrellisReady s) (begun : s.vd.session ≠ .idle)
    (rbs : List Byte) : (trellisSteps rbs s).vd.bestState.toNat =
        (slot (trellisSteps rbs s).vd.window (trellisSteps rbs s).vd.wpos.toNat).lo ∧
      (trellisSteps rbs s).vd.bestMetric.toNat =
        (slot (trellisSteps rbs s).vd.window (trellisSteps rbs s).vd.wpos.toNat).lom := by
  obtain rfl | ⟨rbs, rb, rfl⟩ := List.eq_nil_or_concat rbs
  · exact ⟨h.bestState begun, h.bestMetric begun⟩
  · rw [List.concat_eq_append, trellisSteps_concat, (hready.steps rbs).slot_newest]
    exact (hready.steps rbs).best_toNat rb

theorem decodedState_sound {s : State} (hp : s.params.Legal) (h : DecoderSound s) (hc : DecodeChecked s) :
    DecoderSound (decodedState s) := by
  have hready := h.ready hp hc.begun
  have hrun := decodedState_run h hc
  obtain ⟨hpos, -⟩ := hrun.trellis.emitted hc.room
  have hcount := hrun.trellis.stepcnt
  have hcnt := hrun.rxCnt
  have hlat := hrun.trellis.moves.lat
  have hparams := hrun.trellis.moves.params
  have hafter := hready.steps (words s (steps s))
  obtain ⟨hstate, hmetric⟩ := trellisSteps_best h hready hc.begun (words s (steps s))
  have hpending : (decodedState s).vd.rxBits.toNat < 2 ^ (decodedState s).vd.rxCnt.toNat := by
    rw [hcnt, decodedState_eq h hc]
    exact rxPacked_toNat_lt _ _ _
  refine ⟨fun _ => ?_, fun _ => ⟨?_, ?_⟩, fun _ => ?_, fun _ => ?_, fun _ => ?_, fun _ => hpending, fun _ => ?_,
    fun _ => ?_, fun _ => ?_, fun _ => ?_⟩
  · rw [hparams, hlat]
    exact h.legal hc.begun
  · rw [hparams, hlat]
    exact (h.output hc.begun).region
  · rw [hlat]
    exact hpos.trans_le hc.room
  · rw [decodedState_eq h hc]
    exact hafter.wpos
  · rw [hlat]
    omega
  · rw [hlat, hcnt]
    exact Nat.mod_lt _ hrun.rate
  · rw [decodedState_eq h hc]
    exact hafter.records
  · rw [decodedState_eq h hc]
    exact hafter.nextFresh
  · rw [decodedState_eq h hc]
    exact hstate
  · rw [decodedState_eq h hc]
    exact hmetric

theorem vdFlushedState_sound {s : State} (h : DecoderSound s) (hc : VdFlushChecked s) : DecoderSound (vdFlushedState s) := by
  have begun := hc.begun
  obtain ⟨hpos, -⟩ := vdFlushedState_emitted s hc.room
  rw [vdFlushedState_eq]
  exact ⟨fun _ => h.legal begun, fun _ => ⟨(h.output begun).region, hpos.trans_le hc.room⟩, fun _ => h.wpos begun,
    fun _ => h.stepcnt begun, fun _ => Nat.zero_lt_of_lt (h.rxCnt begun), fun _ => Nat.one_pos, fun _ => h.records begun,
    fun _ => h.nextFresh begun, fun _ => h.bestState begun, fun _ => h.bestMetric begun⟩

/-- The answer of a command whose effect is a sound decoder. -/
theorem runCommand_decoderSound {i : Instr} {l : List (Bool × ErrCode)} {e s t : State} (h : runCommand i l e s = .next t)
    (hs : DecoderSound s) (effect : firstFailure l = none → DecoderSound e) : DecoderSound t := by
  rcases runCommand_cases i l e s with ⟨c, -, hr⟩ | ⟨hn, hr⟩
  · rw [hr] at h
    cases h
    exact hs.kept (recordError_decoderKept ..)
  · rw [hr] at h
    cases h
    exact effect hn

theorem exec_decoderSound {i : Instr} {s t : State} (hp : s.params.Legal) (hs : DecoderSound s) (h : exec i s = .next t) :
    DecoderSound t := by
  cases i with
  | vdReset =>
    refine runCommand_decoderSound (exec_vdReset s ▸ h) hs fun hn => ?_
    obtain ⟨legal, top⟩ := vdResetChecks_iff.1 hn
    exact resetDecoder_sound legal top
  | vdDecode =>
    exact runCommand_decoderSound (exec_vdDecode s ▸ h) hs fun hn => decodedState_sound hp hs (vdDecodeChecks_iff.1 hn)
  | vdFlush =>
    exact runCommand_decoderSound (exec_vdFlush s ▸ h) hs fun hn => vdFlushedState_sound hs (vdFlushChecks_iff.1 hn)
  | vdCalcsize a => exact runCommand_decoderSound h hs fun _ => hs.kept ⟨rfl, rfl⟩
  | softReset =>
    cases h
    exact .of_idle rfl
  | _ =>
    obtain ⟨hparams, -, -, -, hvd, -⟩ := commandsChangeOnlyTheirUnit _ s t h
    exact hs.kept (.of_same hparams (hvd (by simp [Instr.opcode]) nofun))

/-! ## A step -/

/-- A core step leaves the session alone, or does what a command does. -/
theorem coreStep_decoder {s t : State} (h : coreStep s = .next t) :
    DecoderKept s t ∨ ∃ i u, exec i s = .next u ∧ DecoderKept u t := by
  cases hw : s.ctl.pending with
  | none =>
    rw [coreStep_idle hw] at h
    cases h
    exact .inl ⟨rfl, rfl⟩
  | some w =>
    cases hi : decode w with
    | error e =>
      rw [coreStep_error hw hi] at h
      cases h
      exact .inl (.of_same (recordError_params ..) (recordError_vd ..))
    | ok i =>
      cases hu : exec i s with
      | next u =>
        rw [coreStep_exec hw hi hu] at h
        cases h
        exact .inr ⟨i, u, hu, rfl, rfl⟩
      | fault f => rw [coreStep_pending hw, execute_ok hi, hu] at h; cases h
      | refused x => rw [coreStep_pending hw, execute_ok hi, hu] at h; cases h

/-- An access of the host leaves the session alone, or is the reset input. -/
theorem hostAccess_decoder {a : HostAccess} {s t : State} (h : hostAccess a s = .next t) :
    DecoderKept s t ∨ t.vd.session = .idle := by
  cases a with
  | regRead x bytes =>
    rw [hostAccess] at h
    split at h
    · cases h
    · cases h
      exact .inl (hostReadReg_decoderKept ..)
  | regWrite x bytes v =>
    rw [hostAccess] at h
    split at h
    · cases h
    · cases h
      exact .inl (hostWriteReg_decoderKept ..)
  | memRead x =>
    rw [hostAccess] at h
    split_ifs at h
    cases h
    exact .inl ⟨rfl, rfl⟩
  | memWrite x v =>
    rw [hostAccess] at h
    split_ifs at h
    cases h
    exact .inl ⟨rfl, rfl⟩
  | powerReset =>
    cases h
    exact .inr rfl

theorem coreStep_decoderSound {s t : State} (hp : s.params.Legal) (hs : DecoderSound s) (h : coreStep s = .next t) :
    DecoderSound t := by
  rcases coreStep_decoder h with hkept | ⟨i, u, hu, hkept⟩
  · exact hs.kept hkept
  · exact (exec_decoderSound hp hs hu).kept hkept

theorem hostAccess_decoderSound {a : HostAccess} {s t : State} (hs : DecoderSound s) (h : hostAccess a s = .next t) :
    DecoderSound t := by
  rcases hostAccess_decoder h with hkept | hidle
  · exact hs.kept hkept
  · exact .of_idle hidle

/-- Settles O55: the agent that moves keeps the decoder sound, and the list of turns does not matter. -/
theorem stepKeepsDecoderSound : Obligations.StepKeepsDecoderSound := by
  intro s t hs h
  match hl : s.host.turns with
  | [] => exact coreStep_decoderSound hs.params hs.decoder (step_core hl ▸ h)
  | .core :: l => exact coreStep_decoderSound (s := setTurns s l) hs.params (hs.setTurns l).decoder (step_core_turn hl ▸ h)
  | .host a :: l => exact hostAccess_decoderSound (hs.setTurns l).decoder (step_host_turn hl ▸ h)

end Sys2Proof.Machine
end

section
/-! The checks of the matrix commands as the statements spell them, and what each command answers once they are decided
(45_matrix.md R250 to R259; 60_exceptions.md R320, R324). -/

open Sys2Proof Sys2Proof.Claims

namespace Sys2Proof.Machine

/-! ## A command whose checks are those of the statements -/

theorem firstFailure_eq_find? (l : List (Bool × ErrCode)) :
    firstFailure l = (l.find? (fun c => c.1)).map (fun c => c.2) := by
  induction l with
  | nil => rfl
  | cons c l ih =>
    obtain ⟨b, e⟩ := c
    cases b with
    | false => simpa using ih
    | true => rfl

theorem errorOf_eq_firstFailure (s : State) (i : Instr) : errorOf s i = firstFailure (checksOf s i) :=
  (firstFailure_eq_find? _).symm

/-- Only the first failure of the checks matters. -/
theorem runCommand_congr {i : Instr} {l m : List (Bool × ErrCode)} {e s : State} (h : firstFailure l = firstFailure m) :
    runCommand i l e s = runCommand i m e s := by
  rw [runCommand, runCommand, h]

section
variable {i : Instr} {e s : State} (hexec : exec i s = runCommand i (checksOf s i) e s)
include hexec

theorem exec_of_errorOf {c : ErrCode} (h : errorOf s i = some c) : exec i s = .next (recordError s c i.opcode) :=
  hexec.trans (runCommand_of_some ((errorOf_eq_firstFailure s i).symm.trans h))

theorem exec_of_passes (h : passes s i = true) : exec i s = .next e :=
  hexec.trans (runCommand_of_none (passes_iff_firstFailure.1 h))

end

/-! ## The checks (45_matrix.md R250) -/

theorem badDim_eq_false {s : State} {d : BitVec 16} : badDim s d = false ↔ dimLegal s.params d := by
  rw [badDim, decide_eq_false_iff_not, dimLegal]
  omega

@[simp] theorem dimChecks_eq (s : State) (dims : List (BitVec 16)) :
    dimChecks s.params dims = dims.map (fun d => (badDim s d, .badConfig)) := by
  refine List.map_congr_left fun d _ => congrArg (·, ErrCode.badConfig) (Bool.eq_iff_iff.2 ?_)
  rw [Bool.not_eq_true', decide_eq_false_iff_not, ← badDim_eq_false, Bool.not_eq_false]

@[simp] theorem regionChecks_eq (s : State) (reads writes : List Region) :
    regionChecks s.params reads writes = (reads ++ writes).map (fun g => (beyondReg s g, .range)) ++
      writes.flatMap (fun w => reads.map (fun g => (meets w g, .overlap))) :=
  congrArg (· ++ _) (List.map_congr_left fun g _ => congrArg (·, ErrCode.range) (not_inRange s g.base g.len))

@[simp] theorem mxRegionA_eq (s : State) : mxRegionA s.mx = regA s := rfl
@[simp] theorem matRegion_b (s : State) (r c : BitVec 16) : matRegion s.mx.b r.toNat c.toNat = regB s r c := rfl
@[simp] theorem matRegion_dst (s : State) (r c : BitVec 16) : matRegion s.mx.dst r.toNat c.toNat = regDst s r c := rfl

/-- A region that meets no other holds no byte of it (20_memory.md R108). -/
theorem not_has_of_meets_eq_false {g h : Region} (hgh : meets g h = false) {a : Nat} (ha : Region.has h a) :
    ¬ Region.has g a := by
  rw [meets, decide_eq_false_iff_not] at hgh
  unfold Region.has at *
  omega

/-! ## The commands -/

theorem exec_mxZero (s : State) : exec .mxZero s = runCommand .mxZero (checksOf s .mxZero)
    (storeMatrix s s.mx.r.toNat s.mx.c.toNat (fun _ => 0x00#8)) s :=
  runCommand_congr (by simp [checksOf, ite_or])

theorem exec_mxCopy (s : State) : exec .mxCopy s = runCommand .mxCopy (checksOf s .mxCopy)
    (storeMatrix s s.mx.r.toNat s.mx.c.toNat (fun i => Memory.read s.mem (s.mx.a.toNat + i))) s :=
  runCommand_congr (by simp [checksOf, ite_or])

theorem exec_mxSetbit (s : State) : exec .mxSetbit s = runCommand .mxSetbit (checksOf s .mxSetbit)
    { s with
      mem := Memory.write s.mem (mxBitAddr s.mx)
        (setBit (Memory.read s.mem (mxBitAddr s.mx)) (7 - s.mx.col.toNat % 8) s.mx.bitval) } s :=
  runCommand_congr (by simp [checksOf, indexCheck, ite_or])

theorem exec_mxGetbit (s : State) : exec .mxGetbit s = runCommand .mxGetbit (checksOf s .mxGetbit)
    (setMxRes s (boolDWord (matBit s.mem s.mx.a s.mx.c.toNat s.mx.row.toNat s.mx.col.toNat))) s :=
  runCommand_congr (by simp [checksOf, indexCheck, ite_or])

theorem exec_mxEqual (s : State) : exec .mxEqual s = runCommand .mxEqual (checksOf s .mxEqual)
    (setMxRes s (boolDWord (allBelow (s.mx.r.toNat * s.mx.c.toNat / 8)
      (fun i => Memory.read s.mem (s.mx.a.toNat + i) == Memory.read s.mem (s.mx.b.toNat + i))))) s :=
  runCommand_congr (by simp [checksOf, ite_or])

theorem exec_mxIszero (s : State) : exec .mxIszero s = runCommand .mxIszero (checksOf s .mxIszero)
    (setMxRes s (boolDWord (allBelow (s.mx.r.toNat * s.mx.c.toNat / 8)
      (fun i => Memory.read s.mem (s.mx.a.toNat + i) == 0x00#8)))) s :=
  runCommand_congr (by simp [checksOf, ite_or])

theorem exec_mxMulvec (s : State) : exec .mxMulvec s = runCommand .mxMulvec (checksOf s .mxMulvec)
    (setMxRes s (matVec s.mem s.mx.a s.mx.r.toNat s.mx.c.toNat (lowBits s.mx.c.toNat s.mx.vec))) s :=
  runCommand_congr (by simp [checksOf, ite_or])

theorem exec_mxMulmat (s : State) : exec .mxMulmat s = runCommand .mxMulmat (checksOf s .mxMulmat)
    (storeMatrix s s.mx.r.toNat s.mx.x.toNat (matByte s.mx.x.toNat (productBit s))) s :=
  runCommand_congr (by simp [checksOf, ite_or])

theorem exec_mxTranspose (s : State) : exec .mxTranspose s = runCommand .mxTranspose (checksOf s .mxTranspose)
    (storeMatrix s s.mx.c.toNat s.mx.r.toNat
      (matByte s.mx.r.toNat (fun c r => matBit s.mem s.mx.a s.mx.c.toNat r c))) s :=
  runCommand_congr (by simp [checksOf, ite_or])

end Sys2Proof.Machine
end

section
/-! The bytes and the bits of a matrix in memory (00_scope.md R18), and GF(2) sums. -/

open Sys2Proof Sys2Proof.Claims

namespace Sys2Proof.Machine

/-! ## Bits and bytes -/

theorem setBit_getLsbD (v : Byte) {p : Nat} (hp : p < 8) (b : Bool) (q : Nat) :
    (setBit v p b).getLsbD q = if q = p then b else v.getLsbD q := by
  have hone : (1#8 <<< p).getLsbD q = decide (q = p) := singleBit_getLsbD hp true q
  cases b with
  | false =>
    rw [setBit, if_neg Bool.false_ne_true, BitVec.getLsbD_and, BitVec.getLsbD_not, hone]
    by_cases hq : q = p
    · simp [hq]
    · by_cases h8 : q < 8
      · simp [hq, h8]
      · simp [hq, BitVec.getLsbD_of_ge v q (Nat.le_of_not_lt h8)]
  | true =>
    rw [setBit, if_pos rfl, BitVec.getLsbD_or, hone]
    by_cases hq : q = p
    · simp [hq]
    · simp [hq]

theorem mbit_eq_matBit (m : Memory) (base : Word) (c0 r c : Nat) : mbit m base c0 r c = matBit m base c0 r c := by
  rw [mbit, matBit, matByteAddr, Nat.add_assoc]

/-- Where a byte of a matrix lies: its row, its byte in the row, and so the column of each of its bits. -/
theorem matByte_position {r c t : Nat} (hc : c % 8 = 0) (ht : t < r * c / 8) :
    t / (c / 8) < r ∧ t % (c / 8) < c / 8 := by
  obtain ⟨w, rfl⟩ : ∃ w, c = 8 * w := ⟨c / 8, by omega⟩
  rw [Nat.mul_left_comm, Nat.mul_div_cancel_left _ (by decide)] at ht
  rw [Nat.mul_div_cancel_left w (by decide)]
  have hw : 0 < w := Nat.pos_of_ne_zero fun h0 => by simp [h0] at ht
  exact ⟨(Nat.div_lt_iff_lt_mul hw).2 ht, Nat.mod_lt t hw⟩

/-- The bit of the byte that holds (i, j) is the bit the byte was made from. -/
theorem matByte_getLsbD {c : Nat} (hc : c % 8 = 0) (f : Nat → Nat → Bool) (i : Nat) {j : Nat} (hj : j < c) :
    (matByte c f (i * (c / 8) + j / 8)).getLsbD (7 - j % 8) = f i j := by
  have hcol : j / 8 < c / 8 := by omega
  have hrow : (i * (c / 8) + j / 8) / (c / 8) = i := by
    rw [Nat.mul_comm, Nat.mul_add_div (by omega), Nat.div_eq_of_lt hcol, Nat.add_zero]
  have hbyte : (i * (c / 8) + j / 8) % (c / 8) = j / 8 := by
    rw [Nat.mul_comm, Nat.mul_add_mod, Nat.mod_eq_of_lt hcol]
  have hbit : 8 * (j / 8) + (7 - (7 - j % 8)) = j := by omega
  have h8 : 7 - j % 8 < 8 := by omega
  rw [matByte, packBits_getLsbD, hrow, hbyte, hbit, decide_eq_true h8, Bool.true_and, Bool.true_and]

/-- A stored matrix has the bits its bytes were made from. -/
theorem matBit_store {r c : Nat} (hc : c % 8 = 0) (m : Memory) (base : Word) (f : Nat → Nat → Bool) {i j : Nat}
    (hi : i < r) (hj : j < c) : matBit (Memory.store m base.toNat (r * c / 8) (matByte c f)) base c i j = f i j := by
  have hin : base.toNat ≤ matByteAddr base c i j ∧ matByteAddr base c i j < base.toNat + r * c / 8 :=
    matByteAddr_has base hc hi hj
  rw [matBit, Memory.read_store, if_pos hin, matByteAddr, Nat.add_assoc, Nat.add_sub_cancel_left,
    matByte_getLsbD hc f i hj]

/-- Matrices of equal bits have equal bytes. -/
theorem read_eq_of_matBit_eq {r c : Nat} (hc : c % 8 = 0) {m m' : Memory} {base base' : Word}
    (h : ∀ i < r, ∀ j < c, matBit m' base' c i j = matBit m base c i j) {t : Nat} (ht : t < r * c / 8) :
    Memory.read m' (base'.toNat + t) = Memory.read m (base.toNat + t) := by
  obtain ⟨hrow, hbyte⟩ := matByte_position hc ht
  apply BitVec.eq_of_getLsbD_eq
  intro p hp
  have hbit := h _ hrow (8 * (t % (c / 8)) + (7 - p)) (by omega)
  have haddr : ∀ b : Word, matByteAddr b c (t / (c / 8)) (8 * (t % (c / 8)) + (7 - p)) = b.toNat + t := by
    intro b
    rw [matByteAddr, Nat.add_assoc, show (8 * (t % (c / 8)) + (7 - p)) / 8 = t % (c / 8) by omega, Nat.mul_comm,
      Nat.div_add_mod]
  rwa [matBit, matBit, haddr, haddr, show 7 - (8 * (t % (c / 8)) + (7 - p)) % 8 = p by omega] at hbit

theorem storeMatrix_sameOutside (s : State) (r c : BitVec 16) (f : Nat → Byte) :
    SameOutside (regDst s r c) s.mem (storeMatrix s r.toNat c.toNat f).mem := by
  intro a ha
  rw [storeMatrix_mem, Memory.read_store]
  exact if_neg ha

theorem read_store_byte (m : Memory) (base : Nat) {n i : Nat} (f : Nat → Byte) (hi : i < n) :
    Memory.read (Memory.store m base n f) (base + i) = f i := by
  rw [Memory.read_store, if_pos (by omega), Nat.add_sub_cancel_left]

theorem allBelow_eq_true {n : Nat} {p : Nat → Bool} : allBelow n p = true ↔ ∀ i < n, p i = true := by
  induction n with
  | zero => simp [allBelow]
  | succ n ih => rw [allBelow, Bool.and_eq_true, ih, Nat.forall_lt_succ_right]

theorem boolDWord_eq_one {b : Bool} : boolDWord b = 1 ↔ b = true := by cases b <;> decide

theorem boolDWord_one_or_zero (b : Bool) : boolDWord b = 1 ∨ boolDWord b = 0 := by cases b <;> decide

/-! ## GF(2) sums -/

theorem countBits_odd (n : Nat) (f : Nat → Bool) : (countBits n f % 2 == 1) = oddCount n f := by
  rw [oddCount, ← countBits_eq_card]
  exact Bool.beq_eq_decide_eq _ _

theorem oddCount_congr {n : Nat} {f g : Nat → Bool} (h : ∀ i < n, f i = g i) : oddCount n f = oddCount n g := by
  rw [← countBits_odd, ← countBits_odd, countBits_congr h]

/-- A sum does not depend on the direction it is taken in. -/
theorem oddCount_reflect (n : Nat) (f : Nat → Bool) : oddCount n (fun k => f (n - 1 - k)) = oddCount n f := by
  have hsum := Finset.sum_range_reflect (fun k => if f k = true then 1 else 0) n
  rw [oddCount, oddCount, Finset.card_filter, Finset.card_filter, hsum]

theorem packBits_toNat_lt (w n : Nat) (f : Nat → Bool) : (packBits w n f).toNat < 2 ^ n := by
  apply Nat.lt_pow_two_of_testBit
  intro j hj
  rw [BitVec.testBit_toNat, packBits_getLsbD, decide_eq_false (Nat.not_lt.2 hj), Bool.and_false, Bool.false_and]

/-- A row times a vector is the GF(2) sum over the columns; vector bits at `c` and above meet no bit of the row
(45_matrix.md R257). -/
theorem parity_matRow_and (m : Memory) (base : Word) {c : Nat} (hc : c ≤ 64) (i : Nat) (v : DWord) :
    parity (matRow m base c i &&& v) =
      oddCount c (fun k => matBit m base c i k && v.getLsbD (c - 1 - k)) := by
  rw [matRow, parity_and_of_lt hc (packBits_toNat_lt ..), ← oddCount_reflect]
  refine oddCount_congr fun k hk => ?_
  have hsub : c - 1 - k < c := by omega
  rw [BitVec.testBit_toNat, packBits_getLsbD, decide_eq_true (Nat.lt_of_lt_of_le hsub hc), decide_eq_true hsub,
    Bool.true_and, Bool.true_and, show c - 1 - (c - 1 - k) = k by omega]

/-- Element `i` of a matrix-vector product is the product of row `i` (45_matrix.md R257). -/
theorem matVec_getLsbD (m : Memory) (base : Word) {r c i : Nat} (hr : r ≤ 64) (hc : c ≤ 64) (hi : i < r) (v : DWord) :
    (matVec m base r c v).getLsbD (r - 1 - i) =
      oddCount c (fun k => matBit m base c i k && v.getLsbD (c - 1 - k)) := by
  have hsub : r - 1 - i < r := by omega
  rw [matVec, packBits_getLsbD, decide_eq_true (Nat.lt_of_lt_of_le hsub hr), decide_eq_true hsub, Bool.true_and,
    Bool.true_and, show r - 1 - (r - 1 - i) = i by omega, parity_matRow_and m base hc]

end Sys2Proof.Machine
end

section
/-! The matrix commands complete (45_matrix.md R251 to R262). -/

open Sys2Proof Sys2Proof.Claims

namespace Sys2Proof.Machine

/-! ## `MX_TRANSPOSE` (45_matrix.md R259, R262) -/

theorem mxTranspose_checked {s : State} (h : passes s .mxTranspose = true) :
    dimLegal s.params s.mx.r ∧ dimLegal s.params s.mx.c := by
  simp only [passes_iff_firstFailure, checksOf, firstFailure_cons_eq_none, Bool.or_eq_false_iff, badDim_eq_false] at h
  obtain ⟨hdims, -⟩ := h
  exact hdims

/-- A transpose that passes its checks leaves the transposed matrix at its destination. -/
theorem matBit_mxTranspose {s t : State} (h : passes s .mxTranspose = true) (ht : exec .mxTranspose s = .next t) {r c : Nat}
    (hr : r < s.mx.r.toNat) (hc : c < s.mx.c.toNat) :
    matBit t.mem s.mx.dst s.mx.r.toNat c r = matBit s.mem s.mx.a s.mx.c.toNat r c := by
  obtain ⟨hrows, -⟩ := mxTranspose_checked h
  rw [exec_of_passes (exec_mxTranspose s) h] at ht
  cases ht
  exact matBit_store hrows.1 _ _ _ hc hr

/-- Settles O40: each transpose exchanges the indices of a bit, and matrices of equal bits have equal bytes. -/
theorem transposeTwiceIsIdentity : Obligations.TransposeTwiceIsIdentity := by
  intro s t u v d hs ht hu hpass hv i hi
  obtain ⟨-, hcols⟩ := mxTranspose_checked hs
  have hback : ∀ r < s.mx.r.toNat, ∀ c < s.mx.c.toNat,
      matBit v.mem d s.mx.c.toNat r c = matBit s.mem s.mx.a s.mx.c.toNat r c := by
    intro r hr c hc
    have hthere := matBit_mxTranspose hs ht hr hc
    subst hu
    exact (matBit_mxTranspose hpass hv (r := c) (c := r) hc hr).trans hthere
  exact read_eq_of_matBit_eq hcols.1 hback hi

/-- Settles O39: the destination is stored from the operand's bits with the indices exchanged. -/
theorem mxTransposeSwapsIndices : Obligations.MxTransposeSwapsIndices := by
  refine ⟨cmdFormat (i := .mxTranspose) rfl, fun s => ⟨fun _ => exec_of_errorOf (exec_mxTranspose s), fun h => ?_⟩⟩
  have ht := exec_of_passes (exec_mxTranspose s) h
  refine ⟨_, ht, rfl, fun c hc r hr => ?_, storeMatrix_sameOutside _ _ _ _⟩
  rw [mbit_eq_matBit, mbit_eq_matBit, matBit_mxTranspose h ht hr hc]

/-! ## `MX_ZERO` and `MX_COPY` (45_matrix.md R251, R252) -/

theorem mxCopy_disjoint {s : State} (h : passes s .mxCopy = true) : meets (regDst s s.mx.r s.mx.c) (regA s) = false := by
  simp only [passes_iff_firstFailure, checksOf, firstFailure_cons_eq_none] at h
  obtain ⟨-, -, hmeets, -⟩ := h
  exact hmeets

/-- Settles O34: the destination is stored byte by byte, and the source, which it does not meet, is as before. -/
theorem mxZeroAndCopyFillDestination : Obligations.MxZeroAndCopyFillDestination := by
  refine ⟨cmdFormat (i := .mxZero) rfl, cmdFormat (i := .mxCopy) rfl, fun s => ⟨fun _ => exec_of_errorOf (exec_mxZero s),
    fun _ => exec_of_errorOf (exec_mxCopy s), fun h => ?_, fun h => ?_⟩⟩
  · exact ⟨_, exec_of_passes (exec_mxZero s) h, rfl, fun i hi => read_store_byte _ _ _ hi, storeMatrix_sameOutside _ _ _ _⟩
  · refine ⟨_, exec_of_passes (exec_mxCopy s) h, rfl, fun i hi => ?_, storeMatrix_sameOutside _ _ _ _⟩
    have hsource : Region.has (regA s) (s.mx.a.toNat + i) := ⟨Nat.le_add_right _ _, Nat.add_lt_add_left hi _⟩
    have hout := not_has_of_meets_eq_false (mxCopy_disjoint h) hsource
    exact (read_store_byte _ _ _ hi).trans (storeMatrix_sameOutside _ _ _ _ _ hout).symm

/-! ## `MX_SETBIT` and `MX_GETBIT` (45_matrix.md R253, R254) -/

/-- Settles O35: one byte is written, and `setBit` changes one of its bits. -/
theorem mxSetbitAndGetbitAddressOneBit : Obligations.MxSetbitAndGetbitAddressOneBit := by
  refine ⟨cmdFormat (i := .mxSetbit) rfl, cmdFormat (i := .mxGetbit) rfl, fun s => ⟨
    fun _ => exec_of_errorOf (exec_mxSetbit s), fun _ => exec_of_errorOf (exec_mxGetbit s), fun h => ?_, fun h => ?_⟩⟩
  · have hbit : 7 - s.mx.col.toNat % 8 < 8 := by omega
    refine ⟨_, exec_of_passes (exec_mxSetbit s) h, rfl, ?_, fun a b hab => ?_⟩
    · rw [mbit_eq_matBit, matBit, ← mxBitAddr, Memory.read_write_same, setBit_getLsbD _ hbit, if_pos rfl]
    · rw [← Nat.add_assoc] at hab
      change ¬ (a = mxBitAddr s.mx ∧ _) at hab
      rw [Memory.read_write]
      by_cases ha : a = mxBitAddr s.mx
      · rw [if_pos ha, setBit_getLsbD _ hbit, if_neg fun hb => hab ⟨ha, hb⟩, ha]
      · rw [if_neg ha]
  · exact ⟨_, exec_of_passes (exec_mxGetbit s) h, by rw [boolDWord_toNat, mbit_eq_matBit]⟩

/-! ## `MX_EQUAL` and `MX_ISZERO` (45_matrix.md R255, R256) -/

/-- Settles O36: the result is 1 exactly when `allBelow` finds every byte to agree. -/
theorem mxComparisonsAreBytewise : Obligations.MxComparisonsAreBytewise := by
  refine ⟨cmdFormat (i := .mxEqual) rfl, cmdFormat (i := .mxIszero) rfl, fun s => ⟨
    fun _ => exec_of_errorOf (exec_mxEqual s), fun _ => exec_of_errorOf (exec_mxIszero s), fun h => ?_, fun h => ?_⟩⟩
  · refine ⟨_, exec_of_passes (exec_mxEqual s) h, boolDWord_one_or_zero _, ?_⟩
    simp only [boolDWord_eq_one, allBelow_eq_true, beq_iff_eq]
  · refine ⟨_, exec_of_passes (exec_mxIszero s) h, boolDWord_one_or_zero _, ?_⟩
    simp only [boolDWord_eq_one, allBelow_eq_true, beq_iff_eq]

/-! ## The products (45_matrix.md R257, R258) -/

theorem mxMulvec_checked {s : State} (h : passes s .mxMulvec = true) : s.mx.r.toNat ≤ 64 ∧ s.mx.c.toNat ≤ 64 := by
  simp only [passes_iff_firstFailure, checksOf, firstFailure_cons_eq_none, Bool.or_eq_false_iff,
    decide_eq_false_iff_not] at h
  obtain ⟨⟨-, hwide⟩, -⟩ := h
  omega

/-- Settles O37: each result bit is the parity of a row and the vector, a sum over the columns. -/
theorem mxMulvecIsRowParity : Obligations.MxMulvecIsRowParity := by
  refine ⟨cmdFormat (i := .mxMulvec) rfl, fun s => ⟨fun _ => exec_of_errorOf (exec_mxMulvec s), fun h => ?_⟩⟩
  obtain ⟨hr, hc⟩ := mxMulvec_checked h
  refine ⟨_, exec_of_passes (exec_mxMulvec s) h, packBits_toNat_lt .., fun i hi => ?_⟩
  rw [matVec_getLsbD _ _ hr hc hi]
  refine oddCount_congr fun k hk => ?_
  rw [mbit_eq_matBit, lowBits_getLsbD, decide_eq_true (by omega), Bool.true_and]

theorem mxMulmat_checked {s : State} (h : passes s .mxMulmat = true) : dimLegal s.params s.mx.x := by
  simp only [passes_iff_firstFailure, checksOf, firstFailure_cons_eq_none, Bool.or_eq_false_iff, badDim_eq_false] at h
  obtain ⟨⟨-, hx⟩, -⟩ := h
  exact hx

/-- Settles O38: the destination is stored from the bits of the product. -/
theorem mxMulmatIsGf2Product : Obligations.MxMulmatIsGf2Product := by
  refine ⟨cmdFormat (i := .mxMulmat) rfl, fun s => ⟨fun _ => exec_of_errorOf (exec_mxMulmat s), fun h => ?_⟩⟩
  refine ⟨_, exec_of_passes (exec_mxMulmat s) h, rfl, fun i hi j hj => ?_, storeMatrix_sameOutside _ _ _ _⟩
  simp only [mbit_eq_matBit]
  exact (matBit_store (mxMulmat_checked h).1 _ _ _ hi hj).trans (countBits_odd ..)

end Sys2Proof.Machine
end

section
/-! The products of the block-code unit (46_block_code.md R281): `matVec` is the one word that the statements call a product, and
it is linear (R285). -/

open Sys2Proof Sys2Proof.Claims

namespace Sys2Proof.Machine

/-! ## The product as the statements spell it -/

section
variable {m : Memory} {base : Word} {r c : Nat}

theorem isProduct_matVec (hr : r ≤ 64) (hc : c ≤ 64) (v : DWord) : IsProduct m base r c v (matVec m base r c v) := by
  refine ⟨packBits_toNat_lt .., fun i hi => ?_⟩
  simp only [mbit_eq_matBit]
  exact matVec_getLsbD m base hr hc hi v

/-- The bits of a product are given below `r`, and 0 from there on. -/
theorem isProduct_unique {v p q : DWord} (hp : IsProduct m base r c v p) (hq : IsProduct m base r c v q) : p = q := by
  obtain ⟨hplt, hpbits⟩ := hp
  obtain ⟨hqlt, hqbits⟩ := hq
  apply BitVec.eq_of_getLsbD_eq
  intro j _
  by_cases hj : j < r
  · have hrow : r - 1 - (r - 1 - j) = j := by omega
    have hpj := hpbits (r - 1 - j) (by omega)
    have hqj := hqbits (r - 1 - j) (by omega)
    rw [hrow] at hpj hqj
    rw [hpj, hqj]
  · have hpow : 2 ^ r ≤ 2 ^ j := Nat.pow_le_pow_right (by decide) (Nat.le_of_not_lt hj)
    rw [← BitVec.testBit_toNat, ← BitVec.testBit_toNat, Nat.testBit_lt_two_pow (hplt.trans_le hpow),
      Nat.testBit_lt_two_pow (hqlt.trans_le hpow)]

theorem isProduct_iff (hr : r ≤ 64) (hc : c ≤ 64) {v p : DWord} :
    IsProduct m base r c v p ↔ matVec m base r c v = p :=
  ⟨isProduct_unique (isProduct_matVec hr hc v), fun h => h ▸ isProduct_matVec hr hc v⟩

/-- Vector bits at `c` and above are ignored (46_block_code.md R283). -/
theorem isProduct_of_lowBits {v p : DWord} (h : IsProduct m base r c (lowBits c v) p) : IsProduct m base r c v p := by
  obtain ⟨hlt, hbits⟩ := h
  refine ⟨hlt, fun i hi => (hbits i hi).trans (oddCount_congr fun k hk => ?_)⟩
  rw [lowBits_getLsbD, decide_eq_true (by omega), Bool.true_and]

end

/-! ## Linearity (46_block_code.md R285) -/

theorem and_xor_distrib (a v w : DWord) : a &&& (v ^^^ w) = (a &&& v) ^^^ (a &&& w) := by
  apply BitVec.eq_of_getLsbD_eq
  intro j _
  simp only [BitVec.getLsbD_and, BitVec.getLsbD_xor, Bool.and_xor_distrib_left]

theorem matVec_xor (m : Memory) (base : Word) (r c : Nat) (v w : DWord) :
    matVec m base r c (v ^^^ w) = matVec m base r c v ^^^ matVec m base r c w := by
  apply BitVec.eq_of_getLsbD_eq
  intro j _
  simp only [matVec, packBits_getLsbD, BitVec.getLsbD_xor, and_xor_distrib, parity_xor, Bool.and_xor_distrib_left]

theorem syndrome_xor (m : Memory) (b : BlockUnit) (v w : DWord) :
    syndrome m b (v ^^^ w) = syndrome m b v ^^^ syndrome m b w := matVec_xor ..

/-! ## The low bits of a register -/

theorem lowBits_toNat (w : Nat) (v : DWord) : (lowBits w v).toNat = v.toNat % 2 ^ w := by
  apply Nat.eq_of_testBit_eq
  intro j
  rw [Nat.testBit_mod_two_pow, BitVec.testBit_toNat, BitVec.testBit_toNat, lowBits_getLsbD]

theorem lowBits_toNat_lt (w : Nat) (v : DWord) : (lowBits w v).toNat < 2 ^ w := packBits_toNat_lt ..

theorem lowBits_of_lt {w : Nat} {v : DWord} (h : v.toNat < 2 ^ w) : lowBits w v = v :=
  BitVec.eq_of_toNat_eq ((lowBits_toNat w v).trans (Nat.mod_eq_of_lt h))

end Sys2Proof.Machine
end

section
/-! The error-mask search (46_block_code.md R282): which masks it tries, and in which order. -/

open Sys2Proof Sys2Proof.Claims

namespace Sys2Proof.Machine

/-- Settles O17: the masks the generator returns after `MG_INIT` are those of `masksOfWeight`. -/
theorem searchOrderIsGeneratorOrder : Obligations.SearchOrderIsGeneratorOrder :=
  fun _ _ hp hk h => (masksReturned_choose_after_mgInit hp hk h).symm

theorem weight_eq_popcount (m : DWord) : weight m = popcount m := (popcount_eq_card m).symm

theorem weight_eq_zero_iff {m : DWord} : weight m = 0 ↔ m = 0 := by
  constructor
  · intro h
    apply BitVec.eq_of_getLsbD_eq
    intro i hi
    have hbit := Finset.filter_eq_empty_iff.1 (Finset.card_eq_zero.1 h) (Finset.mem_range.2 hi)
    exact (Bool.eq_false_of_not_eq_true hbit).trans BitVec.getLsbD_zero.symm
  · rintro rfl
    decide

/-! ## The masks of a weight are all listed -/

theorem topBit_lt {l : Nat} {m : DWord} (hge : 2 ^ l ≤ m.toNat) : l < 64 :=
  (Nat.pow_lt_pow_iff_right (by decide)).1 (hge.trans_lt m.isLt)

/-- A mask with its top bit set is that bit over the bits below it. -/
theorem topBit_or_lowBits {l : Nat} {m : DWord} (hlt : m.toNat < 2 ^ (l + 1)) (hge : 2 ^ l ≤ m.toNat) :
    1#64 <<< l ||| lowBits l m = m := by
  have hl := topBit_lt hge
  have hmod : m.toNat % 2 ^ l = m.toNat - 2 ^ l := by
    rw [Nat.mod_eq_sub_mod hge, Nat.mod_eq_of_lt (by omega)]
  apply BitVec.eq_of_toNat_eq
  rw [topBit_or_toNat hl (lowBits_toNat_lt l m), lowBits_toNat, hmod]
  omega

theorem masksOfWeight_complete {l k : Nat} {m : DWord} (hlt : m.toNat < 2 ^ l) (hweight : weight m = k) :
    m ∈ masksOfWeight l k := by
  induction l generalizing k m with
  | zero =>
    have h0 : m = 0 := BitVec.eq_of_toNat_eq (by simpa using hlt)
    have hk : k = 0 := hweight.symm.trans (weight_eq_zero_iff.2 h0)
    rw [h0, hk]
    exact List.mem_singleton_self _
  | succ l ih =>
    cases k with
    | zero => exact List.mem_singleton.2 (weight_eq_zero_iff.1 hweight)
    | succ k =>
      rw [masksOfWeight, List.mem_append, List.mem_map]
      by_cases hge : 2 ^ l ≤ m.toNat
      · have hl := topBit_lt hge
        have hlow := lowBits_toNat_lt l m
        have htop := topBit_or_lowBits hlt hge
        have hone := popcount_topBit_or hl hlow
        rw [htop, ← weight_eq_popcount, ← weight_eq_popcount, hweight] at hone
        exact .inl ⟨lowBits l m, ih hlow (Nat.succ.inj hone).symm, htop⟩
      · exact .inr (ih (Nat.lt_of_not_le hge) hweight)

theorem mem_masksOfWeight_iff {l k : Nat} (hl : l ≤ 64) {m : DWord} :
    m ∈ masksOfWeight l k ↔ m.toNat < 2 ^ l ∧ weight m = k := by
  refine ⟨fun h => ?_, fun ⟨hlt, hweight⟩ => masksOfWeight_complete hlt hweight⟩
  rw [weight_eq_popcount]
  exact mem_masksOfWeight hl h

/-! ## The search list -/

theorem mem_searchMasks_iff {l me : Nat} (hl : l ≤ 64) {m : DWord} :
    m ∈ searchMasks l me ↔ m.toNat < 2 ^ l ∧ 1 ≤ weight m ∧ weight m ≤ me := by
  induction me with
  | zero => exact iff_of_false List.not_mem_nil (by omega)
  | succ me ih =>
    rw [searchMasks, List.mem_append, ih, mem_masksOfWeight_iff hl]
    omega

/-- `a` is tried before `b`: it has less weight, or the same weight and a greater value (46_block_code.md R282). -/
def TriedBefore (a b : DWord) : Prop := weight a < weight b ∨ (weight a = weight b ∧ b.toNat < a.toNat)

theorem searchMasks_ordered {l : Nat} (hl : l ≤ 64) (me : Nat) : (searchMasks l me).Pairwise TriedBefore := by
  induction me with
  | zero => exact .nil
  | succ me ih =>
    refine List.pairwise_append.2 ⟨ih, (masksOfWeight_decreasing hl _).imp_of_mem fun {a b} ha hb hab => ?_,
      fun a ha b hb => ?_⟩
    · have haw := ((mem_masksOfWeight_iff hl).1 ha).2
      have hbw := ((mem_masksOfWeight_iff hl).1 hb).2
      exact .inr ⟨haw.trans hbw.symm, hab⟩
    · have haw := ((mem_searchMasks_iff hl).1 ha).2.2
      have hbw := ((mem_masksOfWeight_iff hl).1 hb).2
      exact .inl (by omega)

/-- In an ordered list, what `find?` finds comes before every other match. -/
theorem find?_first {α : Type} {R : α → α → Prop} {p : α → Bool} {l : List α} {a b : α} (hl : l.Pairwise R)
    (ha : l.find? p = some a) (hb : b ∈ l) (hpb : p b = true) : b = a ∨ R a b := by
  obtain ⟨-, before, after, rfl, hbefore⟩ := List.find?_eq_some_iff_append.1 ha
  rcases List.mem_append.1 hb with hb | hb
  · exact absurd (hbefore b hb) (by simp [hpb])
  · exact (List.mem_cons.1 hb).imp_right (List.rel_of_pairwise_cons (List.pairwise_append.1 hl).2.1)

/-! ## What the search finds -/

section
variable {m : Memory} {b : BlockUnit} {y e : DWord} (hcw : b.cwW.toNat ≤ 64)
include hcw

theorem findMask_some (h : findMask m b y = some e) :
    (e.toNat < 2 ^ b.cwW.toNat ∧ 1 ≤ weight e ∧ weight e ≤ b.maxerr.toNat) ∧ syndrome m b e = y :=
  ⟨(mem_searchMasks_iff hcw).1 (List.mem_of_find?_eq_some h),
    beq_iff_eq.1 (List.find?_some (p := fun e => syndrome m b e == y) h)⟩

/-- The mask found is the first of all masks of its syndrome, those above the budget included. -/
theorem findMask_first (h : findMask m b y = some e) {f : DWord} (hf : f.toNat < 2 ^ b.cwW.toNat) (hweight : 1 ≤ weight f)
    (hsyn : syndrome m b f = y) : f = e ∨ TriedBefore e f := by
  by_cases hbudget : weight f ≤ b.maxerr.toNat
  · exact find?_first (searchMasks_ordered hcw _) h ((mem_searchMasks_iff hcw).2 ⟨hf, hweight, hbudget⟩)
      (beq_iff_eq.2 hsyn)
  · obtain ⟨⟨-, -, hle⟩, -⟩ := findMask_some hcw h
    exact .inr (.inl (by omega))

theorem findMask_none (h : findMask m b y = none) (he : e.toNat < 2 ^ b.cwW.toNat) (hweight : 1 ≤ weight e)
    (hbudget : weight e ≤ b.maxerr.toNat) : syndrome m b e ≠ y := fun hsyn =>
  List.find?_eq_none.1 h e ((mem_searchMasks_iff hcw).2 ⟨he, hweight, hbudget⟩) (beq_iff_eq.2 hsyn)

end

end Sys2Proof.Machine
end

section
/-! `BC_ENCODE` and `BC_DECODE` (46_block_code.md R280, R283 to R286). -/

open Sys2Proof Sys2Proof.Claims

namespace Sys2Proof.Machine

/-! ## The checks (46_block_code.md R280) -/

theorem blockLegal_iff_blockOk {p : Params} {b : BlockUnit} : blockLegal p b ↔ blockOk p b := by
  simp only [blockLegal, blockOk, List.mem_cons, List.not_mem_nil, or_false, Nat.sub_le_iff_le_add']

theorem decide_blockLegal (s : State) : (!decide (blockLegal s.params s.bc)) = badBlock s :=
  congrArg (!·) (decide_eq_decide.2 blockLegal_iff_blockOk)

theorem badBlock_eq_false {s : State} : badBlock s = false ↔ blockOk s.params s.bc := by
  rw [badBlock, Bool.not_eq_false', decide_eq_true_eq]

theorem blockOk_widths {p : Params} {b : BlockUnit} (h : blockOk p b) :
    b.cwW.toNat ≤ 64 ∧ b.srcW.toNat ≤ 64 ∧ b.synW.toNat ≤ 64 := by
  obtain ⟨hcw, hsrc, hsyn, -⟩ := blockLegal_iff_blockOk.2 h
  omega

theorem exec_bcEncode (s : State) : exec .bcEncode s = runCommand .bcEncode (checksOf s .bcEncode)
    { s with bc := { s.bc with
        out := matVec s.mem s.bc.g s.bc.cwW.toNat s.bc.srcW.toNat (lowBits s.bc.srcW.toNat s.bc.input) } } s := by
  rw [checksOf, ← decide_blockLegal, ← not_inRange]
  rfl

/-- The codeword that `BC_DECODE` takes from `BC_IN` (46_block_code.md R284). -/
def receivedWord (b : BlockUnit) : DWord := lowBits b.cwW.toNat b.input

theorem exec_bcDecode (s : State) : exec .bcDecode s = runCommand .bcDecode (checksOf s .bcDecode)
    { s with bc := decodeBlock s.mem s.bc (receivedWord s.bc) (syndrome s.mem s.bc (receivedWord s.bc)) } s := by
  rw [checksOf, ← decide_blockLegal, ← not_inRange, ← not_inRange, ← Bool.not_and, ← Bool.decide_and]
  rfl

theorem blockOk_of_passes {s : State} {i : Instr} (hi : i = .bcEncode ∨ i = .bcDecode) (h : passes s i = true) :
    blockOk s.params s.bc := by
  rw [passes_iff_firstFailure] at h
  rcases hi with rfl | rfl <;> exact badBlock_eq_false.1 (firstFailure_cons_eq_none.1 h).1

/-! ## `BC_ENCODE` (46_block_code.md R283) -/

/-- Settles O41: the result is `matVec` of G and the low bits of the input. -/
theorem bcEncodeIsGeneratorProduct : Obligations.BcEncodeIsGeneratorProduct := by
  refine ⟨cmdFormat (i := .bcEncode) rfl, fun s => ⟨fun _ => exec_of_errorOf (exec_bcEncode s), fun h => ?_, fun h => ?_⟩⟩
  · have hbad : badBlock s = true := Bool.eq_true_of_not_eq_false fun hok => h (badBlock_eq_false.1 hok)
    exact ⟨(exec_bcEncode s).trans (runCommand_of_head hbad), (exec_bcDecode s).trans (runCommand_of_head hbad)⟩
  · obtain ⟨hcw, hsrc, -⟩ := blockOk_widths (blockOk_of_passes (.inl rfl) h)
    exact ⟨_, exec_of_passes (exec_bcEncode s) h, isProduct_of_lowBits (isProduct_matVec hcw hsrc _)⟩

/-! ## `BC_DECODE` (46_block_code.md R284, R285) -/

section
variable {m : Memory} {b : BlockUnit} {cw y e : DWord}

theorem decodeBlock_of_zero :
    decodeBlock m b cw 0 = { b with syn := 0, out := decodeProduct m b cw, ok := true, mask := 0 } := if_pos rfl

theorem decodeBlock_of_none (hy : y ≠ 0) (h : findMask m b y = none) :
    decodeBlock m b cw y = { b with syn := y, out := 0, ok := false, mask := 0 } := by
  rw [decodeBlock, if_neg hy, h]

/-- The corrected word has syndrome 0, by linearity: the unfixable branch cannot be taken (46_block_code.md R285). -/
theorem decodeBlock_of_found (hy : y ≠ 0) (hcw : syndrome m b cw = y) (he : syndrome m b e = y)
    (h : findMask m b y = some e) :
    decodeBlock m b cw y = { b with syn := y, out := decodeProduct m b (cw ^^^ e), ok := true, mask := e } := by
  have hfixed : syndrome m b (cw ^^^ e) = 0 := by
    rw [syndrome_xor, hcw, he]
    exact BitVec.xor_self
  rw [decodeBlock, if_neg hy, h]
  exact if_pos hfixed

end

/-- Settles O42: the syndrome is 0, or the search finds its first mask, or it finds none. -/
theorem bcDecodeCorrectsByFirstMask : Obligations.BcDecodeCorrectsByFirstMask := by
  refine ⟨cmdFormat (i := .bcDecode) rfl, fun s => ⟨fun _ => exec_of_errorOf (exec_bcDecode s), fun h => ?_⟩⟩
  obtain ⟨hcw, hsrc, hsyn⟩ := blockOk_widths (blockOk_of_passes (.inr rfl) h)
  have hexec := exec_of_passes (exec_bcDecode s) h
  have hvalue : (receivedWord s.bc).toNat = s.bc.input.toNat % 2 ^ s.bc.cwW.toNat := lowBits_toNat ..
  generalize receivedWord s.bc = cw at hexec hvalue
  generalize hy : syndrome s.mem s.bc cw = y at hexec
  have hH : ∀ v z, IsProduct s.mem s.bc.h s.bc.synW.toNat s.bc.cwW.toNat v z ↔ syndrome s.mem s.bc v = z :=
    fun _ _ => isProduct_iff hsyn hcw
  have hD := fun v => isProduct_matVec (m := s.mem) (base := s.bc.d) hsrc hcw v
  simp only [hH]
  by_cases hzero : y = 0
  · subst hzero
    rw [decodeBlock_of_zero] at hexec
    exact ⟨cw, 0, _, _, _, hexec, hvalue, hy, fun _ => ⟨rfl, rfl, hD cw⟩, fun hne => absurd rfl hne,
      fun hne => absurd rfl hne⟩
  · cases hfind : findMask s.mem s.bc y with
    | none =>
      rw [decodeBlock_of_none hzero hfind] at hexec
      exact ⟨cw, y, _, _, _, hexec, hvalue, hy, fun h0 => absurd h0 hzero, fun _ hok => absurd hok Bool.false_ne_true,
        fun _ _ => ⟨rfl, rfl, fun _ => findMask_none hcw hfind⟩⟩
    | some e =>
      obtain ⟨⟨hlt, hpos, hbudget⟩, he⟩ := findMask_some hcw hfind
      rw [decodeBlock_of_found hzero hy he hfind] at hexec
      refine ⟨cw, y, _, _, _, hexec, hvalue, hy, fun h0 => absurd h0 hzero,
        fun _ _ => ⟨hlt, hpos, hbudget, he, fun f hf hweight hf' => ?_, hD (cw ^^^ e)⟩,
        fun _ hok => absurd hok.symm Bool.false_ne_true⟩
      rcases findMask_first hcw hfind hf hweight hf' with rfl | hless | ⟨hsame, hgreater⟩
      · exact .inr ⟨rfl, Nat.le_refl _⟩
      · exact .inl hless
      · exact .inr ⟨hsame, hgreater.le⟩

/-! ## Correction (46_block_code.md R286) -/

section
variable {m : Memory} {b : BlockUnit} {g e : DWord}

/-- A mask within the budget whose syndrome no other such mask has is the one found. -/
theorem findMask_of_unique (hcw : b.cwW.toNat ≤ 64) (he : e.toNat < 2 ^ b.cwW.toNat) (hpos : 1 ≤ weight e)
    (hbudget : weight e ≤ b.maxerr.toNat)
    (honly : ∀ f : DWord, f.toNat < 2 ^ b.cwW.toNat → 1 ≤ weight f → weight f ≤ b.maxerr.toNat →
      syndrome m b f = syndrome m b e → f = e) :
    findMask m b (syndrome m b e) = some e := by
  cases hfind : findMask m b (syndrome m b e) with
  | none => exact absurd rfl (findMask_none hcw hfind he hpos hbudget)
  | some f =>
    obtain ⟨⟨hlt, hfpos, hfbudget⟩, hsyn⟩ := findMask_some hcw hfind
    rw [honly f hlt hfpos hfbudget hsyn]

/-- A codeword with the errors `e` has the syndrome of `e`; where the search finds `e` for it, the errors are undone. -/
theorem decodeBlock_corrupted (hg : syndrome m b g = 0)
    (he : e ≠ 0 → syndrome m b e ≠ 0 ∧ findMask m b (syndrome m b e) = some e) :
    decodeBlock m b (g ^^^ e) (syndrome m b (g ^^^ e)) =
      { b with syn := syndrome m b e, out := decodeProduct m b g, ok := true, mask := e } := by
  have hsyn : syndrome m b (g ^^^ e) = syndrome m b e := by
    rw [syndrome_xor, hg]
    exact BitVec.zero_xor
  have hback : g ^^^ e ^^^ e = g := by rw [BitVec.xor_assoc, BitVec.xor_self, BitVec.xor_zero]
  by_cases h0 : e = 0
  · subst h0
    have hword : g ^^^ 0 = g := BitVec.xor_zero
    rw [hword] at hsyn
    rw [hword, ← hsyn, hg, decodeBlock_of_zero]
  · obtain ⟨hne, hfind⟩ := he h0
    rw [hsyn, decodeBlock_of_found hne hsyn rfl hfind, hback]

end

section
variable {s : State} {v : DWord}

/-- `BC_ENCODE` of a source block: whether its checks pass does not depend on the block. -/
theorem exec_bcEncode_block (h : passes s .bcEncode = true) (hv : v.toNat < 2 ^ s.bc.srcW.toNat) :
    exec .bcEncode { s with bc := { s.bc with input := v } } = .next { s with bc := { s.bc with
      input := v, out := matVec s.mem s.bc.g s.bc.cwW.toNat s.bc.srcW.toNat v } } := by
  have hexec := exec_of_passes (exec_bcEncode { s with bc := { s.bc with input := v } }) h
  rwa [lowBits_of_lt hv] at hexec

/-- `BC_DECODE` of a codeword, whatever `BC_OUT` holds. -/
theorem exec_bcDecode_word (h : passes s .bcDecode = true) (hv : v.toNat < 2 ^ s.bc.cwW.toNat) (out : DWord) :
    exec .bcDecode { s with bc := { s.bc with input := v, out := out } } = .next { s with
      bc := decodeBlock s.mem { s.bc with input := v, out := out } v
        (syndrome s.mem { s.bc with input := v, out := out } v) } := by
  have hexec := exec_of_passes (exec_bcDecode { s with bc := { s.bc with input := v, out := out } }) h
  rwa [receivedWord, lowBits_of_lt hv] at hexec

end

/-- Settles O43: the codeword has syndrome 0, so that of the received word is the mask's, which the search finds. -/
theorem blockCodeCorrectsUpToMaxErrors : Obligations.BlockCodeCorrectsUpToMaxErrors := by
  intro s t u src e hencode hdecode hcode hdistinct hsrc he hbudget ht hu
  obtain ⟨hcwW, hsrcW, hsynW⟩ := blockOk_widths (blockOk_of_passes (.inl rfl) hencode)
  have hproduct := isProduct_matVec (m := s.mem) (base := s.bc.g) hcwW hsrcW src
  cases (exec_bcEncode_block hencode hsrc).symm.trans ht
  generalize matVec s.mem s.bc.g s.bc.cwW.toNat s.bc.srcW.toNat src = g at hproduct hu
  obtain ⟨hHg, hDg⟩ := hcode src g hsrc hproduct
  simp only [isProduct_iff hsynW hcwW] at hHg hdistinct
  have hword : (g ^^^ e).toNat < 2 ^ s.bc.cwW.toNat := BitVec.toNat_xor g e ▸ Nat.xor_lt_two_pow hproduct.1 he
  have hfind : e ≠ 0 → syndrome s.mem s.bc e ≠ 0 ∧ findMask s.mem s.bc (syndrome s.mem s.bc e) = some e := by
    intro h0
    have hpos : 1 ≤ weight e := Nat.one_le_iff_ne_zero.2 fun hw => h0 (weight_eq_zero_iff.1 hw)
    exact ⟨(hdistinct e e _ he he hpos hbudget hpos hbudget rfl rfl).1, findMask_of_unique hcwW he hpos hbudget
      fun f hf hfpos hfbudget hsyn => (hdistinct f e _ hf he hfpos hfbudget hpos hbudget hsyn rfl).2⟩
  have hdecoded := exec_bcDecode_word hdecode hword g
  rw [decodeBlock_corrupted (b := { s.bc with input := g ^^^ e, out := g }) hHg hfind] at hdecoded
  cases hdecoded.symm.trans hu
  exact ⟨isProduct_unique (isProduct_matVec hsrcW hcwW g) hDg, rfl, rfl⟩

end Sys2Proof.Machine
end

section
/-! The CRC engine: the values of T bits, and `CRC_PRESET`, `CRC_INIT` and `CRC_FINAL` (47_crc.md R301, R302, R304 to
R306). -/

open Sys2Proof Sys2Proof.Claims

namespace Sys2Proof.Machine

/-! ## Values of T bits (47_crc.md R306) -/

theorem crcWidth_le (c : CrcUnit) : 8 ≤ crcWidth c ∧ crcWidth c ≤ 32 := by
  unfold crcWidth
  split <;> decide

theorem crcMask_lt (c : CrcUnit) (v : Word) : (crcMask c v).toNat < 2 ^ crcWidth c :=
  crcMask_toNat c v ▸ Nat.mod_lt _ (Nat.two_pow_pos _)

theorem crcMask_of_lt {c : CrcUnit} {v : Word} (h : v.toNat < 2 ^ crcWidth c) : crcMask c v = v :=
  BitVec.eq_of_toNat_eq ((crcMask_toNat c v).trans (Nat.mod_eq_of_lt h))

theorem crcMask_getLsbD (c : CrcUnit) (v : Word) (i : Nat) :
    (crcMask c v).getLsbD i = (decide (i < crcWidth c) && v.getLsbD i) := by
  rw [← BitVec.testBit_toNat, crcMask_toNat, Nat.testBit_mod_two_pow, BitVec.testBit_toNat]

/-! ## `CRC_INIT` and `CRC_FINAL` (47_crc.md R302, R304) -/

theorem exec_crcInit (s : State) :
    exec .crcInit s = .next { s with crc := { s.crc with acc := crcMask s.crc s.crc.init } } := runCommand_nil .crcInit _ s

theorem exec_crcFinal (s : State) :
    exec .crcFinal s = .next { s with crc := { s.crc with result := crcFinish s.crc (crcMask s.crc s.crc.acc) } } :=
  runCommand_nil .crcFinal _ s

theorem crcFinish_lt (c : CrcUnit) (acc : Word) : (crcFinish c (crcMask c acc)).toNat < 2 ^ crcWidth c := by
  rw [crcFinish, BitVec.toNat_xor]
  refine Nat.xor_lt_two_pow ?_ (crcMask_lt c c.xorout)
  split
  · exact revBits_toNat_lt ..
  · exact crcMask_lt c acc

theorem crcFinish_getLsbD (c : CrcUnit) (acc : Word) {i : Nat} (hi : i < crcWidth c) :
    (crcFinish c (crcMask c acc)).getLsbD i =
      ((if c.refout then acc.getLsbD (crcWidth c - 1 - i) else acc.getLsbD i) ^^ c.xorout.getLsbD i) := by
  have hrev : crcWidth c - 1 - i < crcWidth c := by omega
  rw [crcFinish, BitVec.getLsbD_xor, crcMask_getLsbD c c.xorout, decide_eq_true hi, Bool.true_and]
  congr 1
  split
  · rw [revBits_getLsbD_of_lt (crcWidth_le c).2 _ hi, crcMask_getLsbD, decide_eq_true hrev, Bool.true_and]
  · rw [crcMask_getLsbD, decide_eq_true hi, Bool.true_and]

/-- Settles O45: both commands have no check, and a masked value has the low T bits of the register. -/
theorem crcInitAndFinal : Obligations.CrcInitAndFinal :=
  ⟨cmdFormat (i := .crcInit) rfl, cmdFormat (i := .crcFinal) rfl, fun s =>
    ⟨⟨_, exec_crcInit s, crcMask_toNat s.crc s.crc.init⟩,
      ⟨_, exec_crcFinal s, crcFinish_lt s.crc s.crc.acc, fun _ => crcFinish_getLsbD s.crc s.crc.acc⟩⟩⟩

/-! ## `CRC_PRESET` (47_crc.md R301, R305) -/

theorem exec_crcPreset (k : BitVec 24) (s : State) : exec (.crcPreset k) s =
    runCommand (.crcPreset k) (checksOf s (.crcPreset k)) { s with crc := loadPreset s.crc k.toNat } s := rfl

/-- Settles O44: the argument is the one check, and each row up to 5 is that of the table. -/
theorem crcPresetLoadsItsRow : Obligations.CrcPresetLoadsItsRow := by
  refine fun s k => ⟨fun h => (exec_crcPreset k s).trans (runCommand_of_head (decide_eq_true h)), fun h => ?_⟩
  have hcheck : firstFailure (checksOf s (.crcPreset k)) = none := if_neg (by simpa using h)
  refine ⟨_, (exec_crcPreset k s).trans (runCommand_of_none hcheck), ?_⟩
  generalize k.toNat = n at h
  interval_cases n <;> exact ⟨rfl, rfl, rfl, rfl, rfl, rfl, rfl⟩

end Sys2Proof.Machine
end

section
/-! `CRC_UPDATE` computes as the bit-serial step does on numbers (47_crc.md R300, R303). -/

open Sys2Proof Sys2Proof.Claims

namespace Sys2Proof.Machine

/-! ## One bit position (47_crc.md R300) -/

/-- The top bit of a T-bit value is its overflow when doubled. -/
theorem crcTopBit_eq {c : CrcUnit} {acc : Word} (h : acc.toNat < 2 ^ crcWidth c) :
    acc.getLsbD (crcWidth c - 1) = decide (2 ^ crcWidth c ≤ 2 * acc.toNat) := by
  have hpos : 0 < crcWidth c := Nat.lt_of_lt_of_le (by decide) (crcWidth_le c).1
  have hpow : 2 ^ crcWidth c = 2 ^ (crcWidth c - 1) * 2 := (Nat.two_pow_pred_mul_two hpos).symm
  rw [← BitVec.testBit_toNat]
  by_cases hover : 2 ^ crcWidth c ≤ 2 * acc.toNat
  · rw [decide_eq_true hover, Nat.testBit_eq_decide_div_mod_eq, Nat.div_eq_of_lt_le (k := 1) (by omega) (by omega)]
    rfl
  · rw [decide_eq_false hover]
    exact Nat.testBit_lt_two_pow (by omega)

theorem crcMask_double_toNat (c : CrcUnit) (acc : Word) :
    (crcMask c (acc <<< 1)).toNat = 2 * acc.toNat % 2 ^ crcWidth c := by
  rw [crcMask_toNat, BitVec.toNat_shiftLeft, Nat.mod_mod_of_dvd _ (Nat.pow_dvd_pow 2 (crcWidth_le c).2), Nat.shiftLeft_eq,
    Nat.pow_one, Nat.mul_comm]

/-- What is shifted stays below 2^T, whatever it was. -/
theorem crcShift_lt (c : CrcUnit) (acc : Word) : (crcShift c acc).toNat < 2 ^ crcWidth c := by
  rw [crcShift, BitVec.toNat_xor]
  refine Nat.xor_lt_two_pow (crcMask_lt c _) ?_
  split
  · exact crcMask_lt c c.poly
  · exact Nat.two_pow_pos _

theorem crcShift_toNat {c : CrcUnit} {acc : Word} (h : acc.toNat < 2 ^ crcWidth c) :
    (crcShift c acc).toNat = crcDouble (crcWidth c) (crcMask c c.poly).toNat acc.toNat := by
  rw [crcShift, crcDouble, BitVec.toNat_xor, crcMask_double_toNat, crcTopBit_eq h]
  by_cases hover : 2 ^ crcWidth c ≤ 2 * acc.toNat
  · rw [if_pos hover, if_pos (decide_eq_true hover), Nat.mod_eq_sub_mod hover, Nat.mod_eq_of_lt (by omega)]
  · rw [if_neg hover, if_neg (by simpa using hover), Nat.mod_eq_of_lt (Nat.lt_of_not_le hover)]
    exact Nat.xor_zero _

theorem crcShift_iterate_toNat {c : CrcUnit} (n : Nat) {acc : Word} (h : acc.toNat < 2 ^ crcWidth c) :
    ((crcShift c)^[n] acc).toNat = (crcDouble (crcWidth c) (crcMask c c.poly).toNat)^[n] acc.toNat := by
  induction n generalizing acc with
  | zero => rfl
  | succ n ih => rw [Function.iterate_succ_apply, Function.iterate_succ_apply, ih (crcShift_lt c acc), crcShift_toNat h]

/-! ## One byte (47_crc.md R300) -/

/-- Packed bits as a number: the sum of their weights. -/
theorem packBits_toNat {w n : Nat} (hn : n ≤ w) (f : Nat → Bool) :
    (packBits w n f).toNat = ((List.range n).map (fun i => (f i).toNat * 2 ^ i)).sum := by
  induction n with
  | zero => exact BitVec.toNat_zero
  | succ n ih =>
    have hbit : (if f n then 1#w <<< n else 0#w).toNat = 2 ^ n * (f n).toNat := by
      cases f n with
      | false => exact BitVec.toNat_zero
      | true => exact (BitVec.toNat_twoPow_of_lt hn).trans (Nat.mul_one _).symm
    rw [packBits, BitVec.toNat_or, hbit, Nat.or_comm, ← Nat.two_pow_add_eq_or_of_lt (packBits_toNat_lt w n f),
      ih (by omega), List.sum_range_succ, Nat.add_comm, Nat.mul_comm]

theorem revBits_toNat (b : Byte) : (revBits 8 b).toNat = reversedByte b := packBits_toNat (Nat.le_refl 8) _

/-- The byte an input byte enters the accumulator as: reflected when `REFIN`. -/
def crcInputByte (c : CrcUnit) (b : Byte) : Byte := if c.refin then revBits 8 b else b

theorem crcInputByte_toNat (c : CrcUnit) (b : Byte) :
    (crcInputByte c b).toNat = if c.refin then reversedByte b else b.toNat := by
  rw [crcInputByte, ← revBits_toNat]
  exact apply_ite BitVec.toNat ..

theorem crcByte_eq_iterate (c : CrcUnit) (acc : Word) (b : Byte) :
    crcByte c acc b = (crcShift c)^[8] (acc ^^^ (crcInputByte c b).setWidth 32 <<< (crcWidth c - 8)) := rfl

/-- A byte moved into the top byte of a T-bit value. -/
theorem crcTopByte_toNat (c : CrcUnit) (x : Byte) :
    x.toNat * 2 ^ (crcWidth c - 8) < 2 ^ crcWidth c ∧
      (x.setWidth 32 <<< (crcWidth c - 8)).toNat = x.toNat * 2 ^ (crcWidth c - 8) := by
  obtain ⟨hmin, hmax⟩ := crcWidth_le c
  have hlt : x.toNat * 2 ^ (crcWidth c - 8) < 2 ^ crcWidth c :=
    calc x.toNat * 2 ^ (crcWidth c - 8)
      _ < 2 ^ 8 * 2 ^ (crcWidth c - 8) := Nat.mul_lt_mul_of_pos_right x.isLt (Nat.two_pow_pos _)
      _ = 2 ^ crcWidth c := by rw [← Nat.pow_add, Nat.add_sub_cancel' hmin]
  refine ⟨hlt, ?_⟩
  rw [BitVec.toNat_shiftLeft, BitVec.toNat_setWidth_of_le (by decide), Nat.shiftLeft_eq]
  exact Nat.mod_eq_of_lt (Nat.lt_of_lt_of_le hlt (Nat.pow_le_pow_right (by decide) hmax))

theorem crcByte_lt (c : CrcUnit) (acc : Word) (b : Byte) : (crcByte c acc b).toNat < 2 ^ crcWidth c := crcShift_lt c _

theorem crcByte_toNat {c : CrcUnit} {acc : Word} (h : acc.toNat < 2 ^ crcWidth c) (b : Byte) :
    (crcByte c acc b).toNat = crcNext (crcWidth c) (crcMask c c.poly).toNat c.refin acc.toNat b := by
  obtain ⟨hlt, hbyte⟩ := crcTopByte_toNat c (crcInputByte c b)
  have hxor : (acc ^^^ (crcInputByte c b).setWidth 32 <<< (crcWidth c - 8)).toNat =
      acc.toNat ^^^ (crcInputByte c b).toNat * 2 ^ (crcWidth c - 8) := by rw [BitVec.toNat_xor, hbyte]
  rw [crcByte_eq_iterate, crcShift_iterate_toNat 8 (hxor ▸ Nat.xor_lt_two_pow h hlt), hxor, crcInputByte_toNat, crcNext]

/-! ## The input bytes (47_crc.md R303) -/

theorem crcBytes_lt {c : CrcUnit} (m : Memory) (n a : Nat) {acc : Word} (h : acc.toNat < 2 ^ crcWidth c) :
    (crcBytes c m n a acc).toNat < 2 ^ crcWidth c := by
  induction n generalizing a acc with
  | zero => exact h
  | succ n ih => exact ih (a + 1) (crcByte_lt c acc _)

/-- The bytes are taken in address order. -/
theorem crcBytes_toNat {c : CrcUnit} (m : Memory) (n a : Nat) {acc : Word} (h : acc.toNat < 2 ^ crcWidth c) :
    (crcBytes c m n a acc).toNat = ((List.range n).map (fun i => Memory.read m (a + i))).foldl
      (crcNext (crcWidth c) (crcMask c c.poly).toNat c.refin) acc.toNat := by
  induction n generalizing a acc with
  | zero => rfl
  | succ n ih =>
    have hnext : (fun i => Memory.read m (a + 1 + i)) = (fun i => Memory.read m (a + i)) ∘ Nat.succ :=
      funext fun i => congrArg (Memory.read m) (Nat.succ_add_eq_add_succ a i)
    rw [crcBytes, ih (a + 1) (crcByte_lt c acc _), crcByte_toNat h, hnext, List.range_succ_eq_map,
      List.map_cons, List.map_map]
    rfl

/-! ## `CRC_UPDATE` (47_crc.md R303) -/

/-- The state `CRC_UPDATE` leaves (47_crc.md R303). -/
def crcUpdatedState (s : State) : State :=
  { s with crc := { s.crc with
      acc := crcBytes s.crc s.mem s.ctl.srcLen.toNat s.ctl.srcAddr.toNat (crcMask s.crc s.crc.acc) } }

theorem exec_crcUpdate (s : State) :
    exec .crcUpdate s = runCommand .crcUpdate (checksOf s .crcUpdate) (crcUpdatedState s) s := by
  rw [checksOf, ← not_inRange]
  rfl

theorem passes_crcUpdate_iff {s : State} :
    passes s .crcUpdate = true ↔ s.ctl.srcAddr.toNat + s.ctl.srcLen.toNat ≤ 2 ^ s.params.addrW := by
  simp [passes_iff_firstFailure, checksOf, beyond]

/-- Settles O46: the masked accumulator and every later one are below 2^T, where the engine computes as on numbers. -/
theorem crcUpdateFoldsBytes : Obligations.CrcUpdateFoldsBytes := by
  refine ⟨cmdFormat (i := .crcUpdate) rfl, fun s => ⟨fun h => ?_, fun h => ?_⟩⟩
  · exact (exec_crcUpdate s).trans (runCommand_of_head (decide_eq_true h))
  · refine ⟨_, exec_of_passes (exec_crcUpdate s) (passes_crcUpdate_iff.2 h), ?_⟩
    rw [crcBytes_toNat _ _ _ (crcMask_lt s.crc s.crc.acc), crcMask_toNat, crcMask_toNat]
    rfl

end Sys2Proof.Machine
end

section
/-! Two `CRC_UPDATE` commands on the parts of an input (47_crc.md R303). -/

open Sys2Proof Sys2Proof.Claims

namespace Sys2Proof.Machine

theorem crcBytes_add (c : CrcUnit) (m : Memory) (n k a : Nat) (acc : Word) :
    crcBytes c m (n + k) a acc = crcBytes c m k (a + n) (crcBytes c m n a acc) := by
  induction n generalizing a acc with
  | zero => rw [Nat.zero_add]; rfl
  | succ n ih => rw [Nat.add_right_comm, crcBytes, ih, crcBytes, Nat.add_assoc, Nat.add_comm 1 n]

/-- The engine reads its configuration only; `CRC_ACC` is what it is given. -/
theorem crcBytes_withAcc (c : CrcUnit) (v : Word) (m : Memory) (n a : Nat) (acc : Word) :
    crcBytes { c with acc := v } m n a acc = crcBytes c m n a acc := by
  induction n generalizing a acc with
  | zero => rfl
  | succ n ih => exact ih (a + 1) _

/-- A second command takes up the accumulator the first one left: it is below 2^T, and masking it changes nothing. -/
theorem crcBytes_continue {c : CrcUnit} {m : Memory} {n a : Nat} {acc v : Word} (h : acc.toNat < 2 ^ crcWidth c)
    (hv : crcBytes c m n a acc = v) (k : Nat) :
    crcBytes { c with acc := v } m k (a + n) (crcMask { c with acc := v } v) = crcBytes c m (n + k) a acc := by
  have hmask : crcMask { c with acc := v } v = v := crcMask_of_lt (hv ▸ crcBytes_lt m n a h)
  rw [hmask, crcBytes_withAcc, crcBytes_add, hv]

/-- The one check holds on every part of an input it holds on. -/
theorem exec_crcUpdate_inside {s w : State} (h : passes s .crcUpdate = true) (hparams : w.params = s.params)
    (hinside : w.ctl.srcAddr.toNat + w.ctl.srcLen.toNat ≤ s.ctl.srcAddr.toNat + s.ctl.srcLen.toNat) :
    exec .crcUpdate w = .next (crcUpdatedState w) :=
  exec_of_passes (exec_crcUpdate w) (passes_crcUpdate_iff.2 (hparams ▸ hinside.trans (passes_crcUpdate_iff.1 h)))

/-- The state the first command leaves, its input the first `n` bytes. -/
def crcFirstPart (s : State) (n : Word) : State := crcUpdatedState (withControl (withSource s.ctl s.ctl.srcAddr n) s)

/-- That state with the operands of the second command. -/
def betweenCrcUpdates (s : State) (n : Word) : State :=
  withControl (withSource s.ctl (s.ctl.srcAddr + n) (s.ctl.srcLen - n)) (crcFirstPart s n)

theorem crcUpdatedState_betweenCrcUpdates {s : State} {n : Word} (hn : n.toNat ≤ s.ctl.srcLen.toNat)
    (haddr : s.ctl.srcAddr.toNat + n.toNat < 2 ^ 32) :
    withControl s.ctl (crcUpdatedState (betweenCrcUpdates s n)) = crcUpdatedState s := by
  have hwhole : n.toNat + (s.ctl.srcLen - n).toNat = s.ctl.srcLen.toNat := by
    rw [BitVec.toNat_sub_of_le hn, Nat.add_sub_cancel' hn]
  have hnext : (s.ctl.srcAddr + n).toNat = s.ctl.srcAddr.toNat + n.toNat := BitVec.toNat_add_of_lt haddr
  have hparts := crcBytes_continue (m := s.mem) (n := n.toNat) (a := s.ctl.srcAddr.toNat) (crcMask_lt s.crc s.crc.acc) rfl
    (s.ctl.srcLen - n).toNat
  rw [← hnext, hwhole] at hparts
  exact congrArg (fun v => { s with crc := { s.crc with acc := v } }) hparts

/-- Settles O47: the accumulator of the first part is below 2^T, so the second command takes it on as it is. -/
theorem crcUpdateSplits : Obligations.CrcUpdateSplits := by
  intro s n hpass hn haddr
  have hword : (BitVec.ofNat 32 n).toNat = n := Nat.mod_eq_of_lt (by omega)
  rw [← hword] at hn haddr
  have hrest := BitVec.toNat_sub_of_le hn
  have hnext := BitVec.toNat_add_of_lt haddr
  exact ⟨_, crcFirstPart s (BitVec.ofNat 32 n), _, exec_crcUpdate_inside hpass rfl (Nat.le_refl _),
    exec_crcUpdate_inside hpass rfl (Nat.add_le_add_left hn _),
    exec_crcUpdate_inside (w := betweenCrcUpdates s (BitVec.ofNat 32 n)) hpass rfl
      (by change (s.ctl.srcAddr + _).toNat + (s.ctl.srcLen - _).toNat ≤ _; omega),
    (crcUpdatedState_betweenCrcUpdates hn haddr).symm⟩

end Sys2Proof.Machine
end

section
/-! The checks and the errors of all 32 commands: each command is `runCommand` over the checks that the statements spell, and
its effect leaves the control unit alone (60_exceptions.md R320 to R324). -/

open Sys2Proof Sys2Proof.Claims

namespace Sys2Proof.Machine

/-! ## The commands whose checks are not yet spelled -/

theorem exec_ceCalcsize (k : BitVec 24) (s : State) : exec (.ceCalcsize k) s =
    runCommand (.ceCalcsize k) (checksOf s (.ceCalcsize k))
      { s with ce := { s.ce with size := BitVec.ofNat 32 (encSize s.ce.cfg k.toNat) } } s := by
  rw [checksOf, ← decide_encLegal]
  rfl

theorem exec_vdCalcsize (k : BitVec 24) (s : State) : exec (.vdCalcsize k) s =
    runCommand (.vdCalcsize k) (checksOf s (.vdCalcsize k))
      { s with vd := { s.vd with size := BitVec.ofNat 32 (decSize s.vd.cfg k.toNat) } } s := by
  rw [checksOf, ← decide_decRateLegal]
  rfl

theorem exec_mgInit (s : State) :
    exec .mgInit s = runCommand .mgInit (checksOf s .mgInit) { s with mg := initMask s.mg } s :=
  runCommand_congr (by simp [checksOf, ite_or])

theorem exec_mgNext (s : State) :
    exec .mgNext s = runCommand .mgNext (checksOf s .mgNext) { s with mg := nextMask s.mg } s := rfl

/-! ## Every command -/

/-- The one shape of all commands: the checks of the table in its order, else an effect outside the control unit
(60_exceptions.md R320, R324). -/
theorem exec_eq_runCommand (i : Instr) (s : State) :
    ∃ e, exec i s = runCommand i (checksOf s i) e s ∧ e.ctl = s.ctl := by
  cases i with
  | nop => exact ⟨_, exec_nop s, rfl⟩
  | softReset => exact ⟨_, exec_softReset s, rfl⟩
  | ceReset => exact ⟨_, exec_ceReset s, rfl⟩
  | ceEncode => exact ⟨_, exec_ceEncode s, (encBytes_moves _ _ s).ctl⟩
  | ceFlush => exact ⟨_, exec_ceFlush s, (encTail_moves _ s).ctl⟩
  | ceCalcsize k => exact ⟨_, exec_ceCalcsize k s, rfl⟩
  | vdReset => exact ⟨_, exec_vdReset s, rfl⟩
  | vdDecode => exact ⟨_, exec_vdDecode s, (decBytes_moves _ _ s).ctl⟩
  | vdFlush => exact ⟨_, exec_vdFlush s, (emitAll_moves _ s).ctl⟩
  | vdCalcsize k => exact ⟨_, exec_vdCalcsize k s, rfl⟩
  | mxZero => exact ⟨_, exec_mxZero s, rfl⟩
  | mxCopy => exact ⟨_, exec_mxCopy s, rfl⟩
  | mxSetbit => exact ⟨_, exec_mxSetbit s, rfl⟩
  | mxGetbit => exact ⟨_, exec_mxGetbit s, rfl⟩
  | mxEqual => exact ⟨_, exec_mxEqual s, rfl⟩
  | mxIszero => exact ⟨_, exec_mxIszero s, rfl⟩
  | mxMulvec => exact ⟨_, exec_mxMulvec s, rfl⟩
  | mxMulmat => exact ⟨_, exec_mxMulmat s, rfl⟩
  | mxTranspose => exact ⟨_, exec_mxTranspose s, rfl⟩
  | bcEncode => exact ⟨_, exec_bcEncode s, rfl⟩
  | bcDecode => exact ⟨_, exec_bcDecode s, rfl⟩
  | crcPreset k => exact ⟨_, exec_crcPreset k s, rfl⟩
  | crcInit => exact ⟨_, exec_crcInit s, rfl⟩
  | crcUpdate => exact ⟨_, exec_crcUpdate s, rfl⟩
  | crcFinal => exact ⟨_, exec_crcFinal s, rfl⟩
  | buParity => exact ⟨_, exec_buParity s, rfl⟩
  | buPopcount => exact ⟨_, exec_buPopcount s, rfl⟩
  | buHamdist => exact ⟨_, exec_buHamdist s, rfl⟩
  | buRev8 => exact ⟨_, exec_buRev8 s, rfl⟩
  | buRev32 => exact ⟨_, exec_buRev32 s, rfl⟩
  | mgInit => exact ⟨_, exec_mgInit s, rfl⟩
  | mgNext => exact ⟨_, exec_mgNext s, rfl⟩

/-- No check has the code `NONE` (60_exceptions.md R323). -/
theorem checksOf_code (s : State) (i : Instr) : ∀ c ∈ checksOf s i, c.2 ≠ .none := by
  cases i <;> simp [checksOf, sessionChecks]

theorem errorOf_ne_none {s : State} {i : Instr} {c : ErrCode} (h : errorOf s i = some c) : c ≠ .none :=
  checksOf_code s i _ (firstFailure_mem ((errorOf_eq_firstFailure s i).symm.trans h))

theorem passes_of_errorOf {s : State} {i : Instr} (h : errorOf s i = none) : passes s i = true := by
  rw [passes, h]
  rfl

/-- Settles O5: a command runs the checks of the table, and a word that is no command is rejected by the decoder. -/
theorem checksReportFirstFailure : Obligations.ChecksReportFirstFailure := by
  refine ⟨fun i s c hc => ?_, fun w s hw => ?_⟩
  · obtain ⟨e, hexec, -⟩ := exec_eq_runCommand i s
    exact exec_of_errorOf hexec hc
  · cases hd : decode w with
    | error r => exact execute_error hd s
    | ok i => exact absurd hd (hw i)

/-- Settles O6: the first check that fails is recorded; with none, the effect leaves the control unit. -/
theorem commandIsAllOrNothing : Obligations.CommandIsAllOrNothing := by
  intro i s
  obtain ⟨e, hexec, hctl⟩ := exec_eq_runCommand i s
  cases hc : errorOf s i with
  | none =>
    have hpass := passes_of_errorOf hc
    exact ⟨e, exec_of_passes hexec hpass, .inl ⟨hpass, hctl⟩⟩
  | some c => exact ⟨_, exec_of_errorOf hexec hc, .inr ⟨c, errorOf_ne_none hc, rfl, rfl⟩⟩

/-! ## The error record (60_exceptions.md R322) -/

/-- Settles O7: the two branches of recording an error, and the write of bit 2 of `STATUS`. -/
theorem firstErrorIsKeptUntilCleared : Obligations.FirstErrorIsKeptUntilCleared := by
  refine fun s e op v => ⟨fun h => recordError_of_noErr h e op, fun h => recordError_of_err h e op, fun hv => ?_⟩
  rw [regWrite_reg regAt_status, hostWriteReg_taken rfl]
  simp [writeReg, writeStatus, hv]

/-! ## Words of the opcode map (30_encoding.md R133) -/

/-- Settles O2: each word is the encoding of its command, whose argument is legal. -/
theorem opcodeMapWordsDecode : Obligations.OpcodeMapWordsDecode := by
  simp only [Obligations.OpcodeMapWordsDecode, decode_eq_ok_iff]
  decide

end Sys2Proof.Machine
end

section
/-! The completion of a pending command, and what clears `DONE` (60_exceptions.md R326; 10_state.md R38, R39, R94;
70_reset_and_hazards.md R350). -/

open Sys2Proof Sys2Proof.Claims

namespace Sys2Proof.Machine

/-! ## Every pending command completes -/

/-- A word executes to a next state, a command or not, and the model's own fields stay. -/
theorem execute_next (w : Word) (s : State) : ∃ t, execute w s = .next t ∧ t.host = s.host := by
  cases hw : decode w with
  | error r => exact ⟨_, execute_error hw s, recordError_host ..⟩
  | ok i =>
    obtain ⟨t, ht, -⟩ := commandIsAllOrNothing i s
    obtain ⟨-, hhost, -⟩ := commandsChangeOnlyTheirUnit i s t ht
    exact ⟨t, (execute_ok hw s).trans ht, hhost⟩

theorem coreStep_completes {s : State} {w : Word} (h : s.ctl.pending = some w) :
    ∃ t, coreStep s = .next (completeCommand t) ∧ t.host = s.host := by
  obtain ⟨t, ht, hhost⟩ := execute_next w s
  refine ⟨t, ?_, hhost⟩
  rw [coreStep_pending h, ht]
  rfl

/-- The step of a pending command on the core's turn, listed or not (log 4). -/
theorem step_completes {s : State} {w : Word} (h : s.ctl.pending = some w)
    (hturn : s.host.turns = [] ∨ ∃ l, s.host.turns = .core :: l) :
    ∃ t, step s = .next (completeCommand t) ∧ t.host.turns = s.host.turns.tail := by
  rcases hturn with hl | ⟨l, hl⟩
  · obtain ⟨t, ht, hhost⟩ := coreStep_completes h
    exact ⟨t, (step_core hl).trans ht, by rw [hhost, hl]; rfl⟩
  · obtain ⟨t, ht, hhost⟩ := coreStep_completes (s := setTurns s l) h
    exact ⟨t, (step_core_turn hl).trans ht, by rw [hhost, hl]; rfl⟩

/-! ## What clears `DONE` -/

theorem coreStep_done {s t : State} (hdone : s.ctl.done = true) (h : coreStep s = .next t) : t.ctl.done = true := by
  cases hp : s.ctl.pending with
  | none =>
    rw [coreStep_idle hp] at h
    cases h
    exact hdone
  | some w =>
    obtain ⟨u, hu, -⟩ := coreStep_completes hp
    rw [hu] at h
    cases h
    rfl

theorem hostReadReg_ctl (s : State) (r : Option Reg) : (hostReadReg s r).ctl = s.ctl := by
  cases r with
  | none => rfl
  | some r =>
    rw [hostReadReg]
    split
    · rfl
    · rfl

/-- Of all registers only a write of `STATUS` or of `CMD` can clear `DONE`. -/
theorem writeReg_clears_done {s : State} {r : Reg} {v : Word} (hdone : s.ctl.done = true)
    (h : (writeReg s r v).ctl.done = false) : (r = .status ∧ v.getLsbD 1 = true) ∨ r = .cmd := by
  cases r with
  | cmd => exact .inr rfl
  | status => exact .inl ⟨rfl, by simpa [writeReg, writeStatus, hdone] using h⟩
  | _ => exact absurd (hdone.symm.trans h) nofun

theorem hostWriteReg_clears_done {s : State} {r : Option Reg} {v : Word} (hdone : s.ctl.done = true)
    (h : (hostWriteReg s r v).ctl.done = false) : (r = some .status ∧ v.getLsbD 1 = true) ∨
      (r = some .cmd ∧ busy s = false ∧ (hostWriteReg s r v).ctl.pending = some v) := by
  cases r with
  | none => exact absurd (hdone.symm.trans h) nofun
  | some r =>
    cases hdrop : busy s && !writableBusy r with
    | true =>
      rw [hostWriteReg, if_pos hdrop] at h
      exact absurd (hdone.symm.trans h) nofun
    | false =>
      have htaken : hostWriteReg s (some r) v = writeReg s r v := if_neg (by rw [hdrop]; nofun)
      rw [htaken] at h ⊢
      rcases writeReg_clears_done hdone h with ⟨rfl, hv⟩ | rfl
      · exact .inl ⟨rfl, hv⟩
      · exact .inr ⟨rfl, by simpa [writableBusy] using hdrop, rfl⟩

/-- The register map lists `STATUS` and `CMD` at one offset each (10_state.md R33). -/
theorem offset_status_cmd : ∀ e ∈ registerMap, (e.2 = .status → e.1 = 0x014) ∧ (e.2 = .cmd → e.1 = 0x010) := by
  simp only [registerMap, List.forall_mem_append]
  decide

theorem registerOffset_eq_some {p : Params} {x bytes off : Nat} (h : registerOffset p x bytes = some off) :
    x = p.regBase + off ∧ bytes = 4 := by
  unfold registerOffset windowOffset at h
  split_ifs at h with hin
  dsimp only at h
  split_ifs at h with hformat
  cases h
  exact ⟨by omega, hformat.1⟩

/-- The accesses of the host that clear `DONE`: a 1 written to its bit of `STATUS`, an accepted command, reset. -/
theorem hostAccess_clears_done {a : HostAccess} {s t : State} (hdone : s.ctl.done = true) (h : hostAccess a s = .next t)
    (ht : t.ctl.done = false) : (∃ v, a = .regWrite (regAddr s 0x014) 4 v ∧ v.getLsbD 1 = true) ∨
      (∃ v, a = .regWrite (regAddr s 0x010) 4 v ∧ busy s = false ∧ t.ctl.pending = some v) ∨ a = .powerReset := by
  cases a with
  | regRead x bytes =>
    rw [hostAccess] at h
    split at h
    · cases h
    · cases h
      rw [hostReadReg_ctl] at ht
      exact absurd (hdone.symm.trans ht) nofun
  | regWrite x bytes v =>
    rw [hostAccess] at h
    split at h
    · cases h
    · next off hoff =>
      cases h
      obtain ⟨rfl, rfl⟩ := registerOffset_eq_some hoff
      rcases hostWriteReg_clears_done hdone ht with ⟨hr, hv⟩ | ⟨hr, hidle, hpending⟩
      · obtain rfl := (offset_status_cmd _ (regAt_eq_some_iff.1 hr)).1 rfl
        exact .inl ⟨v, rfl, hv⟩
      · obtain rfl := (offset_status_cmd _ (regAt_eq_some_iff.1 hr)).2 rfl
        exact .inr (.inl ⟨v, rfl, hidle, hpending⟩)
  | memRead x =>
    rw [hostAccess] at h
    split_ifs at h
    cases h
    exact absurd (hdone.symm.trans ht) nofun
  | memWrite x v =>
    rw [hostAccess] at h
    split_ifs at h
    cases h
    exact absurd (hdone.symm.trans ht) nofun
  | powerReset => exact .inr (.inr rfl)

/-- Settles O8: execution always answers a next state, which is completed, and a core turn never clears `DONE`. -/
theorem everyCommandCompletes : Obligations.EveryCommandCompletes := by
  refine ⟨fun s w hw hturn => ?_, fun s t hdone h ht => ?_⟩
  · obtain ⟨t, hstep, hturns⟩ := step_completes hw hturn
    exact ⟨_, hstep, rfl, rfl, rfl, hturns⟩
  · match hl : s.host.turns with
    | [] => exact absurd ((coreStep_done hdone (step_core hl ▸ h)).symm.trans ht) nofun
    | .core :: l =>
      exact absurd ((coreStep_done (s := setTurns s l) hdone (step_core_turn hl ▸ h)).symm.trans ht) nofun
    | .host a :: l =>
      rcases hostAccess_clears_done (s := setTurns s l) hdone (step_host_turn hl ▸ h) ht with
        ⟨v, rfl, hv⟩ | ⟨v, rfl, hidle, hpending⟩ | rfl
      · exact ⟨l, .inl ⟨v, rfl, hv⟩⟩
      · exact ⟨l, .inr (.inl ⟨v, rfl, hidle, hpending⟩)⟩
      · exact ⟨l, .inr (.inr rfl)⟩

end Sys2Proof.Machine
end

section
/-! The host's accesses to the buffer memory and their hazards (20_memory.md R101, R118; 70_reset_and_hazards.md R357,
R358). -/

open Sys2Proof Sys2Proof.Claims

namespace Sys2Proof.Machine

/-! ## The footprint of the pending command (20_memory.md R118) -/

theorem readRegions_eq_readTable (s : State) (i : Instr) : readRegions s i = readTable s i := by
  cases i <;> rfl

theorem writeRegions_eq_writeTable (s : State) (i : Instr) : writeRegions s i = writeTable s i := by
  cases i with
  | ceEncode => rw [writeRegions, encodeEmits_eq]; rfl
  | ceFlush => rw [writeRegions, flushEmits_eq]; rfl
  | _ => rfl

theorem inRegions_iff {l : List Region} {a : Nat} : inRegions l a = true ↔ Touches l a := by
  simp only [inRegions, List.any_eq_true, decide_eq_true_eq]

theorem inPendingFootprint_iff {s : State} {a : Nat} : inPendingFootprint s a = true ↔
    ∃ w i, s.ctl.pending = some w ∧ decode w = .ok i ∧ Touches (readTable s i ++ writeTable s i) a := by
  unfold inPendingFootprint
  cases hp : s.ctl.pending with
  | none => simp
  | some w =>
    cases hw : decode w with
    | error r => simp [hw]
    | ok i => simp [hw, inRegions_iff, readRegions_eq_readTable, writeRegions_eq_writeTable]

theorem inPendingFootprint_eq_false {s : State} {a : Nat}
    (h : ∀ w i, s.ctl.pending = some w → decode w = .ok i → ¬ Touches (readTable s i ++ writeTable s i) a) :
    inPendingFootprint s a = false := by
  rw [Bool.eq_false_iff, Ne, inPendingFootprint_iff]
  rintro ⟨w, i, hw, hi, htouch⟩
  exact h w i hw hi htouch

/-- The output regions of the ACTIVE sessions (70_reset_and_hazards.md R358). -/
theorem inSessionOutput_iff {s : State} {a : Nat} : inSessionOutput s a = true ↔
    (s.ce.session = .active ∧ s.ce.lat.outBase.toNat ≤ a ∧ a < s.ce.lat.outBase.toNat + s.ce.lat.outLimit.toNat) ∨
    (s.vd.session = .active ∧ s.vd.lat.outBase.toNat ≤ a ∧ a < s.vd.lat.outBase.toNat + s.vd.lat.outLimit.toNat) := by
  simp only [inSessionOutput, Bool.or_eq_true, decide_eq_true_eq]

/-! ## The two accesses, one lemma per outcome -/

section
variable {s : State} {a : Nat} (v : Byte)

theorem memAccess_outside (h : 2 ^ s.params.addrW ≤ a) :
    hostAccess (.memRead a) s = .fault .noSuchAddress ∧ hostAccess (.memWrite a v) s = .fault .noSuchAddress := by
  have hout : inMemory s a = false := decide_eq_false (Nat.not_lt.2 h)
  simp [hostAccess, hout]

variable (h : a < 2 ^ s.params.addrW)
include h

theorem memAccess_pending (hp : inPendingFootprint s a = true) :
    hostAccess (.memRead a) s = .fault .pendingFootprint ∧
      hostAccess (.memWrite a v) s = .fault .pendingFootprint := by
  simp [hostAccess, inMemory, h, hp]

theorem memWrite_session (hp : inPendingFootprint s a = false) (ho : inSessionOutput s a = true) :
    hostAccess (.memWrite a v) s = .fault .sessionOutput := by
  simp [hostAccess, inMemory, h, hp, ho]

theorem memRead_free (hp : inPendingFootprint s a = false) :
    hostAccess (.memRead a) s = .next { s with host := { s.host with memData := Memory.read s.mem a } } := by
  simp [hostAccess, inMemory, h, hp]

theorem memWrite_free (hp : inPendingFootprint s a = false) (ho : inSessionOutput s a = false) :
    hostAccess (.memWrite a v) s = .next { s with mem := Memory.write s.mem a v } := by
  simp [hostAccess, inMemory, h, hp, ho]

end

/-- Settles O59: the model's footprint is the table of R118, and the tests of an access are made in the statement's order. -/
theorem hostMemoryAccessesAndHazards : Obligations.HostMemoryAccessesAndHazards := by
  refine fun s a v => ⟨memAccess_outside v, fun h => ⟨fun w i hw hi htouch => ?_, fun hfree hout => ?_, fun hfree =>
    ⟨?_, fun hce hvd => ?_⟩⟩⟩
  · exact memAccess_pending v h (inPendingFootprint_iff.2 ⟨w, i, hw, hi, htouch⟩)
  · exact memWrite_session v h (inPendingFootprint_eq_false hfree) (inSessionOutput_iff.2 hout)
  · exact memRead_free h (inPendingFootprint_eq_false hfree)
  · have hout : inSessionOutput s a = false := Bool.eq_false_iff.2 fun ho => (inSessionOutput_iff.1 ho).elim hce hvd
    exact ⟨_, memWrite_free v h (inPendingFootprint_eq_false hfree) hout, rfl, Memory.read_write_same _ _ _,
      fun b hb => Memory.read_write_ne _ _ hb⟩

end Sys2Proof.Machine
end

section
/-! The reset input and the machine after reset (70_reset_and_hazards.md R350, R351). -/

open Sys2Proof Sys2Proof.Claims

namespace Sys2Proof.Machine

/-- A polynomial register reads 0 after reset, implemented or not (10_state.md R50, R62). -/
theorem polyWord_zeros (p : Params) (n j : Nat) : polyWord p (List.replicate n 0) j = 0 := by
  rw [polyWord, List.getD_eq_getElem?_getD, List.getElem?_getD_replicate_default_eq, ite_self]

theorem crcMask_zero (c : CrcUnit) : crcMask c 0 = 0 := crcMask_of_lt (Nat.two_pow_pos _)

theorem hiWord_zero : hiWord 0 = 0 := by decide

/-- The value of each register after reset. -/
theorem readReg_powerReset (s : State) (r : Reg) : readReg (powerReset s) r = resetWord s.params r := by
  cases r with
  | status => exact BitVec.eq_of_toNat_eq (statusWord_toNat _)
  | irqEn => exact BitVec.eq_of_toNat_eq (irqEnWord_toNat _)
  | cePoly j | vdPoly j => exact polyWord_zeros ..
  | mxVecHi | mxResHi | bcInHi | bcOutHi | bcSynHi | bcMaskHi | buAHi | buBHi | buResHi | mgMaskHi => exact hiWord_zero
  | crcCfg => exact BitVec.eq_of_toNat_eq (crcCfgWord_toNat _)
  | crcAcc | crcResult => exact crcMask_zero _
  | mgState => exact BitVec.eq_of_toNat_eq (mgStateWord_toNat _)
  | _ => rfl

/-- Settles O60: every unit is at its value after reset, which each register shows. -/
theorem powerResetGivesEveryRegisterItsValue : Obligations.PowerResetGivesEveryRegisterItsValue :=
  fun s => ⟨powerReset s, rfl, rfl, rfl, rfl, rfl, rfl, rfl, rfl, rfl, rfl, rfl, readReg_powerReset s⟩

/-- The registers are 0, both sessions IDLE, and the generator is not VALID. -/
theorem resetWith_sound {p : Params} (hp : p.Legal) : Sound (State.resetWith p) := by
  have zero : (0#32).toNat < 2 ^ p.addrW := Nat.two_pow_pos _
  have idle {P : Prop} (h : Session.idle ≠ .idle) : P := absurd rfl h
  exact {
    params := hp
    memory := Memory.reset_wf
    space := nofun
    control := ⟨fun _ => ⟨rfl, rfl⟩, nofun, nofun⟩
    addresses := ⟨zero, zero, zero, zero, zero, zero, zero, zero, zero⟩
    encoder := ⟨idle, idle, idle, idle⟩
    decoder := ⟨idle, idle, idle, idle, idle, idle, idle, idle, idle, idle⟩
    maskGen := ⟨nofun, nofun, nofun, nofun, nofun⟩ }

/-- Settles O50: the default parameters are legal ones. -/
theorem resetIsSound : Obligations.ResetIsSound := ⟨fun _ => resetWith_sound, resetWith_sound (by decide)⟩

end Sys2Proof.Machine
end
